-- ==== Sys2Proof/Word.lean ====
section
/-! DEFINITION. The units of the machine: the byte, the flit (30_encoding R121) and the address. -/

namespace Sys2Proof

/-- One byte of ring space or buffer space (20_memory R80). -/
abbrev Byte := BitVec 8

/-- The "fixed 8-byte unit of descriptor/work-request encoding" (00_scope R7, R16). -/
abbrev Flit := BitVec 64

/-- A ring-space, buffer-space or MMIO address (20_memory R80). -/
abbrev Addr := BitVec 64

/-- How many byte addresses a 64-bit address space has (20_memory R80). -/
def addressLimit : Nat := 18446744073709551616

end Sys2Proof
end

