-- ==== Sys2Proof/Syntax.lean ====
section
/-! DEFINITION. The operands, the records and the instructions of the queue engine: one constructor of `Instr` for
every row of spec/opcode_table.json, and `Words`, the form in which the machine is handed an instruction. -/

namespace Sys2Proof

/-! ## Operands of the commands -/

/-- `iq.role` (10_state R41). -/
inductive Role where
  | direct
  | forwarder
  | forwarded
deriving DecidableEq, Repr, Inhabited

/-- `db_mech`, the notification mechanism fixed at creation (45_reclaim_doorbell R374, R375). -/
inductive DbMech where
  | reg
  | wcCopy
  | udbPage
deriving DecidableEq, Repr, Inhabited

/-- A ring that NOTIFY and DEV_STATUS act on: the free list of ingress queue `i`, or egress queue `i`. -/
inductive QRef where
  | fl (i : Nat)
  | eq (i : Nat)
deriving DecidableEq, Repr, Inhabited

/-- The creation arguments of CREATE_IQ (47_system R430). Those that the rule tests against a bound are naturals,
so that every value the rule refuses can be written. -/
structure CreateIqArgs where
  qid : Nat := 0
  base : Addr := 0
  cap : Nat := 0
  role : Role := .direct
  parent : Nat := 0
  budget : BitVec 16 := 0
  timerIdx : Nat := 0
  cntEn : Bool := false
  lro : Bool := false
deriving DecidableEq, Repr, Inhabited

/-- The creation arguments of CREATE_FL (47_system R431); `refillThresh` absent means `cap - 1`. -/
structure CreateFlArgs where
  qid : BitVec 16 := 0
  base : Addr := 0
  cap : Nat := 0
  packing : Bool := false
  maxp : BitVec 32 := 0
  lowat : Nat := 0
  refillThresh : Option Nat := none
  dbMech : DbMech := .reg
  udbAddr : Addr := 0
deriving DecidableEq, Repr, Inhabited

/-- The creation arguments of CREATE_EQ (47_system R432); `nmaps` absent means `cap`. -/
structure CreateEqArgs where
  qid : BitVec 16 := 0
  flowid : Nat := 0
  base : Addr := 0
  cap : Nat := 0
  resumeThreshold : Nat := 0
  coalesce : Bool := false
  nmaps : Option Nat := none
  dbMech : DbMech := .reg
  udbAddr : Addr := 0
  wcAddr : Addr := 0
deriving DecidableEq, Repr, Inhabited

/-- One buffer of a packet's chain, and one element of a scatter-gather list (43_egress_submit R300, 30_encoding R134). -/
structure PktSeg where
  addr : Addr
  len : BitVec 32
deriving DecidableEq, Repr, Inhabited

/-- A packet as the client hands it to SUBMIT (43_egress_submit R300). -/
structure Packet where
  handle : Nat := 0
  len : BitVec 32 := 0
  segs : List PktSeg := []
  tso : Bool := false
  l2len : BitVec 8 := 0
  l3len : BitVec 8 := 0
  l4len : BitVec 8 := 0
  mss : BitVec 16 := 0
  l3csum : Bool := false
  l4csum : Bool := false
  tcp : Bool := false
  vlan : Option (BitVec 16) := none
  forceSgl : Bool := false
deriving DecidableEq, Repr, Inhabited

/-- A segment of a logical frame (10_state R43): a heap copy, a counted reference into a buffer, a whole buffer. -/
inductive Segment where
  | copy (heap : Nat) (len : BitVec 32)
  | shared (buf : Nat) (off len : BitVec 32)
  | owned (buf : Nat) (off len : BitVec 32)
deriving DecidableEq, Repr, Inhabited

/-- The checksum and VLAN metadata of a frame (10_state R44). -/
structure FrameMeta where
  csumOk : Bool := false
  vlanValid : Bool := false
  vlanTag : BitVec 16 := 0
deriving DecidableEq, Repr, Inhabited

/-! ## Records the QE reads: ingress entries (30_encoding R123 to R129) -/

/-- The footer bits that every entry has beside `INFO` and `TYPE` (30_encoding R124): the generation bit and the
reserved fields, which are kept so that a record can be written back bit for bit and are read by nobody. -/
structure Footer where
  rsvdA : BitVec 24 := 0
  gen : Bool := false
  rsvdB : Bool := false
  rsvdC : BitVec 4 := 0
deriving DecidableEq, Repr, Inhabited

/-- An `IQE_RX` entry, `TYPE` = 0 (30_encoding R126). `opcode` is 0x20 in an `RX_PKT` message; an entry that has
another is still a receive entry, whose buffers are consumed before it is judged (42_ingress_service R253). -/
structure RxEntry where
  opcode : BitVec 8 := 0x20
  csumOk : Bool := false
  vlanValid : Bool := false
  rsvdM : BitVec 6 := 0
  vlanTag : BitVec 16 := 0
  msgLen : BitVec 32 := 0
  newbuf : Bool := false
  len : BitVec 31 := 0
  footer : Footer := {}
deriving DecidableEq, Repr, Inhabited

/-- An `IQE_OOB` entry that carries the egress-update message, opcode 0x21 (30_encoding R127). -/
structure EgrUpdateEntry where
  rsvdM : BitVec 8 := 0
  eqid : BitVec 16 := 0
  cidx : BitVec 16 := 0
  rsvdN : BitVec 16 := 0
  info : BitVec 32 := 0
  footer : Footer := {}
deriving DecidableEq, Repr, Inhabited

/-- An `IQE_OOB` entry with any other embedded opcode (30_encoding R128). -/
structure OobEntry where
  opcode : BitVec 8 := 0
  data : BitVec 56 := 0
  info : BitVec 32 := 0
  footer : Footer := {}
deriving DecidableEq, Repr, Inhabited

/-- An `IQE_FWD` entry (30_encoding R129). -/
structure FwdEntry where
  rsvdM : BitVec 64 := 0
  rsvdI : BitVec 20 := 0
  targetQid : BitVec 12 := 0
  footer : Footer := {}
deriving DecidableEq, Repr, Inhabited

/-- An entry of the reserved `TYPE` = 3 (30_encoding R125, R145). -/
structure ReservedEntry where
  msg : BitVec 64 := 0
  info : BitVec 32 := 0
  footer : Footer := {}
deriving DecidableEq, Repr, Inhabited

/-- An ingress entry by its response type (30_encoding R125). -/
inductive Entry where
  | rx (e : RxEntry)
  | egrUpdate (e : EgrUpdateEntry)
  | oob (e : OobEntry)
  | fwd (e : FwdEntry)
  | reserved (e : ReservedEntry)
deriving DecidableEq, Repr, Inhabited

/-! ## Records the QE writes (30_encoding R122, R130 to R143) -/

/-- The work-request header but for `WR_OP`, which the instruction's own constructor says (30_encoding R130). -/
structure WrHeader where
  npkt : BitVec 8 := 0
  immdlen : BitVec 16 := 0
  flowid : BitVec 24 := 0
  len16 : BitVec 8 := 0
  plen : BitVec 16 := 0
  rsvd : BitVec 48 := 0
deriving DecidableEq, Repr, Inhabited

/-- The segmentation-offload prefix (30_encoding R132). -/
structure Lso where
  rsvdA : BitVec 8 := 0
  l2len : BitVec 8 := 0
  l3len : BitVec 8 := 0
  l4len : BitVec 8 := 0
  rsvdB : BitVec 24 := 0
  mss : BitVec 16 := 0
  rsvdC : BitVec 16 := 0
  totalLen : BitVec 32 := 0
deriving DecidableEq, Repr, Inhabited

/-- The packet header flit (30_encoding R133). -/
structure Txpkt where
  l3CsumEn : Bool := false
  l4CsumEn : Bool := false
  vlanEn : Bool := false
  rsvd : BitVec 5 := 0
  vlanTag : BitVec 16 := 0
  pktLen : BitVec 32 := 0
deriving DecidableEq, Repr, Inhabited

/-- What follows a `TXPKT` flit: the packet's bytes inline, or its scatter-gather list (30_encoding R136). -/
inductive Payload where
  | imm (data : List Byte)
  | sgl (segs : List PktSeg)
deriving DecidableEq, Repr, Inhabited

/-- The parts of an `ETH_TX_PKT` request after its header (30_encoding R136). -/
structure PktBody where
  lso : Option Lso
  txpkt : Txpkt
  payload : Payload
deriving DecidableEq, Repr, Inhabited

/-- One packet's record in an `ETH_TX_PKTS` request (30_encoding R138). -/
structure PktRecord where
  txpkt : Txpkt
  segs : List PktSeg
deriving DecidableEq, Repr, Inhabited

/-- A free-list buffer-address entry (30_encoding R122): the address divided by 16, and the size class. -/
structure Fle where
  addrHi : BitVec 60 := 0
  hwidx : BitVec 4 := 0
deriving DecidableEq, Repr, Inhabited

/-- The doorbell word (30_encoding R140). -/
structure Dbw where
  qid : BitVec 16 := 0
  pidxInc : BitVec 16 := 0
deriving DecidableEq, Repr, Inhabited

/-- The ingress credit word (30_encoding R141). -/
structure Icw where
  iqid : BitVec 12 := 0
  timerIdx : BitVec 3 := 0
  cntEn : Bool := false
  cidxInc : BitVec 16 := 0
deriving DecidableEq, Repr, Inhabited

/-- Flit 0 of a status page (30_encoding R142). -/
structure Sp where
  rsvd : BitVec 16 := 0
  qid : BitVec 16 := 0
  cidx : BitVec 16 := 0
  pidx : BitVec 16 := 0
deriving DecidableEq, Repr, Inhabited

/-- The registers of the MMIO space that take a 32-bit word (20_memory R83). -/
inductive MmioReg where
  | db
  | icw
  | udb (addr : Addr)
deriving DecidableEq, Repr, Inhabited

/-- A register that takes a doorbell word: the shared register or a queue's own page (30_encoding R140). -/
inductive DoorbellReg where
  | db
  | udb (addr : Addr)
deriving DecidableEq, Repr, Inhabited

/-- One write to the MMIO space: a 32-bit word (20_memory R83) or the 64 bytes of a descriptor (R84). -/
inductive MmioWrite where
  | word (reg : MmioReg) (value : BitVec 32)
  | burst (window : Addr) (flits : List Flit)
deriving DecidableEq, Repr, Inhabited

/-! ## Instructions -/

/-- The instructions: one constructor for each row of spec/opcode_table.json, in the table's order. -/
inductive Instr where
  -- commands (30_encoding R144)
  | createIq (i : Nat) (a : CreateIqArgs)
  | createFl (i : Nat) (a : CreateFlArgs)
  | createEq (i : Nat) (a : CreateEqArgs)
  | teardownIq (i : Nat)
  | teardownEq (i : Nat)
  | timerTick
  | refill (i : Nat) (n : Nat)
  | frameRelease (seg : Segment)
  | interrupt (i : Nat)
  | service (i : Nat) (budget : BitVec 16)
  | deferredRun
  | submit (i : Nat) (pkt : Packet)
  | submitWr (i : Nat) (flits : List Flit)
  | txpktsFlush (i : Nat)
  | reclaim (i : Nat) (maxCredits : BitVec 16)
  | notify (q : QRef)
  -- the pseudo-command (30_encoding R148)
  | txDone (i : Nat)
  -- internal operations (30_encoding R144)
  | findBestRefillSource (maxp : BitVec 32) (packing : Bool)
  | findSafeRefillSource (packing : Bool)
  | consumeFrame (i : Nat) (totalLength : BitVec 31) (newbuf : Bool)
  | txpktsOpen (i : Nat)
  | txpktsAdd (i : Nat) (pkt : Packet)
  | resumeCheck (i : Nat) (hw : BitVec 16)
  -- ingress entries, dispatched in ingress queue `i` (30_encoding R123 to R129)
  | iqeRx (i : Nat) (e : RxEntry)
  | iqeEgrUpdate (i : Nat) (e : EgrUpdateEntry)
  | iqeOob (i : Nat) (e : OobEntry)
  | iqeFwd (i : Nat) (e : FwdEntry)
  | iqeReserved (i : Nat) (e : ReservedEntry)
  -- work requests, placed in egress queue `i`, for the packets named (30_encoding R130, R131)
  | ethTxPkt (i : Nat) (pkt : Nat) (h : WrHeader) (body : List Flit)
  | ethTxPkts (i : Nat) (pkts : List Nat) (h : WrHeader) (body : List Flit)
  | wrOpaque (i : Nat) (flits : List Flit)
  | wrReserved00 (i : Nat) (flits : List Flit)
  -- parts of a work request, at flit `k` of the request that begins at `eq.pidx` (30_encoding R132 to R136)
  | lso (i : Nat) (k : Nat) (r : Lso)
  | txpkt (i : Nat) (k : Nat) (r : Txpkt)
  | sgl (i : Nat) (k : Nat) (segs : List PktSeg)
  | immediateData (i : Nat) (k : Nat) (data : List Byte)
  -- the other records (30_encoding R122, R140 to R143)
  | fle (i : Nat) (r : Fle)
  | dbw (reg : DoorbellReg) (r : Dbw)
  | icw (r : Icw)
  | sp (q : QRef) (r : Sp)
  | wcBurst (window : Addr) (flits : List Flit)
  -- device steps (46_device_agent)
  | devDb (w : MmioWrite)
  | devFl (i : Nat) (idx : Nat)
  | devRx (i : Nat) (bytes : List Byte) (fm : FrameMeta) (skip : Bool)
  | devOob (i : Nat) (flit0 : Flit)
  | devFwd (parent target : Nat)
  | devTx (i : Nat)
  | devStatus (q : QRef)
  | devIntr (i : Nat)
deriving DecidableEq, Repr, Inhabited

/-- The kinds of rows of spec/opcode_table.json (30_encoding R120, R144, R148, 46_device_agent R400). -/
inductive Space where
  | command
  | pseudo
  | internal
  | entry
  | request
  | part
  | record
  | device
deriving DecidableEq, Repr

/-- The kind of an instruction's row. -/
def Instr.space : Instr → Space
  | .createIq _ _ | .createFl _ _ | .createEq _ _ | .teardownIq _ | .teardownEq _ | .timerTick | .refill _ _
  | .frameRelease _ | .interrupt _ | .service _ _ | .deferredRun | .submit _ _ | .submitWr _ _ | .txpktsFlush _
  | .reclaim _ _ | .notify _ => .command
  | .txDone _ => .pseudo
  | .findBestRefillSource _ _ | .findSafeRefillSource _ | .consumeFrame _ _ _ | .txpktsOpen _ | .txpktsAdd _ _
  | .resumeCheck _ _ => .internal
  | .iqeRx _ _ | .iqeEgrUpdate _ _ | .iqeOob _ _ | .iqeFwd _ _ | .iqeReserved _ _ => .entry
  | .ethTxPkt _ _ _ _ | .ethTxPkts _ _ _ _ | .wrOpaque _ _ | .wrReserved00 _ _ => .request
  | .lso _ _ _ | .txpkt _ _ _ | .sgl _ _ _ | .immediateData _ _ _ => .part
  | .fle _ _ | .dbw _ _ | .icw _ | .sp _ _ | .wcBurst _ _ => .record
  | .devDb _ | .devFl _ _ | .devRx _ _ _ _ | .devOob _ _ | .devFwd _ _ | .devTx _ | .devStatus _ | .devIntr _ => .device

/-- Whether a row of this kind has an encoding of its own. -/
def Space.encoded : Space → Bool
  | .command | .entry | .request | .part | .record => true
  | .pseudo | .internal | .device => false

/-! ## What the machine is handed -/

/-- The typed operands of a command. "the operands are typed values and have no bit layout" (30_encoding R120). -/
inductive Operands where
  | none
  | queue (i : Nat)
  | createIq (i : Nat) (a : CreateIqArgs)
  | createFl (i : Nat) (a : CreateFlArgs)
  | createEq (i : Nat) (a : CreateEqArgs)
  | count (i : Nat) (n : Nat)
  | bound (i : Nat) (n : BitVec 16)
  | segment (seg : Segment)
  | packet (i : Nat) (pkt : Packet)
  | flits (i : Nat) (fs : List Flit)
  | ring (q : QRef)
deriving DecidableEq, Repr, Inhabited

/-- The words of an instruction: a command as its code and operands (30_encoding R120 (a)); a record as its bytes,
with the place it stands in, since "the window's address", the register written or the ring a record stands in is
what tells one record from another (R143, R140, R141); an operation or a device step with no encoding as itself. -/
inductive Words where
  | command (code : BitVec 8) (ops : Operands)
  /-- 16 bytes in ingress queue `i`'s ring. -/
  | entry (i : Nat) (bytes : List Byte)
  /-- A work request for egress queue `i`, with the handles of the packets it sends. -/
  | request (i : Nat) (pkts : List Nat) (bytes : List Byte)
  /-- A part of a work request that its own `SUB_OP` names, at flit `k`. -/
  | part (i : Nat) (k : Nat) (bytes : List Byte)
  /-- Immediate data, `len` bytes and their padding: it has no `SUB_OP`, its length is in the header. -/
  | immediate (i : Nat) (k : Nat) (len : Nat) (bytes : List Byte)
  | freeListEntry (i : Nat) (bytes : List Byte)
  | statusPage (q : QRef) (bytes : List Byte)
  | regWrite (reg : MmioReg) (value : BitVec 32)
  | burst (window : Addr) (bytes : List Byte)
  | unencoded (i : Instr)
deriving DecidableEq, Repr, Inhabited

end Sys2Proof
end

