-- ==== Sys2Proof/Config.lean ====
section
/-! DEFINITION. The configuration record of the queue engine (00_scope R7 to R11) and the free values: constants
without a body, for what the spec leaves open. -/

namespace Sys2Proof

/-- The immutable configuration record `cfg` (00_scope R8, R10). The defaults are those of R10. -/
structure Cfg where
  padBoundary : Nat
  packBoundary : Nat
  bufferSizes : List Nat
  coalesceTimers : List Nat
  interruptThresholds : List Nat
  congestionPolicy : Nat
  /-- `IDX_BITS`. The rules give the layout of rings and records for the defaults of this field and the four after it
  (10_state R21, R22, 20_memory R91), so the creation commands refuse any other value (log 2). -/
  idxBits : Nat := 16
  flSlotFlits : Nat := 1
  iqEntryFlits : Nat := 2
  eqDescFlits : Nat := 8
  spFlits : Nat := 8
  ringAlign : Nat := 64
  wrMaxFlits : Nat := 64
  txpktsMaxPkts : Nat := 15
  txpktsLenBits : Nat := 16
  txpktsSmallMax : Nat := 65535
  sglMaxSegs : Nat := 39
  immMaxBytes : Nat := (wrMaxFlits - 3) * 8
  csumMinFrame : Nat
  rxCopyThreshold : Nat
  serviceRefillMax : Nat := 32
  fwdBudgetDiv : Nat := 8
  eqDbBatch : Nat := 8
  egrReclaimBatch : Nat := 32
  metaBytes : Nat := 16
  embedBytes : Nat := 0
  zoneSizes : List Nat
  safeZone : Nat := 0
  dbIncMax : Nat := 65535
  /-- The opcodes the platform registered an external handler for (30_encoding R137). -/
  handlers : List (BitVec 8)
  /-- `gen_check(iq, f0, f1)`, "false everywhere by default" (60_exceptions R456, 93_implementation_defined W2): the
  queue's `qid` and the entry's two flits where a platform's test is true (log 29). -/
  genCheck : List (BitVec 12 × Flit × Flit) := []
  tick : Nat
  niq : Nat
  neq : Nat
deriving DecidableEq, Repr, Inhabited

namespace Config

/-- The test configuration of 95_test_vectors section 2. DESIGN CHOICE (log 2, log 3): it is the configuration of
`State.reset`; the numbers of queues, 16 and 16, are in no source. -/
def testConfiguration : Cfg where
  padBoundary := 32
  packBoundary := 64
  bufferSizes := [2048, 4096, 9216, 16384, 4032, 16320]
  coalesceTimers := [0, 0, 0, 0, 0, 0]
  interruptThresholds := []
  congestionPolicy := 0
  csumMinFrame := 64
  rxCopyThreshold := 128
  zoneSizes := [2048, 4096, 9216, 16384]
  safeZone := 1
  handlers := [0x35]
  tick := 0
  niq := 16
  neq := 16

/-- The answer of the `n`th `ZoneAlloc` whose answer no input gives: a buffer's base, or none (10_state R63, log 5). -/
opaque zoneAnswer : Nat → Option Addr

/-- Whether the `n`th `HeapAlloc` whose answer no input gives succeeds (10_state R63, log 5). -/
opaque heapAnswer : Nat → Bool

/-- The token of the `n`th `DmaMap` whose answer no input gives (10_state R63, log 5). -/
opaque mapAnswer : Nat → Nat

/-- The chain, or the failure, of the `n`th `Compact` whose answer no input gives (10_state R63, log 5, log 21). -/
opaque compactAnswer : Nat → Option (List PktSeg)

/-- The bytes the `n`th `SwChecksum` whose answer no input gives writes: offsets in the packet and values
(10_state R63, log 5, log 20). -/
opaque checksumAnswer : Nat → List (Nat × Byte)

/-- Which of several live queues with one identifier or window the device takes an MMIO write for (log 12). -/
opaque sharedIdentifier : Nat → Nat

/-- `armed` after the device sees the reserved `TIMER_IDX` = 6, by the word (93_implementation_defined V8, log 24). -/
opaque reservedTimerArmed : Nat → Bool

end Config

end Sys2Proof
end

