-- ==== Sys2Proof/Decode.lean ====
section
/-! DEFINITION. The decoder and, after it, the encoder of every record and command (30_encoding), both written from
the layout tables of the spec; the byte order of a flit (20_memory R85) and the index of the table's own words. -/

namespace Sys2Proof

/-! ## Arithmetic of the notation -/

/-- `ceil_div` (00_scope R13). -/
def ceilDiv (a b : Nat) : Nat := (a + b - 1) / b

/-- `roundup` (00_scope R13). -/
def roundup (a b : Nat) : Nat := ceilDiv a b * b

/-- The bit field `v[lo + w - 1 : lo]` (00_scope R12). -/
def field (v : Flit) (lo w : Nat) : BitVec w := v.extractLsb' lo w

/-! ## Bytes and flits -/

/-- The eight bytes of a flit, most significant first: "bits 63 to 56 are the byte at the lowest address"
(20_memory R85). -/
def flitBytes (f : Flit) : List Byte :=
  [field f 56 8, field f 48 8, field f 40 8, field f 32 8, field f 24 8, field f 16 8, field f 8 8, field f 0 8]

/-- The flit whose bytes from the lowest address are those given (20_memory R85). -/
def flitOf (b0 b1 b2 b3 b4 b5 b6 b7 : Byte) : Flit := b0 ++ b1 ++ b2 ++ b3 ++ b4 ++ b5 ++ b6 ++ b7

/-- The bytes of consecutive flits. -/
def bytesOfFlits (fs : List Flit) : List Byte := fs.flatMap flitBytes

/-- Bytes read as flits; none when they are no whole number of flits (30_encoding R121). -/
def flitsOfBytes : List Byte → Option (List Flit)
  | [] => some []
  | b0 :: b1 :: b2 :: b3 :: b4 :: b5 :: b6 :: b7 :: rest =>
    (flitsOfBytes rest).map (flitOf b0 b1 b2 b3 b4 b5 b6 b7 :: ·)
  | _ => none

/-- Bytes packed into flits, "the last flit's unused bytes zero" (30_encoding R136, 43_egress_submit R312). -/
def packBytes : List Byte → List Flit
  | [] => []
  | b0 :: b1 :: b2 :: b3 :: b4 :: b5 :: b6 :: b7 :: rest => flitOf b0 b1 b2 b3 b4 b5 b6 b7 :: packBytes rest
  | [b0] => [flitOf b0 0 0 0 0 0 0 0]
  | [b0, b1] => [flitOf b0 b1 0 0 0 0 0 0]
  | [b0, b1, b2] => [flitOf b0 b1 b2 0 0 0 0 0]
  | [b0, b1, b2, b3] => [flitOf b0 b1 b2 b3 0 0 0 0]
  | [b0, b1, b2, b3, b4] => [flitOf b0 b1 b2 b3 b4 0 0 0]
  | [b0, b1, b2, b3, b4, b5] => [flitOf b0 b1 b2 b3 b4 b5 0 0]
  | [b0, b1, b2, b3, b4, b5, b6] => [flitOf b0 b1 b2 b3 b4 b5 b6 0]

/-- The top byte of a flit: `WR_OP`, `SUB_OP` and `OPCODE` stand there (30_encoding R126, R130, R132). -/
def topByte (f : Flit) : BitVec 8 := field f 56 8

/-! ## Decoding of records -/

/-- `GEN` of a footer (30_encoding R124). -/
def footerGen (f1 : Flit) : Bool := f1.getLsbD 7

/-- The footer bits beside `INFO` and `TYPE` (30_encoding R124). -/
def decodeFooter (f1 : Flit) : Footer where
  rsvdA := field f1 8 24
  gen := footerGen f1
  rsvdB := f1.getLsbD 6
  rsvdC := field f1 0 4

/-- An ingress entry from its two flits, by `TYPE` and then by the message's opcode (30_encoding R123 to R129). Every
pair of flits is an entry. -/
def decodeEntry (f0 f1 : Flit) : Entry :=
  if field f1 4 2 = 0 then
    .rx { opcode := topByte f0, csumOk := f0.getLsbD 55, vlanValid := f0.getLsbD 54, rsvdM := field f0 48 6,
          vlanTag := field f0 32 16, msgLen := field f0 0 32, newbuf := f1.getLsbD 63, len := field f1 32 31,
          footer := decodeFooter f1 }
  else if field f1 4 2 = 1 then
    if topByte f0 = 0x21 then
      .egrUpdate { rsvdM := field f0 48 8, eqid := field f0 32 16, cidx := field f0 16 16, rsvdN := field f0 0 16,
                   info := field f1 32 32, footer := decodeFooter f1 }
    else
      .oob { opcode := topByte f0, data := field f0 0 56, info := field f1 32 32, footer := decodeFooter f1 }
  else if field f1 4 2 = 2 then
    .fwd { rsvdM := f0, rsvdI := field f1 44 20, targetQid := field f1 32 12, footer := decodeFooter f1 }
  else
    .reserved { msg := f0, info := field f1 32 32, footer := decodeFooter f1 }

/-- The work-request header but for `WR_OP` (30_encoding R130). -/
def decodeHeader (f0 f1 : Flit) : WrHeader where
  npkt := field f0 48 8
  immdlen := field f0 32 16
  flowid := field f0 8 24
  len16 := field f0 0 8
  plen := field f1 48 16
  rsvd := field f1 0 48

/-- The segmentation-offload prefix (30_encoding R132). -/
def decodeLso (f0 f1 : Flit) : Lso where
  rsvdA := field f0 48 8
  l2len := field f0 40 8
  l3len := field f0 32 8
  l4len := field f0 24 8
  rsvdB := field f0 0 24
  mss := field f1 48 16
  rsvdC := field f1 32 16
  totalLen := field f1 0 32

/-- The packet header flit (30_encoding R133). -/
def decodeTxpkt (f : Flit) : Txpkt where
  l3CsumEn := f.getLsbD 55
  l4CsumEn := f.getLsbD 54
  vlanEn := f.getLsbD 53
  rsvd := field f 48 5
  vlanTag := field f 32 16
  pktLen := field f 0 32

/-- The segments after the first, two to a length flit, and the flits left over (30_encoding R134). -/
def decodePairs : Nat → List Flit → Option (List PktSeg × List Flit)
  | 0, fs => some ([], fs)
  | 1, l :: a :: fs => some ([⟨a, field l 32 32⟩], fs)
  | n + 2, l :: a :: b :: fs =>
    (decodePairs n fs).map fun r => (⟨a, field l 32 32⟩ :: ⟨b, field l 0 32⟩ :: r.1, r.2)
  | _, _ => none

/-- A scatter-gather list and the flits left over: "Decoding reads `NSGE`, then walks the same structure"
(30_encoding R134). -/
def decodeSgl : List Flit → Option (List PktSeg × List Flit)
  | f0 :: a0 :: fs =>
    if topByte f0 = 0x12 ∧ field f0 32 16 ≠ 0 then
      (decodePairs ((field f0 32 16).toNat - 1) fs).map fun r => (⟨a0, field f0 0 32⟩ :: r.1, r.2)
    else none
  | _ => none

/-- What may follow the last part of a request: nothing, or the one zero flit of 30_encoding R139. That the flit stands
only after an odd number of flits is `spells`' to check. -/
def onlyPadding (fs : List Flit) : Bool := fs = [] || fs = [0]

/-- The payload after the `TXPKT` flit, by the count of immediate bytes that `IMMDLEN` leaves once the `hb` header
bytes are taken off (30_encoding R136). -/
def decodePayload (immdlen hb : Nat) (fs : List Flit) : Option Payload :=
  if immdlen < hb then none
  else if immdlen = hb then
    match decodeSgl fs with
    | some (segs, rest) => if onlyPadding rest then some (.sgl segs) else none
    | none => none
  else
    let n := immdlen - hb
    let data := (bytesOfFlits fs).take n
    if data.length = n ∧ fs.take (ceilDiv n 8) = packBytes data ∧ onlyPadding (fs.drop (ceilDiv n 8)) then
      some (.imm data)
    else none

/-- The parts of an `ETH_TX_PKT` request after its header: "A decoder reads flit 2" (30_encoding R136). -/
def decodePktBody (h : WrHeader) : List Flit → Option PktBody
  | [] => none
  | f :: fs =>
    if topByte f = 0x10 then
      match fs with
      | g :: t :: rest =>
        if topByte t = 0x11 then
          (decodePayload h.immdlen.toNat 24 rest).map fun p => ⟨some (decodeLso f g), decodeTxpkt t, p⟩
        else none
      | _ => none
    else if topByte f = 0x11 then
      (decodePayload h.immdlen.toNat 8 fs).map fun p => ⟨none, decodeTxpkt f, p⟩
    else none

/-- The packet records of an `ETH_TX_PKTS` request: "Each packet's record is self-delimiting through its `NSGE`"
(30_encoding R138). -/
def decodeRecords : Nat → List Flit → Option (List PktRecord)
  | 0, fs => if onlyPadding fs then some [] else none
  | n + 1, t :: fs =>
    if topByte t = 0x11 then
      match decodeSgl fs with
      | some (segs, rest) => (decodeRecords n rest).map (⟨decodeTxpkt t, segs⟩ :: ·)
      | none => none
    else none
  | _ + 1, [] => none

/-- A free-list entry (30_encoding R122). -/
def decodeFle (f : Flit) : Fle := ⟨field f 4 60, field f 0 4⟩

/-- A doorbell word (30_encoding R140). -/
def decodeDbw (w : BitVec 32) : Dbw := ⟨w.extractLsb' 16 16, w.extractLsb' 0 16⟩

/-- An ingress credit word (30_encoding R141). -/
def decodeIcw (w : BitVec 32) : Icw := ⟨w.extractLsb' 20 12, w.extractLsb' 17 3, w.getLsbD 16, w.extractLsb' 0 16⟩

/-- Flit 0 of a status page (30_encoding R142). -/
def decodeSp (f : Flit) : Sp := ⟨field f 48 16, field f 32 16, field f 16 16, field f 0 16⟩

/-! ## Decoding of instructions -/

/-- Why words are no instruction. -/
inductive DecodeError where
  /-- a command code not in 30_encoding R144 -/
  | unknownCode (code : BitVec 8)
  /-- operands of another command -/
  | wrongOperands (code : BitVec 8)
  /-- bytes that are no whole number of flits, or not the record's length -/
  | wrongLength
  /-- a request whose packet handles do not fit its opcode -/
  | wrongPackets
  /-- a `SUB_OP` that is none of 0x10, 0x11, 0x12 -/
  | unknownSubOp (op : BitVec 8)
  /-- a scatter-gather list that does not end where its bytes end, or of no segment -/
  | malformedList
  /-- immediate data whose unused bytes are not zero -/
  | malformedData
  /-- an instruction that has an encoding, handed over without it -/
  | hasEncoding
deriving DecidableEq, Repr

/-- A command from its code and operands; "a decoder matches the whole byte" (30_encoding R144). -/
def decodeCommand (code : BitVec 8) (ops : Operands) : Except DecodeError Instr :=
  if code = 0x01 then (match ops with | .createIq i a => .ok (.createIq i a) | _ => .error (.wrongOperands code))
  else if code = 0x02 then (match ops with | .createFl i a => .ok (.createFl i a) | _ => .error (.wrongOperands code))
  else if code = 0x03 then (match ops with | .createEq i a => .ok (.createEq i a) | _ => .error (.wrongOperands code))
  else if code = 0x04 then (match ops with | .queue i => .ok (.teardownIq i) | _ => .error (.wrongOperands code))
  else if code = 0x05 then (match ops with | .queue i => .ok (.teardownEq i) | _ => .error (.wrongOperands code))
  else if code = 0x06 then (match ops with | .none => .ok .timerTick | _ => .error (.wrongOperands code))
  else if code = 0x10 then (match ops with | .count i n => .ok (.refill i n) | _ => .error (.wrongOperands code))
  else if code = 0x20 then (match ops with | .segment s => .ok (.frameRelease s) | _ => .error (.wrongOperands code))
  else if code = 0x30 then (match ops with | .queue i => .ok (.interrupt i) | _ => .error (.wrongOperands code))
  else if code = 0x31 then (match ops with | .bound i n => .ok (.service i n) | _ => .error (.wrongOperands code))
  else if code = 0x32 then (match ops with | .none => .ok .deferredRun | _ => .error (.wrongOperands code))
  else if code = 0x40 then (match ops with | .packet i p => .ok (.submit i p) | _ => .error (.wrongOperands code))
  else if code = 0x41 then (match ops with | .flits i fs => .ok (.submitWr i fs) | _ => .error (.wrongOperands code))
  else if code = 0x42 then (match ops with | .queue i => .ok (.txpktsFlush i) | _ => .error (.wrongOperands code))
  else if code = 0x50 then (match ops with | .bound i n => .ok (.reclaim i n) | _ => .error (.wrongOperands code))
  else if code = 0x51 then (match ops with | .ring q => .ok (.notify q) | _ => .error (.wrongOperands code))
  else .error (.unknownCode code)

/-- An ingress entry from the bytes of its two flits. -/
def decodeEntryBytes (i : Nat) (bytes : List Byte) : Except DecodeError Instr :=
  match flitsOfBytes bytes with
  | some [f0, f1] =>
    match decodeEntry f0 f1 with
    | .rx e => .ok (.iqeRx i e)
    | .egrUpdate e => .ok (.iqeEgrUpdate i e)
    | .oob e => .ok (.iqeOob i e)
    | .fwd e => .ok (.iqeFwd i e)
    | .reserved e => .ok (.iqeReserved i e)
  | _ => .error .wrongLength

/-- A work request from its bytes, by `WR_OP` (30_encoding R131). -/
def decodeRequest (i : Nat) (pkts : List Nat) (bytes : List Byte) : Except DecodeError Instr :=
  match flitsOfBytes bytes with
  | some (f0 :: fs) =>
    if topByte f0 = 0x00 then (if pkts = [] then .ok (.wrReserved00 i (f0 :: fs)) else .error .wrongPackets)
    else if topByte f0 = 0x01 then
      (match fs, pkts with
       | f1 :: body, [p] => .ok (.ethTxPkt i p (decodeHeader f0 f1) body)
       | _ :: _, _ => .error .wrongPackets
       | [], _ => .error .wrongLength)
    else if topByte f0 = 0x02 then
      (match fs with
       | f1 :: body => .ok (.ethTxPkts i pkts (decodeHeader f0 f1) body)
       | [] => .error .wrongLength)
    else (if pkts = [] then .ok (.wrOpaque i (f0 :: fs)) else .error .wrongPackets)
  | _ => .error .wrongLength

/-- A part of a work request from its bytes, by `SUB_OP` (30_encoding R132 to R134). DESIGN CHOICE: the `rsvd0` bits of a
list are ignored, as R121 has it of "whoever reads it", where a decoder may refuse them (93_implementation_defined V7,
log 11). -/
def decodePart (i k : Nat) (bytes : List Byte) : Except DecodeError Instr :=
  match flitsOfBytes bytes with
  | some (f :: fs) =>
    if topByte f = 0x10 then (match fs with | [g] => .ok (.lso i k (decodeLso f g)) | _ => .error .wrongLength)
    else if topByte f = 0x11 then (match fs with | [] => .ok (.txpkt i k (decodeTxpkt f)) | _ => .error .wrongLength)
    else if topByte f = 0x12 then
      (match decodeSgl (f :: fs) with
       | some (segs, []) => .ok (.sgl i k segs)
       | _ => .error .malformedList)
    else .error (.unknownSubOp (topByte f))
  | _ => .error .wrongLength

/-- Immediate data: `len` bytes and the zero bytes up to a whole flit (30_encoding R136). -/
def decodeImmediate (i k len : Nat) (bytes : List Byte) : Except DecodeError Instr :=
  if bytes.length = 8 * ceilDiv len 8 then
    if (bytes.drop len).all (· = 0) then .ok (.immediateData i k (bytes.take len)) else .error .malformedData
  else .error .wrongLength

/-- The decoder: total on any words; what is no instruction is rejected by name. -/
def decode : Words → Except DecodeError Instr
  | .command code ops => decodeCommand code ops
  | .entry i bytes => decodeEntryBytes i bytes
  | .request i pkts bytes => decodeRequest i pkts bytes
  | .part i k bytes => decodePart i k bytes
  | .immediate i k len bytes => decodeImmediate i k len bytes
  | .freeListEntry i bytes =>
    match flitsOfBytes bytes with
    | some [f] => .ok (.fle i (decodeFle f))
    | _ => .error .wrongLength
  | .statusPage q bytes =>
    match flitsOfBytes bytes with
    | some [f] => .ok (.sp q (decodeSp f))
    | _ => .error .wrongLength
  | .regWrite .db w => .ok (.dbw .db (decodeDbw w))
  | .regWrite (.udb a) w => .ok (.dbw (.udb a) (decodeDbw w))
  | .regWrite .icw w => .ok (.icw (decodeIcw w))
  | .burst a bytes =>
    match flitsOfBytes bytes with
    | some fs => if fs.length = 8 then .ok (.wcBurst a fs) else .error .wrongLength
    | none => .error .wrongLength
  | .unencoded i => if i.space.encoded then .error .hasEncoding else .ok i

/-! ## Encoding of records -/

/-- A one-bit field (00_scope R12). -/
def bit (b : Bool) : BitVec 1 := BitVec.ofBool b

/-- A footer from `INFO`, `TYPE` and the rest (30_encoding R124). -/
def encodeFooter (info : BitVec 32) (type : BitVec 2) (f : Footer) : Flit :=
  info ++ f.rsvdA ++ bit f.gen ++ bit f.rsvdB ++ type ++ f.rsvdC

/-- The two flits of a receive entry (30_encoding R126). -/
def encodeRx (e : RxEntry) : Flit × Flit :=
  (e.opcode ++ bit e.csumOk ++ bit e.vlanValid ++ e.rsvdM ++ e.vlanTag ++ e.msgLen,
   encodeFooter (bit e.newbuf ++ e.len) 0 e.footer)

/-- The two flits of an egress-update entry (30_encoding R127). -/
def encodeEgrUpdate (e : EgrUpdateEntry) : Flit × Flit :=
  ((0x21 : BitVec 8) ++ e.rsvdM ++ e.eqid ++ e.cidx ++ e.rsvdN, encodeFooter e.info 1 e.footer)

/-- The two flits of an out-of-band entry (30_encoding R128). -/
def encodeOob (e : OobEntry) : Flit × Flit := (e.opcode ++ e.data, encodeFooter e.info 1 e.footer)

/-- The two flits of a forwarded-interrupt entry (30_encoding R129). -/
def encodeFwd (e : FwdEntry) : Flit × Flit := (e.rsvdM, encodeFooter (e.rsvdI ++ e.targetQid) 2 e.footer)

/-- The two flits of an entry of the reserved type (30_encoding R125). -/
def encodeReserved (e : ReservedEntry) : Flit × Flit := (e.msg, encodeFooter e.info 3 e.footer)

/-- The two flits of an ingress entry (30_encoding R123). -/
def encodeEntry : Entry → Flit × Flit
  | .rx e => encodeRx e
  | .egrUpdate e => encodeEgrUpdate e
  | .oob e => encodeOob e
  | .fwd e => encodeFwd e
  | .reserved e => encodeReserved e

/-- The two header flits of a work request with this `WR_OP` (30_encoding R130). -/
def encodeHeader (op : BitVec 8) (h : WrHeader) : List Flit :=
  [op ++ h.npkt ++ h.immdlen ++ h.flowid ++ h.len16, h.plen ++ h.rsvd]

/-- The two flits of the segmentation-offload prefix (30_encoding R132). -/
def encodeLso (r : Lso) : List Flit :=
  [(0x10 : BitVec 8) ++ r.rsvdA ++ r.l2len ++ r.l3len ++ r.l4len ++ r.rsvdB, r.mss ++ r.rsvdC ++ r.totalLen]

/-- The packet header flit (30_encoding R133). -/
def encodeTxpkt (r : Txpkt) : Flit :=
  (0x11 : BitVec 8) ++ bit r.l3CsumEn ++ bit r.l4CsumEn ++ bit r.vlanEn ++ r.rsvd ++ r.vlanTag ++ r.pktLen

/-- The segments after the first, two to a length flit; a last single one has zeros beside its length
(30_encoding R134). -/
def encodePairs : List PktSeg → List Flit
  | [] => []
  | [s] => [s.len ++ (0 : BitVec 32), s.addr]
  | s :: t :: rest => (s.len ++ t.len) :: s.addr :: t.addr :: encodePairs rest

/-- A scatter-gather list (30_encoding R134). -/
def encodeSgl : List PktSeg → List Flit
  | [] => []
  | s :: rest =>
    ((0x12 : BitVec 8) ++ (0 : BitVec 8) ++ BitVec.ofNat 16 (rest.length + 1) ++ s.len) :: s.addr :: encodePairs rest

/-- `sgl_flits` (30_encoding R135). -/
def sglFlits (n : Nat) : Nat := 2 + 3 * ((n - 1) / 2) + 2 * ((n - 1) % 2)

/-- A free-list entry (30_encoding R122). -/
def encodeFle (r : Fle) : Flit := r.addrHi ++ r.hwidx

/-- A doorbell word (30_encoding R140). -/
def encodeDbw (r : Dbw) : BitVec 32 := r.qid ++ r.pidxInc

/-- An ingress credit word (30_encoding R141). -/
def encodeIcw (r : Icw) : BitVec 32 := r.iqid ++ r.timerIdx ++ bit r.cntEn ++ r.cidxInc

/-- Flit 0 of a status page (30_encoding R142). -/
def encodeSp (r : Sp) : Flit := r.rsvd ++ r.qid ++ r.cidx ++ r.pidx

/-! ## Assembly of work requests -/

/-- The header of an `ETH_TX_PKT` request of these parts: `IMMDLEN` "counts the bytes after the `WRH` that are not the
`SGL`", and `LEN16 = ceil_div(f, 2)` (30_encoding R136, R139). DESIGN CHOICE: where the configuration lets a request outgrow
a field, the field is truncated (log 41). -/
def pktHeader (flowid : BitVec 24) (b : PktBody) : WrHeader :=
  let hb := if b.lso.isSome then 24 else 8
  match b.payload with
  | .imm data =>
    { immdlen := BitVec.ofNat 16 (hb + data.length), flowid,
      len16 := BitVec.ofNat 8 (ceilDiv (2 + hb / 8 + ceilDiv data.length 8) 2) }
  | .sgl segs =>
    { immdlen := BitVec.ofNat 16 hb, flowid, len16 := BitVec.ofNat 8 (ceilDiv (2 + hb / 8 + sglFlits segs.length) 2) }

/-- The flits after the header of an `ETH_TX_PKT` request, in flit order (30_encoding R136). -/
def encodePktBody (b : PktBody) : List Flit :=
  (match b.lso with | some r => encodeLso r | none => []) ++ encodeTxpkt b.txpkt ::
    (match b.payload with | .imm data => packBytes data | .sgl segs => encodeSgl segs)

/-- One packet's record in a coalesced request: the `TXPKT` flit, then its list (30_encoding R138). -/
def encodeRecord (r : PktRecord) : List Flit := encodeTxpkt r.txpkt :: encodeSgl r.segs

/-- The header of an `ETH_TX_PKTS` request of `f` flits (30_encoding R138, R139). DESIGN CHOICE: `LEN16` of a request of
more than 510 flits is truncated (log 41). -/
def pktsHeader (flowid : BitVec 24) (npkt f plen : Nat) : WrHeader :=
  { npkt := BitVec.ofNat 8 npkt, immdlen := 0, flowid, len16 := BitVec.ofNat 8 (ceilDiv f 2), plen := BitVec.ofNat 16 plen }

/-! ## The requests that are written -/

/-- The reserved fields are zero, as "whoever writes the record" writes them (30_encoding R121). -/
def Lso.clean (r : Lso) : Bool := r.rsvdA = 0 && r.rsvdB = 0 && r.rsvdC = 0

/-- The reserved fields are zero, as "whoever writes the record" writes them (30_encoding R121). -/
def Txpkt.clean (r : Txpkt) : Bool := r.rsvd = 0

/-- The flits after the two of the header are those of the encoding, so that no reserved bit is set; one zero flit may
follow "if a request's flit count `f` is odd" (30_encoding R139). -/
def spells (fs canonical : List Flit) : Bool :=
  fs = canonical || (canonical.length % 2 = 1 && fs = canonical ++ [0])

/-- Immediate data is the packet's bytes, `IMMDLEN = 8 + pkt.len`, and never follows an `LSO` prefix: "never combined"
(30_encoding R136). DESIGN CHOICE: `PKT_LEN` 0 or other than the sum of a list's lengths, `TOTAL_LEN` other than `PKT_LEN`,
and `MSS` 0, of which no rule says that a request standing alone is refused, are taken (log 11). -/
def PktBody.assembled (b : PktBody) : Bool :=
  b.txpkt.clean && (match b.lso with | some r => r.clean | none => true) &&
    (match b.payload with
     | .imm data => b.lso = none && data.length = b.txpkt.pktLen.toNat
     | .sgl _ => true)

/-- The parts of an `ETH_TX_PKT` request that the rules write: its length is in `LEN16`, and the fields of a coalesced
request are 0 (30_encoding R121, R130, R136, R139). What else of them is not tested is the model's choice (log 11). -/
def pktParts (h : WrHeader) (body : List Flit) : Option PktBody :=
  (decodePktBody h body).filter fun b =>
    b.assembled && spells body (encodePktBody b) && h.len16.toNat = ceilDiv (2 + body.length) 2 && h.npkt = 0 &&
      h.plen = 0 && h.rsvd = 0

/-- The sum of the packets' lengths (30_encoding R138). -/
def recordsLen (rs : List PktRecord) : Nat := (rs.map fun r => r.txpkt.pktLen.toNat).sum

/-- The records of an `ETH_TX_PKTS` request that the rules write: one at least, `PLEN` the sum of their lengths
(30_encoding R121, R138, R139). A packet's `PKT_LEN` is not held against its list, which is the model's choice
(log 11). -/
def pktsParts (h : WrHeader) (body : List Flit) : Option (List PktRecord) :=
  (decodeRecords h.npkt.toNat body).filter fun rs =>
    rs.all (·.txpkt.clean) && spells body (rs.flatMap encodeRecord) && h.npkt ≠ 0 && h.immdlen = 0 &&
      h.len16.toNat = ceilDiv (2 + body.length) 2 && h.plen.toNat = recordsLen rs && h.rsvd = 0

/-! ## Encoding of instructions -/

/-- The bytes of an entry's two flits. -/
def entryBytes (p : Flit × Flit) : List Byte := bytesOfFlits [p.1, p.2]

/-- The encoder: the words of an instruction. -/
def encode : Instr → Words
  | .createIq i a => .command 0x01 (.createIq i a)
  | .createFl i a => .command 0x02 (.createFl i a)
  | .createEq i a => .command 0x03 (.createEq i a)
  | .teardownIq i => .command 0x04 (.queue i)
  | .teardownEq i => .command 0x05 (.queue i)
  | .timerTick => .command 0x06 .none
  | .refill i n => .command 0x10 (.count i n)
  | .frameRelease s => .command 0x20 (.segment s)
  | .interrupt i => .command 0x30 (.queue i)
  | .service i n => .command 0x31 (.bound i n)
  | .deferredRun => .command 0x32 .none
  | .submit i p => .command 0x40 (.packet i p)
  | .submitWr i fs => .command 0x41 (.flits i fs)
  | .txpktsFlush i => .command 0x42 (.queue i)
  | .reclaim i n => .command 0x50 (.bound i n)
  | .notify q => .command 0x51 (.ring q)
  | .txDone i => .unencoded (.txDone i)
  | .findBestRefillSource m p => .unencoded (.findBestRefillSource m p)
  | .findSafeRefillSource p => .unencoded (.findSafeRefillSource p)
  | .consumeFrame i l n => .unencoded (.consumeFrame i l n)
  | .txpktsOpen i => .unencoded (.txpktsOpen i)
  | .txpktsAdd i p => .unencoded (.txpktsAdd i p)
  | .resumeCheck i h => .unencoded (.resumeCheck i h)
  | .iqeRx i e => .entry i (entryBytes (encodeRx e))
  | .iqeEgrUpdate i e => .entry i (entryBytes (encodeEgrUpdate e))
  | .iqeOob i e => .entry i (entryBytes (encodeOob e))
  | .iqeFwd i e => .entry i (entryBytes (encodeFwd e))
  | .iqeReserved i e => .entry i (entryBytes (encodeReserved e))
  | .ethTxPkt i p h body => .request i [p] (bytesOfFlits (encodeHeader 0x01 h ++ body))
  | .ethTxPkts i ps h body => .request i ps (bytesOfFlits (encodeHeader 0x02 h ++ body))
  | .wrOpaque i fs => .request i [] (bytesOfFlits fs)
  | .wrReserved00 i fs => .request i [] (bytesOfFlits fs)
  | .lso i k r => .part i k (bytesOfFlits (encodeLso r))
  | .txpkt i k r => .part i k (bytesOfFlits [encodeTxpkt r])
  | .sgl i k segs => .part i k (bytesOfFlits (encodeSgl segs))
  | .immediateData i k data => .immediate i k data.length (bytesOfFlits (packBytes data))
  | .fle i r => .freeListEntry i (flitBytes (encodeFle r))
  | .dbw .db r => .regWrite .db (encodeDbw r)
  | .dbw (.udb a) r => .regWrite (.udb a) (encodeDbw r)
  | .icw r => .regWrite .icw (encodeIcw r)
  | .sp q r => .statusPage q (flitBytes (encodeSp r))
  | .wcBurst a fs => .burst a (bytesOfFlits fs)
  | .devDb w => .unencoded (.devDb w)
  | .devFl i n => .unencoded (.devFl i n)
  | .devRx i bs m sk => .unencoded (.devRx i bs m sk)
  | .devOob i f => .unencoded (.devOob i f)
  | .devFwd p t => .unencoded (.devFwd p t)
  | .devTx i => .unencoded (.devTx i)
  | .devStatus q => .unencoded (.devStatus q)
  | .devIntr i => .unencoded (.devIntr i)

/-! ## The table's own words -/

/-- The operands of zeros of a command code (log 26). -/
def zeroOperands (code : BitVec 8) : Operands :=
  if code = 0x01 then .createIq 0 {}
  else if code = 0x02 then .createFl 0 {}
  else if code = 0x03 then .createEq 0 {}
  else if code = 0x10 then .count 0 0
  else if code = 0x20 then .segment (.copy 0 0)
  else if code = 0x31 ∨ code = 0x50 then .bound 0 0
  else if code = 0x40 then .packet 0 {}
  else if code = 0x41 then .flits 0 []
  else if code = 0x51 then .ring (.fl 0)
  else if code = 0x06 ∨ code = 0x32 then .none
  else .queue 0

/-- Flit `j` of a record of `n` flits that the table numbers as one word, flit 0 in its highest bits
(spec/opcode_table.json, the `layout` of the 128-bit rows). -/
def tableFlit (w n j : Nat) : Flit := BitVec.ofNat 64 (w >>> (64 * (n - 1 - j)))

/-- Whether 128 bits are an `LSO` prefix and no ingress entry: `SUB_OP` = 0x10 and the reserved fields zero (log 25). -/
def looksLikeLso (f0 f1 : Flit) : Bool :=
  topByte f0 = 0x10 && field f0 48 8 = 0 && field f0 0 24 = 0 && field f1 32 16 = 0

/-- The words of an instruction of the table from its `nbits` bits `w`, numbered as the table numbers them, every bit
above them zero. Where rows of one width have no fixed bits that tell them apart, log 25 says which is read. -/
def tableWords (nbits w : Nat) : Option Words :=
  if nbits = 8 then some (.command (BitVec.ofNat 8 w) (zeroOperands (BitVec.ofNat 8 w)))
  else if nbits = 32 then
    if w % 65536 = 0 then some (.regWrite .icw (BitVec.ofNat 32 w)) else some (.regWrite .db (BitVec.ofNat 32 w))
  else if nbits = 64 then
    let f := tableFlit w 1 0
    if topByte f = 0x11 then some (.part 0 2 (flitBytes f))
    else if topByte f = 0x12 then
      some (.part 0 3 (bytesOfFlits (f :: List.replicate (sglFlits (field f 32 16).toNat - 1) 0)))
    else
      let pkts := if topByte f = 0x01 then [0] else if topByte f = 0x02 then List.replicate (field f 48 8).toNat 0 else []
      some (.request 0 pkts (bytesOfFlits (f :: 0 :: List.replicate (2 * (field f 0 8).toNat - 2) 0)))
  else if nbits = 128 then
    let f0 := tableFlit w 2 0
    let f1 := tableFlit w 2 1
    if looksLikeLso f0 f1 then some (.part 0 2 (bytesOfFlits [f0, f1])) else some (.entry 0 (bytesOfFlits [f0, f1]))
  else if nbits = 512 then some (.burst 0 (bytesOfFlits ((List.range 8).map (tableFlit w 8))))
  else none

/-- The instruction the decoder reads from a word of the table. -/
def decodeTableWord (nbits w : Nat) : Option Instr :=
  match tableWords nbits w with
  | some words => (match decode words with | .ok i => some i | .error _ => none)
  | none => none

end Sys2Proof
end

