-- ==== Sys2Proof/Machine/State.lean ====
section
/-! DEFINITION. The state of the machine as plain data (10_state R20), the reasons a step can stop, and the state
after global reset (70_reset_and_hazards R500). -/

namespace Sys2Proof.Machine

/-! ## Reasons to stop -/

/-- Why the machine stops for good. -/
inductive Fault where
  /-- A QE step in a panicked machine: "While it is 1 no step of the QE is enabled" (10_state R65). Raised by `step`
  and by the meaning of every instruction of the QE. Safe: the spec has no such step (log 7). -/
  | panicked
  /-- An access to an address that a 64-bit address space does not have (20_memory R80). Raised by the reads and
  writes of ring space and of buffer space. Safe: the spec gives such an access no effect (log 23). -/
  | addressOutside
deriving DecidableEq, Repr

/-- Why an instruction has no meaning in the model. -/
inductive Refusal where
  /-- Raised by an arm of `exec` that has no meaning yet. Safe: the machine stops. -/
  | notModelled (mnemonic : String)
deriving DecidableEq, Repr

/-! ## Agents, exceptions, events -/

/-- The agents (47_system R437). A lock names one (10_state R61). -/
inductive Agent where
  | core (c : Nat)
  | deferredContext
  | timer
  | client
  | submitter
  | platform
  | device
deriving DecidableEq, Repr, Inhabited

/-- The exceptions (60_exceptions R450). -/
inductive Exc where
  | noresourceBuf
  | noresourceMap
  | noresourceCredit
  | sglToobig
  | protoOpcode
  | protoGen
  | lenMismatch
  | ringInvariant
  | busyReject
  | doomed
  | badarg
deriving DecidableEq, Repr, Inhabited

/-- The exception's number, "used in `LOG` events and traces" (60_exceptions R450). -/
def Exc.code : Exc → Nat
  | .noresourceBuf => 1
  | .noresourceMap => 2
  | .noresourceCredit => 3
  | .sglToobig => 4
  | .protoOpcode => 5
  | .protoGen => 6
  | .lenMismatch => 7
  | .ringInvariant => 8
  | .busyReject => 9
  | .doomed => 10
  | .badarg => 11

/-- A logical frame (10_state R43). Its metadata is 0 until a receive message sets it (log 19). -/
structure LogicalFrame where
  segs : List Segment := []
  len : BitVec 32 := 0
  fm : FrameMeta := {}
deriving DecidableEq, Repr, Inhabited

/-- An event emitted to the client (10_state R62). A queue is named by its `qid` (log 32). -/
inductive Event where
  | deliver (iq : BitVec 12) (frame : LogicalFrame)
  | lroEnqueue (iq : BitVec 12) (frame : LogicalFrame)
  | lroFlush (iq : BitVec 12)
  | oobDeliver (iq : BitVec 12) (opcode : BitVec 8) (flit0 : Flit)
  | freePkt (pkt : Nat)
  | dmaUnmap (map : Nat)
  | eqResumed (eq : BitVec 16)
  | log (e : Exc) (iq : BitVec 12) (cidx : BitVec 16) (flit0 flit1 : Flit)
deriving DecidableEq, Repr, Inhabited

/-! ## Free lists -/

/-- "(hardware-buffer-size class, offset to payload region, offset to trailing metadata region)" and the zone
(10_state R26). -/
structure ClusterLayout where
  hwidx : BitVec 4 := 0
  zone : Nat := 0
  payloadOff : BitVec 32 := 0
  metaOff : BitVec 32 := 0
deriving DecidableEq, Repr, Inhabited

/-- A buffer of the arena (10_state R27). -/
structure Buffer where
  handle : Nat
  base : Addr
  zone : Nat
  hasMeta : Bool
  refcount : BitVec 32
deriving DecidableEq, Repr, Inhabited

/-- FreeListSlot (10_state R25); the defaults are those of an empty slot. -/
structure FreeListSlot where
  buf : Option Nat := none
  layout : ClusterLayout := {}
  nmbuf : BitVec 16 := 0
deriving DecidableEq, Repr, Inhabited

/-- `fl.resume` (10_state R31). -/
structure ResumeRecord where
  frame : LogicalFrame
  remaining : BitVec 32
deriving DecidableEq, Repr, Inhabited

/-- The free-list context (10_state R24). -/
structure FreeList where
  qid : BitVec 16
  base : Addr
  cap : BitVec 16
  pidx : BitVec 16
  cidx : BitVec 16
  pending : BitVec 16
  dbGroups : BitVec 3
  rxOffset : BitVec 32
  packing : Bool
  maxp : BitVec 32
  lowat : BitVec 16
  refillThresh : BitVec 16
  cllDef : ClusterLayout
  cllSafe : Option ClusterLayout
  /-- `STARVING` of `fl.flags` (10_state R30) -/
  starving : Bool
  /-- `DOOMED` of `fl.flags` -/
  doomed : Bool
  /-- `BUF_RESUME` of `fl.flags` -/
  bufResume : Bool
  resume : Option ResumeRecord
  dbMech : DbMech
  udbAddr : Addr
  sdesc : List FreeListSlot
deriving DecidableEq, Repr, Inhabited

/-! ## Ingress queues -/

/-- `iq.state` (10_state R41). -/
inductive IqState where
  | idle
  | busy
  | dead
deriving DecidableEq, Repr, Inhabited

/-- The ingress-queue context (10_state R40), with its free list. -/
structure IngressQueue where
  qid : BitVec 12
  base : Addr
  cap : BitVec 16
  cidx : BitVec 16
  gen : Bool
  state : IqState
  role : Role
  parent : BitVec 12
  fl : Option FreeList
  budget : BitVec 16
  timerIdx : BitVec 3
  cntEn : Bool
  lro : Bool
  lroPending : BitVec 16
  rxErrors : BitVec 64
  protoErrors : BitVec 64
  lock : Option Agent
deriving DecidableEq, Repr, Inhabited

/-! ## Egress queues -/

/-- `eq.state` (10_state R53). -/
inductive EqState where
  | active
  | stalled
  | doomed
  | dead
deriving DecidableEq, Repr, Inhabited

/-- EgressDescriptorSlot (10_state R51). -/
structure EgressSlot where
  descUsed : BitVec 16 := 0
  credits : BitVec 16 := 0
  npkts : BitVec 8 := 0
deriving DecidableEq, Repr, Inhabited

/-- A DMA map in use (10_state R52). -/
structure TxMap where
  map : Nat
  pkt : Nat
deriving DecidableEq, Repr, Inhabited

/-- CoalescingAccumulator (10_state R54). -/
structure Accumulator where
  isOpen : Bool := false
  npkt : BitVec 8 := 0
  flits : BitVec 16 := 0
  plen : BitVec 32 := 0
  start : BitVec 16 := 0
deriving DecidableEq, Repr, Inhabited

/-- The egress-queue context (10_state R50). -/
structure EgressQueue where
  qid : BitVec 16
  flowid : BitVec 24
  base : Addr
  cap : BitVec 16
  pidx : BitVec 16
  cidx : BitVec 16
  avail : BitVec 16
  pending : BitVec 16
  state : EqState
  crflushed : Bool
  resumeThreshold : BitVec 16
  coalesce : Bool
  nmaps : BitVec 16
  mapsFree : BitVec 16
  maps : List TxMap
  sdesc : List EgressSlot
  txpkts : Accumulator
  dbMech : DbMech
  udbAddr : Addr
  wcAddr : Addr
  lock : Option Agent
deriving DecidableEq, Repr, Inhabited

/-! ## The device -/

/-- `dev.fl` (10_state R64). DEDUCED: the widths are those of the registers mirrored (log 14). -/
structure DevFl where
  pidx : BitVec 16 := 0
  cidx : BitVec 16 := 0
  off : BitVec 32 := 0
deriving DecidableEq, Repr, Inhabited

/-- `dev.iq` (10_state R64). -/
structure DevIq where
  pidx : BitVec 16 := 0
  gen : Bool := true
  credits : BitVec 16
  armed : Bool := false
deriving DecidableEq, Repr, Inhabited

/-- `dev.eq` (10_state R64). -/
structure DevEq where
  pidx : BitVec 16 := 0
  cidx : BitVec 16 := 0
deriving DecidableEq, Repr, Inhabited

/-! ## Memories -/

/-- Ring space or buffer space (20_memory R80): the bytes that are not zero, by rising address. -/
abbrev Memory := List Host.Cell

/-- A heap object (20_memory R80). -/
structure HeapObject where
  handle : Nat
  bytes : List Byte
deriving DecidableEq, Repr, Inhabited

/-! ## The model's own fields -/

/-- The oracles (10_state R63, log 5): the answers still to come, how many calls were answered without one, and the
counters that fresh handles are drawn from (log 17). -/
structure Oracles where
  zone : List (Option Addr) := []
  heap : List Bool := []
  dmaMap : List Nat := []
  compact : List (Option (List PktSeg)) := []
  checksum : List (List (Nat × Byte)) := []
  calls : Nat := 0
  nextBuf : Nat := 0
  nextHeap : Nat := 0
deriving DecidableEq, Repr, Inhabited

/-- What a transition returned to its issuer. -/
inductive Ret where
  | none
  /-- "the command returns the named refusal" (00_scope R15) -/
  | refused (e : Exc)
  /-- the precondition of a device step does not hold (log 15) -/
  | notEnabled
  | panicked
  | ok
  | noResource
  | hardError
  | rejected
  | nothing
  | done
  | more
  | pending
  /-- REFILL's `(posted, starving)` -/
  | refilled (posted : Nat) (starving : Bool)
  /-- RECLAIM's `(descs, credits)` -/
  | reclaimed (descs credits : Nat)
  | layout (l : Option ClusterLayout)
  | complete (frame : LogicalFrame)
  | incomplete
  /-- the cursor moved past the entry -/
  | advance
  /-- the entry stays: its frame is incomplete -/
  | stay
  /-- the entry's generation bit is not the queue's -/
  | stale
  /-- DEV_FL: the payload address and the size of the buffer fetched -/
  | fetched (addr : Addr) (size : Nat)
  /-- DEV_TX: the flits of the request consumed -/
  | request (flits : List Flit)
deriving DecidableEq, Repr, Inhabited

end Sys2Proof.Machine

namespace Sys2Proof.Machine

/-- The state of the machine (10_state R20). -/
structure State where
  cfg : Cfg
  iq : List (Option IngressQueue)
  eq : List (Option EgressQueue)
  arena : List Buffer
  /-- ingress-queue indices of the free lists registered as starving -/
  starving : List Nat
  /-- indices of the stalled egress queues -/
  stalled : List Nat
  /-- indices of the ingress queues waiting for the deferred context -/
  worklist : List Nat
  panic : Bool
  out : List Event
  ring : Memory
  buf : Memory
  /-- MMIO space is write-only to the QE: the writes made to it, in order (20_memory R90, log 28) -/
  mmio : List MmioWrite
  heap : List HeapObject
  /-- `dev.fl`, by the index of the ingress queue the list belongs to -/
  devFl : List (Option DevFl)
  /-- `dev.iq` -/
  devIq : List (Option DevIq)
  /-- `dev.eq` -/
  devEq : List (Option DevEq)
  /-- MODEL: the instructions handed to the machine and not yet taken (log 1) -/
  port : List Words
  /-- MODEL: the oracles (log 5) -/
  env : Oracles
  /-- MODEL: the segments the client holds (log 16) -/
  held : List Segment
  /-- MODEL: the segments that are or were live and that no event names, in order: those a CONSUME_FRAME issued by itself
  handed to its issuer, and those the QE itself released (log 16) -/
  given : List Segment
  /-- MODEL: what the last transition returned (log 8) -/
  ret : Ret
  /-- MODEL: the exceptions the last transition raised, in order (log 8) -/
  raised : List Exc
deriving DecidableEq, Repr, Inhabited

/-- The state after global reset with the configuration record given at construction (70_reset_and_hazards R500). -/
def State.resetWith (c : Cfg) : State where
  cfg := c
  iq := List.replicate c.niq none
  eq := List.replicate c.neq none
  arena := []
  starving := []
  stalled := []
  worklist := []
  panic := false
  out := []
  ring := []
  buf := []
  mmio := []
  heap := []
  devFl := List.replicate c.niq none
  devIq := List.replicate c.niq none
  devEq := List.replicate c.neq none
  port := []
  env := {}
  held := []
  given := []
  ret := .none
  raised := []

/-- The machine after global reset. DESIGN CHOICE: its configuration is the test configuration (log 2). -/
def State.reset : State := State.resetWith Config.testConfiguration

end Sys2Proof.Machine
end

