-- ==== Sys2Proof/Machine/Operands.lean ====
section
/-! DEFINITION. Every operand form: ring index arithmetic (00_scope R14), queue operands, slot and flit addresses
(20_memory R91 to R94), packet operands (43_egress_submit R300) and creation arguments (47_system R430 to R432). -/

namespace Sys2Proof.Machine

/-! ## Ring index arithmetic -/

/-- `inc(i, cap)` (00_scope R14). -/
def inc (i cap : Nat) : Nat := (i + 1) % cap

/-- `add(i, n, cap)` (00_scope R14). -/
def addIdx (i n cap : Nat) : Nat := (i + n) % cap

/-- `dist(a, b, cap)` (00_scope R14): "the mathematical remainder, never negative". -/
def dist (a b cap : Nat) : Nat := (b + cap - a % cap) % cap

/-- `to_wrap(i, cap)` (00_scope R14). -/
def toWrap (i cap : Nat) : Nat := cap - i

/-- `inc` on an index register of a ring. -/
def incIdx (i cap : BitVec 16) : BitVec 16 := BitVec.ofNat 16 (inc i.toNat cap.toNat)

/-- `add` on an index register of a ring. -/
def addTo (i cap : BitVec 16) (n : Nat) : BitVec 16 := BitVec.ofNat 16 (addIdx i.toNat n cap.toNat)

/-- `dist` between two index registers of a ring. -/
def distOf (a b cap : BitVec 16) : Nat := dist a.toNat b.toNat cap.toNat

/-! ## Occupancy -/

/-- `occ(fl)` (40_free_list R192). -/
def occ (fl : FreeList) : Nat := distOf fl.cidx fl.pidx fl.cap

/-- `free(fl)` (40_free_list R192). -/
def freeSlots (fl : FreeList) : Nat := fl.cap.toNat - 1 - occ fl

/-- `occupied` of an egress ring (00_scope R14). -/
def occEq (q : EgressQueue) : Nat := distOf q.cidx q.pidx q.cap

/-- `reclaimable(eq)` for a status-page `CIDX` (45_reclaim_doorbell R377). -/
def reclaimable (q : EgressQueue) (hw : BitVec 16) : Nat := distOf q.cidx hw q.cap

/-! ## Slot addresses -/

/-- Slot `i` of a free list (20_memory R91). -/
def flSlotAddr (fl : FreeList) (i : Nat) : Nat := fl.base.toNat + 8 * i

/-- The status page of a free list (20_memory R91). -/
def flStatusAddr (fl : FreeList) : Nat := fl.base.toNat + 8 * fl.cap.toNat

/-- Entry `i` of an ingress ring (20_memory R91). -/
def entryAddr (q : IngressQueue) (i : Nat) : Nat := q.base.toNat + 16 * i

/-- Descriptor `i` of an egress ring (20_memory R91). -/
def descAddr (q : EgressQueue) (i : Nat) : Nat := q.base.toNat + 64 * i

/-- The status page of an egress ring (20_memory R91). -/
def eqStatusAddr (q : EgressQueue) : Nat := q.base.toNat + 64 * q.cap.toNat

/-- Flit `k` of the work request that begins at descriptor `s` (20_memory R94). -/
def wrFlitAddr (q : EgressQueue) (s k : Nat) : Nat := q.base.toNat + 8 * ((8 * s + k) % (8 * q.cap.toNat))

/-! ## Queue operands -/

/-- Ingress queue `i`, if it exists. -/
def State.iqAt (s : State) (i : Nat) : Option IngressQueue := (s.iq[i]?).join

/-- Egress queue `i`, if it exists. -/
def State.eqAt (s : State) (i : Nat) : Option EgressQueue := (s.eq[i]?).join

/-- The free list of ingress queue `i`, if there is one. -/
def State.flAt (s : State) (i : Nat) : Option FreeList := (s.iqAt i).bind (·.fl)

/-- The device's copies for free list, ingress queue and egress queue `i`. -/
def State.devFlAt (s : State) (i : Nat) : Option DevFl := (s.devFl[i]?).join

/-- `dev.iq` of ingress queue `i`. -/
def State.devIqAt (s : State) (i : Nat) : Option DevIq := (s.devIq[i]?).join

/-- `dev.eq` of egress queue `i`. -/
def State.devEqAt (s : State) (i : Nat) : Option DevEq := (s.devEq[i]?).join

/-- The indices of a list of queues whose context satisfies a test, in order. -/
def indicesOf {α : Type} (p : α → Bool) (qs : List (Option α)) : List Nat :=
  (qs.zipIdx).filterMap fun x => match x.1 with | some q => if p q then some x.2 else none | none => none

/-- A free list that commands do not refuse (60_exceptions R460). -/
def FreeList.live (fl : FreeList) : Bool := !fl.doomed

/-- An ingress queue that is not torn down. -/
def IngressQueue.live (q : IngressQueue) : Bool := q.state ≠ .dead

/-- An egress queue that is not torn down: `e.state in {Active, Stalled, Doomed}` (42_ingress_service R264). -/
def EgressQueue.live (q : EgressQueue) : Bool := q.state ≠ .dead

/-- "the egress queue with e.qid" (42_ingress_service R264). -/
def State.liveEqByQid (s : State) (qid : BitVec 16) : Option Nat :=
  (indicesOf (fun q : EgressQueue => q.live && q.qid = qid) s.eq).head?

/-- The `Forwarded` child of a forwarder that a forwarded-interrupt entry names (42_ingress_service R255). -/
def State.childByQid (s : State) (parent target : BitVec 12) : Option Nat :=
  (indicesOf (fun q : IngressQueue => q.qid = target && q.role = .forwarded && q.parent = parent && q.live) s.iq).head?

/-! ## Packets -/

/-- The number of bytes of a buffer chain. -/
def segsLen (segs : List PktSeg) : Nat := (segs.map fun g => g.len.toNat).sum

/-- A packet SUBMIT refuses: "A packet that breaks a stated range, or has `tso = 1` with `l2len + l3len + l4len ≥ len`,
is malformed" (43_egress_submit R300). -/
def malformed (p : Packet) : Bool :=
  p.len = 0 || p.segs = [] || p.segs.any (fun g => g.len = 0) || segsLen p.segs ≠ p.len.toNat ||
    (p.tso && (p.mss = 0 || p.len.toNat ≤ p.l2len.toNat + p.l3len.toNat + p.l4len.toNat))

/-- How a packet's payload is carried (43_egress_submit R302). -/
inductive Mode where
  | imm
  | sgl
deriving DecidableEq, Repr

/-- `choose_mode` (43_egress_submit R302). -/
def chooseMode (c : Cfg) (p : Packet) : Mode :=
  if p.tso then .sgl else if p.forceSgl then .sgl else if p.len.toNat ≤ c.immMaxBytes then .imm else .sgl

/-- `coalescable` (44_coalescing R351). -/
def coalescable (c : Cfg) (p : Packet) : Bool :=
  !p.tso && p.len.toNat ≤ c.txpktsSmallMax && p.len.toNat < 2 ^ c.txpktsLenBits && p.segs.length ≤ c.sglMaxSegs

/-- `rec(pkt)`: one packet header flit and the list (44_coalescing R352). -/
def recFlits (p : Packet) : Nat := 1 + sglFlits p.segs.length

/-- The accumulator `can_add` judges: its own values, or those of a closed one (44_coalescing R352). -/
def accOrClosed (t : Accumulator) : Accumulator := if t.isOpen then t else { flits := 2 }

/-- `can_add` (44_coalescing R352). -/
def canAdd (c : Cfg) (q : EgressQueue) (p : Packet) : Bool :=
  let t := accOrClosed q.txpkts
  t.npkt.toNat < c.txpktsMaxPkts && t.flits.toNat + recFlits p ≤ c.wrMaxFlits &&
    t.plen.toNat + p.len.toNat < 2 ^ c.txpktsLenBits && ceilDiv (t.flits.toNat + recFlits p) 8 ≤ q.avail.toNat &&
    1 ≤ q.mapsFree.toNat

/-- `wr_flits` (43_egress_submit R306). -/
def wrFlits (p : Packet) (m : Mode) (n : Nat) : Nat :=
  2 + (if p.tso then 2 else 0) + 1 + (match m with | .imm => ceilDiv p.len.toNat 8 | .sgl => sglFlits n)

/-- An opaque request SUBMIT_WR refuses with `BADARG` (43_egress_submit R310, 30_encoding R150). -/
def badRequest (c : Cfg) (flits : List Flit) : Bool :=
  flits.length < 2 || c.wrMaxFlits < flits.length ||
    (match flits with
     | f0 :: _ => topByte f0 = 0x00 || topByte f0 = 0x01 || topByte f0 = 0x02 || (field f0 0 8).toNat ≠ ceilDiv flits.length 2
     | [] => true)

/-! ## Creation arguments -/

/-- The layout parameters are those that the rules' layouts are written for (00_scope R10, 10_state R21, R22,
20_memory R91, log 2). -/
def layoutStated (c : Cfg) : Bool :=
  c.idxBits = 16 && c.flSlotFlits = 1 && c.iqEntryFlits = 2 && c.eqDescFlits = 8 && c.spFlits = 8

/-- "another ingress queue that is not Dead has this qid" (47_system R430). -/
def iqQidTaken (s : State) (i qid : Nat) : Bool :=
  (indicesOf (fun q : IngressQueue => q.live && q.qid.toNat = qid) s.iq).any (· ≠ i)

/-- A `Forwarder` that is not Dead has this qid (47_system R430). -/
def isForwarder (s : State) (qid : Nat) : Bool :=
  (indicesOf (fun q : IngressQueue => q.live && q.role = .forwarder && q.qid.toNat = qid) s.iq) ≠ []

/-- What CREATE_IQ refuses with `BADARG` (47_system R430). -/
def badCreateIq (s : State) (i : Nat) (a : CreateIqArgs) : Bool :=
  !(i < s.iq.length) || (match s.iqAt i with | some q => q.live | none => false) ||
    !(a.qid < 4096) || iqQidTaken s i a.qid || a.base.toNat % s.cfg.ringAlign ≠ 0 || a.cap < 2 || 65535 < a.cap ||
    a.budget = 0 || min 6 s.cfg.coalesceTimers.length ≤ a.timerIdx || (a.role = .forwarded && !isForwarder s a.parent) ||
    !layoutStated s.cfg

/-- A power of two. -/
def isPowerOfTwo (n : Nat) : Bool := 2 ^ n.log2 = n

/-- "cfg breaks a constraint of 00_scope.md rule R8" (47_system R431), or `EMBED_BYTES` is no multiple of 16, so that a
payload address would not be one (20_memory R86, 40_free_list R189, log 2). -/
def badCfg (c : Cfg) : Bool :=
  !isPowerOfTwo c.padBoundary || !isPowerOfTwo c.packBoundary || c.bufferSizes = [] || 16 < c.bufferSizes.length ||
    c.bufferSizes.any (fun z => z = 0 || z % 16 ≠ 0) || c.coalesceTimers = [] || 6 < c.coalesceTimers.length ||
    c.embedBytes % 16 ≠ 0 || !layoutStated c

/-- CREATE_FL on a queue in state Dead, which "refuses with `DOOMED`" as every command does (60_exceptions R460, 47_system
R433), before R431's own tests, of which `iq.state != Idle` would give `BADARG` (log 39). -/
def doomedCreateFl (s : State) (i : Nat) : Bool := match s.iqAt i with | some q => q.state = .dead | none => false

/-- What CREATE_FL refuses with `BADARG`, but for the choice of a layout (47_system R431). -/
def badCreateFl (s : State) (i : Nat) (a : CreateFlArgs) : Bool :=
  (match s.iqAt i with | some q => q.state ≠ .idle || q.fl.isSome | none => true) ||
    a.base.toNat % s.cfg.ringAlign ≠ 0 || a.cap < 16 || 65535 < a.cap || a.cap % 8 ≠ 0 ||
    a.cap - 1 < a.lowat || a.cap - 1 < a.refillThresh.getD (a.cap - 1) || a.dbMech = .wcCopy || badCfg s.cfg

/-- "another egress queue or free list that is not dead has this qid" (47_system R432). -/
def eqQidTaken (s : State) (i : Nat) (qid : BitVec 16) : Bool :=
  (indicesOf (fun q : EgressQueue => q.live && q.qid = qid) s.eq).any (· ≠ i) ||
    indicesOf (fun q : IngressQueue => match q.fl with | some fl => fl.live && fl.qid = qid | none => false) s.iq ≠ []

/-- What CREATE_EQ refuses with `BADARG` (47_system R432). -/
def badCreateEq (s : State) (i : Nat) (a : CreateEqArgs) : Bool :=
  !(i < s.eq.length) || (match s.eqAt i with | some q => q.live | none => false) || eqQidTaken s i a.qid ||
    !(a.flowid < 2 ^ 24) || a.base.toNat % s.cfg.ringAlign ≠ 0 || a.cap < ceilDiv s.cfg.wrMaxFlits 8 + 1 || 65535 < a.cap ||
    a.resumeThreshold < 1 || a.cap - 1 < a.resumeThreshold || a.nmaps.getD a.cap < 1 || 65535 < a.nmaps.getD a.cap ||
    !layoutStated s.cfg

end Sys2Proof.Machine
end

