-- ==== Sys2Proof/Machine/Flags.lean ====
section
/-! DEFINITION. Every flag, state bit and indicator the spec computes: the starving indicator, `has_meta`, the
generation bit, the state transitions, the checksum bits and the resume condition. -/

namespace Sys2Proof.Machine

/-- `has_meta(L)` (40_free_list R188). -/
def hasMeta (c : Cfg) (l : ClusterLayout) : Bool := l.metaOff.toNat < c.zoneSizes.getD l.zone 0

/-- The starving indicator, "computed the same way at every exit of REFILL" (40_free_list R185). -/
def starvingIndicator (fl : FreeList) : Bool := occ fl < fl.lowat.toNat && !fl.starving

/-- Whether a post completes a group of `FL_DB_GROUP_SLOTS` slots (40_free_list R184). -/
def completesGroup (pidx : BitVec 16) : Bool := pidx.toNat % 8 = 0

/-- Whether service refills the list (42_ingress_service R261). -/
def needsRefill (fl : FreeList) : Bool := !fl.doomed && occ fl < fl.refillThresh.toNat

/-- The entry is new: its `GEN` equals the queue's generation (10_state R42). -/
def isNew (q : IngressQueue) (f1 : Flit) : Bool := footerGen f1 = q.gen

/-- The generation after the cursor moved to `cidx`: inverted at the wrap to 0 (10_state R42). -/
def genAfter (gen : Bool) (cidx : BitVec 16) : Bool := if cidx = 0 then !gen else gen

/-- `CAS(iq.state, Idle, new)` (20_memory R101): the queue with the new state, or none when the compare fails. -/
def casIdle (q : IngressQueue) (new : IqState) : Option IngressQueue :=
  if q.state = .idle then some { q with state := new } else none

/-- `lro_flush` has something to flush (42_ingress_service R260). -/
def lroDue (q : IngressQueue) : Bool := q.lro && q.lroPending ≠ 0

/-- The state refuses submissions: "A queue that is `Doomed` or `Dead`" (43_egress_submit R311). -/
def refusesSubmit (q : EgressQueue) : Bool := q.state = .doomed || q.state = .dead

/-- The stall cause in SUBMIT's coalescing arm (43_egress_submit R309). -/
def stallCause (q : EgressQueue) : Exc := if q.mapsFree = 0 then .noresourceMap else .noresourceCredit

/-- The condition of `RESUME_CHECK`: `available + reclaimable ≥ resume_threshold` on a stalled queue
(45_reclaim_doorbell R372). -/
def resumes (q : EgressQueue) (hw : BitVec 16) : Bool :=
  q.state = .stalled && q.resumeThreshold.toNat ≤ q.avail.toNat + reclaimable q hw

/-- The checksum workaround fires (43_egress_submit R304). -/
def csumWorkaround (c : Cfg) (p : Packet) : Bool := p.l4csum && p.tcp && !p.tso && p.len.toNat < c.csumMinFrame

/-- The two checksum enable bits of `csum_bits` (43_egress_submit R304). -/
def csumEnables (c : Cfg) (p : Packet) : Bool × Bool := (p.l3csum, p.l4csum && !csumWorkaround c p)

/-- The packet header flit of a packet: the checksum bits, the tag "when `pkt.vlan` is present, else both 0", the
length (43_egress_submit R304, 30_encoding R133). -/
def txpktOf (en : Bool × Bool) (p : Packet) : Txpkt where
  l3CsumEn := en.1
  l4CsumEn := en.2
  vlanEn := p.vlan.isSome
  vlanTag := p.vlan.getD 0
  pktLen := p.len

/-- The segmentation-offload prefix of a packet (43_egress_submit R303). -/
def lsoOf (p : Packet) : Lso where
  l2len := p.l2len
  l3len := p.l3len
  l4len := p.l4len
  mss := p.mss
  totalLen := p.len

/-- `fwd_budget` (42_ingress_service R263). -/
def fwdBudget (c : Cfg) (b : Nat) : Nat := max 1 (b / c.fwdBudgetDiv)

end Sys2Proof.Machine
end

