-- ==== Sys2Proof/Machine/Memory.lean ====
section
/-! DEFINITION. Reading and writing the byte memories (20_memory R80, R85): one canonical form, and the byte order of
a flit decided in one place. -/

namespace Sys2Proof.Machine

/-- What a byte that nothing has written reads as. DESIGN CHOICE (log 4): 0; the spec leaves the content unspecified
(70_reset_and_hazards R500). -/
def unwritten : Byte := 0

/-- The canonical form: addresses strictly rising, and no byte that an unlisted address reads as. -/
abbrev Memory.wf (m : Memory) : Prop := m.Pairwise (fun c d => c.1 < d.1) ∧ ∀ c ∈ m, c.2 ≠ unwritten

/-- One byte. -/
def Memory.get : Memory → Nat → Byte
  | [], _ => unwritten
  | (b, w) :: m, a => if a = b then w else Memory.get m a

/-- Write one byte; writing what an unlisted address reads as removes the entry. -/
def Memory.put : Memory → Nat → Byte → Memory
  | [], a, v => if v = unwritten then [] else [(a, v)]
  | (b, w) :: m, a, v =>
    if a < b then (if v = unwritten then (b, w) :: m else (a, v) :: (b, w) :: m)
    else if a = b then (if v = unwritten then m else (a, v) :: m)
    else (b, w) :: Memory.put m a v

/-- Consecutive bytes from an address. -/
def Memory.bytes (m : Memory) : Nat → Nat → List Byte
  | _, 0 => []
  | a, n + 1 => m.get a :: Memory.bytes m (a + 1) n

/-- Write consecutive bytes from an address. -/
def Memory.putBytes (m : Memory) : Nat → List Byte → Memory
  | _, [] => m
  | a, v :: vs => Memory.putBytes (m.put a v) (a + 1) vs

/-- `MemRead(a, 8)`: the byte at the lowest address is the most significant (20_memory R85). -/
def Memory.flit (m : Memory) (a : Nat) : Flit :=
  flitOf (m.get a) (m.get (a + 1)) (m.get (a + 2)) (m.get (a + 3)) (m.get (a + 4)) (m.get (a + 5)) (m.get (a + 6))
    (m.get (a + 7))

/-- `MemWrite(a, 8, v)` (20_memory R85). -/
def Memory.putFlit (m : Memory) (a : Nat) (v : Flit) : Memory := m.putBytes a (flitBytes v)

/-- Any list of cells brought to the canonical form. -/
def Memory.canon : List Host.Cell → Memory
  | [] => []
  | c :: m => (Memory.canon m).put c.1 c.2

/-! ## Heap objects -/

/-- The object of a handle. -/
def heapObject (heap : List HeapObject) (h : Nat) : Option HeapObject := heap.find? (·.handle = h)

/-- Free the object of a handle. -/
def heapFree (heap : List HeapObject) (h : Nat) : List HeapObject := heap.eraseP (·.handle = h)

end Sys2Proof.Machine
end

