-- ==== Sys2Proof/Machine/Ops.lean ====
section
/-! DEFINITION. The named operations: updates of the state, exceptions and the panic, memory access, MMIO writes and
the device's reaction to them, the oracles, and the forms in which a meaning is run. -/

namespace Sys2Proof.Machine

/-! ## Outcomes inside a step (00_scope R15) -/

/-- Why an operation does not complete. -/
inductive Stop where
  /-- "the step refuses ... the state is unchanged and the command returns the named refusal" -/
  | refuse (e : Exc)
  /-- "a ring invariant is violated" -/
  | panic
  | fault (f : Fault)
deriving DecidableEq, Repr

/-- An operation's answer. -/
abbrev Res (α : Type) := Except Stop α

/-- Refuse with `DOOMED` (60_exceptions R460). -/
def refuseDoomed {α : Type} : Res α := .error (.refuse .doomed)

/-- Refuse with `BADARG` (60_exceptions R461). -/
def refuseBadarg {α : Type} : Res α := .error (.refuse .badarg)

/-- `RING_INVARIANT` (60_exceptions R458). -/
def ringInvariant {α : Type} : Res α := .error .panic

/-! ## Named updates -/

/-- Write the context of ingress queue `i`. -/
def State.setIq (s : State) (i : Nat) (q : IngressQueue) : State := { s with iq := s.iq.set i (some q) }

/-- Write the context of egress queue `i`. -/
def State.setEq (s : State) (i : Nat) (q : EgressQueue) : State := { s with eq := s.eq.set i (some q) }

/-- Write `dev.fl` of free list `i`. -/
def State.setDevFl (s : State) (i : Nat) (d : DevFl) : State := { s with devFl := s.devFl.set i (some d) }

/-- Write `dev.iq` of ingress queue `i`. -/
def State.setDevIq (s : State) (i : Nat) (d : DevIq) : State := { s with devIq := s.devIq.set i (some d) }

/-- Write `dev.eq` of egress queue `i`. -/
def State.setDevEq (s : State) (i : Nat) (d : DevEq) : State := { s with devEq := s.devEq.set i (some d) }

/-- Write the arena. -/
def State.setArena (s : State) (a : List Buffer) : State := { s with arena := a }

/-- Write the `starving` list. -/
def State.setStarving (s : State) (l : List Nat) : State := { s with starving := l }

/-- Write the `stalled` list. -/
def State.setStalled (s : State) (l : List Nat) : State := { s with stalled := l }

/-- Write the `worklist`. -/
def State.setWorklist (s : State) (l : List Nat) : State := { s with worklist := l }

/-- Write ring space. -/
def State.setRing (s : State) (m : Memory) : State := { s with ring := m }

/-- Write buffer space. -/
def State.setBuf (s : State) (m : Memory) : State := { s with buf := m }

/-- Write the heap. -/
def State.setHeap (s : State) (h : List HeapObject) : State := { s with heap := h }

/-- Write the oracles. -/
def State.setEnv (s : State) (e : Oracles) : State := { s with env := e }

/-- Write the segments the client holds. -/
def State.setHeld (s : State) (h : List Segment) : State := { s with held := h }

/-- Note the segments handed to the issuer of a CONSUME_FRAME. -/
def State.setGiven (s : State) (g : List Segment) : State := { s with given := g }

/-- Write the port. -/
def State.setPort (s : State) (p : List Words) : State := { s with port := p }

/-- Record an MMIO write (20_memory R90). -/
def State.logMmio (s : State) (w : MmioWrite) : State := { s with mmio := s.mmio ++ [w] }

/-- `emit Ev(args)` (00_scope R13). -/
def State.emit (s : State) (e : Event) : State := { s with out := s.out ++ [e] }

/-- Note an exception raised (60_exceptions R450, log 8). -/
def State.raise (s : State) (e : Exc) : State := { s with raised := s.raised ++ [e] }

/-- The start of a transition: nothing returned and nothing raised yet (log 33). -/
def State.begin (s : State) : State := { s with ret := .none, raised := [] }

/-- The value a transition returns (log 8). -/
def State.answer (s : State) (r : Ret) : State := { s with ret := r }

/-! ## Taking an exception -/

/-- What a panicking step leaves of the state: "the step's other effects are unspecified" (60_exceptions R458). A
free value (log 6). -/
opaque panicEffects : State → State

/-- The panic: `panic <- 1`. The rest is the free value; `cfg` is immutable (00_scope R11), `out` and the MMIO writes
are only appended to (10_state R62, 20_memory R90), and memories are in their canonical form (log 6). -/
def takePanic (s : State) : State :=
  let h := panicEffects s
  { h with cfg := s.cfg, panic := true, out := s.out ++ h.out, mmio := s.mmio ++ h.mmio, ring := Memory.canon h.ring,
           buf := Memory.canon h.buf, port := s.port, ret := .panicked, raised := [.ringInvariant] }

/-- A refusal: "The state is unchanged" and the refusal is returned (60_exceptions R460, R461, log 8). -/
def takeRefusal (s : State) (e : Exc) : State := { s with ret := .refused e, raised := [e] }

/-- A transition from what its operation answered: the next state, the refusal, the panic, the fault. -/
def conclude (s : State) : Res (State × Ret) → Host.Outcome State Fault Refusal
  | .ok (t, r) => .next (t.answer r)
  | .error (.refuse e) => .next (takeRefusal s e)
  | .error .panic => .next (takePanic s)
  | .error (.fault f) => .fault f

/-- A transition of the QE: none is enabled while `panic` is 1 (10_state R65, log 7). -/
def runQe (s : State) (body : State → Res (State × Ret)) : Host.Outcome State Fault Refusal :=
  if s.panic then .fault .panicked else conclude s (body s.begin)

/-- A device step; nothing happens when its precondition does not hold (46_device_agent R400, log 15). The device is
no part of the QE: its steps go on in a panicked machine (log 7). -/
def runDevice (s : State) (body : State → Res (Option (State × Ret))) : Host.Outcome State Fault Refusal :=
  match body s.begin with
  | .ok (some (t, r)) => .next (t.answer r)
  | .ok none => .next (s.begin.answer .notEnabled)
  | .error (.refuse e) => .next (takeRefusal s e)
  | .error .panic => .next (takePanic s)
  | .error (.fault f) => .fault f

/-! ## Interrupt entry and return -/

/-- Interrupt entry: "the compare-and-swap `Idle -> Busy` is the only state saved or changed at entry"
(60_exceptions R473). None when the compare fails. -/
def enterService (q : IngressQueue) : Option IngressQueue := casIdle q .busy

/-- Interrupt return, `finish(q, r)` (42_ingress_service R250, 60_exceptions R474): `Done` makes the queue Idle, else
it stays Busy and goes to the back of the worklist. -/
def finishService (s : State) (i : Nat) (q : IngressQueue) (done : Bool) : IngressQueue × State :=
  if done then ({ q with state := .idle }, s) else (q, s.setWorklist (s.worklist ++ [i]))

/-! ## Queue operands -/

/-- An operation on ingress queue `i`: "a queue operand that does not exist" is refused (60_exceptions R461). -/
def onIq (s : State) (i : Nat) (f : IngressQueue → Res (IngressQueue × State × Ret)) : Res (State × Ret) :=
  match s.iqAt i with
  | none => refuseBadarg
  | some q => do
    let (q, s, r) ← f q
    return (s.setIq i q, r)

/-- An operation on egress queue `i`. -/
def onEq (s : State) (i : Nat) (f : EgressQueue → Res (EgressQueue × State × Ret)) : Res (State × Ret) :=
  match s.eqAt i with
  | none => refuseBadarg
  | some q => do
    let (q, s, r) ← f q
    return (s.setEq i q, r)

/-- An operation on the free list of ingress queue `i`. -/
def onFl (s : State) (i : Nat) (f : FreeList → Res (FreeList × State × Ret)) : Res (State × Ret) :=
  match s.iqAt i with
  | none => refuseBadarg
  | some q =>
    match q.fl with
    | none => refuseBadarg
    | some fl => do
      let (fl, s, r) ← f fl
      return (s.setIq i { q with fl := some fl }, r)

/-! ## Memory access -/

/-- An access of `n` bytes at `a` stays inside the 64-bit address space (20_memory R80, log 23). -/
def inSpace (a n : Nat) : Bool := a + n ≤ addressLimit

/-- `MemRead(a, 8)` in ring space. -/
def ringRead (s : State) (a : Nat) : Res Flit :=
  if inSpace a 8 then .ok (s.ring.flit a) else .error (.fault .addressOutside)

/-- `MemWrite(a, 8, v)` in ring space. -/
def ringWrite (s : State) (a : Nat) (v : Flit) : Res State :=
  if inSpace a 8 then .ok (s.setRing (s.ring.putFlit a v)) else .error (.fault .addressOutside)

/-- Consecutive flits written from an address. -/
def ringWriteAll (s : State) : Nat → List Flit → Res State
  | _, [] => .ok s
  | a, v :: vs => do
    let s ← ringWrite s a v
    ringWriteAll s (a + 8) vs

/-- Consecutive flits read from an address. -/
def ringReadAll (s : State) : Nat → Nat → Res (List Flit)
  | _, 0 => .ok []
  | a, n + 1 => do
    let v ← ringRead s a
    let vs ← ringReadAll s (a + 8) n
    return v :: vs

/-- Bytes of buffer space. -/
def bufRead (s : State) (a n : Nat) : Res (List Byte) :=
  if inSpace a n then .ok (s.buf.bytes a n) else .error (.fault .addressOutside)

/-- Bytes written to buffer space (the device, and the client's own functions: 20_memory R80, R81). -/
def bufWrite (s : State) (a : Nat) (bs : List Byte) : Res State :=
  if inSpace a bs.length then .ok (s.setBuf (s.buf.putBytes a bs)) else .error (.fault .addressOutside)

/-- `pkt.bytes`: "the buffers' bytes concatenated in list order" (43_egress_submit R300). -/
def chainBytes (m : Memory) (segs : List PktSeg) : List Byte := segs.flatMap fun g => m.bytes g.addr.toNat g.len.toNat

/-- The bytes of a packet's chain, read from buffer space. -/
def readChain (s : State) : List PktSeg → Res (List Byte)
  | [] => .ok []
  | g :: gs => do
    let bs ← bufRead s g.addr.toNat g.len.toNat
    let rest ← readChain s gs
    return bs ++ rest

/-- Flits stored at flit positions `k`, `k + 1`, ... of the request that begins at descriptor `start`
(20_memory R94, 43_egress_submit R307). -/
def writeFlits (q : EgressQueue) (start : Nat) (s : State) : Nat → List Flit → Res State
  | _, [] => .ok s
  | k, v :: vs => do
    let s ← ringWrite s (wrFlitAddr q start k) v
    writeFlits q start s (k + 1) vs

/-- Flits `k` to `k + n - 1` of the request that begins at descriptor `start`. -/
def readFlits (q : EgressQueue) (start : Nat) (s : State) : Nat → Nat → Res (List Flit)
  | _, 0 => .ok []
  | k, n + 1 => do
    let v ← ringRead s (wrFlitAddr q start k)
    let vs ← readFlits q start s (k + 1) n
    return v :: vs

/-! ## The arena and reference counts -/

/-- The buffer of a handle. -/
def State.bufferOf (s : State) (h : Nat) : Option Buffer := s.arena.find? (·.handle = h)

/-- Write a buffer's reference count. -/
def State.setRefcount (s : State) (h : Nat) (n : BitVec 32) : State :=
  s.setArena (s.arena.map fun b => if b.handle = h then { b with refcount := n } else b)

/-- `FetchAdd(b.refcount, d)` of 20_memory R102, as the count's new value. -/
def State.addRef (s : State) (b : Buffer) (d : BitVec 32) : State := s.setRefcount b.handle (b.refcount + d)

/-- `ZoneFree(b)`: "removes it from `arena`" (10_state R63). -/
def State.zoneFree (s : State) (h : Nat) : State := s.setArena (s.arena.filter (·.handle ≠ h))

/-- Give back one counted reference: the buffer is freed with its last reference; "a reference count found 0 before a
decrement" is a panic (60_exceptions R458). -/
def dropRef (s : State) (b : Buffer) : Res State :=
  if b.refcount = 0 then ringInvariant
  else if b.refcount = 1 then .ok (s.zoneFree b.handle)
  else .ok (s.addRef b (-1))

/-! ## Oracles (10_state R63, log 5) -/

/-- An answer: the next one of the tape, or the free value for the `calls`th call without one. -/
def nextAnswer {α : Type} (tape : List α) (free : Nat → α) (calls : Nat) : α × List α × Nat :=
  match tape with
  | a :: rest => (a, rest, calls)
  | [] => (free calls, [], calls + 1)

/-- The answer names "a fresh buffer" of the zone: 16-byte aligned, inside the address space, clear of the buffers of
the arena (10_state R63, 20_memory R86, log 5). -/
def freshBuffer (s : State) (size : Nat) (base : Addr) : Bool :=
  base.toNat % 16 = 0 && inSpace base.toNat size &&
    s.arena.all fun b =>
      base.toNat + size ≤ b.base.toNat || b.base.toNat + s.cfg.zoneSizes.getD b.zone 0 ≤ base.toNat

/-- `ZoneAlloc(z)`: the handle of a new buffer of the arena, with its count at 1 when it has one (40_free_list R183),
or none. -/
def zoneAlloc (s : State) (zone : Nat) (withMeta : Bool) : Option Nat × State :=
  let r := nextAnswer s.env.zone Config.zoneAnswer s.env.calls
  let env := { s.env with zone := r.2.1, calls := r.2.2 }
  match r.1 with
  | some base =>
    if freshBuffer s (s.cfg.zoneSizes.getD zone 0) base then
      let b : Buffer :=
        { handle := s.env.nextBuf, base, zone, hasMeta := withMeta, refcount := if withMeta then 1 else 0 }
      (some b.handle, (s.setArena (s.arena ++ [b])).setEnv { env with nextBuf := s.env.nextBuf + 1 })
    else (none, s.setEnv env)
  | none => (none, s.setEnv env)

/-- `HeapAlloc(n)` and the copy into the object: its handle, or none. -/
def heapAlloc (s : State) (bytes : List Byte) : Option Nat × State :=
  let r := nextAnswer s.env.heap Config.heapAnswer s.env.calls
  let env := { s.env with heap := r.2.1, calls := r.2.2 }
  if r.1 then
    (some s.env.nextHeap,
      (s.setHeap (s.heap ++ [⟨s.env.nextHeap, bytes⟩])).setEnv { env with nextHeap := s.env.nextHeap + 1 })
  else (none, s.setEnv env)

/-- `DmaMap(pkt)`: an opaque token (20_memory R95). -/
def askMap (s : State) : Nat × State :=
  let r := nextAnswer s.env.dmaMap Config.mapAnswer s.env.calls
  (r.1, s.setEnv { s.env with dmaMap := r.2.1, calls := r.2.2 })

/-- The answer is "a shorter buffer chain" of the packet's length inside buffer space (10_state R63, log 21). -/
def shorterChain (segs r : List PktSeg) : Bool :=
  r.length < segs.length && r.all (fun g => g.len ≠ 0 && inSpace g.addr.toNat g.len.toNat) && segsLen r = segsLen segs

/-- `Compact(pkt)`: "a shorter buffer chain holding the same bytes", or failure. The client's function has put the
bytes there; the QE itself writes none of them (20_memory R81, log 21). -/
def compact (s : State) (segs : List PktSeg) : Option (List PktSeg) × State :=
  let r := nextAnswer s.env.compact Config.compactAnswer s.env.calls
  (r.1.filter fun chain => shorterChain segs chain && chainBytes s.buf chain = chainBytes s.buf segs,
    s.setEnv { s.env with compact := r.2.1, calls := r.2.2 })

/-- The buffer-space address of byte `o` of a chain. -/
def chainAddr : List PktSeg → Nat → Option Nat
  | [], _ => none
  | g :: gs, o => if o < g.len.toNat then some (g.addr.toNat + o) else chainAddr gs (o - g.len.toNat)

/-- Bytes of the packet overwritten, offsets outside it without effect (log 20). -/
def patchChain (m : Memory) (segs : List PktSeg) : List (Nat × Byte) → Memory
  | [] => m
  | c :: cs =>
    match chainAddr segs c.1 with
    | some a => if inSpace a 1 then patchChain (m.put a c.2) segs cs else patchChain m segs cs
    | none => patchChain m segs cs

/-- `SwChecksum(pkt)`: "writes a software-computed checksum into the packet's bytes" (10_state R63, log 20). -/
def swChecksum (s : State) (segs : List PktSeg) : State :=
  let r := nextAnswer s.env.checksum Config.checksumAnswer s.env.calls
  (s.setEnv { s.env with checksum := r.2.1, calls := r.2.2 }).setBuf (patchChain s.buf segs r.1)

/-! ## MMIO writes and the device's reaction (46_device_agent R401) -/

/-- The queue that an identifier names; of several that share it, a free value says which (log 12). -/
def pickShared {α : Type} (key : Nat) : List α → Option α
  | [] => none
  | [q] => some q
  | q :: r :: qs => (q :: r :: qs)[Config.sharedIdentifier key % (q :: r :: qs).length]?

/-- "the free list or egress queue with qid" (46_device_agent R401), among those not torn down. -/
def doorbellTargets (s : State) (qid : BitVec 16) : List QRef :=
  (indicesOf (fun q : IngressQueue => match q.fl with | some fl => fl.live && fl.qid = qid | none => false) s.iq).map .fl ++
    (indicesOf (fun q : EgressQueue => q.live && q.qid = qid) s.eq).map .eq

/-- `dev.q.pidx <- add(dev.q.pidx, n, q.cap)`. -/
def devAdvance (s : State) (q : QRef) (n : Nat) : State :=
  match q with
  | .fl i =>
    match s.flAt i, s.devFlAt i with
    | some fl, some d => s.setDevFl i { d with pidx := addTo d.pidx fl.cap n }
    | _, _ => s
  | .eq i =>
    match s.eqAt i, s.devEqAt i with
    | some q, some d => s.setDevEq i { d with pidx := addTo d.pidx q.cap n }
    | _, _ => s

/-- The queue a doorbell word is for. -/
def doorbellTarget (s : State) (v : BitVec 32) : Option QRef :=
  pickShared (decodeDbw v).qid.toNat (doorbellTargets s (decodeDbw v).qid)

/-- The egress queue of a write-combining window (30_encoding R143). -/
def windowTarget (s : State) (a : Addr) : Option Nat :=
  pickShared a.toNat (indicesOf (fun q : EgressQueue => q.live && q.dbMech = .wcCopy && q.wcAddr = a) s.eq)

/-- The ingress queue a credit word is for. -/
def creditTarget (s : State) (v : BitVec 32) : Option Nat :=
  pickShared (decodeIcw v).iqid.toNat (indicesOf (fun q : IngressQueue => q.live && q.qid = (decodeIcw v).iqid) s.iq)

/-- `armed` after a credit word: kept by `UPDATE_ONLY`, a free value for the reserved index 6 (log 24), else set. -/
def armedAfter (armed : Bool) (v : BitVec 32) : Bool :=
  if (decodeIcw v).timerIdx = 7 then armed
  else if (decodeIcw v).timerIdx = 6 then Config.reservedTimerArmed v.toNat
  else true

/-- The device's reaction to an MMIO write; none when no live queue is named, which "cannot be produced". -/
def devReact (s : State) : MmioWrite → Option State
  | .word .icw v =>
    match creditTarget s v with
    | some i =>
      (s.devIqAt i).map fun d =>
        s.setDevIq i { d with credits := d.credits + (decodeIcw v).cidxInc, armed := armedAfter d.armed v }
    | none => none
  | .word .db v => (doorbellTarget s v).map fun q => devAdvance s q (decodeDbw v).pidxInc.toNat
  | .word (.udb _) v => (doorbellTarget s v).map fun q => devAdvance s q (decodeDbw v).pidxInc.toNat
  | .burst a _ => (windowTarget s a).map fun i => devAdvance s (.eq i) 1

/-- `RegWrite32` and `BurstWrite`: "An MMIO write acts on `dev` at the moment the QE performs it" (46_device_agent
R401), once for each occurrence (20_memory R90). -/
def mmioWrite (s : State) (w : MmioWrite) : State := (devReact (s.logMmio w) w).getD (s.logMmio w)

/-- `RegWrite32(ICW_REG, ICW(qid, timer, cnt, n))` (30_encoding R141). -/
def writeCredit (s : State) (qid : BitVec 12) (timer : BitVec 3) (cnt : Bool) (n : Nat) : State :=
  mmioWrite s (.word .icw (encodeIcw ⟨qid, timer, cnt, BitVec.ofNat 16 n⟩))

/-! ## Status pages (46_device_agent R407) -/

/-- Flit 0 of a ring's status page as the device has it: the ring's identifier and the device's own indices. -/
def statusPage (s : State) : QRef → Option Sp
  | .fl i =>
    match s.flAt i, s.devFlAt i with
    | some fl, some d => some { qid := fl.qid, cidx := d.cidx, pidx := d.pidx }
    | _, _ => none
  | .eq i =>
    match s.eqAt i, s.devEqAt i with
    | some q, some d => some { qid := q.qid, cidx := d.cidx, pidx := d.pidx }
    | _, _ => none

/-- Flit 0 of a ring's status page written. -/
def writeStatus (s : State) (q : QRef) (r : Sp) : Res (Option (State × Ret)) :=
  match q with
  | .fl i =>
    match s.flAt i with
    | some fl => do
      let s ← ringWrite s (flStatusAddr fl) (encodeSp r)
      return some (s, .ok)
    | none => .ok none
  | .eq i =>
    match s.eqAt i with
    | some q => do
      let s ← ringWrite s (eqStatusAddr q) (encodeSp r)
      return some (s, .ok)
    | none => .ok none

/-- `UPDATE_ONLY` (30_encoding R141). -/
def updateOnly : BitVec 3 := 7

end Sys2Proof.Machine
end

