-- ==== Sys2Proof/Machine/Doorbell.lean ====
section
/-! DEFINITION. NOTIFY, which free lists and egress queues share (45_reclaim_doorbell R373 to R375), and an MMIO write that
stands alone. -/

namespace Sys2Proof.Machine

/-- The largest increment of a doorbell word; "1 to `DB_INC_MAX`" (30_encoding R140, log 22). -/
def dbIncLimit (c : Cfg) : Nat := max 1 c.dbIncMax

/-- The increments of the doorbell words for `n` slots: "`k <- min(n, DB_INC_MAX)`" until none is left, "the fewest
possible hardware-visible writes" (45_reclaim_doorbell R373). -/
def doorbellIncs (limit n : Nat) : List Nat :=
  List.replicate (n / limit) limit ++ if n % limit = 0 then [] else [n % limit]

/-- Doorbell words for `n` slots of the queue `qid` in one register. -/
def ringDoorbell (s : State) (reg : MmioReg) (qid : BitVec 16) (n : Nat) : State :=
  (doorbellIncs (dbIncLimit s.cfg) n).foldl
    (fun s k => mmioWrite s (.word reg (encodeDbw ⟨qid, BitVec.ofNat 16 k⟩))) s

/-- The doorbell register of a mechanism; `WC_COPY` falls back to the queue's page (45_reclaim_doorbell R374). -/
def doorbellReg (mech : DbMech) (udb : Addr) : MmioReg :=
  match mech with
  | .reg => .db
  | .udbPage | .wcCopy => .udb udb

/-- `NOTIFY(fl)` (45_reclaim_doorbell R373). -/
def notifyFl (fl : FreeList) (s : State) : Res (FreeList × State) :=
  if fl.doomed then refuseDoomed
  else if fl.pending = 0 then .ok (fl, s)
  else
    .ok ({ fl with pending := 0, dbGroups := 0 },
      ringDoorbell s (doorbellReg fl.dbMech fl.udbAddr) fl.qid fl.pending.toNat)

/-- The index of "the last one committed, `pidx - 1`" (45_reclaim_doorbell R374). -/
def lastDesc (q : EgressQueue) : Nat := addIdx q.pidx.toNat (q.cap.toNat - 1) q.cap.toNat

/-- `NOTIFY(eq)` (45_reclaim_doorbell R373). -/
def notifyEq (q : EgressQueue) (s : State) : Res (EgressQueue × State) :=
  if q.state = .dead then refuseDoomed
  else if q.pending = 0 then .ok (q, s)
  else if q.dbMech = .wcCopy ∧ q.pending = 1 then do
    let d ← ringReadAll s (descAddr q (lastDesc q)) 8
    return ({ q with pending := 0 }, mmioWrite s (.burst q.wcAddr d))
  else
    .ok ({ q with pending := 0 }, ringDoorbell s (doorbellReg q.dbMech q.udbAddr) q.qid q.pending.toNat)

/-! ## An MMIO write standing alone (log 11, log 40) -/

/-- What the QE has posted and not told the device of: its own count `pending`, and how far `dev.q.pidx` is behind its
`pidx`, which a word never passes (46_device_agent R401). -/
def untold (s : State) : QRef → Nat
  | .fl i =>
    match s.flAt i, s.devFlAt i with
    | some fl, some d => min fl.pending.toNat (distOf d.pidx fl.pidx fl.cap)
    | _, _ => 0
  | .eq i =>
    match s.eqAt i, s.devEqAt i with
    | some q, some d => min q.pending.toNat (distOf d.pidx q.pidx q.cap)
    | _, _ => 0

/-- The register is the ring's own: `DB_REG`, or its own page (30_encoding R140, 45_reclaim_doorbell R374). -/
def ownRegister (s : State) (reg : MmioReg) : QRef → Bool
  | .fl i => match s.flAt i with | some fl => reg = doorbellReg fl.dbMech fl.udbAddr | none => false
  | .eq i => match s.eqAt i with | some q => reg = doorbellReg q.dbMech q.udbAddr | none => false

/-- `n` slots told: they are pending no more. -/
def tell (s : State) (r : QRef) (n : Nat) : State :=
  match r with
  | .fl i =>
    match s.iqAt i, s.flAt i with
    | some q, some fl => s.setIq i { q with fl := some { fl with pending := fl.pending - BitVec.ofNat 16 n } }
    | _, _ => s
  | .eq i =>
    match s.eqAt i with
    | some q => s.setEq i { q with pending := q.pending - BitVec.ofNat 16 n }
    | none => s

/-- A doorbell word: to the ring's own register, of 1 to `DB_INC_MAX` slots (30_encoding R140), none of them told before
(46_device_agent R401). -/
def doorbellAlone (s : State) (reg : MmioReg) (v : BitVec 32) : Option State :=
  match doorbellTarget s v with
  | none => none
  | some r =>
    let n := (decodeDbw v).pidxInc.toNat
    if 1 ≤ n && n ≤ dbIncLimit s.cfg && n ≤ untold s r && ownRegister s reg r then some (tell (mmioWrite s (.word reg v)) r n)
    else none

/-- The entries that the cursor has passed and no credit word has returned: of the `cap - 1` there may be, neither credits
of the device nor posted and still to be passed (46_device_agent R401). -/
def unreturned (q : IngressQueue) (d : DevIq) : Nat := q.cap.toNat - 1 - (d.credits.toNat + distOf q.cidx d.pidx q.cap)

/-- A credit word: no `TIMER_IDX` of 6, no `CNT_EN` with `UPDATE_ONLY` (30_encoding R141), and "the QE returns only entries
it consumed" (46_device_agent R401). A `TIMER_IDX` below 6 that names no entry of `cfg.coalesce_timers` is written like
any other (log 11). -/
def creditAlone (s : State) (v : BitVec 32) : Option State :=
  match creditTarget s v with
  | none => none
  | some i =>
    match s.iqAt i, s.devIqAt i with
    | some q, some d =>
      let r := decodeIcw v
      if r.timerIdx = 6 || (r.timerIdx = 7 && r.cntEn) || unreturned q d < r.cidxInc.toNat then none
      else some (mmioWrite s (.word .icw v))
    | _, _ => none

/-- A burst: the next descriptor that the device does not know of, "exactly as they stand in the ring" (30_encoding R143,
46_device_agent R401). -/
def burstAlone (s : State) (window : Addr) (flits : List Flit) : Res (Option State) :=
  match windowTarget s window with
  | none => .ok none
  | some i =>
    match s.eqAt i, s.devEqAt i with
    | some q, some d => do
      let ring ← ringReadAll s (descAddr q d.pidx.toNat) 8
      return if 1 ≤ untold s (.eq i) && flits = ring then some (tell (mmioWrite s (.burst window flits)) (.eq i) 1)
        else none
    | _, _ => .ok none

/-- The QE's write and the device's reaction to it, as one transition (46_device_agent R401); none for a write that the
rules never produce. -/
def writeAlone (s : State) : MmioWrite → Res (Option State)
  | .word .icw v => .ok (creditAlone s v)
  | .word .db v => .ok (doorbellAlone s .db v)
  | .word (.udb a) v => .ok (doorbellAlone s (.udb a) v)
  | .burst a fs => burstAlone s a fs

/-- The record of an MMIO write as an instruction: what is never written, or cannot be produced, is refused. -/
def execWrite (w : MmioWrite) (s : State) : Host.Outcome State Fault Refusal :=
  runQe s fun s => do
    match ← writeAlone s w with
    | some t => return (t, .ok)
    | none => refuseBadarg

end Sys2Proof.Machine
end

