-- ==== Sys2Proof/Machine/FreeList.lean ====
section
/-! DEFINITION. The free list (40_free_list): REFILL and the two selection functions. -/

namespace Sys2Proof.Machine

/-! ## Size-class selection -/

/-- The alignment a class's size must keep (20_memory R87). -/
def sourceAlign (c : Cfg) (packing : Bool) : Nat := if packing then c.packBoundary else c.padBoundary

/-- `meta` of 40_free_list R189. -/
def metaSize (c : Cfg) (packing : Bool) : Nat := if packing || 0 < c.embedBytes then c.metaBytes else 0

/-- "the least `z` with `cfg.zone_sizes[z] ≥ need`" (40_free_list R189). -/
def leastZone (c : Cfg) (need : Nat) : Option Nat := c.zoneSizes.findIdx? (need ≤ ·)

/-- The layout of class `i` in zone `z` (40_free_list R189). -/
def layoutOf (c : Cfg) (packing : Bool) (i z : Nat) : ClusterLayout where
  hwidx := BitVec.ofNat 4 i
  zone := z
  payloadOff := BitVec.ofNat 32 c.embedBytes
  metaOff := BitVec.ofNat 32 (c.zoneSizes.getD z 0 - metaSize c packing)

/-- The candidates of `FIND_BEST_REFILL_SOURCE`, by class index: a class's size and its layout (40_free_list R186). -/
def bestCandidates (c : Cfg) (packing : Bool) : List (Nat × ClusterLayout) :=
  c.bufferSizes.zipIdx.filterMap fun x =>
    if x.1 % sourceAlign c packing = 0 then
      (leastZone c (c.embedBytes + x.1 + metaSize c packing)).map fun z => (x.1, layoutOf c packing x.2 z)
    else none

/-- The candidates of `FIND_SAFE_REFILL_SOURCE` (40_free_list R187). The spec bounds `SAFE_ZONE` nowhere; one that is no
index of `cfg.zone_sizes` has no candidate (log 37). -/
def safeCandidates (c : Cfg) (packing : Bool) : List (Nat × ClusterLayout) :=
  c.bufferSizes.zipIdx.filterMap fun x =>
    if x.1 % sourceAlign c packing = 0 && c.safeZone < c.zoneSizes.length &&
        c.embedBytes + x.1 + metaSize c packing ≤ c.zoneSizes.getD c.safeZone 0 then
      some (x.1, layoutOf c packing x.2 c.safeZone)
    else none

/-- The candidate that no other beats, ties to the earlier one: "every tie is broken toward the lowest class index". -/
def pickBest (better : Nat → Nat → Bool) : List (Nat × ClusterLayout) → Option (Nat × ClusterLayout)
  | [] => none
  | c :: cs =>
    match pickBest better cs with
    | some d => if better d.1 c.1 then some d else some c
    | none => some c

/-- "the candidate with the largest buffer size". -/
def largest (cs : List (Nat × ClusterLayout)) : Option ClusterLayout := (pickBest (fun a b => b < a) cs).map (·.2)

/-- "the one in fits with the smallest buffer size". -/
def smallest (cs : List (Nat × ClusterLayout)) : Option ClusterLayout := (pickBest (fun a b => a < b) cs).map (·.2)

/-- `FIND_BEST_REFILL_SOURCE(maxp, packing)` (40_free_list R186). -/
def findBest (c : Cfg) (maxp : Nat) (packing : Bool) : Option ClusterLayout :=
  let cand := bestCandidates c packing
  if packing then largest cand
  else
    let fits := cand.filter fun x => maxp ≤ x.1
    if fits = [] then largest cand else smallest fits

/-- `FIND_SAFE_REFILL_SOURCE(packing)` (40_free_list R187). -/
def findSafe (c : Cfg) (packing : Bool) : Option ClusterLayout := largest (safeCandidates c packing)

/-! ## Posting buffers -/

/-- The slot record at an index. -/
def slotAt (fl : FreeList) (i : Nat) : FreeListSlot := fl.sdesc.getD i {}

/-- Write the slot record at an index. -/
def setSlot (fl : FreeList) (i : Nat) (sd : FreeListSlot) : FreeList := { fl with sdesc := fl.sdesc.set i sd }

/-- `try_recycle(sd)` for a slot that holds buffer `h`: the slot's record and whether the buffer is posted again
(40_free_list R182). -/
def tryRecycle (sd : FreeListSlot) (h : Nat) (s : State) : Res (FreeListSlot × State × Bool) :=
  if sd.nmbuf = 0 then .ok (sd, s, true)
  else
    match s.bufferOf h with
    | none => ringInvariant
    | some b =>
      if b.refcount = 0 then ringInvariant
      else if b.refcount = 1 then .ok ({ sd with nmbuf := 0 }, s.setRefcount h 1, true)
      else .ok ({ sd with buf := none, nmbuf := 0 }, s.addRef b (-1), false)

/-- One `ZoneAlloc` for a layout: the slot that holds the buffer, or none. -/
def allocateFrom (l : ClusterLayout) (s : State) : Option FreeListSlot × State :=
  let r := zoneAlloc s l.zone (hasMeta s.cfg l)
  (r.1.map fun h => { buf := some h, layout := l, nmbuf := 0 }, r.2)

/-- `allocate_into(fl, sd)`: the default layout, then the safe one (40_free_list R183). -/
def allocateInto (fl : FreeList) (s : State) : Option FreeListSlot × State :=
  let r := allocateFrom fl.cllDef s
  match r.1, fl.cllSafe with
  | some sd, _ => (some sd, r.2)
  | none, some l => allocateFrom l r.2
  | none, none => (none, r.2)

/-- `FLE(addr, hwidx) = addr | hwidx` (30_encoding R122). -/
def fleWord (addr : Addr) (hwidx : BitVec 4) : Flit := addr ||| hwidx.setWidth 64

/-- The payload address of a slot's buffer, `sd.buf.base + sd.layout.payload_off` (40_free_list R190). -/
def payloadAddr (b : Buffer) (l : ClusterLayout) : Addr := b.base + l.payloadOff.setWidth 64

/-- `post_entry(fl, sd)` (40_free_list R190); "a posted free-list slot without a buffer" is a panic. -/
def postEntry (fl : FreeList) (sd : FreeListSlot) (s : State) : Res State :=
  match sd.buf.bind s.bufferOf with
  | none => ringInvariant
  | some b => ringWrite s (flSlotAddr fl fl.pidx.toNat) (fleWord (payloadAddr b sd.layout) sd.layout.hwidx)

/-- A post counted: the indices, and the doorbell after four groups (40_free_list R180, R184). -/
def countPost (fl : FreeList) (s : State) : Res (FreeList × State) :=
  let fl := { fl with pidx := incIdx fl.pidx fl.cap, pending := fl.pending + 1 }
  if completesGroup fl.pidx then
    let fl := { fl with dbGroups := fl.dbGroups + 1 }
    if fl.dbGroups = 4 then notifyFl fl s else .ok (fl, s)
  else .ok (fl, s)

/-- A slot readied for posting: recycled, or freshly allocated; none on "total refill failure" (40_free_list R180). -/
def readySlot (fl : FreeList) (s : State) : Res (Option FreeListSlot × FreeListSlot × State) :=
  let sd := slotAt fl fl.pidx.toNat
  match sd.buf with
  | some h => do
    let (sd, s, reused) ← tryRecycle sd h s
    if reused then return (some sd, sd, s)
    else
      let r := allocateInto fl s
      return (r.1, r.1.getD sd, r.2)
  | none =>
    let r := allocateInto fl s
    .ok (r.1, r.1.getD sd, r.2)

/-- The loop of REFILL, with the slots posted so far (40_free_list R180). -/
def refillLoop : Nat → FreeList → State → Nat → Res (FreeList × State × Nat)
  | 0, fl, s, posted => .ok (fl, s, posted)
  | n + 1, fl, s, posted =>
    if incIdx fl.pidx fl.cap = fl.cidx then .ok (fl, s, posted)
    else do
      let (ready, sd, s) ← readySlot fl s
      let fl := setSlot fl fl.pidx.toNat sd
      match ready with
      | none => return (fl, s.raise .noresourceBuf, posted)
      | some sd =>
        let s ← postEntry fl sd s
        let (fl, s) ← countPost fl s
        refillLoop n fl s (posted + 1)

/-- `REFILL fl, n`: `(posted, starving)` (40_free_list R180, R185). -/
def refill (n : Nat) (fl : FreeList) (s : State) : Res (FreeList × State × Nat × Bool) :=
  if fl.doomed then refuseDoomed
  else do
    let (fl, s, posted) ← refillLoop n fl s 0
    let (fl, s) ← notifyFl fl s
    return (fl, s, posted, starvingIndicator fl)

/-- Registration as starving, of the list of ingress queue `i` (40_free_list R191). -/
def registerStarving (i : Nat) (starving : Bool) (fl : FreeList) (s : State) : FreeList × State :=
  if starving then ({ fl with starving := true }, s.setStarving (s.starving ++ [i])) else (fl, s)

/-- `n` of REFILL: "REFILL with `n > 65535`" is refused (60_exceptions R461). -/
def refillMax : Nat := 65535

/-! ## Instructions -/

/-- `REFILL fl, n` (40_free_list R180, R191). DESIGN CHOICE: a doomed list is refused with `DOOMED` also when `n > 65535`, which
R461 refuses with `BADARG` (log 39). -/
def execRefill (i n : Nat) (s : State) : Host.Outcome State Fault Refusal :=
  runQe s fun s => onFl s i fun fl => do
    if fl.doomed then refuseDoomed
    else if refillMax < n then refuseBadarg
    else
      let (fl, s, posted, starving) ← refill n fl s
      let (fl, s) := registerStarving i starving fl s
      return (fl, s, .refilled posted starving)

/-- `FIND_BEST_REFILL_SOURCE(maxp, packing)` (40_free_list R186, log 10). -/
def execFindBestRefillSource (maxp : BitVec 32) (packing : Bool) (s : State) : Host.Outcome State Fault Refusal :=
  runQe s fun s => .ok (s, .layout (findBest s.cfg maxp.toNat packing))

/-- `FIND_SAFE_REFILL_SOURCE(packing)` (40_free_list R187, log 10). -/
def execFindSafeRefillSource (packing : Bool) (s : State) : Host.Outcome State Fault Refusal :=
  runQe s fun s => .ok (s, .layout (findSafe s.cfg packing))

end Sys2Proof.Machine
end

