-- ==== Sys2Proof/Machine/Reassembly.lean ====
section
/-! DEFINITION. Frame reassembly (41_frame_reassembly): CONSUME_FRAME and FRAME_RELEASE. -/

namespace Sys2Proof.Machine

/-- The size of a slot's own class (41_frame_reassembly R224). -/
def classSize (c : Cfg) (l : ClusterLayout) : Nat := c.bufferSizes.getD l.hwidx.toNat 0

/-- `advance_slot(fl)`: "advancing an empty list is a panic" (41_frame_reassembly R227). -/
def advanceSlot (fl : FreeList) : Res FreeList :=
  if fl.cidx = fl.pidx then ringInvariant else .ok { fl with cidx := incIdx fl.cidx fl.cap, rxOffset := 0 }

/-- `consume_segment(fl, sd, off, len)`: the segment and the slot's record, or none when the copy path gets no heap
object (41_frame_reassembly R225). -/
def consumeSegment (sd : FreeListSlot) (off len : Nat) (s : State) : Res (Option (Segment × FreeListSlot) × State) :=
  match sd.buf.bind s.bufferOf with
  | none => ringInvariant
  | some b =>
    let at_ := sd.layout.payloadOff.toNat + off
    if len < s.cfg.rxCopyThreshold then do
      let bytes ← bufRead s (b.base.toNat + at_) len
      let r := heapAlloc s bytes
      return (r.1.map fun h => (.copy h (BitVec.ofNat 32 len), sd), r.2)
    else if b.hasMeta then
      .ok (some (.shared b.handle (BitVec.ofNat 32 at_) (BitVec.ofNat 32 len), { sd with nmbuf := sd.nmbuf + 1 }),
        s.addRef b 1)
    else
      .ok (some (.owned b.handle sd.layout.payloadOff (BitVec.ofNat 32 len), { sd with buf := none }), s)

/-- The payload cursor after a segment of `len` bytes in a buffer of `hs` bytes, when packing (41_frame_reassembly
R226). -/
def packedOffset (c : Cfg) (off len hs : Nat) : Nat := off + min (roundup len c.packBoundary) (hs - off)

/-- The move after a segment: the payload cursor when packing, else the slot (41_frame_reassembly R220, R226). -/
def moveCursor (c : Cfg) (fl : FreeList) (len hs : Nat) : Res FreeList :=
  if fl.packing then
    let off := packedOffset c fl.rxOffset.toNat len hs
    if off = hs then advanceSlot fl else .ok { fl with rxOffset := BitVec.ofNat 32 off }
  else advanceSlot fl

/-- The frame with one more segment; "`len` always the sum of the segments' lengths" (10_state R43). -/
def LogicalFrame.extend (f : LogicalFrame) (seg : Segment) (len : Nat) : LogicalFrame :=
  { f with segs := f.segs ++ [seg], len := f.len + BitVec.ofNat 32 len }

/-- The frame is saved: "never silently dropped" (41_frame_reassembly R223). -/
def saveFrame (fl : FreeList) (frame : LogicalFrame) (remaining : Nat) : FreeList :=
  { fl with resume := some ⟨frame, BitVec.ofNat 32 remaining⟩, bufResume := true }

/-- The loop of CONSUME_FRAME: the completed frame, or none with the frame saved. `fuel` bounds the segments; each
takes at least one byte (41_frame_reassembly R220, R224). A cursor that is not inside its slot's class is a panic
(log 18). -/
def consumeLoop : Nat → Nat → FreeList → State → LogicalFrame → Res (Option LogicalFrame × FreeList × State)
  | 0, _, fl, s, frame => .ok (some frame, fl, s)
  | fuel + 1, remaining, fl, s, frame =>
    if remaining = 0 then .ok (some frame, fl, s)
    else if fl.cidx = fl.pidx then .ok (none, saveFrame fl frame remaining, s.raise .noresourceBuf)
    else
      let sd := slotAt fl fl.cidx.toNat
      let hs := classSize s.cfg sd.layout
      if hs ≤ fl.rxOffset.toNat then ringInvariant
      else do
        let len := min remaining (hs - fl.rxOffset.toNat)
        let (r, s) ← consumeSegment sd fl.rxOffset.toNat len s
        match r with
        | none => return (none, saveFrame fl frame remaining, s.raise .noresourceBuf)
        | some (seg, sd) =>
          let fl ← moveCursor s.cfg (setSlot fl fl.cidx.toNat sd) len hs
          consumeLoop fuel (remaining - len) fl s (frame.extend seg len)

/-- The start of a frame: the rest of a shared buffer is abandoned when `NEWBUF` is 1 (41_frame_reassembly R221). -/
def startFrame (fl : FreeList) (newbuf : Bool) : Res FreeList :=
  if newbuf && fl.rxOffset ≠ 0 then advanceSlot fl else .ok fl

/-- `CONSUME_FRAME(fl, total_length, newbuf)` (41_frame_reassembly R220): `Complete(frame)`, or none for `Incomplete`. The
frame's metadata, which only the dispatch of the entry sets (42_ingress_service R253), is 0 (log 19). -/
def consumeFrame (fl : FreeList) (total : Nat) (newbuf : Bool) (s : State) :
    Res (Option LogicalFrame × FreeList × State) :=
  match fl.bufResume, fl.resume with
  | true, some r =>
    consumeLoop r.remaining.toNat r.remaining.toNat { fl with bufResume := false, resume := none } s r.frame
  | _, _ => do
    let fl ← startFrame fl newbuf
    consumeLoop total total fl s {}

/-- `FRAME_RELEASE seg`; a heap object or buffer that is gone was released before, which is a panic
(41_frame_reassembly R230, 60_exceptions R458). -/
def releaseSegment (s : State) : Segment → Res State
  | .copy h _ => if (heapObject s.heap h).isSome then .ok (s.setHeap (heapFree s.heap h)) else ringInvariant
  | .shared h _ _ =>
    match s.bufferOf h with
    | some b => dropRef s b
    | none => ringInvariant
  | .owned h _ _ => if (s.bufferOf h).isSome then .ok (s.zoneFree h) else ringInvariant

/-- Every segment of a frame released by the QE itself, which is noted as no event names them: a later FRAME_RELEASE of
one is a second release (41_frame_reassembly R229, R230, log 16). -/
def releaseAll (s : State) : List Segment → Res State
  | [] => .ok s
  | g :: gs => do
    let s ← releaseSegment s g
    releaseAll (s.setGiven (s.given ++ [g])) gs

/-- The segments of the frames handed to the client so far (42_ingress_service R265). -/
def deliveredSegs (out : List Event) : List Segment :=
  out.flatMap fun e =>
    match e with
    | .deliver _ f | .lroEnqueue _ f => f.segs
    | _ => []

/-! ## Instructions -/

/-- `CONSUME_FRAME` of the free list of ingress queue `i`, as an instruction: the frame's segments are the issuer's
(log 10). -/
def execConsumeFrame (i : Nat) (total : BitVec 31) (newbuf : Bool) (s : State) : Host.Outcome State Fault Refusal :=
  runQe s fun s => onFl s i fun fl =>
    if fl.doomed then refuseDoomed
    else if total = 0 then refuseBadarg
    else do
      let (r, fl, s) ← consumeFrame fl total.toNat newbuf s
      match r with
      | some frame =>
        return (fl, (s.setHeld (s.held ++ frame.segs)).setGiven (s.given ++ frame.segs), .complete frame)
      | none => return (fl, s, .incomplete)

/-- `FRAME_RELEASE seg` (41_frame_reassembly R230): a segment the client holds is released; "releasing a segment
twice" is a panic, whether the client or the QE itself (R229) released it first; a segment that never was one of a frame
completed or torn down is no operand (log 16). -/
def execFrameRelease (seg : Segment) (s : State) : Host.Outcome State Fault Refusal :=
  runQe s fun s =>
    if seg ∈ s.held then do
      let s ← releaseSegment (s.setHeld (s.held.erase seg)) seg
      return (s, .ok)
    else if seg ∈ s.given ∨ seg ∈ deliveredSegs s.out then ringInvariant
    else refuseBadarg

end Sys2Proof.Machine
end

