-- ==== Sys2Proof/Machine/Reclaim.lean ====
section
/-! DEFINITION. Reclamation, resume and the NOTIFY command (45_reclaim_doorbell). -/

namespace Sys2Proof.Machine

/-- The slot record at a descriptor index (10_state R51). -/
def recordAt (q : EgressQueue) (i : Nat) : EgressSlot := q.sdesc.getD i {}

/-- Write the slot record at a descriptor index. -/
def setRecord (q : EgressQueue) (i : Nat) (r : EgressSlot) : EgressQueue := { q with sdesc := q.sdesc.set i r }

/-- "repeat sd.credits times": the oldest map is released, its packet with it; "none left: panic"
(45_reclaim_doorbell R370). -/
def releaseMaps : Nat → EgressQueue → State → Res (EgressQueue × State)
  | 0, q, s => .ok (q, s)
  | n + 1, q, s =>
    match q.maps with
    | [] => ringInvariant
    | m :: ms =>
      releaseMaps n { q with maps := ms, mapsFree := q.mapsFree + 1 } ((s.emit (.dmaUnmap m.map)).emit (.freePkt m.pkt))

/-- The walk of RECLAIM over the slot records, with the descriptors and credits taken so far; `fuel` bounds the
records, each of at least one descriptor (45_reclaim_doorbell R370, R371). -/
def reclaimLoop (bound : Nat) : Nat → Nat → EgressQueue → State → Nat → Nat → Res (EgressQueue × State × Nat × Nat)
  | 0, _, q, s, descs, credits => .ok (q, s, descs, credits)
  | fuel + 1, left, q, s, descs, credits =>
    if left = 0 ∨ bound ≤ credits then .ok (q, s, descs, credits)
    else
      let sd := recordAt q q.cidx.toNat
      if sd.descUsed = 0 then ringInvariant
      else if left < sd.descUsed.toNat then .ok (q, s, descs, credits)
      else do
        let (q, s) ← releaseMaps sd.credits.toNat q s
        let q := setRecord q q.cidx.toNat {}
        reclaimLoop bound fuel (left - sd.descUsed.toNat) { q with cidx := addTo q.cidx q.cap sd.descUsed.toNat } s
          (descs + sd.descUsed.toNat) (credits + sd.credits.toNat)

/-- `RESUME_CHECK(eq, hw)` of egress queue `i` (45_reclaim_doorbell R372). -/
def resumeCheck (i : Nat) (hw : BitVec 16) (q : EgressQueue) (s : State) : EgressQueue × State :=
  if resumes q hw then
    ({ q with state := .active }, (s.setStalled (s.stalled.erase i)).emit (.eqResumed q.qid))
  else (q, s)

/-- `RECLAIM eq, max_credits` of egress queue `i`: `(descs, credits)` (45_reclaim_doorbell R370). -/
def reclaim (i : Nat) (maxCredits : Nat) (q : EgressQueue) (s : State) : Res (EgressQueue × State × Nat × Nat) :=
  if q.state = .dead then refuseDoomed
  else do
    let sp ← ringRead s (eqStatusAddr q)
    let hw := (decodeSp sp).cidx
    if q.cap ≤ hw then ringInvariant
    else if occEq q < reclaimable q hw then ringInvariant
    else
      let (q, s, descs, credits) ← reclaimLoop maxCredits (reclaimable q hw) (reclaimable q hw) q s 0 0
      let q := { q with avail := q.avail + BitVec.ofNat 16 descs }
      let (q, s) := resumeCheck i hw q s
      return (q, s, descs, credits)

/-! ## Instructions -/

/-- `RECLAIM eq, max_credits` (45_reclaim_doorbell R370). -/
def execReclaim (i : Nat) (maxCredits : BitVec 16) (s : State) : Host.Outcome State Fault Refusal :=
  runQe s fun s => onEq s i fun q => do
    let (q, s, descs, credits) ← reclaim i maxCredits.toNat q s
    return (q, s, .reclaimed descs credits)

/-- `NOTIFY q` (45_reclaim_doorbell R373). -/
def execNotify (q : QRef) (s : State) : Host.Outcome State Fault Refusal :=
  runQe s fun s =>
    match q with
    | .fl i => onFl s i fun fl => do
      let (fl, s) ← notifyFl fl s
      return (fl, s, .ok)
    | .eq i => onEq s i fun q => do
      let (q, s) ← notifyEq q s
      return (q, s, .ok)

/-- `RESUME_CHECK eq, hw` as an instruction; `hw` is an index of the ring (45_reclaim_doorbell R372, log 10). -/
def execResumeCheck (i : Nat) (hw : BitVec 16) (s : State) : Host.Outcome State Fault Refusal :=
  runQe s fun s => onEq s i fun q =>
    if q.state = .dead then refuseDoomed
    else if q.cap ≤ hw then refuseBadarg
    else
      let r := resumeCheck i hw q s
      .ok (r.1, r.2, .ok)

end Sys2Proof.Machine
end

