-- ==== Sys2Proof/Machine/Ingress.lean ====
section
/-! DEFINITION. Ingress service and completion dispatch (42_ingress_service): INTERRUPT, SERVICE, DEFERRED_RUN and the
ingress entries. -/

namespace Sys2Proof.Machine

/-! ## The arms of the dispatch -/

/-- A violation with its code: the queue's error counted, the entry logged (60_exceptions R455, R456). -/
def violationAs (e : Exc) (q : IngressQueue) (s : State) (f0 f1 : Flit) : IngressQueue × State :=
  ({ q with protoErrors := q.protoErrors + 1 }, (s.raise e).emit (.log e q.qid q.cidx f0 f1))

/-- `violation(iq, f0, f1)` (42_ingress_service R256). -/
def violation (q : IngressQueue) (s : State) (f0 f1 : Flit) : IngressQueue × State := violationAs .protoOpcode q s f0 f1

/-- `gen_check(iq, f0, f1)` (60_exceptions R456, log 29). -/
def genCheck (c : Cfg) (q : IngressQueue) (f0 f1 : Flit) : Bool := c.genCheck.contains (q.qid, f0, f1)

/-- `deliver(iq, frame)`: from the event on the client holds the segments (42_ingress_service R265, log 16). -/
def deliver (q : IngressQueue) (frame : LogicalFrame) (s : State) : IngressQueue × State :=
  let s := s.setHeld (s.held ++ frame.segs)
  if q.lro then ({ q with lroPending := q.lroPending + 1 }, s.emit (.lroEnqueue q.qid frame))
  else (q, s.emit (.deliver q.qid frame))

/-- The metadata of a receive message (42_ingress_service R253, 10_state R44). -/
def frameMeta (e : RxEntry) : FrameMeta := ⟨e.csumOk, e.vlanValid, e.vlanTag⟩

/-- `frame.meta <- ...` (42_ingress_service R253). -/
def LogicalFrame.withMeta (f : LogicalFrame) (m : FrameMeta) : LogicalFrame := { f with fm := m }

/-- The judgement of a receive entry once its frame is complete: not `RX_PKT`, a length mismatch, or delivered
(42_ingress_service R253, 60_exceptions R463). -/
def judgeFrame (e : RxEntry) (f0 f1 : Flit) (frame : LogicalFrame) (q : IngressQueue) (s : State) :
    Res (IngressQueue × State) :=
  if e.opcode ≠ 0x20 then do
    let s ← releaseAll s frame.segs
    return violation q s f0 f1
  else if e.msgLen.toNat ≠ e.len.toNat then do
    let s ← releaseAll s frame.segs
    return ({ q with rxErrors := q.rxErrors + 1 },
      (s.raise .lenMismatch).emit (.log .lenMismatch q.qid q.cidx f0 f1))
  else .ok (deliver q (frame.withMeta (frameMeta e)) s)

/-- `dispatch_rx(iq, f0, f1)`: whether the cursor advances (42_ingress_service R253). -/
def dispatchRx (e : RxEntry) (f0 f1 : Flit) (q : IngressQueue) (s : State) : Res (Bool × IngressQueue × State) :=
  match q.fl with
  | none =>
    let r := violation q s f0 f1
    .ok (true, r.1, r.2)
  | some fl =>
    if e.len = 0 then
      let r := violation q s f0 f1
      .ok (true, r.1, r.2)
    else do
      let (frame, fl, s) ← consumeFrame fl e.len.toNat e.newbuf s
      let q := { q with fl := some fl }
      match frame with
      | none => return (false, q, s)
      | some frame =>
        let (q, s) ← judgeFrame e f0 f1 frame q s
        return (true, q, s)

/-- `egr_update(iq, f0, f1)` (42_ingress_service R264). DESIGN CHOICE: `EGR_RECLAIM_BATCH` is the bound as it stands, also above
65535 (log 41). -/
def egrUpdate (eqid : BitVec 16) (f0 f1 : Flit) (q : IngressQueue) (s : State) : Res (IngressQueue × State) :=
  match s.liveEqByQid eqid with
  | none => .ok (violation q s f0 f1)
  | some j =>
    match s.eqAt j with
    | none => .ok (violation q s f0 f1)
    | some e => do
      let (e, s, _, _) ← reclaim j s.cfg.egrReclaimBatch e s
      return (q, s.setEq j e)

/-- `dispatch_oob(iq, f0, f1)` for an opcode that is not the egress update: the external handler's invocation is the
event (42_ingress_service R254, 30_encoding R137). -/
def dispatchOob (op : BitVec 8) (f0 f1 : Flit) (q : IngressQueue) (s : State) : IngressQueue × State :=
  if op = 0x20 || !s.cfg.handlers.contains op then violation q s f0 f1
  else (q, s.emit (.oobDeliver q.qid op f0))

/-- What the forwarded-interrupt arm does: the service it nests differs by depth (42_ingress_service R255). -/
abbrev FwdArm := BitVec 12 → Flit → Flit → IngressQueue → State → Res (IngressQueue × State)

/-- In a nested service every forwarded-interrupt entry is a violation: "recursion depth is limited to one level by
construction" (42_ingress_service R255). -/
def fwdNested : FwdArm := fun _ f0 f1 q s => .ok (violation q s f0 f1)

/-- An entry on which a platform's `gen_check` is true "is handled exactly as rule R455 with code 6" (60_exceptions R456);
any other goes to its arm. -/
def afterGenCheck (f0 f1 : Flit) (arm : IngressQueue → State → Res (Bool × IngressQueue × State)) (q : IngressQueue)
    (s : State) : Res (Bool × IngressQueue × State) :=
  if genCheck s.cfg q f0 f1 then
    let r := violationAs .protoGen q s f0 f1
    .ok (true, r.1, r.2)
  else arm q s

/-- The dispatch by response type: whether the cursor advances (42_ingress_service R251). -/
def dispatchTyped (fwd : FwdArm) (f0 f1 : Flit) (q : IngressQueue) (s : State) : Res (Bool × IngressQueue × State) :=
  match decodeEntry f0 f1 with
  | .rx e => dispatchRx e f0 f1 q s
  | .egrUpdate e => do
    let (q, s) ← egrUpdate e.eqid f0 f1 q s
    return (true, q, s)
  | .oob e =>
    let r := dispatchOob e.opcode f0 f1 q s
    .ok (true, r.1, r.2)
  | .fwd e => do
    let (q, s) ← fwd e.targetQid f0 f1 q s
    return (true, q, s)
  | .reserved _ =>
    let r := violation q s f0 f1
    .ok (true, r.1, r.2)

/-- The dispatch of a new entry. -/
def dispatch (fwd : FwdArm) (f0 f1 : Flit) : IngressQueue → State → Res (Bool × IngressQueue × State) :=
  afterGenCheck f0 f1 (dispatchTyped fwd f0 f1)

/-! ## The service loop -/

/-- The cursor one entry further: "when `iq.cidx` wraps to 0 the expected generation is inverted"
(42_ingress_service R257). -/
def advanceCursor (q : IngressQueue) : IngressQueue :=
  { q with cidx := incIdx q.cidx q.cap, gen := genAfter q.gen (incIdx q.cidx q.cap) }

/-- `lro_flush(iq)` (42_ingress_service R260). -/
def lroFlush (q : IngressQueue) (s : State) : IngressQueue × State :=
  if lroDue q then ({ q with lroPending := 0 }, s.emit (.lroFlush q.qid)) else (q, s)

/-- `refill_if_low(iq)` of ingress queue `i` (42_ingress_service R261). -/
def refillIfLow (i : Nat) (q : IngressQueue) (s : State) : Res (IngressQueue × State) :=
  match q.fl with
  | none => .ok (q, s)
  | some fl =>
    if needsRefill fl then do
      let (fl, s, _, starving) ← refill (min (freeSlots fl) s.cfg.serviceRefillMax) fl s
      let (fl, s) := registerStarving i starving fl s
      return ({ q with fl := some fl }, s)
    else .ok (q, s)

/-- The end of a service call after its credit word: flush, refill, return (42_ingress_service R251). -/
def endService (i : Nat) (done : Bool) (q : IngressQueue) (s : State) : Res (IngressQueue × State × Bool) := do
  let r := lroFlush q s
  let (q, s) ← refillIfLow i r.1 r.2
  return (q, s, done)

/-- `ring_empty`: the credit word that re-arms the interrupt (42_ingress_service R259). -/
def ringEmpty (i nd : Nat) (q : IngressQueue) (s : State) : Res (IngressQueue × State × Bool) :=
  endService i true q (writeCredit s q.qid q.timerIdx q.cntEn nd)

/-- The budget is used up: an `UPDATE_ONLY` credit word (42_ingress_service R258). -/
def budgetExit (i nd : Nat) (q : IngressQueue) (s : State) : Res (IngressQueue × State × Bool) :=
  endService i false q (writeCredit s q.qid updateOnly false nd)

/-- `frame_incomplete` (42_ingress_service R251). -/
def frameIncomplete (i nd : Nat) (q : IngressQueue) (s : State) : Res (IngressQueue × State × Bool) :=
  endService i false q (if 0 < nd then writeCredit s q.qid updateOnly false nd else s)

/-- The loop of SERVICE with the budget left and the entries dispatched so far (42_ingress_service R251, R252): the
footer is read first, the message only when the entry is new. -/
def serviceLoop (fwd : FwdArm) (i : Nat) : Nat → Nat → IngressQueue → State → Res (IngressQueue × State × Bool)
  | 0, nd, q, s => budgetExit i nd q s
  | left + 1, nd, q, s => do
    let f1 ← ringRead s (entryAddr q q.cidx.toNat + 8)
    if isNew q f1 then
      let f0 ← ringRead s (entryAddr q q.cidx.toNat)
      let (advance, q, s) ← dispatch fwd f0 f1 q s
      if advance then serviceLoop fwd i left (nd + 1) (advanceCursor q) s else frameIncomplete i nd q s
    else ringEmpty i nd q s

/-- `SERVICE` of a forwarded queue, one level deep (42_ingress_service R255). -/
def serviceNested (i budget : Nat) (q : IngressQueue) (s : State) : Res (IngressQueue × State × Bool) :=
  serviceLoop fwdNested i budget 0 q s

/-- `dispatch_fwd(iq, f0, f1, budget)` (42_ingress_service R255). -/
def dispatchFwd (budget : Nat) : FwdArm := fun target f0 f1 q s =>
  if q.role ≠ .forwarder then .ok (violation q s f0 f1)
  else
    match s.childByQid q.qid target with
    | none => .ok (violation q s f0 f1)
    | some j =>
      match (s.iqAt j).bind enterService with
      | none => .ok (q, s)
      | some t => do
        let (t, s, done) ← serviceNested j (fwdBudget s.cfg budget) t s
        let r := finishService s j t done
        return (q, r.2.setIq j r.1)

/-- `SERVICE iq, budget` of ingress queue `i` (42_ingress_service R251): whether the result is `Done`. -/
def service (i budget : Nat) (q : IngressQueue) (s : State) : Res (IngressQueue × State × Bool) :=
  serviceLoop (dispatchFwd budget) i budget 0 q s

/-- What SERVICE returns. -/
def serviceRet (done : Bool) : Ret := if done then .done else .more

/-- A queue that is Busy serviced with its own budget, and `finish` (42_ingress_service R250, R262). -/
def serviceAndFinish (i : Nat) (q : IngressQueue) (s : State) : Res (IngressQueue × State × Ret) := do
  let (q, s, done) ← service i q.budget.toNat q s
  let r := finishService s i q done
  return (r.1, r.2, serviceRet done)

/-! ## Instructions: the commands -/

/-- `INTERRUPT iq` (42_ingress_service R250, R266). -/
def execInterrupt (i : Nat) (s : State) : Host.Outcome State Fault Refusal :=
  runQe s fun s => onIq s i fun q =>
    if q.state = .dead then refuseDoomed
    else if q.role = .forwarded then refuseBadarg
    else
      match enterService q with
      | none => .ok (q, s.raise .busyReject, .rejected)
      | some q => serviceAndFinish i q s

/-- `SERVICE iq, budget` as an instruction: the queue is Busy, "held by the caller", and stays so (42_ingress_service
R251, log 9). -/
def execService (i : Nat) (budget : BitVec 16) (s : State) : Host.Outcome State Fault Refusal :=
  runQe s fun s => onIq s i fun q =>
    if q.state = .dead then refuseDoomed
    else if q.state ≠ .busy || budget = 0 then refuseBadarg
    else do
      let (q, s, done) ← service i budget.toNat q s
      return (q, s, serviceRet done)

/-- `DEFERRED_RUN` (42_ingress_service R262). -/
def execDeferredRun (s : State) : Host.Outcome State Fault Refusal :=
  runQe s fun s =>
    match s.worklist with
    | [] => .ok (s, .nothing)
    | i :: rest => onIq (s.setWorklist rest) i fun q => serviceAndFinish i q (s.setWorklist rest)

/-! ## Instructions: the ingress entries -/

/-- An entry dispatched at the cursor of ingress queue `i`, which a service call holds (log 10, log 35): it is new only
when its `GEN` is the queue's, and the cursor then advances unless its frame is incomplete (42_ingress_service R252,
R257). No service call returns the entry to the device; an `ICW` standing alone may (log 35). DESIGN CHOICE: the entry need not
stand in the ring at the cursor, nor have been posted by the device (log 35). -/
def dispatchAlone (i : Nat) (f : Flit × Flit) (arm : IngressQueue → State → Res (Bool × IngressQueue × State)) (s : State) :
    Res (State × Ret) :=
  onIq s i fun q =>
    if q.state = .dead then refuseDoomed
    else if q.state ≠ .busy then refuseBadarg
    else if isNew q f.2 then do
      let (advance, q, s) ← afterGenCheck f.1 f.2 arm q s
      return (if advance then advanceCursor q else q, s, if advance then .advance else .stay)
    else .ok (q, s, .stale)

/-- `IQE_RX` (42_ingress_service R253). -/
def execIqeRx (i : Nat) (e : RxEntry) (s : State) : Host.Outcome State Fault Refusal :=
  runQe s fun s => dispatchAlone i (encodeRx e) (dispatchRx e (encodeRx e).1 (encodeRx e).2) s

/-- `IQE_OOB` with the egress-update message (42_ingress_service R264). -/
def execIqeEgrUpdate (i : Nat) (e : EgrUpdateEntry) (s : State) : Host.Outcome State Fault Refusal :=
  runQe s fun s => dispatchAlone i (encodeEgrUpdate e)
    (fun q s => do
      let (q, s) ← egrUpdate e.eqid (encodeEgrUpdate e).1 (encodeEgrUpdate e).2 q s
      return (true, q, s)) s

/-- `IQE_OOB` with any other opcode (42_ingress_service R254). -/
def execIqeOob (i : Nat) (e : OobEntry) (s : State) : Host.Outcome State Fault Refusal :=
  runQe s fun s => dispatchAlone i (encodeOob e)
    (fun q s =>
      let r := dispatchOob e.opcode (encodeOob e).1 (encodeOob e).2 q s
      .ok (true, r.1, r.2)) s

/-- `IQE_FWD`; the budget the target's is taken from is the queue's own (42_ingress_service R255, log 35). -/
def execIqeFwd (i : Nat) (e : FwdEntry) (s : State) : Host.Outcome State Fault Refusal :=
  runQe s fun s => dispatchAlone i (encodeFwd e)
    (fun q s => do
      let (q, s) ← dispatchFwd q.budget.toNat e.targetQid (encodeFwd e).1 (encodeFwd e).2 q s
      return (true, q, s)) s

/-- An entry of the reserved `TYPE` = 3: a protocol violation (42_ingress_service R256). -/
def execIqeReserved (i : Nat) (e : ReservedEntry) (s : State) : Host.Outcome State Fault Refusal :=
  runQe s fun s => dispatchAlone i (encodeReserved e)
    (fun q s =>
      let r := violation q s (encodeReserved e).1 (encodeReserved e).2
      .ok (true, r.1, r.2)) s

end Sys2Proof.Machine
end

