-- ==== Sys2Proof/Machine/Device.lean ====
section
/-! DEFINITION. The device agent (46_device_agent): its steps, each with the precondition the rule gives. -/

namespace Sys2Proof.Machine

/-! ## The device's cursors -/

/-- A slot a doorbell has covered: "from `dev.fl.cidx` up to, not including, `dev.fl.pidx`" (46_device_agent R402). -/
def coversSlot (fl : FreeList) (d : DevFl) (idx : Nat) : Bool :=
  idx < fl.cap.toNat && dist d.cidx.toNat idx fl.cap.toNat < distOf d.cidx d.pidx fl.cap

/-- `dev.fl` one slot further, at the start of its buffer (46_device_agent R403). -/
def devAdvanceSlot (fl : FreeList) (d : DevFl) : DevFl := { d with cidx := incIdx d.cidx fl.cap, off := 0 }

/-- `dev.fl` after `len` bytes in a buffer of `hs` bytes (46_device_agent R403). -/
def devMoveCursor (c : Cfg) (fl : FreeList) (d : DevFl) (len hs : Nat) : DevFl :=
  if fl.packing then
    let off := packedOffset c d.off.toNat len hs
    if off = hs then devAdvanceSlot fl d else { d with off := BitVec.ofNat 32 off }
  else devAdvanceSlot fl d

/-- The size of the buffer a free-list entry names (46_device_agent R402). -/
def fetchedSize (c : Cfg) (e : Fle) : Nat := c.bufferSizes.getD e.hwidx.toNat 0

/-- The payload address of a free-list entry, `e.ADDR_HI * 16` (46_device_agent R403). -/
def fetchedAddr (e : Fle) : Addr := e.addrHi ++ (0 : BitVec 4)

/-- Bytes placed from the device's cursor; none when the fetched buffers do not hold them (46_device_agent R403). -/
def devPlace (fl : FreeList) : Nat → List Byte → DevFl → State → Res (Option (DevFl × State))
  | 0, bytes, d, s => .ok (if bytes = [] then some (d, s) else none)
  | fuel + 1, bytes, d, s =>
    if bytes = [] then .ok (some (d, s))
    else if d.cidx = d.pidx then .ok none
    else do
      let w ← ringRead s (flSlotAddr fl d.cidx.toNat)
      let e := decodeFle w
      let hs := fetchedSize s.cfg e
      if hs ≤ d.off.toNat then return none
      else
        let len := min bytes.length (hs - d.off.toNat)
        let s ← bufWrite s ((fetchedAddr e).toNat + d.off.toNat) (bytes.take len)
        devPlace fl fuel (bytes.drop len) (devMoveCursor s.cfg fl d len hs) s

/-! ## Posting an entry -/

/-- `dev.iq` after an entry: the index, the generation at the wrap, one credit less (46_device_agent R403). -/
def devPosted (q : IngressQueue) (d : DevIq) : DevIq :=
  { d with pidx := incIdx d.pidx q.cap, gen := genAfter d.gen (incIdx d.pidx q.cap), credits := d.credits - 1 }

/-- An entry written in the ring of ingress queue `i`, "flit 0 ... first", "flit 1 ... last" (46_device_agent R403). -/
def devPost (i : Nat) (q : IngressQueue) (d : DevIq) (f : Flit × Flit) (s : State) : Res State := do
  let s ← ringWrite s (entryAddr q d.pidx.toNat) f.1
  let s ← ringWrite s (entryAddr q d.pidx.toNat + 8) f.2
  return s.setDevIq i (devPosted q d)

/-- The receive entry of a frame of `n` bytes (46_device_agent R403). -/
def rxEntry (n : Nat) (fm : FrameMeta) (newbuf gen : Bool) : RxEntry where
  opcode := 0x20
  csumOk := fm.csumOk
  vlanValid := fm.vlanValid
  vlanTag := fm.vlanTag
  msgLen := BitVec.ofNat 32 n
  newbuf := newbuf
  len := BitVec.ofNat 31 n
  footer := { gen := gen }

/-- The footer of an out-of-band entry, `TYPE = 1` (46_device_agent R404). -/
def oobFooter (gen : Bool) : Flit := encodeFooter 0 1 { gen := gen }

/-- At least one entry the QE has not credited back (46_device_agent R408). -/
def holdsEntry (q : IngressQueue) (d : DevIq) : Bool := d.credits.toNat < q.cap.toNat - 1

/-! ## Instructions -/

/-- `DEV_DB`: the reaction "at the moment the QE performs" a write (46_device_agent R401). As a step of its own it is that
write and the reaction together (log 40), so a write that the rules never produce, or that a panicked QE does not make,
has none. -/
def execDevDb (w : MmioWrite) (s : State) : Host.Outcome State Fault Refusal :=
  runDevice s fun s => do
    if s.panic then return none
    else return (← writeAlone s w).map fun t => (t, .ok)

/-- `DEV_FL`: the entry of a slot is fetched (46_device_agent R402, log 34). -/
def execDevFl (i idx : Nat) (s : State) : Host.Outcome State Fault Refusal :=
  runDevice s fun s =>
    match s.flAt i, s.devFlAt i with
    | some fl, some d =>
      if coversSlot fl d idx then do
        let w ← ringRead s (flSlotAddr fl idx)
        return some (s, .fetched (fetchedAddr (decodeFle w)) (fetchedSize s.cfg (decodeFle w)))
      else .ok none
    | _, _ => .ok none

/-- The device's cursor at the start of a frame: it may skip the rest of a buffer (46_device_agent R403). -/
def devStart (fl : FreeList) (d : DevFl) (skip : Bool) : DevFl :=
  if skip && d.off ≠ 0 && d.cidx ≠ d.pidx then devAdvanceSlot fl d else d

/-- `DEV_RX iq, bytes, meta` (46_device_agent R403). -/
def execDevRx (i : Nat) (bytes : List Byte) (fm : FrameMeta) (skip : Bool) (s : State) :
    Host.Outcome State Fault Refusal :=
  runDevice s fun s =>
    match s.iqAt i, s.flAt i, s.devIqAt i, s.devFlAt i with
    | some q, some fl, some di, some df =>
      if di.credits = 0 || bytes = [] || 2 ^ 31 ≤ bytes.length then .ok none
      else do
        let start := devStart fl df skip
        match ← devPlace fl bytes.length bytes start s with
        | none => return none
        | some (df, s) =>
          let s ← devPost i q di (encodeRx (rxEntry bytes.length fm (start.off = 0) di.gen)) s
          return some (s.setDevFl i df, .ok)
    | _, _, _, _ => .ok none

/-- `DEV_OOB iq, flit0` (46_device_agent R404). -/
def execDevOob (i : Nat) (flit0 : Flit) (s : State) : Host.Outcome State Fault Refusal :=
  runDevice s fun s =>
    match s.iqAt i, s.devIqAt i with
    | some q, some d =>
      if d.credits = 0 then .ok none
      else do
        let s ← devPost i q d (flit0, oobFooter d.gen) s
        return some (s, .ok)
    | _, _ => .ok none

/-- The precondition of `DEV_FWD` on the target (46_device_agent R405). -/
def mayForward (p t : IngressQueue) (d : DevIq) : Bool :=
  t.role = .forwarded && t.parent = p.qid && d.armed && holdsEntry t d

/-- `DEV_FWD parent, target` (46_device_agent R405). -/
def execDevFwd (parent target : Nat) (s : State) : Host.Outcome State Fault Refusal :=
  runDevice s fun s =>
    match s.iqAt parent, s.iqAt target, s.devIqAt target with
    | some p, some t, some dt =>
      let s := s.setDevIq target { dt with armed := false }
      match s.devIqAt parent with
      | some dp =>
        if mayForward p t dt && dp.credits ≠ 0 then do
          let s ← devPost parent p dp (encodeFwd { targetQid := t.qid, footer := { gen := dp.gen } }) s
          return some (s, .ok)
        else .ok none
      | none => .ok none
    | _, _, _ => .ok none

/-- The descriptors of the request whose flit 0 is given, `nd = ceil_div(2 * LEN16, 8)` (46_device_agent R406). -/
def requestDescs (f0 : Flit) : Nat := ceilDiv (2 * (field f0 0 8).toNat) 8

/-- `DEV_TX eq`: "whole requests only and never one that the doorbell has not covered entirely" (46_device_agent
R406). -/
def execDevTx (i : Nat) (s : State) : Host.Outcome State Fault Refusal :=
  runDevice s fun s =>
    match s.eqAt i, s.devEqAt i with
    | some q, some d =>
      if d.cidx = d.pidx then .ok none
      else do
        let f0 ← ringRead s (wrFlitAddr q d.cidx.toNat 0)
        if requestDescs f0 = 0 || distOf d.cidx d.pidx q.cap < requestDescs f0 then return none
        else
          let flits ← readFlits q d.cidx.toNat s 0 (2 * (field f0 0 8).toNat)
          return some (s.setDevEq i { d with cidx := addTo d.cidx q.cap (requestDescs f0) }, .request flits)
    | _, _ => .ok none

/-- `DEV_STATUS q`: flit 0 of the ring's status page (46_device_agent R407). -/
def execDevStatus (q : QRef) (s : State) : Host.Outcome State Fault Refusal :=
  runDevice s fun s => match statusPage s q with | some r => writeStatus s q r | none => .ok none

/-- `DEV_INTR iq`: raising the interrupt disarms it (46_device_agent R408). -/
def execDevIntr (i : Nat) (s : State) : Host.Outcome State Fault Refusal :=
  runDevice s fun s =>
    match s.iqAt i, s.devIqAt i with
    | some q, some d =>
      if q.role ≠ .forwarded && d.armed && holdsEntry q d then
        .ok (some (s.setDevIq i { d with armed := false }, .ok))
      else .ok none
    | _, _ => .ok none

end Sys2Proof.Machine
end

