-- ==== Sys2Proof/Machine/Egress.lean ====
section
/-! DEFINITION. Egress submission (43_egress_submit) and coalescing (44_coalescing): SUBMIT, SUBMIT_WR, the
accumulator's operations, TXPKTS_FLUSH and TX_DONE. -/

namespace Sys2Proof.Machine

/-! ## Building a request -/

/-- Zero flits up to the end of the last descriptor (43_egress_submit R307, 30_encoding R139). -/
def padDesc (flits : List Flit) : List Flit := flits ++ List.replicate (8 * ceilDiv flits.length 8 - flits.length) 0

/-- `write_wr(eq, s, flits)` (43_egress_submit R307). -/
def writeWr (q : EgressQueue) (start : Nat) (flits : List Flit) (s : State) : Res State :=
  writeFlits q start s 0 (padDesc flits)

/-- `commit(eq, nd, credits, npkts)` (43_egress_submit R308, R313); a step that "would make ... `eq.avail` negative"
is a panic (60_exceptions R458). -/
def commit (nd credits npkts : Nat) (q : EgressQueue) (s : State) : Res (EgressQueue × State) :=
  if q.avail.toNat < nd then ringInvariant
  else
    let q := setRecord q q.pidx.toNat ⟨BitVec.ofNat 16 nd, BitVec.ofNat 16 credits, BitVec.ofNat 8 npkts⟩
    let q := { q with pidx := addTo q.pidx q.cap nd, avail := q.avail - BitVec.ofNat 16 nd,
                      pending := q.pending + BitVec.ofNat 16 nd }
    if s.cfg.eqDbBatch ≤ q.pending.toNat then notifyEq q s else .ok (q, s)

/-- `csum_bits(pkt)`: the enable bits, and the software checksum when the workaround fires (43_egress_submit R304). -/
def csumBits (p : Packet) (s : State) : (Bool × Bool) × State :=
  (csumEnables s.cfg p, if csumWorkaround s.cfg p then swChecksum s p.segs else s)

/-- `build_sgl(pkt)`: the map and the segments, or none for `TooBig` (43_egress_submit R305). -/
def buildSgl (p : Packet) (s : State) : Option (Nat × List PktSeg) × State :=
  if s.cfg.sglMaxSegs < p.segs.length then
    let r := compact s p.segs
    match r.1 with
    | some chain =>
      if s.cfg.sglMaxSegs < chain.length then (none, r.2.raise .sglToobig)
      else
        let m := askMap r.2
        (some (m.1, chain), m.2)
    | none => (none, r.2.raise .sglToobig)
  else
    let m := askMap s
    (some (m.1, p.segs), m.2)

/-- The parts of a packet's request after its header (30_encoding R136). -/
def bodyOf (en : Bool × Bool) (p : Packet) (payload : Payload) : PktBody where
  lso := if p.tso then some (lsoOf p) else none
  txpkt := txpktOf en p
  payload := payload

/-- `ETH_TX_PKT(eq.flowid, pkt, mode, segs, l3en, l4en)`: the request's flits (30_encoding R136). -/
def requestFlits (flowid : BitVec 24) (b : PktBody) : List Flit :=
  encodeHeader 0x01 (pktHeader flowid b) ++ encodePktBody b

/-- A map taken for a packet (43_egress_submit R301, 44_coalescing R354). -/
def takeMap (map pkt : Nat) (q : EgressQueue) : EgressQueue :=
  { q with maps := q.maps ++ [⟨map, pkt⟩], mapsFree := q.mapsFree - 1 }

/-! ## The coalescing accumulator -/

/-- The header of the accumulator's request (44_coalescing R355). -/
def flushHeader (q : EgressQueue) : List Flit :=
  encodeHeader 0x02 (pktsHeader q.flowid q.txpkts.npkt.toNat q.txpkts.flits.toNat q.txpkts.plen.toNat)

/-- The accumulator closed. -/
def closed (q : EgressQueue) : EgressQueue := { q with txpkts := { q.txpkts with isOpen := false } }

/-- `txpkts_flush(eq)` (44_coalescing R355). Of an accumulator without a packet, which only a TXPKTS_OPEN standing alone
leaves, there is no request to write (30_encoding R138): it is closed (log 10). -/
def txpktsFlush (q : EgressQueue) (s : State) : Res (EgressQueue × State) :=
  if q.txpkts.npkt = 0 then .ok (closed q, s)
  else do
    let f := q.txpkts.flits.toNat
    let nd := ceilDiv f 8
    let s ← writeFlits q q.txpkts.start.toNat s 0 (flushHeader q)
    let s ← writeFlits q q.txpkts.start.toNat s f (List.replicate (8 * nd - f) 0)
    commit nd q.txpkts.npkt.toNat q.txpkts.npkt.toNat (closed q) s

/-- The accumulator flushed if it is open. -/
def flushIfOpen (q : EgressQueue) (s : State) : Res (EgressQueue × State) :=
  if q.txpkts.isOpen then txpktsFlush q s else .ok (q, s)

/-- `TXPKTS_OPEN eq` (44_coalescing R353). -/
def txpktsOpen (q : EgressQueue) : EgressQueue :=
  { q with txpkts := { isOpen := true, npkt := 0, flits := 2, plen := 0, start := q.pidx } }

/-- `TXPKTS_ADD eq, pkt` (44_coalescing R354). -/
def txpktsAdd (p : Packet) (q : EgressQueue) (s : State) : Res (EgressQueue × State) := do
  let t := q.txpkts
  let m := askMap s
  let c := csumBits p m.2
  let s ← writeFlits q t.start.toNat c.2 t.flits.toNat (encodeRecord ⟨txpktOf c.1 p, p.segs⟩)
  let q := { takeMap m.1 p.handle q with
    txpkts := { t with npkt := t.npkt + 1, flits := t.flits + BitVec.ofNat 16 (recFlits p), plen := t.plen + p.len } }
  if q.txpkts.npkt.toNat = s.cfg.txpktsMaxPkts then txpktsFlush q s else return (q, s)

/-! ## Stall -/

/-- `stall(eq, cause)` of egress queue `i` (43_egress_submit R309). -/
def stall (i : Nat) (cause : Exc) (q : EgressQueue) (s : State) : Res (EgressQueue × State × Ret) := do
  let (q, s) ← flushIfOpen q s
  let (q, s) ← notifyEq q s
  return ({ q with state := .stalled }, (s.setStalled (s.stalled ++ [i])).raise cause, .noResource)

/-! ## SUBMIT and SUBMIT_WR -/

/-- The single work request of SUBMIT with immediate data (43_egress_submit R301, R312). -/
def submitImm (i : Nat) (p : Packet) (q : EgressQueue) (s : State) : Res (EgressQueue × State × Ret) :=
  let nd := ceilDiv (wrFlits p .imm 0) 8
  if q.avail.toNat < nd then stall i .noresourceCredit q s
  else do
    let c := csumBits p s
    let bytes ← readChain c.2 p.segs
    let s ← writeWr q q.pidx.toNat (requestFlits q.flowid (bodyOf c.1 p (.imm bytes))) c.2
    let (q, s) ← commit nd 0 1 q (s.emit (.freePkt p.handle))
    return (q, s, .ok)

/-- The single work request of SUBMIT with a scatter-gather list (43_egress_submit R301, R305). -/
def submitSgl (i : Nat) (p : Packet) (q : EgressQueue) (s : State) : Res (EgressQueue × State × Ret) :=
  if q.mapsFree = 0 then stall i .noresourceMap q s
  else
    let r := buildSgl p s
    match r.1 with
    | none => .ok (q, r.2.emit (.freePkt p.handle), .hardError)
    | some (map, segs) =>
      let p := { p with segs }
      let nd := ceilDiv (wrFlits p .sgl segs.length) 8
      if q.avail.toNat < nd then stall i .noresourceCredit q r.2
      else do
        let c := csumBits p r.2
        let s ← writeWr q q.pidx.toNat (requestFlits q.flowid (bodyOf c.1 p (.sgl segs))) c.2
        let (q, s) ← commit nd 1 1 (takeMap map p.handle q) s
        return (q, s, .ok)

/-- The single-work-request path of SUBMIT (43_egress_submit R301, R302). -/
def submitSingle (i : Nat) (p : Packet) (q : EgressQueue) (s : State) : Res (EgressQueue × State × Ret) :=
  match chooseMode s.cfg p with
  | .imm => submitImm i p q s
  | .sgl => submitSgl i p q s

/-- `SUBMIT eq, pkt` of egress queue `i` (43_egress_submit R301). -/
def submit (i : Nat) (p : Packet) (q : EgressQueue) (s : State) : Res (EgressQueue × State × Ret) :=
  if refusesSubmit q then refuseDoomed
  else if malformed p then refuseBadarg
  else if q.state = .stalled then .ok (q, s.raise .noresourceCredit, .noResource)
  else
    let coal := q.coalesce && coalescable s.cfg p
    if q.txpkts.isOpen && coal && canAdd s.cfg q p then do
      let (q, s) ← txpktsAdd p q s
      return (q, s, .ok)
    else do
      let (q, s) ← flushIfOpen q s
      if coal then
        if canAdd s.cfg q p then
          let (q, s) ← txpktsAdd p (txpktsOpen q) s
          return (q, s, .ok)
        else stall i (stallCause q) q s
      else submitSingle i p q s

/-- `SUBMIT_WR eq, flits` of egress queue `i` (43_egress_submit R310). -/
def submitWr (i : Nat) (flits : List Flit) (q : EgressQueue) (s : State) : Res (EgressQueue × State × Ret) :=
  if refusesSubmit q then refuseDoomed
  else if badRequest s.cfg flits then refuseBadarg
  else if q.state = .stalled then .ok (q, s.raise .noresourceCredit, .noResource)
  else do
    let (q, s) ← flushIfOpen q s
    let nd := ceilDiv flits.length 8
    if q.avail.toNat < nd then stall i .noresourceCredit q s
    else
      let s ← writeWr q q.pidx.toNat flits s
      let (q, s) ← commit nd 0 0 q s
      return (q, s, .ok)

/-- `TXPKTS_FLUSH eq` (44_coalescing R356). -/
def txpktsFlushCommand (q : EgressQueue) (s : State) : Res (EgressQueue × State) :=
  if refusesSubmit q then refuseDoomed else flushIfOpen q s

/-! ## Instructions -/

/-- `SUBMIT eq, pkt` (43_egress_submit R301). -/
def execSubmit (i : Nat) (p : Packet) (s : State) : Host.Outcome State Fault Refusal :=
  runQe s fun s => onEq s i fun q => submit i p q s

/-- `SUBMIT_WR eq, flits` (43_egress_submit R310). -/
def execSubmitWr (i : Nat) (flits : List Flit) (s : State) : Host.Outcome State Fault Refusal :=
  runQe s fun s => onEq s i fun q => submitWr i flits q s

/-- `TXPKTS_FLUSH eq` (44_coalescing R356). -/
def execTxpktsFlush (i : Nat) (s : State) : Host.Outcome State Fault Refusal :=
  runQe s fun s => onEq s i fun q => do
    let (q, s) ← txpktsFlushCommand q s
    return (q, s, .ok)

/-- `TX_DONE eq`: `TXPKTS_FLUSH eq` followed by `NOTIFY eq` (30_encoding R148). A flush that is refused changes
nothing, and the NOTIFY still follows (log 27). -/
def execTxDone (i : Nat) (s : State) : Host.Outcome State Fault Refusal :=
  runQe s fun s => onEq s i fun q =>
    if refusesSubmit q then do
      let (q, s) ← notifyEq q (s.raise .doomed)
      return (q, s, .ok)
    else do
      let (q, s) ← txpktsFlushCommand q s
      let (q, s) ← notifyEq q s
      return (q, s, .ok)

/-- `TXPKTS_OPEN eq` as an instruction: "Precondition: `eq.txpkts.open = 0`" (44_coalescing R353). It is reached on an
Active queue only, and with `eq.coalesce = 0` the accumulator "stays closed for ever" (44_coalescing R350); elsewhere it
is refused (log 10). -/
def execTxpktsOpen (i : Nat) (s : State) : Host.Outcome State Fault Refusal :=
  runQe s fun s => onEq s i fun q =>
    if refusesSubmit q then refuseDoomed
    else if q.state = .stalled || q.txpkts.isOpen || !q.coalesce then refuseBadarg
    else .ok (txpktsOpen q, s, .ok)

/-- `TXPKTS_ADD eq, pkt` as an instruction: "Precondition: the accumulator is open and `can_add(eq, pkt)`"
(44_coalescing R354), of a packet that may be coalesced: "A `tso` packet is never coalesced" (43_egress_submit R303,
44_coalescing R351); any other is refused (log 10). -/
def execTxpktsAdd (i : Nat) (p : Packet) (s : State) : Host.Outcome State Fault Refusal :=
  runQe s fun s => onEq s i fun q =>
    if refusesSubmit q then refuseDoomed
    else if malformed p || !coalescable s.cfg p || q.state = .stalled || !q.txpkts.isOpen || !canAdd s.cfg q p then
      refuseBadarg
    else do
      let (q, s) ← txpktsAdd p q s
      return (q, s, .ok)

end Sys2Proof.Machine
end

