-- ==== Sys2Proof/Machine/Records.lean ====
section
/-! DEFINITION. The records the QE writes, each standing alone as an instruction (30_encoding R122, R130 to R143,
log 11): the write, with the effects the rules join to it. What the rules say is never written, or cannot be produced,
is refused. -/

namespace Sys2Proof.Machine

/-! ## Work requests -/

/-- A queue that a request may be placed in: Active, with the accumulator closed, and the request within the limit and
the credits (43_egress_submit R301, R310, log 11). -/
def placeable (c : Cfg) (q : EgressQueue) (f : Nat) : Bool :=
  q.state = .active && !q.txpkts.isOpen && f ≤ c.wrMaxFlits && ceilDiv f 8 ≤ q.avail.toNat

/-- Maps taken for the packets of a request, in order (10_state R52). -/
def takeMaps : List Nat → EgressQueue → State → EgressQueue × State
  | [], q, s => (q, s)
  | p :: ps, q, s =>
    let m := askMap s
    takeMaps ps (takeMap m.1 p q) m.2

/-- A request written at `eq.pidx` and committed (43_egress_submit R307, R308). -/
def placeRequest (flits : List Flit) (credits npkts : Nat) (q : EgressQueue) (s : State) :
    Res (EgressQueue × State × Ret) := do
  let s ← writeWr q q.pidx.toNat flits s
  let (q, s) ← commit (ceilDiv flits.length 8) credits npkts q s
  return (q, s, .ok)

/-- `ETH_TX_PKT` for one packet: with a list a map is taken, with immediate data the packet is freed
(43_egress_submit R301). "The QE only ever builds lists of 1 to `SGL_MAX_SEGS` segments" (30_encoding R134). -/
def execEthTxPkt (i pkt : Nat) (h : WrHeader) (body : List Flit) (s : State) : Host.Outcome State Fault Refusal :=
  runQe s fun s => onEq s i fun q =>
    if refusesSubmit q then refuseDoomed
    else if !placeable s.cfg q (2 + body.length) || h.flowid ≠ q.flowid then refuseBadarg
    else
      match pktParts h body with
      | none => refuseBadarg
      | some b =>
        match b.payload with
        | .imm _ => placeRequest (encodeHeader 0x01 h ++ body) 0 1 q (s.emit (.freePkt pkt))
        | .sgl segs =>
          if q.mapsFree = 0 || s.cfg.sglMaxSegs < segs.length then refuseBadarg
          else
            let r := takeMaps [pkt] q s
            placeRequest (encodeHeader 0x01 h ++ body) 1 1 r.1 r.2

/-- `ETH_TX_PKTS`: a map for every packet (44_coalescing R355), none with a list of more than `SGL_MAX_SEGS` segments
(30_encoding R134). -/
def execEthTxPkts (i : Nat) (pkts : List Nat) (h : WrHeader) (body : List Flit) (s : State) :
    Host.Outcome State Fault Refusal :=
  runQe s fun s => onEq s i fun q =>
    if refusesSubmit q then refuseDoomed
    else if !placeable s.cfg q (2 + body.length) || h.flowid ≠ q.flowid || pkts = [] ||
        pkts.length ≠ h.npkt.toNat || s.cfg.txpktsMaxPkts < pkts.length || q.mapsFree.toNat < pkts.length ||
        2 ^ s.cfg.txpktsLenBits ≤ h.plen.toNat then refuseBadarg
    else
      match pktsParts h body with
      | none => refuseBadarg
      | some rs =>
        if rs.any (fun r => s.cfg.sglMaxSegs < r.segs.length) then refuseBadarg
        else
          let r := takeMaps pkts q s
          placeRequest (encodeHeader 0x02 h ++ body) pkts.length pkts.length r.1 r.2

/-- An opaque request placed (43_egress_submit R310). -/
def execWrOpaque (i : Nat) (flits : List Flit) (s : State) : Host.Outcome State Fault Refusal :=
  runQe s fun s => onEq s i fun q =>
    if refusesSubmit q then refuseDoomed
    else if badRequest s.cfg flits || !placeable s.cfg q flits.length then refuseBadarg
    else placeRequest flits 0 0 q s

/-- `WR_OP` = 0x00: "never written: a zeroed descriptor is not a work request" (30_encoding R131, R145); the QE refuses
it with `BADARG` (43_egress_submit R310), a torn-down queue with `DOOMED`. -/
def execWrReserved00 (i : Nat) (_flits : List Flit) (s : State) : Host.Outcome State Fault Refusal :=
  runQe s fun s => onEq s i fun q => if refusesSubmit q then refuseDoomed else refuseBadarg

/-! ## Parts of a work request -/

/-- Flits of a part written at flit `k` of the request that begins at `eq.pidx`, after the header; nothing is committed
(43_egress_submit R307, log 11). `legal` is what the part's own rules ask of it, judged after the queue (log 39). DESIGN
CHOICE: `k` is any flit of the request, also one below `t.flits` of an open accumulator, so that the part may overwrite the
flits of packets already accepted (44_coalescing R358, log 11). -/
def writePart (i k : Nat) (legal : Bool) (flits : List Flit) (s : State) : Res (State × Ret) :=
  onEq s i fun q =>
    if refusesSubmit q then refuseDoomed
    else if !legal || q.state = .stalled || k < 2 || s.cfg.wrMaxFlits < k + flits.length ||
        q.avail.toNat < ceilDiv (k + flits.length) 8 then refuseBadarg
    else do
      let s ← writeFlits q q.pidx.toNat s k flits
      return (q, s, .ok)

/-- The segmentation-offload prefix, its reserved fields zero (30_encoding R121, R132). -/
def execLso (i k : Nat) (r : Lso) (s : State) : Host.Outcome State Fault Refusal :=
  runQe s (writePart i k r.clean (encodeLso r))

/-- The packet header flit, its reserved field zero (30_encoding R121, R133). -/
def execTxpkt (i k : Nat) (r : Txpkt) (s : State) : Host.Outcome State Fault Refusal :=
  runQe s (writePart i k r.clean [encodeTxpkt r])

/-- A scatter-gather list of "1 to `SGL_MAX_SEGS` segments", the only ones the QE builds; one with a segment of length 0 is
written as it is (30_encoding R134, log 11). On a torn-down queue a list of any length is refused with `DOOMED` (60_exceptions
R460, R463, log 39). -/
def execSgl (i k : Nat) (segs : List PktSeg) (s : State) : Host.Outcome State Fault Refusal :=
  runQe s fun s => writePart i k (1 ≤ segs.length && segs.length ≤ s.cfg.sglMaxSegs) (encodeSgl segs) s

/-- Immediate data (43_egress_submit R312); a packet has at least one byte (30_encoding R136). -/
def execImmediateData (i k : Nat) (data : List Byte) (s : State) : Host.Outcome State Fault Refusal :=
  runQe s (writePart i k (1 ≤ data.length) (packBytes data))

/-! ## The other records -/

/-- `FLE`: the entry written in the slot at `fl.pidx` (40_free_list R190); a class the table does not have "is never
written" (30_encoding R122), nor is an entry of a full list (40_free_list R181). -/
def execFle (i : Nat) (r : Fle) (s : State) : Host.Outcome State Fault Refusal :=
  runQe s fun s => onFl s i fun fl =>
    if fl.doomed then refuseDoomed
    else if s.cfg.bufferSizes.length ≤ r.hwidx.toNat || incIdx fl.pidx fl.cap = fl.cidx then refuseBadarg
    else do
      let s ← ringWrite s (flSlotAddr fl fl.pidx.toNat) (encodeFle r)
      return (fl, s, .ok)

/-- The MMIO register of a doorbell word. -/
def DoorbellReg.mmio : DoorbellReg → MmioReg
  | .db => .db
  | .udb a => .udb a

/-- `DBW`: one 32-bit write (20_memory R83, 30_encoding R140). -/
def execDbw (reg : DoorbellReg) (r : Dbw) (s : State) : Host.Outcome State Fault Refusal :=
  execWrite (.word (DoorbellReg.mmio reg) (encodeDbw r)) s

/-- `ICW`: one 32-bit write to the credit register (30_encoding R141). -/
def execIcw (r : Icw) (s : State) : Host.Outcome State Fault Refusal := execWrite (.word .icw (encodeIcw r)) s

/-- `SP`: the device writes flit 0 of the page, which names the ring and the device's own indices: the page "never leads"
them (30_encoding R142, 46_device_agent R407). Any other page is none the device writes (log 11). -/
def execSp (q : QRef) (r : Sp) (s : State) : Host.Outcome State Fault Refusal :=
  runDevice s fun s => if statusPage s q = some r then writeStatus s q r else .ok none

/-- `WC_BURST`: one descriptor's 64 bytes (30_encoding R143). -/
def execWcBurst (window : Addr) (flits : List Flit) (s : State) : Host.Outcome State Fault Refusal :=
  execWrite (.burst window flits) s

end Sys2Proof.Machine
end

