-- ==== Sys2Proof/Machine/System.lean ====
section
/-! DEFINITION. Creation, teardown and the periodic timer (47_system). -/

namespace Sys2Proof.Machine

/-! ## Creation -/

/-- The creation values of an ingress queue (10_state R40). -/
def newIq (a : CreateIqArgs) : IngressQueue where
  qid := BitVec.ofNat 12 a.qid
  base := a.base
  cap := BitVec.ofNat 16 a.cap
  cidx := 0
  gen := true
  state := .idle
  role := a.role
  parent := BitVec.ofNat 12 a.parent
  fl := none
  budget := a.budget
  timerIdx := BitVec.ofNat 3 a.timerIdx
  cntEn := a.cntEn
  lro := a.lro
  lroPending := 0
  rxErrors := 0
  protoErrors := 0
  lock := none

/-- The creation values of a free list (10_state R24). -/
def newFl (a : CreateFlArgs) (d : ClusterLayout) (safe : Option ClusterLayout) : FreeList where
  qid := a.qid
  base := a.base
  cap := BitVec.ofNat 16 a.cap
  pidx := 0
  cidx := 0
  pending := 0
  dbGroups := 0
  rxOffset := 0
  packing := a.packing
  maxp := a.maxp
  lowat := BitVec.ofNat 16 a.lowat
  refillThresh := BitVec.ofNat 16 (a.refillThresh.getD (a.cap - 1))
  cllDef := d
  cllSafe := safe
  starving := false
  doomed := false
  bufResume := false
  resume := none
  dbMech := a.dbMech
  udbAddr := a.udbAddr
  sdesc := List.replicate a.cap {}

/-- The creation values of an egress queue (10_state R50). -/
def newEq (a : CreateEqArgs) : EgressQueue where
  qid := a.qid
  flowid := BitVec.ofNat 24 a.flowid
  base := a.base
  cap := BitVec.ofNat 16 a.cap
  pidx := 0
  cidx := 0
  avail := BitVec.ofNat 16 (a.cap - 1)
  pending := 0
  state := .active
  crflushed := false
  resumeThreshold := BitVec.ofNat 16 a.resumeThreshold
  coalesce := a.coalesce
  nmaps := BitVec.ofNat 16 (a.nmaps.getD a.cap)
  mapsFree := BitVec.ofNat 16 (a.nmaps.getD a.cap)
  maps := []
  sdesc := List.replicate a.cap {}
  txpkts := {}
  dbMech := a.dbMech
  udbAddr := a.udbAddr
  wcAddr := a.wcAddr
  lock := none

/-- `n` zero flits written from an address (20_memory R96). -/
def zeroFlits (s : State) (a n : Nat) : Res State := ringWriteAll s a (List.replicate n 0)

/-- `CREATE_IQ i, args` (47_system R430). -/
def createIq (i : Nat) (a : CreateIqArgs) (s : State) : Res (State × Ret) :=
  if badCreateIq s i a then refuseBadarg
  else do
    let s ← zeroFlits (s.setIq i (newIq a)) a.base.toNat (2 * a.cap)
    let s := s.setDevIq i { pidx := 0, gen := true, credits := BitVec.ofNat 16 (a.cap - 1), armed := false }
    return (writeCredit s (newIq a).qid (newIq a).timerIdx a.cntEn 0, .ok)

/-- `CREATE_FL iq, args` (47_system R431). -/
def createFl (i : Nat) (a : CreateFlArgs) (s : State) : Res (State × Ret) :=
  if doomedCreateFl s i then refuseDoomed
  else if badCreateFl s i a then refuseBadarg
  else
    match findBest s.cfg a.maxp.toNat a.packing with
    | none => refuseBadarg
    | some d => onIq s i fun q => do
      let fl := newFl a d (findSafe s.cfg a.packing)
      let s ← zeroFlits s (flStatusAddr fl) 8
      return ({ q with fl := some fl }, s.setDevFl i {}, .ok)

/-- `CREATE_EQ i, args` (47_system R432). -/
def createEq (i : Nat) (a : CreateEqArgs) (s : State) : Res (State × Ret) :=
  if badCreateEq s i a then refuseBadarg
  else do
    let s ← zeroFlits (s.setEq i (newEq a)) (eqStatusAddr (newEq a)) 8
    return (s.setDevEq i {}, .ok)

/-! ## Teardown -/

/-- "some queue that is not Dead has parent = iq.qid", whatever its role (47_system R433). -/
def hasChild (s : State) (q : IngressQueue) : Bool :=
  indicesOf (fun t : IngressQueue => t.live && t.parent = q.qid) s.iq ≠ []

/-- A half-built frame discarded (47_system R433). -/
def dropResume (fl : FreeList) (s : State) : Res (FreeList × State) :=
  match fl.bufResume, fl.resume with
  | true, some r => do
    let s ← releaseAll s r.frame.segs
    return ({ fl with bufResume := false, resume := none }, s)
  | _, _ => .ok ({ fl with bufResume := false, resume := none }, s)

/-- The buffers of the slots given up: the slot's reference, or the whole buffer (47_system R433). -/
def dropSlots : List FreeListSlot → State → Res (List FreeListSlot × State)
  | [], s => .ok ([], s)
  | sd :: rest, s => do
    let (sd, s) ← (match sd.buf with
      | none => .ok (sd, s)
      | some h =>
        match s.bufferOf h with
        | none => ringInvariant
        | some b => do
          let s ← if b.hasMeta then dropRef s b else .ok (s.zoneFree h)
          return ({ sd with buf := none, nmbuf := 0 }, s) : Res (FreeListSlot × State))
    let (rest, s) ← dropSlots rest s
    return (sd :: rest, s)

/-- The free list of ingress queue `i` torn down (47_system R433). -/
def doomFl (i : Nat) (fl : FreeList) (s : State) : Res (FreeList × State) := do
  let s := if fl.starving then s.setStarving (s.starving.erase i) else s
  let (fl, s) ← dropResume { fl with doomed := true, starving := false } s
  let (sdesc, s) ← dropSlots fl.sdesc s
  return ({ fl with sdesc }, s)

/-- `TEARDOWN_IQ iq` (47_system R433). -/
def teardownIq (i : Nat) (q : IngressQueue) (s : State) : Res (IngressQueue × State × Ret) :=
  if q.state = .dead then refuseDoomed
  else if q.role = .forwarder && hasChild s q then refuseBadarg
  else
    match casIdle q .dead with
    | none => .ok (q, s.raise .busyReject, .rejected)
    | some q =>
      match q.fl with
      | none => .ok (q, s, .ok)
      | some fl => do
        let (fl, s) ← doomFl i fl s
        return ({ q with fl := some fl }, s, .ok)

/-- The start of an egress queue's teardown: what was accepted is handed to the device, the queue is Doomed
(47_system R434). -/
def beginTeardownEq (i : Nat) (q : EgressQueue) (s : State) : Res (EgressQueue × State) :=
  if q.state = .active ∨ q.state = .stalled then do
    let (q, s) ← flushIfOpen q s
    let (q, s) ← notifyEq q s
    let s := if q.state = .stalled then s.setStalled (s.stalled.erase i) else s
    return ({ q with state := .doomed }, s)
  else .ok (q, s)

/-- The bound of the teardown's RECLAIM (47_system R434). -/
def teardownBound : Nat := 65535

/-- `TEARDOWN_EQ eq` (47_system R434). -/
def teardownEq (i : Nat) (q : EgressQueue) (s : State) : Res (EgressQueue × State × Ret) :=
  if q.state = .dead then refuseDoomed
  else do
    let (q, s) ← beginTeardownEq i q s
    let (q, s, _, _) ← reclaim i teardownBound q s
    if q.cidx = q.pidx then return ({ q with state := .dead }, s, .done) else return (q, s, .pending)

/-! ## The periodic timer -/

/-- A refusal inside the tick leaves the state as it was: "none ends the tick" (47_system R435, log 27). -/
def orElseSame (s : State) : Res State → Res State
  | .error (.refuse _) => .ok s
  | r => r

/-- The tick's work on one free list (47_system R435). -/
def tickFl (i : Nat) (s : State) : Res State :=
  match s.iqAt i, s.flAt i with
  | some q, some fl => orElseSame s do
    let (fl, s, _, _) ← refill (freeSlots fl) fl s
    if fl.lowat.toNat ≤ occ fl then
      return (s.setStarving (s.starving.erase i)).setIq i { q with fl := some { fl with starving := false } }
    else return s.setIq i { q with fl := some fl }
  | _, _ => .ok s

/-- The tick's work on one egress queue (47_system R435). DESIGN CHOICE: an `EGR_RECLAIM_BATCH` above 65535, to which 00_scope
R10 sets no bound while the `max_credits` of the command RECLAIM has 16 bits, is the bound as it stands (log 41). -/
def tickEq (i : Nat) (s : State) : Res State :=
  match s.eqAt i with
  | some q => orElseSame s do
    let (q, s, _, _) ← reclaim i s.cfg.egrReclaimBatch q s
    return s.setEq i q
  | none => .ok s

/-- One operation after another over a list of queues. -/
def forEach (f : Nat → State → Res State) : List Nat → State → Res State
  | [], s => .ok s
  | i :: is, s => do
    let s ← f i s
    forEach f is s

/-- `TIMER_TICK`: both lists "as the list stood at entry" (47_system R435). -/
def timerTick (s : State) : Res (State × Ret) := do
  let t ← forEach tickFl s.starving s
  let t ← forEach tickEq s.stalled t
  return (t, .ok)

/-! ## Instructions -/

/-- `CREATE_IQ i, args` (47_system R430). -/
def execCreateIq (i : Nat) (a : CreateIqArgs) (s : State) : Host.Outcome State Fault Refusal := runQe s (createIq i a)

/-- `CREATE_FL iq, args` (47_system R431). -/
def execCreateFl (i : Nat) (a : CreateFlArgs) (s : State) : Host.Outcome State Fault Refusal := runQe s (createFl i a)

/-- `CREATE_EQ i, args` (47_system R432). -/
def execCreateEq (i : Nat) (a : CreateEqArgs) (s : State) : Host.Outcome State Fault Refusal := runQe s (createEq i a)

/-- `TEARDOWN_IQ iq` (47_system R433). -/
def execTeardownIq (i : Nat) (s : State) : Host.Outcome State Fault Refusal :=
  runQe s fun s => onIq s i fun q => teardownIq i q s

/-- `TEARDOWN_EQ eq` (47_system R434). -/
def execTeardownEq (i : Nat) (s : State) : Host.Outcome State Fault Refusal :=
  runQe s fun s => onEq s i fun q => teardownEq i q s

/-- `TIMER_TICK` (47_system R435). -/
def execTimerTick (s : State) : Host.Outcome State Fault Refusal := runQe s timerTick

end Sys2Proof.Machine
end

