-- ==== Sys2Proof/Machine/Dispatch.lean ====
section
/-! DEFINITION. One arm for every instruction. -/

namespace Sys2Proof.Machine

open Sys2Proof

def exec (i : Instr) (s : State) : Host.Outcome State Fault Refusal :=
  match i with
  | .createIq j a => Sys2Proof.Machine.execCreateIq j a s
  | .createFl j a => Sys2Proof.Machine.execCreateFl j a s
  | .createEq j a => Sys2Proof.Machine.execCreateEq j a s
  | .teardownIq j => Sys2Proof.Machine.execTeardownIq j s
  | .teardownEq j => Sys2Proof.Machine.execTeardownEq j s
  | .timerTick => Sys2Proof.Machine.execTimerTick s
  | .refill j n => Sys2Proof.Machine.execRefill j n s
  | .frameRelease seg => Sys2Proof.Machine.execFrameRelease seg s
  | .interrupt j => Sys2Proof.Machine.execInterrupt j s
  | .service j budget => Sys2Proof.Machine.execService j budget s
  | .deferredRun => Sys2Proof.Machine.execDeferredRun s
  | .submit j pkt => Sys2Proof.Machine.execSubmit j pkt s
  | .submitWr j flits => Sys2Proof.Machine.execSubmitWr j flits s
  | .txpktsFlush j => Sys2Proof.Machine.execTxpktsFlush j s
  | .reclaim j maxCredits => Sys2Proof.Machine.execReclaim j maxCredits s
  | .notify q => Sys2Proof.Machine.execNotify q s
  | .txDone j => Sys2Proof.Machine.execTxDone j s
  | .findBestRefillSource maxp packing => Sys2Proof.Machine.execFindBestRefillSource maxp packing s
  | .findSafeRefillSource packing => Sys2Proof.Machine.execFindSafeRefillSource packing s
  | .consumeFrame j total newbuf => Sys2Proof.Machine.execConsumeFrame j total newbuf s
  | .txpktsOpen j => Sys2Proof.Machine.execTxpktsOpen j s
  | .txpktsAdd j pkt => Sys2Proof.Machine.execTxpktsAdd j pkt s
  | .resumeCheck j hw => Sys2Proof.Machine.execResumeCheck j hw s
  | .iqeRx j e => Sys2Proof.Machine.execIqeRx j e s
  | .iqeEgrUpdate j e => Sys2Proof.Machine.execIqeEgrUpdate j e s
  | .iqeOob j e => Sys2Proof.Machine.execIqeOob j e s
  | .iqeFwd j e => Sys2Proof.Machine.execIqeFwd j e s
  | .iqeReserved j e => Sys2Proof.Machine.execIqeReserved j e s
  | .ethTxPkt j pkt h body => Sys2Proof.Machine.execEthTxPkt j pkt h body s
  | .ethTxPkts j pkts h body => Sys2Proof.Machine.execEthTxPkts j pkts h body s
  | .wrOpaque j flits => Sys2Proof.Machine.execWrOpaque j flits s
  | .wrReserved00 j flits => Sys2Proof.Machine.execWrReserved00 j flits s
  | .lso j k r => Sys2Proof.Machine.execLso j k r s
  | .txpkt j k r => Sys2Proof.Machine.execTxpkt j k r s
  | .sgl j k segs => Sys2Proof.Machine.execSgl j k segs s
  | .immediateData j k data => Sys2Proof.Machine.execImmediateData j k data s
  | .fle j r => Sys2Proof.Machine.execFle j r s
  | .dbw reg r => Sys2Proof.Machine.execDbw reg r s
  | .icw r => Sys2Proof.Machine.execIcw r s
  | .sp q r => Sys2Proof.Machine.execSp q r s
  | .wcBurst window flits => Sys2Proof.Machine.execWcBurst window flits s
  | .devDb w => Sys2Proof.Machine.execDevDb w s
  | .devFl j idx => Sys2Proof.Machine.execDevFl j idx s
  | .devRx j bytes fm skip => Sys2Proof.Machine.execDevRx j bytes fm skip s
  | .devOob j flit0 => Sys2Proof.Machine.execDevOob j flit0 s
  | .devFwd parent target => Sys2Proof.Machine.execDevFwd parent target s
  | .devTx j => Sys2Proof.Machine.execDevTx j s
  | .devStatus q => Sys2Proof.Machine.execDevStatus q s
  | .devIntr j => Sys2Proof.Machine.execDevIntr j s

end Sys2Proof.Machine
end

