-- ==== Sys2Proof/WellFormed.lean ====
section
/-! DEFINITION. Which instructions are well formed: their fields agree with the assembly rules of 30_encoding. Only
what the words say of themselves is judged here; what depends on the state is the machine's. -/

namespace Sys2Proof

/-- "Every other value belongs to the control and offload submitters" (30_encoding R131, R150). -/
def isOpaqueOp (op : BitVec 8) : Bool := op ≠ 0x00 && op ≠ 0x01 && op ≠ 0x02

/-- A coalesced request: one handle and one record a packet (30_encoding R138). -/
def wellFormedPkts (pkts : List Nat) (h : WrHeader) (body : List Flit) : Bool :=
  pkts.length = h.npkt.toNat && (pktsParts h body).isSome

/-- An opaque request (30_encoding R150, but for `WR_MAX_FLITS`, which is configuration). -/
def wellFormedOpaque : List Flit → Bool
  | f0 :: fs => isOpaqueOp (topByte f0) && 1 ≤ fs.length && (field f0 0 8).toNat = ceilDiv (1 + fs.length) 2
  | [] => false

/-- A request whose `WR_OP` is 0 (30_encoding R131). -/
def wellFormedZeroOp : List Flit → Bool
  | f0 :: _ => topByte f0 = 0
  | [] => false

/-- The instructions whose fields agree with the encoding rules. -/
def Instr.wellFormed : Instr → Bool
  | .iqeOob _ e => e.opcode ≠ 0x21
  | .ethTxPkt _ _ h body => (pktParts h body).isSome
  | .ethTxPkts _ pkts h body => wellFormedPkts pkts h body
  | .wrOpaque _ flits => wellFormedOpaque flits
  | .wrReserved00 _ flits => wellFormedZeroOp flits
  | .lso _ _ r => r.clean
  | .txpkt _ _ r => r.clean
  | .sgl _ _ segs => 1 ≤ segs.length && segs.length ≤ 65535
  | .immediateData _ _ data => 1 ≤ data.length
  | .dbw _ r => r.pidxInc ≠ 0
  | .icw r => r.timerIdx ≠ 6 && (r.timerIdx ≠ 7 || !r.cntEn)
  | .wcBurst _ flits => flits.length = 8
  | .createIq _ _ | .createFl _ _ | .createEq _ _ | .teardownIq _ | .teardownEq _ | .timerTick | .refill _ _
  | .frameRelease _ | .interrupt _ | .service _ _ | .deferredRun | .submit _ _ | .submitWr _ _ | .txpktsFlush _
  | .reclaim _ _ | .notify _ | .txDone _ | .findBestRefillSource _ _ | .findSafeRefillSource _ | .consumeFrame _ _ _
  | .txpktsOpen _ | .txpktsAdd _ _ | .resumeCheck _ _ | .iqeRx _ _ | .iqeEgrUpdate _ _ | .iqeFwd _ _
  | .iqeReserved _ _ | .fle _ _ | .sp _ _ | .devDb _ | .devFl _ _ | .devRx _ _ _ _
  | .devOob _ _ | .devFwd _ _ | .devTx _ | .devStatus _ | .devIntr _ => true

end Sys2Proof
end

