-- ==== Sys2Proof/Machine/Step.lean ====
section
/-! DEFINITION. One step of the machine: the next instruction handed over is decoded and executed (log 1). -/

namespace Sys2Proof.Machine

/-- What is no instruction: "Command codes not in rule R144 are refused with `BADARG` ... and change nothing"
(30_encoding R145); the machine takes no step in a panic (10_state R65). -/
def refuseWords (s : State) : Host.Outcome State Fault Refusal := runQe s fun _ => refuseBadarg

/-- One step. With nothing handed over the machine is idle: "the QE does nothing until a command arrives"
(70_reset_and_hazards R500). -/
def step (s : State) : Host.Outcome State Fault Refusal :=
  match s.port with
  | [] => .next s
  | w :: rest =>
    match decode w with
    | .ok i => if i.wellFormed then exec i (s.setPort rest) else refuseWords (s.setPort rest)
    | .error _ => refuseWords (s.setPort rest)

/-- The table's own word handed to the machine as its next instruction (log 1, log 25). -/
def State.withFetchWord (s : State) (nbits w : Nat) : State :=
  match tableWords nbits w with
  | some words => s.setPort (words :: s.port)
  | none => s

end Sys2Proof.Machine
end

