-- ==== Sys2Proof/Safety.lean ====
section
/-! DEFINITION. What counts as a safe run, in the terms the statements use: the invariants of 10_state, what a write to
memory changes, the conditions under which an operation runs to its end, and the table of who issues what. -/

namespace Sys2Proof.Machine

/-! ## Writes -/

/-- `m'` is `m` with flit `k` of `fs` stored at `addr k`, and no other byte changed. -/
def WritesFlits (m m' : Memory) (addr : Nat → Nat) (fs : List Flit) : Prop :=
  (∀ k (h : k < fs.length), m'.flit (addr k) = fs[k]) ∧
    ∀ a, (∀ k, k < fs.length → a < addr k ∨ addr k + 8 ≤ a) → m'.get a = m.get a

/-- `m'` is `m` with the bytes `bs` stored from address `b`, and no other byte changed. -/
def WritesBytes (m m' : Memory) (b : Nat) (bs : List Byte) : Prop :=
  (∀ k (h : k < bs.length), m'.get (b + k) = bs[k]) ∧ ∀ a, a < b ∨ b + bs.length ≤ a → m'.get a = m.get a

/-! ## Invariants -/

/-- A panicked machine promises nothing more (60_exceptions R458); every other state satisfies `P`. -/
def UnlessPanic (P : State → Prop) (s : State) : Prop := s.panic = true ∨ P s

/-- Both byte memories are in their canonical form. -/
def MemoriesCanonical (s : State) : Prop := s.ring.wf ∧ s.buf.wf

/-- "`pidx`, `cidx` are always in `0 .. cap - 1`" (10_state R21), and there is a slot record for each slot. -/
def FreeList.inRange (fl : FreeList) : Bool :=
  fl.pidx < fl.cap && fl.cidx < fl.cap && fl.sdesc.length = fl.cap.toNat

/-- The ingress cursor, and the queue's free list (10_state R21). -/
def IngressQueue.inRange (q : IngressQueue) : Bool :=
  q.cidx < q.cap && (match q.fl with | some fl => fl.inRange | none => true)

/-- The indices of an egress ring (10_state R21). -/
def EgressQueue.inRange (q : EgressQueue) : Bool :=
  q.pidx < q.cap && q.cidx < q.cap && q.sdesc.length = q.cap.toNat

/-- Every ring's indices are in range (10_state R21). -/
def IndicesInRange (s : State) : Prop :=
  (∀ i q, s.iqAt i = some q → q.inRange = true) ∧ ∀ i q, s.eqAt i = some q → q.inRange = true

/-- `eq.avail = eq.cap - 1 - dist(eq.cidx, eq.pidx, eq.cap)` (10_state R57) and
`|eq.maps| + eq.maps_free = eq.nmaps` (10_state R52). -/
def EgressQueue.accounted (q : EgressQueue) : Bool :=
  q.inRange && q.avail.toNat = q.cap.toNat - 1 - occEq q && q.maps.length + q.mapsFree.toNat = q.nmaps.toNat

/-- Every egress queue's credits and maps are accounted for. -/
def EgressAccounted (s : State) : Prop := ∀ i q, s.eqAt i = some q → q.accounted = true

/-- The credits of the slot records met by a walk of `left` descriptors from index `i`, each record's `desc_used` taking
it to the next; none when a record has no descriptor or reaches past the end (10_state R57). `fuel` bounds the records. -/
def walkCredits (q : EgressQueue) : Nat → Nat → BitVec 16 → Option Nat
  | _, 0, _ => some 0
  | 0, _ + 1, _ => none
  | fuel + 1, left + 1, i =>
    let r := q.sdesc.getD i.toNat {}
    if r.descUsed = 0 ∨ left + 1 < r.descUsed.toNat then none
    else (walkCredits q fuel (left + 1 - r.descUsed.toNat) (addTo i q.cap r.descUsed.toNat)).map (· + r.credits.toNat)

/-- "walking `eq.sdesc` from `eq.cidx` by each record's `desc_used` reaches `eq.pidx` exactly, and the sum of `credits` over
that walk is `|eq.maps|`" (10_state R57), less the maps of the packets in an open accumulator, which has its two header
flits at least (44_coalescing R353, R354). -/
def EgressQueue.walked (q : EgressQueue) : Bool :=
  walkCredits q (occEq q) (occEq q) q.cidx = some (q.maps.length - if q.txpkts.isOpen then q.txpkts.npkt.toNat else 0) &&
    (!q.txpkts.isOpen || (q.txpkts.npkt.toNat ≤ q.maps.length && 2 ≤ q.txpkts.flits.toNat))

/-- Every egress queue's slot records account for its ring and its maps. -/
def EgressWalked (s : State) : Prop := ∀ i q, s.eqAt i = some q → q.walked = true

/-- "a queue is on it exactly when `eq.state = Stalled`", without duplicates (10_state R56). -/
def StalledExact (s : State) : Prop :=
  s.stalled.Nodup ∧ ∀ i, i ∈ s.stalled ↔ ∃ q, s.eqAt i = some q ∧ q.state = .stalled

/-- "each in state `Busy`, without duplicates" (10_state R46), and between commands no other queue is Busy. -/
def WorklistExact (s : State) : Prop :=
  s.worklist.Nodup ∧ ∀ i, i ∈ s.worklist ↔ ∃ q, s.iqAt i = some q ∧ q.state = .busy

/-- "A free list is on the list exactly when its `STARVING` flag is set", without duplicates (10_state R32); a torn-down
queue's list is doomed, and a doomed list is not starving (47_system R433). -/
def StarvingExact (s : State) : Prop :=
  s.starving.Nodup ∧ (∀ i, i ∈ s.starving ↔ ∃ fl, s.flAt i = some fl ∧ fl.starving = true) ∧
    ∀ i q fl, s.iqAt i = some q → q.fl = some fl →
      (q.state = .dead → fl.doomed = true) ∧ (fl.doomed = true → fl.starving = false)

/-! ## Reference counts (10_state R29) -/

/-- The segments of the half-built frame that a list has saved (10_state R31). -/
def FreeList.saved (fl : FreeList) : List Segment :=
  match fl.bufResume, fl.resume with
  | true, some r => r.frame.segs
  | _, _ => []

/-- The buffers that a list's slots hold. -/
def FreeList.buffers (fl : FreeList) : List Nat := fl.sdesc.filterMap (·.buf)

/-- The buffers that Shared segments name, each as often as it is named. -/
def sharedHandles (segs : List Segment) : List Nat :=
  segs.filterMap fun g =>
    match g with
    | .shared h _ _ => some h
    | .copy _ _ | .owned _ _ _ => none

/-- Every free list there is. -/
def State.lists (s : State) : List FreeList := s.iq.filterMap fun q => q.bind (·.fl)

/-- The buffers that slots hold. -/
def State.slotBuffers (s : State) : List Nat := s.lists.flatMap FreeList.buffers

/-- The buffers that live Shared segments name: those the client holds, and those of half-built frames. -/
def State.liveShared (s : State) : List Nat := sharedHandles (s.held ++ s.lists.flatMap FreeList.saved)

/-- "`b.refcount = (1 if some slot's buf is b, else 0) + (number of live Shared segments that name b)`" for a buffer with
metadata, and "a buffer whose count reaches 0 is no longer in `arena`". -/
def CountExact (s : State) (b : Buffer) : Prop :=
  let n := (if b.handle ∈ s.slotBuffers then 1 else 0) + s.liveShared.count b.handle
  b.refcount = BitVec.ofNat 32 n ∧ n ≠ 0

/-- The reference-count invariant, with what it rests on: a handle names one buffer, one slot at most holds it, a handle
not yet drawn is named nowhere (log 17), and a torn-down queue's list holds nothing (47_system R433). -/
def CountsExact (s : State) : Prop :=
  (∀ b ∈ s.arena, b.hasMeta = true → CountExact s b) ∧ (s.arena.map (·.handle)).Nodup ∧ s.slotBuffers.Nodup ∧
    (∀ h ∈ s.arena.map (·.handle) ++ s.slotBuffers ++ s.liveShared, h < s.env.nextBuf) ∧
      ∀ i q fl, s.iqAt i = some q → q.state = .dead → q.fl = some fl →
        fl.doomed = true ∧ fl.buffers = [] ∧ sharedHandles fl.saved = []

/-! ## Conditions under which an operation runs to its end -/

/-- A free-list ring with its status page lies inside the address space. -/
def FreeList.mapped (fl : FreeList) : Bool := inSpace fl.base.toNat (8 * fl.cap.toNat + 64)

/-- An ingress ring lies inside the address space. -/
def IngressQueue.mapped (q : IngressQueue) : Bool := inSpace q.base.toNat (16 * q.cap.toNat)

/-- An egress ring with its status page lies inside the address space. -/
def EgressQueue.mapped (q : EgressQueue) : Bool := inSpace q.base.toNat (64 * q.cap.toNat + 64)

/-- Every buffer a slot holds is in the arena, with a count that is not 0 where it has frame segments. -/
def slotsSound (s : State) (fl : FreeList) : Bool :=
  fl.sdesc.all fun sd =>
    match sd.buf with
    | none => true
    | some h => (match s.bufferOf h with | some b => sd.nmbuf = 0 || b.refcount ≠ 0 | none => false)

/-- Every slot holds a buffer without frame segments: REFILL posts it again (40_free_list R182). -/
def allRecyclable (fl : FreeList) : Bool := fl.sdesc.all fun sd => sd.buf.isSome && sd.nmbuf = 0

/-- The consumer index the status page shows (45_reclaim_doorbell R377). -/
def statusCidx (s : State) (q : EgressQueue) : BitVec 16 := (decodeSp (s.ring.flit (eqStatusAddr q))).cidx

/-- The status page shows an index of the ring that is not ahead of `eq.pidx` (60_exceptions R458). -/
def statusSound (s : State) (q : EgressQueue) : Bool :=
  statusCidx s q < q.cap && reclaimable q (statusCidx s q) ≤ occEq q

/-- The entry at the cursor is not new (42_ingress_service R252). -/
def ringEmptyAt (s : State) (q : IngressQueue) : Bool :=
  footerGen (s.ring.flit (entryAddr q q.cidx.toNat + 8)) ≠ q.gen

/-- Nothing to flush and no list to refill at the end of a service call (42_ingress_service R260, R261). -/
def quietEnd (q : IngressQueue) : Bool :=
  !lroDue q && (match q.fl with | some fl => !needsRefill fl | none => true)

/-- A packet of the single-request path on an Active queue with a closed accumulator. -/
def singlePath (c : Cfg) (q : EgressQueue) (p : Packet) : Bool :=
  q.state = .active && !q.txpkts.isOpen && !malformed p && !(q.coalesce && coalescable c p)

/-- A commit of `nd` descriptors that rings no doorbell and has the credits (43_egress_submit R308, R313). -/
def quietCommit (c : Cfg) (q : EgressQueue) (nd : Nat) : Bool :=
  nd ≤ q.avail.toNat && q.avail < q.cap && q.pending.toNat + nd < c.eqDbBatch && q.pending.toNat + nd < 65536

/-- The queue after a commit that rings no doorbell (43_egress_submit R308). -/
def committed (q : EgressQueue) (nd credits npkts : Nat) : EgressQueue :=
  { q with
    sdesc := q.sdesc.set q.pidx.toNat ⟨BitVec.ofNat 16 nd, BitVec.ofNat 16 credits, BitVec.ofNat 8 npkts⟩
    pidx := addTo q.pidx q.cap nd
    avail := q.avail - BitVec.ofNat 16 nd
    pending := q.pending + BitVec.ofNat 16 nd }

/-! ## Creation arguments that the rules accept -/

/-- The constraints on `cfg` (00_scope R8), with payload addresses at multiples of 16 (20_memory R86, log 2). -/
def CfgSound (c : Cfg) : Prop :=
  (∃ k, c.padBoundary = 2 ^ k) ∧ (∃ k, c.packBoundary = 2 ^ k) ∧
    1 ≤ c.bufferSizes.length ∧ c.bufferSizes.length ≤ 16 ∧ (∀ z ∈ c.bufferSizes, 0 < z ∧ z % 16 = 0) ∧
      1 ≤ c.coalesceTimers.length ∧ c.coalesceTimers.length ≤ 6 ∧ c.embedBytes % 16 = 0

/-- The layout parameters have the values that the rules' layouts are written for (00_scope R10, log 2). -/
abbrev LayoutStated (c : Cfg) : Prop :=
  c.idxBits = 16 ∧ c.flSlotFlits = 1 ∧ c.iqEntryFlits = 2 ∧ c.eqDescFlits = 8 ∧ c.spFlits = 8

/-- What CREATE_IQ does not refuse (47_system R430). -/
def LegalIq (s : State) (i : Nat) (a : CreateIqArgs) : Prop :=
  i < s.iq.length ∧ (∀ q, s.iqAt i = some q → q.state = .dead) ∧ a.qid < 4096 ∧
    (∀ j q, j ≠ i → s.iqAt j = some q → q.state ≠ .dead → q.qid.toNat ≠ a.qid) ∧ a.base.toNat % s.cfg.ringAlign = 0 ∧
      2 ≤ a.cap ∧ a.cap ≤ 65535 ∧ a.budget ≠ 0 ∧ a.timerIdx < min 6 s.cfg.coalesceTimers.length ∧
        (a.role = .forwarded →
          ∃ j q, s.iqAt j = some q ∧ q.role = .forwarder ∧ q.state ≠ .dead ∧ q.qid.toNat = a.parent) ∧
          LayoutStated s.cfg

/-- What CREATE_FL does not refuse, but for the choice of a layout (47_system R431). -/
def LegalFl (s : State) (i : Nat) (a : CreateFlArgs) : Prop :=
  (∃ q, s.iqAt i = some q ∧ q.state = .idle ∧ q.fl = none) ∧ a.base.toNat % s.cfg.ringAlign = 0 ∧ 16 ≤ a.cap ∧
    a.cap ≤ 65535 ∧ a.cap % 8 = 0 ∧ a.lowat ≤ a.cap - 1 ∧ a.refillThresh.getD (a.cap - 1) ≤ a.cap - 1 ∧
      (a.dbMech = .reg ∨ a.dbMech = .udbPage) ∧ CfgSound s.cfg ∧ LayoutStated s.cfg

/-- What CREATE_EQ does not refuse (47_system R432). -/
def LegalEq (s : State) (i : Nat) (a : CreateEqArgs) : Prop :=
  i < s.eq.length ∧ (∀ q, s.eqAt i = some q → q.state = .dead) ∧
    (∀ j q, j ≠ i → s.eqAt j = some q → q.state ≠ .dead → q.qid ≠ a.qid) ∧
      (∀ j fl, s.flAt j = some fl → fl.doomed = false → fl.qid ≠ a.qid) ∧ a.flowid < 2 ^ 24 ∧
        a.base.toNat % s.cfg.ringAlign = 0 ∧ ceilDiv s.cfg.wrMaxFlits 8 + 1 ≤ a.cap ∧ a.cap ≤ 65535 ∧ 1 ≤ a.resumeThreshold ∧
          a.resumeThreshold ≤ a.cap - 1 ∧ 1 ≤ a.nmaps.getD a.cap ∧ a.nmaps.getD a.cap ≤ 65535 ∧ LayoutStated s.cfg

/-! ## Refill sources -/

/-- Class `i` of `hs` bytes is a candidate whose zone is `z`, "the least `z`" that holds it (40_free_list R186, R189). -/
def IsCandidate (c : Cfg) (packing : Bool) (i hs z : Nat) : Prop :=
  c.bufferSizes[i]? = some hs ∧ hs % (if packing then c.packBoundary else c.padBoundary) = 0 ∧
    z < c.zoneSizes.length ∧ c.embedBytes + hs + metaSize c packing ≤ c.zoneSizes.getD z 0 ∧
      ∀ y, y < z → c.zoneSizes.getD y 0 < c.embedBytes + hs + metaSize c packing

/-- Class `i` of `hs` bytes fits `SAFE_ZONE` (40_free_list R187). -/
def IsSafeCandidate (c : Cfg) (packing : Bool) (i hs : Nat) : Prop :=
  c.bufferSizes[i]? = some hs ∧ hs % (if packing then c.packBoundary else c.padBoundary) = 0 ∧
    c.safeZone < c.zoneSizes.length ∧ c.embedBytes + hs + metaSize c packing ≤ c.zoneSizes.getD c.safeZone 0

/-- The layout of class `i` in zone `z` (40_free_list R187, R189). -/
def layoutFor (c : Cfg) (packing : Bool) (i z : Nat) : ClusterLayout :=
  ⟨BitVec.ofNat 4 i, z, BitVec.ofNat 32 c.embedBytes, BitVec.ofNat 32 (c.zoneSizes.getD z 0 - metaSize c packing)⟩

/-- What `FIND_BEST_REFILL_SOURCE` returns (40_free_list R186). -/
def BestSource (c : Cfg) (maxp : Nat) (packing : Bool) (l : Option ClusterLayout) : Prop :=
  (l = none ∧ ∀ i hs z, ¬ IsCandidate c packing i hs z) ∨
    ∃ i hs z, l = some (layoutFor c packing i z) ∧ IsCandidate c packing i hs z ∧
      ((packing = true ∨ ∀ j h y, IsCandidate c packing j h y → h < maxp) →
        ∀ j h y, IsCandidate c packing j h y → h < hs ∨ (h = hs ∧ i ≤ j)) ∧
      (packing = false → (∃ j h y, IsCandidate c packing j h y ∧ maxp ≤ h) →
        maxp ≤ hs ∧ ∀ j h y, IsCandidate c packing j h y → maxp ≤ h → hs < h ∨ (h = hs ∧ i ≤ j))

/-- What `FIND_SAFE_REFILL_SOURCE` returns (40_free_list R187). -/
def SafeSource (c : Cfg) (packing : Bool) (l : Option ClusterLayout) : Prop :=
  (l = none ∧ ∀ i hs, ¬ IsSafeCandidate c packing i hs) ∨
    ∃ i hs, l = some (layoutFor c packing i c.safeZone) ∧ IsSafeCandidate c packing i hs ∧
      ∀ j h, IsSafeCandidate c packing j h → h < hs ∨ (h = hs ∧ i ≤ j)

/-! ## Queues that an identifier names and no other -/

/-- No live ingress queue beside `i` has its identifier. -/
def AloneIq (s : State) (i : Nat) (q : IngressQueue) : Prop :=
  ∀ j x, j ≠ i → s.iqAt j = some x → x.state ≠ .dead → x.qid ≠ q.qid

/-- The credit words among MMIO writes that name ingress queue `qid`, in order (30_encoding R141). -/
def creditsOf (qid : BitVec 12) (ws : List MmioWrite) : List (BitVec 32) :=
  ws.filterMap fun w =>
    match w with
    | .word .icw v => if v.extractLsb' 20 12 = qid then some v else none
    | .word .db _ | .word (.udb _) _ | .burst _ _ => none

/-- The free list of ingress queue `i` is the one live ring with this doorbell identifier. -/
def OnlyFl (s : State) (qid : BitVec 16) (i : Nat) (fl : FreeList) : Prop :=
  s.flAt i = some fl ∧ fl.doomed = false ∧ fl.qid = qid ∧
    (∀ j g, s.flAt j = some g → g.doomed = false → g.qid = qid → j = i) ∧
      ∀ j e, s.eqAt j = some e → e.state ≠ .dead → e.qid ≠ qid

/-- Egress queue `i` is the one live ring with this doorbell identifier. -/
def OnlyEq (s : State) (qid : BitVec 16) (i : Nat) (q : EgressQueue) : Prop :=
  s.eqAt i = some q ∧ q.state ≠ .dead ∧ q.qid = qid ∧
    (∀ j e, s.eqAt j = some e → e.state ≠ .dead → e.qid = qid → j = i) ∧
      ∀ j g, s.flAt j = some g → g.doomed = false → g.qid ≠ qid

/-- Ingress queue `i` is the one live ingress queue with this identifier. -/
def OnlyIq (s : State) (qid : BitVec 12) (i : Nat) (q : IngressQueue) : Prop :=
  s.iqAt i = some q ∧ q.state ≠ .dead ∧ q.qid = qid ∧
    ∀ j x, s.iqAt j = some x → x.state ≠ .dead → x.qid = qid → j = i

/-- Egress queue `i` is the one live queue with this write-combining window. -/
def OnlyWindow (s : State) (a : Addr) (i : Nat) (q : EgressQueue) : Prop :=
  s.eqAt i = some q ∧ q.state ≠ .dead ∧ q.dbMech = .wcCopy ∧ q.wcAddr = a ∧
    ∀ j e, s.eqAt j = some e → e.state ≠ .dead → e.dbMech = .wcCopy → e.wcAddr = a → j = i

/-- Child `j` is the one live `Forwarded` queue of forwarder `q` with this identifier (42_ingress_service R255). -/
def OnlyChild (s : State) (q : IngressQueue) (target : BitVec 12) (j : Nat) (t : IngressQueue) : Prop :=
  s.iqAt j = some t ∧ t.qid = target ∧ t.role = .forwarded ∧ t.parent = q.qid ∧ t.state ≠ .dead ∧
    ∀ k x, s.iqAt k = some x → x.qid = target → x.role = .forwarded → x.parent = q.qid → x.state ≠ .dead → k = j

/-! ## Cursors -/

/-- An ingress queue with its cursor one entry further (42_ingress_service R257). -/
def passed (q : IngressQueue) : IngressQueue :=
  { q with
    cidx := BitVec.ofNat 16 ((q.cidx.toNat + 1) % q.cap.toNat)
    gen := if (q.cidx.toNat + 1) % q.cap.toNat = 0 then !q.gen else q.gen }

/-- A free list with its payload cursor moved by `len` bytes in a buffer of `hs` bytes (41_frame_reassembly R226,
R227). -/
def consumed (c : Cfg) (fl : FreeList) (len hs : Nat) : FreeList :=
  if fl.packing = true ∧ fl.rxOffset.toNat + min (roundup len c.packBoundary) (hs - fl.rxOffset.toNat) ≠ hs then
    { fl with
      rxOffset := BitVec.ofNat 32 (fl.rxOffset.toNat + min (roundup len c.packBoundary) (hs - fl.rxOffset.toNat)) }
  else { fl with cidx := BitVec.ofNat 16 ((fl.cidx.toNat + 1) % fl.cap.toNat), rxOffset := 0 }

/-- The device's free-list cursor moved likewise (46_device_agent R403). -/
def devConsumed (c : Cfg) (fl : FreeList) (d : DevFl) (len hs : Nat) : DevFl :=
  if fl.packing = true ∧ d.off.toNat + min (roundup len c.packBoundary) (hs - d.off.toNat) ≠ hs then
    { d with off := BitVec.ofNat 32 (d.off.toNat + min (roundup len c.packBoundary) (hs - d.off.toNat)) }
  else { d with cidx := BitVec.ofNat 16 ((d.cidx.toNat + 1) % fl.cap.toNat), off := 0 }

/-- `dev.iq` after an entry (46_device_agent R403). -/
def devPassed (q : IngressQueue) (d : DevIq) : DevIq :=
  { d with
    pidx := BitVec.ofNat 16 ((d.pidx.toNat + 1) % q.cap.toNat)
    gen := if (d.pidx.toNat + 1) % q.cap.toNat = 0 then !d.gen else d.gen
    credits := d.credits - 1 }

/-- The descriptors at which `k` slot records stand, from index `i`, each record's `desc_used` taking the walk to the next
(45_reclaim_doorbell R370). -/
def recordWalk (q : EgressQueue) : Nat → BitVec 16 → List Nat
  | 0, _ => []
  | k + 1, i => i.toNat :: recordWalk q k (addTo i q.cap (q.sdesc.getD i.toNat {}).descUsed.toNat)

/-- The accumulator's bounds (44_coalescing R357) and its place (44_coalescing R355). -/
def CoalescingBounded (s : State) : Prop :=
  ∀ i q, s.eqAt i = some q → q.txpkts.isOpen = true →
    q.txpkts.start = q.pidx ∧ q.txpkts.npkt.toNat ≤ s.cfg.txpktsMaxPkts ∧
      q.txpkts.flits.toNat ≤ max 2 s.cfg.wrMaxFlits ∧ q.txpkts.plen.toNat < 2 ^ s.cfg.txpktsLenBits

/-- The length of a segment (10_state R43). -/
def segmentLength : Segment → Nat
  | .copy _ n | .shared _ _ n | .owned _ _ n => n.toNat

/-- The slots or descriptors that MMIO writes tell the device of: the `PIDX_INC` of doorbell words, one for a burst
(46_device_agent R401). -/
def toldBy (ws : List MmioWrite) : Nat :=
  (ws.map fun w =>
    match w with
    | .word .icw _ => 0
    | .word _ v => (v.extractLsb' 0 16).toNat
    | .burst _ _ => 1).sum

/-! ## Who issues what -/

/-- The table of agents (47_system R437). The QE does not check it (60_exceptions R480); "agents reach" SERVICE "only
through" other commands (30_encoding R144). -/
def Agent.mayIssue : Agent → Instr → Bool
  | .core _, .interrupt _ => true
  | .deferredContext, .deferredRun => true
  | .timer, .timerTick => true
  | .client, .submit _ _ | .client, .txpktsFlush _ | .client, .txDone _ | .client, .notify _ | .client, .reclaim _ _
  | .client, .refill _ _ | .client, .frameRelease _ => true
  | .submitter, .submitWr _ _ | .submitter, .notify _ => true
  | .platform, .createIq _ _ | .platform, .createFl _ _ | .platform, .createEq _ _ | .platform, .teardownIq _
  | .platform, .teardownEq _ => true
  | .device, i => i.space = .device
  | _, _ => false

end Sys2Proof.Machine
end

