-- ==== Sys2Proof/Certificates/Slice0/Obligations.lean ====
section
/-! DEFINITION. The statements for the provers, by family: encoding, the step, invariants, refusals, creation and
teardown, the free list, frame reassembly, ingress service, egress submission, records, reclamation, the device. -/

section

open Sys2Proof Sys2Proof.Machine

/-! ## Encoding -/

/-- Every well-formed instruction is read back from its words (30_encoding R122 to R144). -/
def Obligations.DecodeEncode : Prop := ∀ i : Instr, i.wellFormed = true → decode (encode i) = .ok i

/-- The flits of a scatter-gather list, their number, and the list read back (30_encoding R134, R135). -/
def Obligations.SglLayout : Prop :=
  ∀ (s : PktSeg) (rest : List PktSeg) (tail : List Flit), rest.length + 1 ≤ 65535 →
    let fs := encodeSgl (s :: rest)
    let n := rest.length + 1
    fs.length = 2 + 3 * ((n - 1) / 2) + 2 * ((n - 1) % 2) ∧
    fs[0]? = some ((0x12 : BitVec 8) ++ (0 : BitVec 8) ++ BitVec.ofNat 16 n ++ s.len) ∧ fs[1]? = some s.addr ∧
    (∀ t a, rest[2 * t]? = some a →
      fs[2 + 3 * t]? = some (a.len ++ (match rest[2 * t + 1]? with | some b => b.len | none => (0 : BitVec 32))) ∧
      fs[3 + 3 * t]? = some a.addr ∧ ∀ b, rest[2 * t + 1]? = some b → fs[4 + 3 * t]? = some b.addr) ∧
    decodeSgl (fs ++ tail) = some (s :: rest, tail)

/-- No bit of a record is dropped: a record read and written again is the same word (30_encoding R122 to R133, R140 to
R142). -/
def Obligations.RecordsKeepEveryBit : Prop :=
  (∀ f0 f1, encodeEntry (decodeEntry f0 f1) = (f0, f1)) ∧
  (∀ f0 f1, encodeHeader (topByte f0) (decodeHeader f0 f1) = [f0, f1]) ∧
  (∀ f0 f1, topByte f0 = 0x10 → encodeLso (decodeLso f0 f1) = [f0, f1]) ∧
  (∀ f, topByte f = 0x11 → encodeTxpkt (decodeTxpkt f) = f) ∧
  (∀ f, encodeFle (decodeFle f) = f) ∧ (∀ w, encodeDbw (decodeDbw w) = w) ∧
  (∀ w, encodeIcw (decodeIcw w) = w) ∧ (∀ f, encodeSp (decodeSp f) = f)

/-- The parts of a single-packet request and the records of a coalesced one are read back, with or without the pad flit
(30_encoding R136, R138, R139). -/
def Obligations.PacketRequestsReadBack : Prop :=
  (∀ (flowid : BitVec 24) (b : PktBody) (pad : List Flit), pad = [] ∨ pad = [0] →
    (match b.payload with
     | .imm data => 1 ≤ data.length ∧ data.length + 24 < 65536
     | .sgl segs => 1 ≤ segs.length ∧ segs.length ≤ 65535) →
    decodePktBody (pktHeader flowid b) (encodePktBody b ++ pad) = some b) ∧
  ∀ (rs : List PktRecord) (pad : List Flit), pad = [] ∨ pad = [0] →
    (∀ r ∈ rs, 1 ≤ r.segs.length ∧ r.segs.length ≤ 65535) →
    decodeRecords rs.length (rs.flatMap encodeRecord ++ pad) = some rs

/-- Words of the spec's own examples decode to what they stand for (30_encoding R122, R126, R127, R129, R130,
R132 to R134, R140 to R142, 46_device_agent R403). -/
def Obligations.DecodeWords : Prop :=
  decodeEntry 0x20800000000005DC 0x800005DC00000080 =
    .rx { opcode := 0x20, csumOk := true, msgLen := 1500, newbuf := true, len := 1500, footer := { gen := true } } ∧
  decodeEntry 0x2100000700050000 0x0000000000000090 =
    .egrUpdate { eqid := 7, cidx := 5, footer := { gen := true } } ∧
  decodeEntry 0 0x00000009000000A0 = .fwd { targetQid := 9, footer := { gen := true } } ∧
  decodeFle 0x0000000000200002 = ⟨0x20000, 2⟩ ∧ decodeDbw 0x00070020 = ⟨7, 32⟩ ∧
  decodeIcw 0x00530003 = ⟨5, 1, true, 3⟩ ∧ decodeSp 0x0000000700050005 = ⟨0, 7, 5, 5⟩ ∧
  decodeTxpkt 0x1180000000000036 = { l3CsumEn := true, pktLen := 54 } ∧
  decodeLso 0x10000E1420000000 0x05A800000000FECA =
    { l2len := 14, l3len := 20, l4len := 32, mss := 1448, totalLen := 65226 } ∧
  decodeSgl [0x1200000100000064, 0x9000] = some ([⟨0x9000, 100⟩], []) ∧
  decodeHeader 0x0203000000012306 0x012C000000000000 = { npkt := 3, flowid := 0x123, len16 := 6, plen := 300 }

/-! ## The step -/

/-- A step runs the instruction that the next words handed over decode to, and does nothing when there are none
(70_reset_and_hazards R500, log 1). -/
def Obligations.StepRunsDecoded : Prop :=
  (∀ s : State, s.port = [] → step s = .next s) ∧
  ∀ (s : State) (w : Words) (rest : List Words) (i : Instr),
    s.port = w :: rest → decode w = .ok i → i.wellFormed = true → step s = exec i { s with port := rest }

/-- Global reset (70_reset_and_hazards R500). The content of the memories is the model's choice (log 4) and is not
claimed. -/
def Obligations.GlobalReset : Prop :=
  ∀ (c : Cfg) (i : Nat) (n : Nat) (b : BitVec 16) (p : Packet) (fs : List Flit) (a : CreateFlArgs),
    let r := State.resetWith c
    r.cfg = c ∧ r.iqAt i = none ∧ r.eqAt i = none ∧ r.arena = [] ∧ r.starving = [] ∧ r.stalled = [] ∧
    r.worklist = [] ∧ r.panic = false ∧ r.out = [] ∧ r.mmio = [] ∧ r.devFlAt i = none ∧ r.devIqAt i = none ∧
    r.devEqAt i = none ∧ step r = .next r ∧
    ∀ k ∈ [Instr.createFl i a, .teardownIq i, .teardownEq i, .refill i n, .interrupt i, .service i b, .submit i p,
        .submitWr i fs, .txpktsFlush i, .reclaim i b, .notify (.fl i), .notify (.eq i), .txDone i],
      exec k r = .next { r with ret := .refused .badarg, raised := [.badarg] }

/-- The panic bit: 0 after reset, set only by a panic, never cleared, and no step of the QE while it is 1
(10_state R65). -/
def Obligations.PanicLatch : Prop :=
  (∀ c, (State.resetWith c).panic = false) ∧
  (∀ i s t, exec i s = .next t → s.panic = false → t.panic = true → t = takePanic s) ∧
  (∀ s t, s.panic = true → step s = .next t → t.panic = true) ∧
  ∀ i s, s.panic = true → i.space ≠ .device → (∀ q r, i ≠ .sp q r) → exec i s = .fault .panicked

/-! ## Invariants -/

/-- The invariants hold after global reset. -/
def Obligations.InvariantsAtReset : Prop :=
  ∀ c, let r := State.resetWith c
    MemoriesCanonical r ∧ IndicesInRange r ∧ EgressAccounted r ∧ EgressWalked r ∧ StalledExact r ∧ WorklistExact r ∧
      StarvingExact r ∧ CoalescingBounded r ∧ CountsExact r

/-- Every step keeps the two byte memories in their canonical form, which is the model's own way to hold them (log 4); the
spec gives a memory no form. -/
def Obligations.MemoriesStayCanonical : Prop :=
  ∀ s t, MemoriesCanonical s → step s = .next t → MemoriesCanonical t

/-- Every step leaves the configuration as it is and only appends to the events and to the MMIO writes
(00_scope R11, 10_state R62, 20_memory R90). The port, from which it takes the head and nothing else, is the model's own
(log 1). -/
def Obligations.TraceOnlyGrows : Prop :=
  ∀ s t, step s = .next t → t.cfg = s.cfg ∧ s.out <+: t.out ∧ s.mmio <+: t.mmio ∧ t.port = s.port.tail

/-- Every step keeps every ring index below its capacity (10_state R21, 00_scope R14). -/
def Obligations.IndicesStayInRange : Prop :=
  ∀ s t, UnlessPanic IndicesInRange s → step s = .next t → UnlessPanic IndicesInRange t

/-- Every step keeps each egress queue's credits and maps accounted for (10_state R52, R57). -/
def Obligations.EgressStaysAccounted : Prop :=
  ∀ s t, UnlessPanic EgressAccounted s → step s = .next t → UnlessPanic EgressAccounted t

/-- The egress accounting invariant (10_state R57), for limits that the accumulator's registers can hold: the credits, and
the walk over the slot records with their credits. -/
def Obligations.EgressRecordsExact : Prop :=
  ∀ s t, s.cfg.txpktsMaxPkts < 256 → s.cfg.wrMaxFlits < 65536 → s.cfg.txpktsLenBits ≤ 32 →
    UnlessPanic (fun u => EgressAccounted u ∧ EgressWalked u ∧ CoalescingBounded u) s → step s = .next t →
    UnlessPanic (fun u => EgressAccounted u ∧ EgressWalked u ∧ CoalescingBounded u) t

/-- `stalled` is the egress queues in state Stalled, each once, and it is empty after reset (10_state R56). -/
def Obligations.StalledListExact : Prop :=
  (∀ c, (State.resetWith c).stalled = [] ∧ StalledExact (State.resetWith c)) ∧
  ∀ s t, UnlessPanic StalledExact s → step s = .next t → UnlessPanic StalledExact t

/-- `worklist` is the ingress queues in state Busy, each once (10_state R46). -/
def Obligations.WorklistStaysExact : Prop :=
  ∀ s t, UnlessPanic WorklistExact s → step s = .next t → UnlessPanic WorklistExact t

/-- `starving` is the free lists whose STARVING flag is set, each once, and it is empty after reset (10_state R32). -/
def Obligations.StarvingListExact : Prop :=
  (∀ c, (State.resetWith c).starving = [] ∧ StarvingExact (State.resetWith c)) ∧
  ∀ s t, UnlessPanic StarvingExact s → step s = .next t → UnlessPanic StarvingExact t

/-- The accumulator never outgrows a request, and stands at the producer index while it is open (44_coalescing R355,
R357), for limits that its registers can hold. -/
def Obligations.CoalescingStaysBounded : Prop :=
  ∀ s t, s.cfg.txpktsMaxPkts < 256 → s.cfg.wrMaxFlits < 65536 → s.cfg.txpktsLenBits ≤ 32 →
    UnlessPanic CoalescingBounded s → step s = .next t → UnlessPanic CoalescingBounded t

/-! ## Refusals -/

/-- A refusal leaves the state as it was (60_exceptions R460, R461): only what was returned and raised is noted
(log 8). -/
def Obligations.RefusalChangesNothing : Prop :=
  ∀ i s t e, exec i s = .next t → t.ret = .refused e → t = { s with ret := .refused e, raised := [e] }

/-- A Doomed or Dead egress queue refuses submissions and changes nothing; RECLAIM and NOTIFY stay legal on a Doomed
one (43_egress_submit R311). -/
def Obligations.DoomedQueueRefuses : Prop :=
  ∀ (s : State) (i : Nat) (q : EgressQueue) (p : Packet) (fs : List Flit), s.panic = false → s.eqAt i = some q →
    (q.state = .doomed ∨ q.state = .dead →
      ∀ k ∈ [Instr.submit i p, .submitWr i fs, .txpktsFlush i],
        exec k s = .next { s with ret := .refused .doomed, raised := [.doomed] }) ∧
    (q.state = .doomed → ∀ (n : BitVec 16) (t : State) (e : Exc),
      (exec (.reclaim i n) s = .next t → t.ret ≠ .refused e) ∧ (exec (.notify (.eq i)) s = .next t → t.ret ≠ .refused e))

/-- What is refused, and changes nothing: with DOOMED every command on a torn-down queue or list (60_exceptions R460); with
BADARG what has no such command, no such queue, or an operand out of range (60_exceptions R461, 30_encoding R145, R150).
Where the spec gives the two tests no order, DOOMED comes first, which is the model's choice (log 39): for REFILL with
`n > 65535`, and for SERVICE, which as a command is the model's too (log 9). An access past the end of the 64-bit address
space faults, which is the model's choice (log 23): the rings that the creation commands would zero, and the status page that
RECLAIM would read. -/
def Obligations.CommandsRefused : Prop :=
  (∀ (s : State) (i : Nat) (q : IngressQueue) (b : BitVec 16), s.panic = false → s.iqAt i = some q → q.state = .dead →
    ∀ k ∈ [Instr.interrupt i, .service i b, .teardownIq i],
      exec k s = .next { s with ret := .refused .doomed, raised := [.doomed] }) ∧
  (∀ (s : State) (i : Nat) (fl : FreeList) (n : Nat), s.panic = false → s.flAt i = some fl → fl.doomed = true →
    ∀ k ∈ [Instr.refill i n, .notify (.fl i)],
      exec k s = .next { s with ret := .refused .doomed, raised := [.doomed] }) ∧
  (∀ (s : State) (i : Nat) (q : EgressQueue) (b : BitVec 16), s.panic = false → s.eqAt i = some q → q.state = .dead →
    ∀ k ∈ [Instr.reclaim i b, .notify (.eq i), .teardownEq i, .txDone i],
      exec k s = .next { s with ret := .refused .doomed, raised := [.doomed] }) ∧
  (∀ (s : State) (code : BitVec 8) (ops : Operands) (rest : List Words), s.panic = false →
    code.toNat ∉ [0x01, 0x02, 0x03, 0x04, 0x05, 0x06, 0x10, 0x20, 0x30, 0x31, 0x32, 0x40, 0x41, 0x42, 0x50, 0x51] →
    s.port = .command code ops :: rest →
    step s = .next { s with port := rest, ret := .refused .badarg, raised := [.badarg] }) ∧
  (∀ (s : State) (i n : Nat) (b : BitVec 16), s.panic = false → s.iqAt i = none →
    ∀ k ∈ [Instr.teardownIq i, .refill i n, .interrupt i, .service i b, .notify (.fl i)],
      exec k s = .next { s with ret := .refused .badarg, raised := [.badarg] }) ∧
  (∀ (s : State) (i : Nat) (p : Packet) (fs : List Flit) (b : BitVec 16), s.panic = false → s.eqAt i = none →
    ∀ k ∈ [Instr.teardownEq i, .submit i p, .submitWr i fs, .txpktsFlush i, .reclaim i b, .notify (.eq i), .txDone i],
      exec k s = .next { s with ret := .refused .badarg, raised := [.badarg] }) ∧
  (∀ (s : State) (i n : Nat) (fl : FreeList), s.panic = false → s.flAt i = some fl → fl.doomed = false → 65535 < n →
    exec (.refill i n) s = .next { s with ret := .refused .badarg, raised := [.badarg] }) ∧
  (∀ (s : State) (i : Nat) (q : IngressQueue), s.panic = false → s.iqAt i = some q → q.state ≠ .dead →
    q.role = .forwarded → exec (.interrupt i) s = .next { s with ret := .refused .badarg, raised := [.badarg] }) ∧
  (∀ (s : State) (i : Nat) (q : EgressQueue) (p : Packet), s.panic = false → s.eqAt i = some q →
    q.state = .active ∨ q.state = .stalled →
    p.len = 0 ∨ p.segs = [] ∨ (∃ g ∈ p.segs, g.len = 0) ∨ (p.segs.map fun g => g.len.toNat).sum ≠ p.len.toNat ∨
      (p.tso = true ∧ (p.mss = 0 ∨ p.len.toNat ≤ p.l2len.toNat + p.l3len.toNat + p.l4len.toNat)) →
    exec (.submit i p) s = .next { s with ret := .refused .badarg, raised := [.badarg] }) ∧
  (∀ (s : State) (i : Nat) (q : EgressQueue) (fs : List Flit), s.panic = false → s.eqAt i = some q →
    q.state = .active ∨ q.state = .stalled →
    fs.length < 2 ∨ s.cfg.wrMaxFlits < fs.length ∨
      (∃ f ∈ fs.head?, (f.extractLsb' 56 8).toNat ∈ [0x00, 0x01, 0x02] ∨
        (f.extractLsb' 0 8).toNat ≠ (fs.length + 1) / 2) →
    exec (.submitWr i fs) s = .next { s with ret := .refused .badarg, raised := [.badarg] }) ∧
  (∀ (s : State) (i : Nat) (a : CreateIqArgs), s.panic = false → LegalIq s i a →
    inSpace a.base.toNat (16 * a.cap) = false → exec (.createIq i a) s = .fault .addressOutside) ∧
  (∀ (s : State) (i : Nat) (a : CreateFlArgs) (d : ClusterLayout), s.panic = false → LegalFl s i a →
    findBest s.cfg a.maxp.toNat a.packing = some d → inSpace (a.base.toNat + 8 * a.cap) 64 = false →
    exec (.createFl i a) s = .fault .addressOutside) ∧
  (∀ (s : State) (i : Nat) (a : CreateEqArgs), s.panic = false → LegalEq s i a →
    inSpace (a.base.toNat + 64 * a.cap) 64 = false → exec (.createEq i a) s = .fault .addressOutside) ∧
  ∀ (s : State) (i : Nat) (q : EgressQueue) (n : BitVec 16), s.panic = false → s.eqAt i = some q → q.state ≠ .dead →
    inSpace (q.base.toNat + 64 * q.cap.toNat) 8 = false → exec (.reclaim i n) s = .fault .addressOutside

/-! ## Creation, teardown, timer -/

/-- CREATE_IQ of a ring inside the address space (47_system R430); that it refuses layout parameters for which no rule gives
a layout is the model's choice (log 2). -/
def Obligations.CreateIq : Prop :=
  ∀ (s : State) (i : Nat) (a : CreateIqArgs), s.panic = false →
    (¬ LegalIq s i a → exec (.createIq i a) s = .next { s with ret := .refused .badarg, raised := [.badarg] }) ∧
    (LegalIq s i a → inSpace a.base.toNat (16 * a.cap) = true → s.ring.wf → ∃ m,
      exec (.createIq i a) s = .next { s with
        iq := s.iq.set i (some {
          qid := BitVec.ofNat 12 a.qid, base := a.base, cap := BitVec.ofNat 16 a.cap, cidx := 0, gen := true
          state := .idle, role := a.role, parent := BitVec.ofNat 12 a.parent, fl := none, budget := a.budget
          timerIdx := BitVec.ofNat 3 a.timerIdx, cntEn := a.cntEn, lro := a.lro, lroPending := 0, rxErrors := 0
          protoErrors := 0, lock := none })
        ring := m
        mmio := s.mmio ++ [.word .icw
          (BitVec.ofNat 12 a.qid ++ BitVec.ofNat 3 a.timerIdx ++ BitVec.ofBool a.cntEn ++ (0 : BitVec 16))]
        devIq := s.devIq.set i (some { pidx := 0, gen := true, credits := BitVec.ofNat 16 (a.cap - 1), armed := true })
        ret := .ok
        raised := [] } ∧
      WritesFlits s.ring m (fun k => a.base.toNat + 8 * k) (List.replicate (2 * a.cap) 0))

/-- CREATE_FL of a ring inside the address space (47_system R431). The model's choices are that a Dead queue is refused
with DOOMED before R431's own tests (60_exceptions R460, log 39), that the layout of an empty slot, which the spec gives no
value, is 0 (log 19), and what is refused of `EMBED_BYTES` and of the layout parameters (log 2). -/
def Obligations.CreateFl : Prop :=
  ∀ (s : State) (i : Nat) (a : CreateFlArgs), s.panic = false →
    ((∃ q, s.iqAt i = some q ∧ q.state = .dead) →
      exec (.createFl i a) s = .next { s with ret := .refused .doomed, raised := [.doomed] }) ∧
    ((∀ q, s.iqAt i = some q → q.state ≠ .dead) →
      ¬ LegalFl s i a ∨ findBest s.cfg a.maxp.toNat a.packing = none →
      exec (.createFl i a) s = .next { s with ret := .refused .badarg, raised := [.badarg] }) ∧
    (∀ d q, LegalFl s i a → findBest s.cfg a.maxp.toNat a.packing = some d →
      inSpace (a.base.toNat + 8 * a.cap) 64 = true → s.iqAt i = some q → s.ring.wf → ∃ m,
      exec (.createFl i a) s = .next { s with
        iq := s.iq.set i (some { q with fl := some {
          qid := a.qid, base := a.base, cap := BitVec.ofNat 16 a.cap, pidx := 0, cidx := 0, pending := 0, dbGroups := 0
          rxOffset := 0, packing := a.packing, maxp := a.maxp, lowat := BitVec.ofNat 16 a.lowat
          refillThresh := BitVec.ofNat 16 (a.refillThresh.getD (a.cap - 1)), cllDef := d
          cllSafe := findSafe s.cfg a.packing, starving := false, doomed := false, bufResume := false, resume := none
          dbMech := a.dbMech, udbAddr := a.udbAddr
          sdesc := List.replicate a.cap { buf := none, layout := {}, nmbuf := 0 } } })
        ring := m
        devFl := s.devFl.set i (some { pidx := 0, cidx := 0, off := 0 })
        ret := .ok
        raised := [] } ∧
      WritesFlits s.ring m (fun k => a.base.toNat + 8 * a.cap + 8 * k) (List.replicate 8 0))

/-- CREATE_EQ of a ring inside the address space (47_system R432). That the fields of an accumulator never opened are 0 is
the model's choice (log 19), and so is the refusal of layout parameters for which no rule gives a layout (log 2). -/
def Obligations.CreateEq : Prop :=
  ∀ (s : State) (i : Nat) (a : CreateEqArgs), s.panic = false →
    (¬ LegalEq s i a → exec (.createEq i a) s = .next { s with ret := .refused .badarg, raised := [.badarg] }) ∧
    (LegalEq s i a → inSpace (a.base.toNat + 64 * a.cap) 64 = true → s.ring.wf → ∃ m,
      exec (.createEq i a) s = .next { s with
        eq := s.eq.set i (some {
          qid := a.qid, flowid := BitVec.ofNat 24 a.flowid, base := a.base, cap := BitVec.ofNat 16 a.cap, pidx := 0
          cidx := 0, avail := BitVec.ofNat 16 (a.cap - 1), pending := 0, state := .active, crflushed := false
          resumeThreshold := BitVec.ofNat 16 a.resumeThreshold, coalesce := a.coalesce
          nmaps := BitVec.ofNat 16 (a.nmaps.getD a.cap), mapsFree := BitVec.ofNat 16 (a.nmaps.getD a.cap), maps := []
          sdesc := List.replicate a.cap { descUsed := 0, credits := 0, npkts := 0 }
          txpkts := { isOpen := false, npkt := 0, flits := 0, plen := 0, start := 0 }
          dbMech := a.dbMech, udbAddr := a.udbAddr, wcAddr := a.wcAddr, lock := none })
        ring := m
        devEq := s.devEq.set i (some { pidx := 0, cidx := 0 })
        ret := .ok
        raised := [] } ∧
      WritesFlits s.ring m (fun k => a.base.toNat + 64 * a.cap + 8 * k) (List.replicate 8 0))

/-- TEARDOWN_IQ (47_system R433): the cases in which nothing is torn down, a queue without a list, and a queue with
one, whose slots' buffers are distinct buffers of the arena. -/
def Obligations.TeardownIq : Prop :=
  ∀ (s : State) (i : Nat) (q : IngressQueue), s.panic = false → s.iqAt i = some q →
    let child := ∃ j t, s.iqAt j = some t ∧ t.state ≠ .dead ∧ t.parent = q.qid
    (q.state = .dead → exec (.teardownIq i) s = .next { s with ret := .refused .doomed, raised := [.doomed] }) ∧
    (q.state ≠ .dead → q.role = .forwarder → child →
      exec (.teardownIq i) s = .next { s with ret := .refused .badarg, raised := [.badarg] }) ∧
    (q.state = .busy → ¬ (q.role = .forwarder ∧ child) →
      exec (.teardownIq i) s = .next { s with ret := .rejected, raised := [.busyReject] }) ∧
    (q.state = .idle → ¬ (q.role = .forwarder ∧ child) → q.fl = none →
      exec (.teardownIq i) s = .next { s with
        iq := s.iq.set i (some { q with state := .dead }), ret := .ok, raised := [] }) ∧
    (∀ fl s1, q.state = .idle → ¬ (q.role = .forwarder ∧ child) → q.fl = some fl →
      releaseAll { s with
          starving := if fl.starving then s.starving.erase i else s.starving, ret := .none, raised := [] }
        (match fl.bufResume, fl.resume with | true, some r => r.frame.segs | _, _ => []) = .ok s1 →
      (fl.sdesc.filterMap (·.buf)).Nodup →
      (∀ h ∈ fl.sdesc.filterMap (·.buf), ∃ b, s1.bufferOf h = some b ∧ (b.hasMeta = true → b.refcount ≠ 0)) →
      ∃ a, exec (.teardownIq i) s = .next { s1 with
          iq := s.iq.set i (some { q with state := .dead, fl := some { fl with
            doomed := true, starving := false, bufResume := false, resume := none
            sdesc := fl.sdesc.map fun sd => if sd.buf.isSome then { sd with buf := none, nmbuf := 0 } else sd } })
          arena := a
          ret := .ok } ∧
        ∀ h, a.find? (·.handle = h) =
          if h ∈ fl.sdesc.filterMap (·.buf) then
            (s1.bufferOf h).bind fun b =>
              if b.hasMeta ∧ b.refcount ≠ 1 then some { b with refcount := b.refcount - 1 } else none
          else s1.bufferOf h)

/-- TEARDOWN_EQ (47_system R434): a queue with nothing open, pending or reclaimable, and the general case from what
the flush, NOTIFY and RECLAIM leave. -/
def Obligations.TeardownEq : Prop :=
  ∀ (s : State) (i : Nat) (q : EgressQueue), s.panic = false → s.eqAt i = some q → q.state ≠ .dead →
    (q.state = .doomed ∨ (q.txpkts.isOpen = false ∧ q.pending = 0) → q.mapped = true → q.inRange = true →
      statusCidx s q = q.cidx →
      exec (.teardownEq i) s = .next { s with
        eq := s.eq.set i (some { q with state := if q.cidx = q.pidx then .dead else .doomed })
        stalled := if q.state = .stalled then s.stalled.erase i else s.stalled
        ret := if q.cidx = q.pidx then .done else .pending
        raised := [] }) ∧
    (∀ q1 s1 d c, q.state = .doomed → reclaim i 65535 q { s with ret := .none, raised := [] } = .ok (q1, s1, d, c) →
      exec (.teardownEq i) s = .next { s1 with
        eq := s1.eq.set i (some (if q1.cidx = q1.pidx then { q1 with state := .dead } else q1))
        ret := if q1.cidx = q1.pidx then .done else .pending }) ∧
    (∀ q1 s1 q2 s2 q3 s3 d c, q.state = .active ∨ q.state = .stalled →
      flushIfOpen q { s with ret := .none, raised := [] } = .ok (q1, s1) → notifyEq q1 s1 = .ok (q2, s2) →
      reclaim i 65535 { q2 with state := .doomed }
        { s2 with stalled := if q.state = .stalled then s2.stalled.erase i else s2.stalled } = .ok (q3, s3, d, c) →
      exec (.teardownEq i) s = .next { s3 with
        eq := s3.eq.set i (some (if q3.cidx = q3.pidx then { q3 with state := .dead } else q3))
        ret := if q3.cidx = q3.pidx then .done else .pending })

/-- TIMER_TICK (47_system R435): with nothing registered; a starving list whose every slot can be posted again, which
"reaches ≥ low-water occupancy within one retry cycle and is removed", with the entries written and the device told of
each; a stalled queue, reclaimed. -/
def Obligations.TimerTick : Prop :=
  ∀ s : State, s.panic = false →
    (s.starving = [] → s.stalled = [] → exec .timerTick s = .next { s with ret := .ok, raised := [] }) ∧
    (∀ i q fl, s.starving = [i] → s.stalled = [] → s.iqAt i = some q → q.fl = some fl → fl.doomed = false →
      fl.inRange = true → fl.mapped = true → allRecyclable fl = true → slotsSound s fl = true → fl.lowat < fl.cap →
      s.ring.wf →
      let p := freeSlots fl
      let slot := fun k => (fl.pidx.toNat + k) % fl.cap.toNat
      ∃ m ws g, exec .timerTick s = .next { ws.foldl mmioWrite s with
        iq := s.iq.set i (some { q with fl := some { fl with
          pidx := addTo fl.pidx fl.cap p, pending := 0, dbGroups := g, starving := false } })
        ring := m, starving := [], ret := .ok, raised := [] } ∧
      WritesFlits s.ring m (fun k => flSlotAddr fl (slot k)) ((List.range p).map fun k =>
        let sd := fl.sdesc.getD (slot k) {}
        ((sd.buf.bind s.bufferOf).elim 0 fun b => b.base + sd.layout.payloadOff.setWidth 64) |||
          sd.layout.hwidx.setWidth 64) ∧
      (∀ w ∈ ws, ∃ k : BitVec 16, 1 ≤ k.toNat ∧
        w = .word (match fl.dbMech with | .reg => .db | _ => .udb fl.udbAddr) (fl.qid ++ k)) ∧
      (fl.pending.toNat + p < 65536 → toldBy ws = fl.pending.toNat + p) ∧
      distOf fl.cidx (addTo fl.pidx fl.cap p) fl.cap = fl.cap.toNat - 1) ∧
    (∀ i q q1 s1 d c, s.starving = [] → s.stalled = [i] → s.eqAt i = some q →
      reclaim i s.cfg.egrReclaimBatch q { s with ret := .none, raised := [] } = .ok (q1, s1, d, c) →
      exec .timerTick s = .next { s1 with eq := s1.eq.set i (some q1), ret := .ok })

/-! ## The free list -/

/-- REFILL of a list whose slots can all be posted again (40_free_list R180, R182, R190, R184, R191): the entries written,
the indices, the registration, and the doorbells, whose words the device takes in order: one each time four groups of eight
slots are complete since the last, for all that is pending, and one at the end for what remains. -/
def Obligations.RefillPosts : Prop :=
  ∀ (s : State) (i n : Nat) (q : IngressQueue) (fl : FreeList), s.panic = false → s.iqAt i = some q → q.fl = some fl →
    fl.doomed = false → n ≤ 65535 → fl.inRange = true → fl.mapped = true → allRecyclable fl = true →
    slotsSound s fl = true → s.ring.wf →
    let p := min n (freeSlots fl)
    let slot := fun k => (fl.pidx.toNat + k) % fl.cap.toNat
    let st := decide (occ fl + p < fl.lowat.toNat) && !fl.starving
    let reg := match fl.dbMech with | .reg => MmioReg.db | _ => .udb fl.udbAddr
    ∃ m ws g,
      exec (.refill i n) s = .next { ws.foldl mmioWrite s with
        iq := s.iq.set i (some { q with fl := some { fl with
          pidx := addTo fl.pidx fl.cap p, pending := 0, dbGroups := g, starving := fl.starving || st } })
        ring := m
        starving := s.starving ++ (if st then [i] else [])
        ret := .refilled p st, raised := [] } ∧
      WritesFlits s.ring m (fun k => flSlotAddr fl (slot k)) ((List.range p).map fun k =>
        let sd := fl.sdesc.getD (slot k) {}
        ((sd.buf.bind s.bufferOf).elim 0 fun b => b.base + sd.layout.payloadOff.setWidth 64) |||
          sd.layout.hwidx.setWidth 64) ∧
      (∀ w ∈ ws, ∃ k : BitVec 16, w = .word reg (fl.qid ++ k)) ∧
      (fl.pending.toNat + p < 65536 → toldBy ws = fl.pending.toNat + p) ∧
      (fl.pending.toNat + p < 65536 → fl.dbGroups.toNat < 4 → fl.cap.toNat % 8 = 0 →
        fl.pending.toNat + p ≤ s.cfg.dbIncMax →
        let since := 8 * fl.dbGroups.toNat + fl.pidx.toNat % 8
        let rings := (since + p) / 32
        let told := if rings = 0 then [fl.pending.toNat + p]
          else (fl.pending.toNat + 32 - since) :: (List.replicate (rings - 1) 32 ++ [(since + p) % 32])
        ws = (told.filter (· ≠ 0)).map (fun k => .word reg (fl.qid ++ BitVec.ofNat 16 k)) ∧
          g = (if fl.pending = 0 ∧ p = 0 then fl.dbGroups else 0) ∧
          (fl.dbGroups = 0 → ws.length ≤ (p + 7) / 32 + 1))

/-- REFILL of one slot (40_free_list R182, R183, R184, R188, R190): the slot's last reference recycled; a slot that
others still reference given up and a fresh buffer posted; an empty slot; the fresh buffer from the default layout's zone, or
from the safe one's when that is exhausted; the entry, and the doorbell of one slot; and no buffer to be had, when there is
no safe layout or its zone is exhausted too. The model's choices are that a fresh buffer's handle is the counter `nextBuf` (log 17), that the count of a buffer without
metadata, which has no value, is 0 (log 19), and that the zone's answer is the head of a list (log 5). -/
def Obligations.RefillOneSlot : Prop :=
  ∀ (s : State) (i : Nat) (q : IngressQueue) (fl : FreeList), s.panic = false → s.iqAt i = some q → q.fl = some fl →
    fl.doomed = false → fl.inRange = true → fl.mapped = true → fl.pending = 0 → incIdx fl.pidx fl.cap ≠ fl.cidx →
    s.ring.wf →
    let sd := fl.sdesc.getD fl.pidx.toNat {}
    let size := fun (l : ClusterLayout) => s.cfg.zoneSizes.getD l.zone 0
    let counted := fun (l : ClusterLayout) => decide (l.metaOff.toNat < size l)
    let starved := fun (n : Nat) => decide (occ fl + n < fl.lowat.toNat) && !fl.starving
    let posted := fun (sd : FreeListSlot) (base : Addr) (a : List Buffer) (e : Oracles) => ∃ m,
      exec (.refill i 1) s = .next { mmioWrite s
          (.word (match fl.dbMech with | .reg => .db | _ => .udb fl.udbAddr) (fl.qid ++ (1 : BitVec 16))) with
        iq := s.iq.set i (some { q with fl := some { fl with
          pidx := BitVec.ofNat 16 ((fl.pidx.toNat + 1) % fl.cap.toNat), dbGroups := 0
          starving := fl.starving || starved 1, sdesc := fl.sdesc.set fl.pidx.toNat sd } })
        arena := a, env := e, ring := m
        starving := s.starving ++ (if starved 1 then [i] else [])
        ret := .refilled 1 (starved 1), raised := [] } ∧
      WritesFlits s.ring m (fun _ => flSlotAddr fl fl.pidx.toNat)
        [(base + sd.layout.payloadOff.setWidth 64) ||| sd.layout.hwidx.setWidth 64]
    let fresh := fun (l : ClusterLayout) (base : Addr) => ({
      handle := s.env.nextBuf, base := base, zone := l.zone, hasMeta := counted l
      refcount := if counted l then 1 else 0 } : Buffer)
    let drawn := fun (rest : List (Option Addr)) => { s.env with zone := rest, nextBuf := s.env.nextBuf + 1 }
    let found := fun (l : ClusterLayout) (base : Addr) (rest : List (Option Addr)) =>
      ((l = fl.cllDef ∧ s.env.zone = some base :: rest) ∨
        (fl.cllSafe = some l ∧ s.env.zone = none :: some base :: rest)) ∧
      freshBuffer s (size l) base = true ∧ s.bufferOf s.env.nextBuf = none
    let exhausted := fun (rest : List (Option Addr)) => (fl.cllSafe = none ∧ s.env.zone = none :: rest) ∨
      (fl.cllSafe.isSome = true ∧ s.env.zone = none :: none :: rest)
    let failed := fun (sd : FreeListSlot) (a : List Buffer) (rest : List (Option Addr)) =>
      exec (.refill i 1) s = .next { s with
        iq := s.iq.set i (some { q with fl := some { fl with
          starving := fl.starving || starved 0, sdesc := fl.sdesc.set fl.pidx.toNat sd } })
        arena := a, env := { s.env with zone := rest }, starving := s.starving ++ (if starved 0 then [i] else [])
        ret := .refilled 0 (starved 0), raised := [.noresourceBuf] }
    let dropped := fun (h : Nat) (b : Buffer) =>
      s.arena.map fun x => if x.handle = h then { x with refcount := b.refcount - 1 } else x
    (∀ h b, sd.buf = some h → s.bufferOf h = some b → sd.nmbuf ≠ 0 → b.refcount = 1 →
      posted { sd with nmbuf := 0 } b.base
        (s.arena.map fun x => if x.handle = h then { x with refcount := 1 } else x) s.env) ∧
    (∀ h b, sd.buf = some h → s.bufferOf h = some b → sd.nmbuf ≠ 0 → b.refcount ≠ 0 → b.refcount ≠ 1 →
      (∀ l base rest, found l base rest →
        posted ⟨some s.env.nextBuf, l, 0⟩ base (dropped h b ++ [fresh l base]) (drawn rest)) ∧
      ∀ rest, exhausted rest → failed { sd with buf := none, nmbuf := 0 } (dropped h b) rest) ∧
    (sd.buf = none →
      (∀ l base rest, found l base rest →
        posted ⟨some s.env.nextBuf, l, 0⟩ base (s.arena ++ [fresh l base]) (drawn rest)) ∧
      ∀ rest, exhausted rest → failed sd s.arena rest)

/-- REFILL never posts the last slot, whatever the zones answer, and stops short only for a full list or for want of
buffers (40_free_list R181). -/
def Obligations.RefillKeepsOneSlot : Prop :=
  ∀ (s t : State) (i n : Nat) (q : IngressQueue) (fl : FreeList) (p : Nat) (st : Bool), s.iqAt i = some q →
    q.fl = some fl → fl.inRange = true → exec (.refill i n) s = .next t → t.ret = .refilled p st →
    ∃ fl', t.iqAt i = some { q with fl := some fl' } ∧ fl'.cap = fl.cap ∧ fl'.cidx = fl.cidx ∧
      fl'.pidx = addTo fl.pidx fl.cap p ∧ p ≤ n ∧ occ fl' = occ fl + p ∧ occ fl' ≤ fl.cap.toNat - 1 ∧
      (0 < p → fl'.pidx ≠ fl'.cidx) ∧ (p = n ∨ incIdx fl'.pidx fl'.cap = fl'.cidx ∨ t.raised = [.noresourceBuf])

/-- The starving indicator at every exit of REFILL (40_free_list R185), and the registration it leads to. -/
def Obligations.StarvingIndicator : Prop :=
  ∀ (s t : State) (i n : Nat) (q : IngressQueue) (fl : FreeList) (p : Nat) (st : Bool), s.iqAt i = some q →
    q.fl = some fl → exec (.refill i n) s = .next t → t.ret = .refilled p st →
    ∃ fl', t.iqAt i = some { q with fl := some fl' } ∧
      st = (decide (distOf fl'.cidx fl'.pidx fl'.cap < fl.lowat.toNat) && !fl.starving) ∧
      fl'.starving = (fl.starving || st) ∧ t.starving = s.starving ++ (if st then [i] else []) ∧
      (fl.lowat = 0 → st = false)

/-- The two selection functions return what their rules choose and change nothing (40_free_list R186, R187, R189). The
model's choices are that each is an instruction of its own (log 10), and that a `SAFE_ZONE` that is no index of
`cfg.zone_sizes` has no candidate (log 37). -/
def Obligations.RefillSources : Prop :=
  ∀ (s : State) (maxp : BitVec 32) (packing : Bool), s.panic = false →
    (∃ l, exec (.findBestRefillSource maxp packing) s = .next { s with ret := .layout l, raised := [] } ∧
      BestSource s.cfg maxp.toNat packing l) ∧
    ∃ l, exec (.findSafeRefillSource packing) s = .next { s with ret := .layout l, raised := [] } ∧
      SafeSource s.cfg packing l

/-! ## Frame reassembly -/

/-- CONSUME_FRAME of a frame that the buffer at the cursor holds (41_frame_reassembly R220, R224, R225, R226): the
shared, the whole and the copied segment; the two causes of an incomplete frame (R223); and `NEWBUF`, which abandons the
rest of a buffer the cursor is inside, and changes nothing at offset 0 (R221). That a CONSUME_FRAME issued by itself hands
the segments to its issuer is the model's choice (log 10, log 16), and so are a heap object's handle, the counter `nextHeap`
(log 17), an oracle's answer, the head of a list (log 5), and the zeros of metadata that no message has set (log 19). -/
def Obligations.ConsumeOneSegment : Prop :=
  (∀ (s : State) (i : Nat) (q : IngressQueue) (fl : FreeList) (total : BitVec 31) (newbuf : Bool), s.panic = false →
    s.iqAt i = some q → q.fl = some fl → fl.doomed = false → fl.bufResume = false → fl.inRange = true → total ≠ 0 →
    (newbuf = false ∨ fl.rxOffset = 0) →
    let n := total.toNat
    let sd := fl.sdesc.getD fl.cidx.toNat {}
    let hs := s.cfg.bufferSizes.getD sd.layout.hwidx.toNat 0
    let next := consumed s.cfg fl n hs
    let frame := fun g => ({ segs := [g], len := BitVec.ofNat 32 n, fm := {} } : LogicalFrame)
    (∀ h b, fl.cidx ≠ fl.pidx → sd.buf = some h → s.bufferOf h = some b → fl.rxOffset.toNat + n ≤ hs →
      (s.cfg.rxCopyThreshold ≤ n → b.hasMeta = true →
        let g := Segment.shared h (BitVec.ofNat 32 (sd.layout.payloadOff.toNat + fl.rxOffset.toNat)) (BitVec.ofNat 32 n)
        exec (.consumeFrame i total newbuf) s = .next { s with
          iq := s.iq.set i (some { q with
            fl := some { next with sdesc := fl.sdesc.set fl.cidx.toNat { sd with nmbuf := sd.nmbuf + 1 } } })
          arena := s.arena.map fun x => if x.handle = h then { x with refcount := b.refcount + 1 } else x
          held := s.held ++ [g], given := s.given ++ [g], ret := .complete (frame g), raised := [] }) ∧
      (s.cfg.rxCopyThreshold ≤ n → b.hasMeta = false →
        let g := Segment.owned h sd.layout.payloadOff (BitVec.ofNat 32 n)
        exec (.consumeFrame i total newbuf) s = .next { s with
          iq := s.iq.set i (some { q with
            fl := some { next with sdesc := fl.sdesc.set fl.cidx.toNat { sd with buf := none } } })
          held := s.held ++ [g], given := s.given ++ [g], ret := .complete (frame g), raised := [] }) ∧
      (∀ rest, n < s.cfg.rxCopyThreshold → s.env.heap = true :: rest →
        inSpace (b.base.toNat + (sd.layout.payloadOff.toNat + fl.rxOffset.toNat)) n = true →
        let g := Segment.copy s.env.nextHeap (BitVec.ofNat 32 n)
        exec (.consumeFrame i total newbuf) s = .next { s with
          iq := s.iq.set i (some { q with fl := some next })
          heap := s.heap ++ [⟨s.env.nextHeap,
            s.buf.bytes (b.base.toNat + (sd.layout.payloadOff.toNat + fl.rxOffset.toNat)) n⟩]
          env := { s.env with heap := rest, nextHeap := s.env.nextHeap + 1 }
          held := s.held ++ [g], given := s.given ++ [g], ret := .complete (frame g), raised := [] }) ∧
      (∀ rest, n < s.cfg.rxCopyThreshold → s.env.heap = false :: rest →
        inSpace (b.base.toNat + (sd.layout.payloadOff.toNat + fl.rxOffset.toNat)) n = true →
        exec (.consumeFrame i total newbuf) s = .next { s with
          iq := s.iq.set i (some { q with
            fl := some { fl with resume := some ⟨{}, BitVec.ofNat 32 n⟩, bufResume := true } })
          env := { s.env with heap := rest }, ret := .incomplete, raised := [.noresourceBuf] })) ∧
    (fl.cidx = fl.pidx →
      exec (.consumeFrame i total newbuf) s = .next { s with
        iq := s.iq.set i (some { q with
          fl := some { fl with resume := some ⟨{}, BitVec.ofNat 32 n⟩, bufResume := true } })
        ret := .incomplete, raised := [.noresourceBuf] })) ∧
  ∀ (s : State) (i : Nat) (q : IngressQueue) (fl : FreeList) (total : BitVec 31), s.iqAt i = some q → q.fl = some fl →
    (fl.rxOffset = 0 → exec (.consumeFrame i total true) s = exec (.consumeFrame i total false) s) ∧
    (fl.rxOffset ≠ 0 → fl.bufResume = false → fl.doomed = false → total ≠ 0 → fl.cidx ≠ fl.pidx →
      ∀ t, t.panic = false →
        (exec (.consumeFrame i total true) s = .next t ↔
          exec (.consumeFrame i total false) { s with iq := s.iq.set i (some { q with
            fl := some { fl with
              cidx := BitVec.ofNat 16 ((fl.cidx.toNat + 1) % fl.cap.toNat), rxOffset := 0 } }) } = .next t))

/-- The reassembly property (41_frame_reassembly R232): with packing off and slots whose sizes are `h 0`, `h 1`, … from the
cursor, a frame of `total` bytes is `n + 1` segments, the least number whose sizes reach `total`, all but the last of their
slots' sizes, whether a segment is copied, shared or whole. Copies are given their heap objects by the oracle (log 5), and
CONSUME_FRAME is issued by itself (log 10). -/
def Obligations.ReassemblyCounts : Prop :=
  ∀ (s : State) (i : Nat) (q : IngressQueue) (fl : FreeList) (total : BitVec 31) (newbuf : Bool) (n : Nat)
    (answers : List Bool), s.panic = false → s.iqAt i = some q → q.fl = some fl → fl.doomed = false →
    fl.bufResume = false → fl.inRange = true → fl.packing = false → fl.rxOffset = 0 → n + 1 ≤ occ fl →
    s.env.heap = List.replicate (n + 1) true ++ answers →
    let sd := fun k => fl.sdesc.getD ((fl.cidx.toNat + k) % fl.cap.toNat) {}
    let h := fun k => s.cfg.bufferSizes.getD (sd k).layout.hwidx.toNat 0
    let sum := fun k => ((List.range k).map h).sum
    let len := fun k => if k < n then h k else total.toNat - sum n
    sum n < total.toNat → total.toNat ≤ sum (n + 1) →
    (∀ k, k ≤ n → 0 < h k ∧ ∃ a b, (sd k).buf = some a ∧ s.bufferOf a = some b ∧
      (len k < s.cfg.rxCopyThreshold → inSpace (b.base.toNat + (sd k).layout.payloadOff.toNat) (len k) = true)) →
    (∃ t f, exec (.consumeFrame i total newbuf) s = .next t ∧ t.ret = .complete f ∧ f.segs.length = n + 1 ∧
      f.len.toNat = total.toNat ∧ ∀ k g, f.segs[k]? = some g → segmentLength g = len k ∧
        ((∃ a m, g = .copy a m) ↔ len k < s.cfg.rxCopyThreshold)) ∧
    ∀ z, (∀ k, h k = z) → n + 1 = (total.toNat + z - 1) / z

/-- A frame is complete exactly when it holds its length; an incomplete one is saved with what remains, and is resumed
whatever length and flag are then given (41_frame_reassembly R228, R223, R222). It is shown of a CONSUME_FRAME issued by
itself, which is the model's choice (log 10). -/
def Obligations.FrameLength : Prop :=
  ∀ (s t : State) (i : Nat) (q : IngressQueue) (fl : FreeList) (total : BitVec 31) (newbuf : Bool),
    s.iqAt i = some q → q.fl = some fl → fl.doomed = false → total ≠ 0 →
    exec (.consumeFrame i total newbuf) s = .next t → t.panic = false →
    (fl.bufResume = false →
      (∀ f, t.ret = .complete f → f.len.toNat = total.toNat) ∧
      (t.ret = .incomplete → t.raised = [.noresourceBuf] ∧ ∃ fl' f k, t.iqAt i = some { q with fl := some fl' } ∧
        fl'.bufResume = true ∧ fl'.resume = some ⟨f, BitVec.ofNat 32 k⟩ ∧ 0 < k ∧ f.len.toNat + k = total.toNat)) ∧
    (∀ r, fl.bufResume = true → fl.resume = some r →
      (∀ total' newbuf', total' ≠ 0 →
        exec (.consumeFrame i total' newbuf') s = exec (.consumeFrame i total newbuf) s) ∧
      ∀ f, t.ret = .complete f → f.len = r.frame.len + r.remaining ∧ r.frame.segs <+: f.segs)

/-- FRAME_RELEASE of a segment the client holds, by its shape (41_frame_reassembly R230); releasing one twice panics
(60_exceptions R458), whether the client released it first or the QE itself, with a discarded frame (41_frame_reassembly
R229); and what was of no frame is no operand, which is the model's choice (log 16). -/
def Obligations.FrameRelease : Prop :=
  ∀ s : State, s.panic = false →
    (∀ h n, Segment.copy h n ∈ s.held → (heapObject s.heap h).isSome = true →
      exec (.frameRelease (.copy h n)) s = .next { s with
        heap := s.heap.eraseP (·.handle = h), held := s.held.erase (.copy h n), ret := .ok, raised := [] }) ∧
    (∀ h o n b, Segment.shared h o n ∈ s.held → s.bufferOf h = some b → b.refcount ≠ 0 →
      exec (.frameRelease (.shared h o n)) s = .next { s with
        arena := if b.refcount = 1 then s.arena.filter (·.handle ≠ h)
          else s.arena.map fun x => if x.handle = h then { x with refcount := b.refcount - 1 } else x
        held := s.held.erase (.shared h o n), ret := .ok, raised := [] }) ∧
    (∀ h o n b, Segment.owned h o n ∈ s.held → s.bufferOf h = some b →
      exec (.frameRelease (.owned h o n)) s = .next { s with
        arena := s.arena.filter (·.handle ≠ h), held := s.held.erase (.owned h o n), ret := .ok, raised := [] }) ∧
    (∀ h o n b, Segment.shared h o n ∈ s.held → s.bufferOf h = some b → b.refcount = 0 →
      exec (.frameRelease (.shared h o n)) s = .next (takePanic s)) ∧
    (∀ g iq f, g ∉ s.held → g ∈ s.given ∨ (g ∈ f.segs ∧ (.deliver iq f ∈ s.out ∨ .lroEnqueue iq f ∈ s.out)) →
      exec (.frameRelease g) s = .next (takePanic s)) ∧
    (∀ segs t g, releaseAll s segs = .ok t → g ∈ segs → g ∉ s.held →
      exec (.frameRelease g) t = .next (takePanic t)) ∧
    ∀ g, g ∉ s.held → g ∉ s.given → g ∉ deliveredSegs s.out →
      exec (.frameRelease g) s = .next { s with ret := .refused .badarg, raised := [.badarg] }

/-! ## Ingress service -/

/-- A service that finds the ring empty writes the one credit word that re-arms the interrupt and does nothing else:
INTERRUPT leaves the queue Idle, DEFERRED_RUN takes it off the worklist, and with an empty worklist it does nothing
(42_ingress_service R250, R251, R259, R262). That SERVICE as a command runs on a Busy queue and leaves it Busy is the
model's choice (log 9). -/
def Obligations.EmptyRingService : Prop :=
  (∀ s : State, s.panic = false → s.worklist = [] →
    exec .deferredRun s = .next { s with ret := .nothing, raised := [] }) ∧
  ∀ (s : State) (i : Nat) (q : IngressQueue) (b : BitVec 16), s.panic = false → s.iqAt i = some q →
    q.mapped = true → q.cidx < q.cap → ringEmptyAt s q = true → quietEnd q = true →
    let w := MmioWrite.word .icw (q.qid ++ q.timerIdx ++ BitVec.ofBool q.cntEn ++ (0 : BitVec 16))
    (q.state = .idle → q.role ≠ .forwarded → q.budget ≠ 0 →
      exec (.interrupt i) s = .next { mmioWrite s w with ret := .done, raised := [] }) ∧
    (q.state = .busy → b ≠ 0 → exec (.service i b) s = .next { mmioWrite s w with ret := .done, raised := [] }) ∧
    (∀ rest, s.worklist = i :: rest → q.state = .busy → q.budget ≠ 0 →
      exec .deferredRun s = .next { mmioWrite s w with
        iq := s.iq.set i (some { q with state := .idle }), worklist := rest, ret := .done, raised := [] })

/-- BUSY_REJECT: the compare-and-swap that fails has no effect and the command returns Rejected; a forwarded-interrupt
entry that finds its target Busy raises nothing (60_exceptions R459), which is shown of an entry issued by itself (log 35). -/
def Obligations.BusyReject : Prop :=
  (∀ (s : State) (i : Nat) (q : IngressQueue), s.panic = false → s.iqAt i = some q → q.state = .busy →
    (q.role ≠ .forwarded → exec (.interrupt i) s = .next { s with ret := .rejected, raised := [.busyReject] }) ∧
    ((q.role = .forwarder → ∀ j t, s.iqAt j = some t → t.parent = q.qid → t.state = .dead) →
      exec (.teardownIq i) s = .next { s with ret := .rejected, raised := [.busyReject] })) ∧
  ∀ (s : State) (i j : Nat) (q t : IngressQueue) (e : FwdEntry), s.panic = false → s.iqAt i = some q →
    q.state = .busy → q.role = .forwarder → q.cidx < q.cap → e.footer.gen = q.gen →
    (q.qid, encodeFwd e) ∉ s.cfg.genCheck → OnlyChild s q e.targetQid j t → t.state = .busy →
    exec (.iqeFwd i e) s = .next { s with iq := s.iq.set i (some (passed q)), ret := .advance, raised := [] }

/-- A service call passes at most its budget of entries, and returns the credits of all it passed in one credit word, the
only one it writes of the queue where no other live queue has its identifier: re-arming when the ring was empty, UPDATE_ONLY
when the budget or a frame ended it, none when a frame ended it at the first entry. INTERRUPT and DEFERRED_RUN then leave
the queue Idle, or Busy at the back of the worklist (42_ingress_service R250, R251, R257 to R259, R262). After the credit
word comes the end of the call: the frames accumulated are flushed (R260), and then a list that is low is refilled as by a
REFILL of `min(free, SERVICE_REFILL_MAX)` (R261); this is shown of an empty ring, and of a budget of 1 used up by one entry.
That SERVICE as a command leaves the queue Busy is the model's choice (log 9). -/
def Obligations.ServiceBounded : Prop :=
  let passes := fun (s t : State) (i b : Nat) (q : IngressQueue) (state : IqState) => ∃ q' n,
    t.iqAt i = some q' ∧ n ≤ b ∧ q'.state = state ∧ q'.cidx = addTo q.cidx q.cap n ∧
    q'.gen = (q.gen ^^ decide ((q.cidx.toNat + n) / q.cap.toNat % 2 = 1)) ∧
    ∃ ws, t.mmio = s.mmio ++ ws ∧ ((t.ret = .more ∧ n = 0 ∧ (AloneIq s i q → creditsOf q.qid ws = [])) ∨ ∃ ti ce,
      let w := q.qid ++ ti ++ BitVec.ofBool ce ++ BitVec.ofNat 16 n
      .word .icw w ∈ ws ∧ (AloneIq s i q → creditsOf q.qid ws = [w]) ∧
      (t.ret = .done → ti = q.timerIdx ∧ ce = q.cntEn) ∧ (t.ret = .more → ti = 7 ∧ ce = false))
  let ends := fun (t : State) (i : Nat) (rest : List Nat) =>
    ∃ children, t.worklist = rest ++ children ++ (if t.ret = .more then [i] else [])
  let returns := fun (j : Instr) (s u : State) (i : Nat) (q : IngressQueue) (r : Ret) (es : List Exc) =>
    let v := if q.lro = true ∧ q.lroPending ≠ 0 then
        { u with iq := s.iq.set i (some { q with lroPending := 0 }), out := u.out ++ [.lroFlush q.qid] }
      else { u with iq := s.iq.set i (some q) }
    ((∀ fl, q.fl = some fl → fl.doomed = true ∨ fl.refillThresh.toNat ≤ occ fl) →
      exec j s = .next { v with ret := r, raised := es }) ∧
    ∀ fl t, q.fl = some fl → fl.doomed = false → occ fl < fl.refillThresh.toNat → t.panic = false →
      exec (.refill i (min (freeSlots fl) s.cfg.serviceRefillMax)) v = .next t →
      exec j s = .next { t with ret := r, raised := es ++ t.raised }
  (∀ (s t : State) (i : Nat) (b : BitVec 16) (q : IngressQueue), s.iqAt i = some q → q.cidx < q.cap →
    t.ret = .done ∨ t.ret = .more →
    (exec (.service i b) s = .next t → passes s t i b.toNat q .busy) ∧
    (exec (.interrupt i) s = .next t →
      passes s t i q.budget.toNat q (if t.ret = .done then .idle else .busy) ∧ ends t i s.worklist) ∧
    ∀ rest, s.worklist = i :: rest → q.state = .busy → exec .deferredRun s = .next t →
      passes s t i q.budget.toNat q (if t.ret = .done then .idle else .busy) ∧ ends t i rest) ∧
  (∀ (s : State) (i : Nat) (q : IngressQueue) (b : BitVec 16), s.panic = false → s.iqAt i = some q → q.cidx < q.cap →
    q.mapped = true → ringEmptyAt s q = true →
    let left := fun (worklist : List Nat) => ({ mmioWrite s
        (.word .icw (q.qid ++ q.timerIdx ++ BitVec.ofBool q.cntEn ++ (0 : BitVec 16))) with
      worklist := worklist } : State)
    (q.state = .idle → q.role ≠ .forwarded → q.budget ≠ 0 →
      returns (.interrupt i) s (left s.worklist) i q .done []) ∧
    (q.state = .busy → b ≠ 0 → returns (.service i b) s (left s.worklist) i q .done []) ∧
    ∀ rest, q.state = .busy → q.budget ≠ 0 → s.worklist = i :: rest →
      returns .deferredRun s (left rest) i { q with state := .idle } .done []) ∧
  ∀ (s : State) (i : Nat) (q : IngressQueue) (e : ReservedEntry), s.panic = false → s.iqAt i = some q → q.budget = 1 →
    q.cidx < q.cap → q.mapped = true → e.footer.gen = q.gen →
    (q.qid, encodeReserved e) ∉ s.cfg.genCheck →
    s.ring.flit (q.base.toNat + 16 * q.cidx.toNat) = (encodeReserved e).1 →
    s.ring.flit (q.base.toNat + 16 * q.cidx.toNat + 8) = (encodeReserved e).2 →
    let left := fun (worklist : List Nat) => ({ mmioWrite { s with
        out := s.out ++ [.log .protoOpcode q.qid q.cidx (encodeReserved e).1 (encodeReserved e).2] }
        (.word .icw (q.qid ++ (7 : BitVec 3) ++ (0 : BitVec 1) ++ (1 : BitVec 16))) with
      worklist := worklist } : State)
    let q' := { passed q with protoErrors := q.protoErrors + 1, state := .busy }
    (q.state = .idle → q.role ≠ .forwarded →
      returns (.interrupt i) s (left (s.worklist ++ [i])) i q' .more [.protoOpcode]) ∧
    (q.state = .busy → returns (.service i 1) s (left s.worklist) i q' .more [.protoOpcode]) ∧
    ∀ rest, q.state = .busy → s.worklist = i :: rest →
      returns .deferredRun s (left (rest ++ [i])) i q' .more [.protoOpcode]

/-- A receive entry whose frame one whole buffer holds is delivered: the buffer is handed over, the event carries the
frame with the message's metadata, and both cursors move; an entry that is not new is left. An INTERRUPT that finds that
one entry in the ring delivers it and returns its credit (42_ingress_service R250 to R253, R257, R259, R265). That an entry
issued by itself is dispatched on a Busy queue, that its cursor then passes it with no credit word, and that one that is not
new returns `stale` are the model's choices (log 35). -/
def Obligations.RxDelivered : Prop :=
  ∀ (s : State) (i : Nat) (q : IngressQueue) (e : RxEntry), s.panic = false → s.iqAt i = some q →
    (q.state = .busy → e.footer.gen ≠ q.gen → exec (.iqeRx i e) s = .next { s with ret := .stale, raised := [] }) ∧
    (∀ fl h b, (q.qid, encodeRx e) ∉ s.cfg.genCheck → q.cidx < q.cap → e.footer.gen = q.gen → q.fl = some fl →
      fl.inRange = true → fl.bufResume = false → fl.packing = false → fl.rxOffset = 0 → fl.cidx ≠ fl.pidx →
      let sd := fl.sdesc.getD fl.cidx.toNat {}
      let g := Segment.owned h sd.layout.payloadOff (e.len.setWidth 32)
      let f : LogicalFrame := { segs := [g], len := e.len.setWidth 32, fm := ⟨e.csumOk, e.vlanValid, e.vlanTag⟩ }
      sd.buf = some h → s.bufferOf h = some b → b.hasMeta = false → e.opcode = 0x20 → e.len ≠ 0 →
      e.msgLen = e.len.setWidth 32 → s.cfg.rxCopyThreshold ≤ e.len.toNat →
      e.len.toNat ≤ s.cfg.bufferSizes.getD sd.layout.hwidx.toNat 0 →
      let q' := { passed q with
        fl := some { fl with
          cidx := BitVec.ofNat 16 ((fl.cidx.toNat + 1) % fl.cap.toNat)
          sdesc := fl.sdesc.set fl.cidx.toNat { sd with buf := none } } }
      (q.state = .busy → exec (.iqeRx i e) s = .next { s with
        iq := s.iq.set i (some { q' with lroPending := if q.lro then q.lroPending + 1 else q.lroPending })
        out := s.out ++ [if q.lro then .lroEnqueue q.qid f else .deliver q.qid f]
        held := s.held ++ [g], ret := .advance, raised := [] }) ∧
      (q.state = .idle → q.role ≠ .forwarded → 2 ≤ q.budget.toNat → q.mapped = true → q.lro = false →
        fl.refillThresh = 0 → s.ring.flit (q.base.toNat + 16 * q.cidx.toNat) = (encodeRx e).1 →
        s.ring.flit (q.base.toNat + 16 * q.cidx.toNat + 8) = (encodeRx e).2 → ringEmptyAt s (passed q) = true →
        exec (.interrupt i) s = .next { mmioWrite { s with
            out := s.out ++ [.deliver q.qid f], held := s.held ++ [g] }
            (.word .icw (q.qid ++ q.timerIdx ++ BitVec.ofBool q.cntEn ++ (1 : BitVec 16))) with
          iq := s.iq.set i (some q'), ret := .done, raised := [] }))

/-- How a receive entry is judged after its buffers are consumed, in the order of 60_exceptions R463: incomplete, the
entry stays; not RX_PKT; a length mismatch, the frame discarded and counted (41_frame_reassembly R229, 60_exceptions
R457); delivered. The entry is issued by itself on a Busy queue, whose cursor passes it with no credit word, which is the
model's choice, as are the values returned (log 35). -/
def Obligations.RxJudged : Prop :=
  ∀ (s s1 : State) (i : Nat) (q : IngressQueue) (fl fl1 : FreeList) (e : RxEntry) (r : Option LogicalFrame),
    s.panic = false → s.iqAt i = some q → q.state = .busy → q.cidx < q.cap → e.footer.gen = q.gen →
    (q.qid, encodeRx e) ∉ s.cfg.genCheck → q.fl = some fl → e.len ≠ 0 →
    consumeFrame fl e.len.toNat e.newbuf { s with ret := .none, raised := [] } = .ok (r, fl1, s1) →
    let f0 := (encodeRx e).1
    let f1 := (encodeRx e).2
    (r = none → exec (.iqeRx i e) s = .next { s1 with
      iq := s.iq.set i (some { q with fl := some fl1 }), ret := .stay }) ∧
    (∀ f s2, r = some f → e.opcode ≠ 0x20 → releaseAll s1 f.segs = .ok s2 →
      exec (.iqeRx i e) s = .next { s2 with
        iq := s.iq.set i (some { passed q with fl := some fl1, protoErrors := q.protoErrors + 1 })
        out := s.out ++ [.log .protoOpcode q.qid q.cidx f0 f1], ret := .advance
        raised := s1.raised ++ [.protoOpcode] }) ∧
    (∀ f s2, r = some f → e.opcode = 0x20 → e.msgLen.toNat ≠ e.len.toNat → releaseAll s1 f.segs = .ok s2 →
      exec (.iqeRx i e) s = .next { s2 with
        iq := s.iq.set i (some { passed q with fl := some fl1, rxErrors := q.rxErrors + 1 })
        out := s.out ++ [.log .lenMismatch q.qid q.cidx f0 f1], ret := .advance
        raised := s1.raised ++ [.lenMismatch] }) ∧
    (∀ f, r = some f → e.opcode = 0x20 → e.msgLen.toNat = e.len.toNat →
      let g := { f with fm := ⟨e.csumOk, e.vlanValid, e.vlanTag⟩ }
      exec (.iqeRx i e) s = .next { s1 with
        iq := s.iq.set i (some { passed q with
          fl := some fl1, lroPending := if q.lro then q.lroPending + 1 else q.lroPending })
        out := s.out ++ [if q.lro then .lroEnqueue q.qid g else .deliver q.qid g]
        held := s.held ++ f.segs, ret := .advance })

/-- A protocol violation is counted, logged and skipped, for each of its causes, and the machine goes on
(42_ingress_service R256); the one cause that consumes buffers first is in `Obligations.RxJudged`. An entry on which a
platform's `gen_check` is true, which is false everywhere by default, is handled so with code 6 (60_exceptions R456,
log 29). The entries are issued by themselves (log 35). -/
def Obligations.ProtocolViolations : Prop :=
  ∀ (s : State) (i : Nat) (q : IngressQueue), s.panic = false → s.iqAt i = some q → q.state = .busy → q.cidx < q.cap →
    let skipped := fun (x : Exc) (p : Flit × Flit) => ({ s with
      iq := s.iq.set i (some { passed q with protoErrors := q.protoErrors + 1 })
      out := s.out ++ [.log x q.qid q.cidx p.1 p.2], ret := .advance, raised := [x] } : State)
    let judged := fun (j : Instr) (gen : Bool) (p : Flit × Flit) (wrong : Prop) => gen = q.gen →
      ((q.qid, p) ∈ s.cfg.genCheck → exec j s = .next (skipped .protoGen p)) ∧
      ((q.qid, p) ∉ s.cfg.genCheck → wrong → exec j s = .next (skipped .protoOpcode p))
    (∀ e : ReservedEntry, judged (.iqeReserved i e) e.footer.gen (encodeReserved e) True) ∧
    (∀ e : RxEntry, judged (.iqeRx i e) e.footer.gen (encodeRx e) (q.fl = none ∨ e.len = 0)) ∧
    (∀ e : OobEntry, judged (.iqeOob i e) e.footer.gen (encodeOob e) (e.opcode = 0x20 ∨ e.opcode ∉ s.cfg.handlers)) ∧
    (∀ e : EgrUpdateEntry, judged (.iqeEgrUpdate i e) e.footer.gen (encodeEgrUpdate e)
      (∀ j x, s.eqAt j = some x → x.qid = e.eqid → x.state = .dead)) ∧
    ∀ e : FwdEntry, judged (.iqeFwd i e) e.footer.gen (encodeFwd e)
      (q.role ≠ .forwarder ∨ ∀ j x, s.iqAt j = some x → x.qid = e.targetQid → x.role = .forwarded →
        x.parent = q.qid → x.state = .dead)

/-- An out-of-band entry: an opcode with a handler, other than those of R254 that have their own arm, is one event
(42_ingress_service R254, 30_encoding R137); an egress update reclaims the queue it names (42_ingress_service R264), and
changes nothing but the cursor when there is nothing to reclaim. The entries are issued by themselves, on a Busy queue and
with no credit word, which is the model's choice (log 35). -/
def Obligations.OutOfBandEntries : Prop :=
  ∀ (s : State) (i : Nat) (q : IngressQueue), s.panic = false → s.iqAt i = some q → q.state = .busy → q.cidx < q.cap →
    (∀ e : OobEntry, e.footer.gen = q.gen → (q.qid, encodeOob e) ∉ s.cfg.genCheck → e.opcode ≠ 0x20 →
      e.opcode ≠ 0x21 → e.opcode ∈ s.cfg.handlers →
      exec (.iqeOob i e) s = .next { s with
        iq := s.iq.set i (some (passed q)), out := s.out ++ [.oobDeliver q.qid e.opcode (e.opcode ++ e.data)]
        ret := .advance, raised := [] }) ∧
    (∀ (e : EgrUpdateEntry) (j : Nat) (x : EgressQueue), e.footer.gen = q.gen →
      (q.qid, encodeEgrUpdate e) ∉ s.cfg.genCheck → s.eqAt j = some x → x.state ≠ .dead → x.qid = e.eqid →
      (∀ k y, s.eqAt k = some y → y.state ≠ .dead → y.qid = e.eqid → k = j) →
      (x.mapped = true → x.inRange = true → statusCidx s x = x.cidx → x.state ≠ .stalled →
        exec (.iqeEgrUpdate i e) s = .next { s with
          iq := s.iq.set i (some (passed q)), ret := .advance, raised := [] }) ∧
      ∀ x1 s1 d c, reclaim j s.cfg.egrReclaimBatch x { s with ret := .none, raised := [] } = .ok (x1, s1, d, c) →
        exec (.iqeEgrUpdate i e) s = .next { s1 with
          eq := s.eq.set j (some x1), iq := s.iq.set i (some (passed q)), ret := .advance })

/-- A forwarded interrupt services its idle target one level deep with the smaller budget, finishes it, and passes the
entry (42_ingress_service R255, R263); for a target whose ring is empty that is one credit word. The entry is issued by
itself, and the budget the target's is taken from is then the queue's own, which is the model's choice (log 35). -/
def Obligations.ForwardedInterrupt : Prop :=
  ∀ (s : State) (i j : Nat) (q t : IngressQueue) (e : FwdEntry), s.panic = false → s.iqAt i = some q →
    q.state = .busy → q.role = .forwarder → q.cidx < q.cap → e.footer.gen = q.gen →
    (q.qid, encodeFwd e) ∉ s.cfg.genCheck → OnlyChild s q e.targetQid j t → t.state = .idle →
    (t.mapped = true → t.cidx < t.cap → ringEmptyAt s t = true → quietEnd t = true →
      exec (.iqeFwd i e) s = .next { mmioWrite s
          (.word .icw (t.qid ++ t.timerIdx ++ BitVec.ofBool t.cntEn ++ (0 : BitVec 16))) with
        iq := s.iq.set i (some (passed q)), ret := .advance, raised := [] }) ∧
    ∀ t1 s1 done, serviceNested j (max 1 (q.budget.toNat / s.cfg.fwdBudgetDiv)) { t with state := .busy }
        { s with ret := .none, raised := [] } = .ok (t1, s1, done) →
      exec (.iqeFwd i e) s = .next { s1 with
        iq := (s1.iq.set j (some { t1 with state := if done then .idle else .busy })).set i (some (passed q))
        worklist := s1.worklist ++ (if done then [] else [j]), ret := .advance }

/-! ## Egress submission -/

/-- SUBMIT of a packet sent as immediate data, below the doorbell batch (43_egress_submit R301, R307, R308, R312,
30_encoding R136, R139). Where the checksum workaround fires (R304) the enable bit is 0 and the bytes sent are those the
client's software checksum leaves, an oracle's answer (log 5, log 20). -/
def Obligations.SubmitImmediate : Prop :=
  ∀ (s : State) (i : Nat) (q : EgressQueue) (p : Packet), s.panic = false → s.eqAt i = some q → q.inRange = true →
    q.mapped = true → singlePath s.cfg q p = true → p.tso = false → p.forceSgl = false →
    p.len.toNat ≤ s.cfg.immMaxBytes →
    (∀ g ∈ p.segs, inSpace g.addr.toNat g.len.toNat = true) → s.ring.wf →
    let wa := p.l4csum && p.tcp && decide (p.len.toNat < s.cfg.csumMinFrame)
    let f := 3 + (p.len.toNat + 7) / 8
    let nd := (f + 7) / 8
    quietCommit s.cfg q nd = true →
    ∃ m patch env, exec (.submit i p) s = .next { s with
        eq := s.eq.set i (some (committed q nd 0 1)), ring := m, buf := patchChain s.buf p.segs patch, env := env
        out := s.out ++ [.freePkt p.handle], ret := .ok, raised := [] } ∧
      (wa = false → patch = [] ∧ env = s.env) ∧
      (wa = true → ∀ c rest, s.env.checksum = c :: rest → patch = c ∧ env = { s.env with checksum := rest }) ∧
      WritesFlits s.ring m (wrFlitAddr q q.pidx.toNat)
        ([(0x01 : BitVec 8) ++ (0 : BitVec 8) ++ BitVec.ofNat 16 (8 + p.len.toNat) ++ q.flowid ++
            BitVec.ofNat 8 ((f + 1) / 2),
          0,
          (0x11 : BitVec 8) ++ BitVec.ofBool p.l3csum ++ BitVec.ofBool (p.l4csum && !wa) ++
            BitVec.ofBool p.vlan.isSome ++ (0 : BitVec 5) ++ p.vlan.getD 0 ++ p.len] ++
          packBytes (chainBytes (patchChain s.buf p.segs patch) p.segs) ++ List.replicate (8 * nd - f) 0)

/-- SUBMIT of a packet sent by scatter-gather list, below the doorbell batch (43_egress_submit R301, R303, R304, R305, R307,
R308, 30_encoding R132, R136), of the packet's own chain or of the shorter one that the client compacted it to. A list that
compaction does not make short enough is a hard error (60_exceptions R454). The map, the compacted chain and the software
checksum are the oracles' answers (log 5, log 20, log 21). -/
def Obligations.SubmitList : Prop :=
  ∀ (s : State) (i : Nat) (q : EgressQueue) (p : Packet), s.panic = false → s.eqAt i = some q →
    singlePath s.cfg q p = true → chooseMode s.cfg p = .sgl → q.mapsFree ≠ 0 →
    let sent := fun (segs : List PktSeg) (e : Oracles) =>
      let n := segs.length
      let wa := p.l4csum && p.tcp && !p.tso && decide (p.len.toNat < s.cfg.csumMinFrame)
      let lso := if p.tso then 2 else 0
      let f := 3 + lso + sglFlits n
      let nd := (f + 7) / 8
      q.inRange = true → q.mapped = true → s.ring.wf → quietCommit s.cfg q nd = true →
      ∃ m tok patch env, exec (.submit i p) s = .next { s with
          eq := s.eq.set i (some { committed q nd 1 1 with
            maps := q.maps ++ [⟨tok, p.handle⟩], mapsFree := q.mapsFree - 1 })
          ring := m, buf := patchChain s.buf segs patch, env := env, ret := .ok, raised := [] } ∧
        (wa = false → patch = []) ∧
        (∀ a rest, e.dmaMap = a :: rest → tok = a ∧ (wa = false → env = { e with dmaMap := rest }) ∧
          (wa = true → ∀ c cs, e.checksum = c :: cs → patch = c ∧ env = { e with dmaMap := rest, checksum := cs })) ∧
        WritesFlits s.ring m (wrFlitAddr q q.pidx.toNat)
          ([(0x01 : BitVec 8) ++ (0 : BitVec 8) ++ BitVec.ofNat 16 (8 + 8 * lso) ++ q.flowid ++
              BitVec.ofNat 8 ((f + 1) / 2),
            0] ++
            (if p.tso then
              [(0x10 : BitVec 8) ++ (0 : BitVec 8) ++ p.l2len ++ p.l3len ++ p.l4len ++ (0 : BitVec 24),
                p.mss ++ (0 : BitVec 16) ++ p.len] else []) ++
            [(0x11 : BitVec 8) ++ BitVec.ofBool p.l3csum ++ BitVec.ofBool (p.l4csum && !wa) ++
              BitVec.ofBool p.vlan.isSome ++ (0 : BitVec 5) ++ p.vlan.getD 0 ++ p.len] ++
            encodeSgl segs ++ List.replicate (8 * nd - f) 0)
    (p.segs.length ≤ s.cfg.sglMaxSegs → sent p.segs s.env) ∧
    (∀ chain rest, s.cfg.sglMaxSegs < p.segs.length → s.env.compact = some chain :: rest →
      shorterChain p.segs chain = true → chainBytes s.buf chain = chainBytes s.buf p.segs →
      chain.length ≤ s.cfg.sglMaxSegs → sent chain { s.env with compact := rest }) ∧
    (∀ answer rest, s.cfg.sglMaxSegs < p.segs.length → s.env.compact = answer :: rest →
      (∀ chain, answer = some chain → s.cfg.sglMaxSegs < chain.length) →
      exec (.submit i p) s = .next { s with
        env := { s.env with compact := rest }, out := s.out ++ [.freePkt p.handle], ret := .hardError
        raised := [.sglToobig] })

/-- A submission that cannot fit marks the queue Stalled, notifies what is pending, and returns NoResource; while Stalled
every submission returns NoResource and touches nothing (43_egress_submit R309, 60_exceptions R452, R453). A list that finds
too few credits has taken its map's answer from the oracle (43_egress_submit R301, R305, log 5). -/
def Obligations.SubmitStalls : Prop :=
  ∀ (s s1 : State) (i : Nat) (q q1 : EgressQueue) (p : Packet) (fs : List Flit), s.panic = false → s.eqAt i = some q →
    let left := fun (cause : Exc) => ({ s1 with
      eq := s1.eq.set i (some { q1 with state := .stalled }), stalled := s.stalled ++ [i], ret := .noResource
      raised := [cause] } : State)
    (q.state = .stalled → malformed p = false →
      exec (.submit i p) s = .next { s with ret := .noResource, raised := [.noresourceCredit] }) ∧
    (q.state = .stalled → badRequest s.cfg fs = false →
      exec (.submitWr i fs) s = .next { s with ret := .noResource, raised := [.noresourceCredit] }) ∧
    (notifyEq q { s with ret := .none, raised := [] } = .ok (q1, s1) →
      (singlePath s.cfg q p = true → chooseMode s.cfg p = .imm → q.avail.toNat < ceilDiv (wrFlits p .imm 0) 8 →
        exec (.submit i p) s = .next (left .noresourceCredit)) ∧
      (singlePath s.cfg q p = true → chooseMode s.cfg p = .sgl → q.mapsFree = 0 →
        exec (.submit i p) s = .next (left .noresourceMap)) ∧
      (q.state = .active → q.txpkts.isOpen = false → malformed p = false → q.coalesce = true →
        coalescable s.cfg p = true → canAdd s.cfg q p = false →
        exec (.submit i p) s = .next (left (if q.mapsFree = 0 then .noresourceMap else .noresourceCredit))) ∧
      (q.state = .active → q.txpkts.isOpen = false → badRequest s.cfg fs = false → q.avail.toNat < ceilDiv fs.length 8 →
        exec (.submitWr i fs) s = .next (left .noresourceCredit))) ∧
    (∀ a rest, s.env.dmaMap = a :: rest →
      notifyEq q { s with env := { s.env with dmaMap := rest }, ret := .none, raised := [] } = .ok (q1, s1) →
      singlePath s.cfg q p = true → chooseMode s.cfg p = .sgl → q.mapsFree ≠ 0 → p.segs.length ≤ s.cfg.sglMaxSegs →
      q.avail.toNat < ceilDiv (wrFlits p .sgl p.segs.length) 8 →
      exec (.submit i p) s = .next (left .noresourceCredit))

/-- SUBMIT_WR places the request as it is, padded to its last descriptor (43_egress_submit R307, R308, R310), and rings
the doorbell for all that is pending when the batch is reached (R313). -/
def Obligations.SubmitWr : Prop :=
  ∀ (s : State) (i : Nat) (q : EgressQueue) (fs : List Flit), s.panic = false → s.eqAt i = some q → q.inRange = true →
    q.mapped = true → q.state = .active → q.txpkts.isOpen = false → badRequest s.cfg fs = false → s.ring.wf →
    let nd := (fs.length + 7) / 8
    let stored := fun m => WritesFlits s.ring m (wrFlitAddr q q.pidx.toNat)
      (fs ++ List.replicate (8 * nd - fs.length) 0)
    (quietCommit s.cfg q nd = true →
      ∃ m, exec (.submitWr i fs) s = .next { s with
        eq := s.eq.set i (some (committed q nd 0 0)), ring := m, ret := .ok, raised := [] } ∧ stored m) ∧
    (nd ≤ q.avail.toNat → q.avail < q.cap → q.pending.toNat + nd < 65536 →
      s.cfg.eqDbBatch ≤ q.pending.toNat + nd → q.pending.toNat + nd ≤ s.cfg.dbIncMax → q.dbMech ≠ .wcCopy →
      ∃ m, exec (.submitWr i fs) s = .next { mmioWrite { s with ring := m }
          (.word (if q.dbMech = .reg then .db else .udb q.udbAddr) (q.qid ++ BitVec.ofNat 16 (q.pending.toNat + nd))) with
        eq := s.eq.set i (some { committed q nd 0 0 with pending := 0 }), ret := .ok, raised := [] } ∧ stored m)

/-- Coalescing: TXPKTS_OPEN, TXPKTS_ADD, and the SUBMIT that leads to them (44_coalescing R353, R354, 43_egress_submit R301,
R304); the TXPKTS_ADD that reaches `TXPKTS_MAX_PKTS` has the effect of a TXPKTS_FLUSH of what it left. The internal
operations are issued by themselves, and a TXPKTS_ADD of a packet that is never coalesced (43_egress_submit R303,
44_coalescing R351) is then refused (log 10); the map and the software checksum are oracles' answers (log 5, log 20). -/
def Obligations.Coalescing : Prop :=
  ∀ (s : State) (i : Nat) (q : EgressQueue) (p : Packet), s.panic = false → s.eqAt i = some q → q.state = .active →
    let wa := p.l4csum && p.tcp && !p.tso && decide (p.len.toNat < s.cfg.csumMinFrame)
    let opened : Accumulator := { isOpen := true, npkt := 0, flits := 2, plen := 0, start := q.pidx }
    let added := fun (t : Accumulator) (m : Memory) (tok : Nat) (patch : List (Nat × Byte)) (env : Oracles) => ({ s with
      eq := s.eq.set i (some { q with
        maps := q.maps ++ [⟨tok, p.handle⟩], mapsFree := q.mapsFree - 1
        txpkts := { t with
          npkt := t.npkt + 1, flits := t.flits + BitVec.ofNat 16 (1 + sglFlits p.segs.length), plen := t.plen + p.len } })
      ring := m, buf := patchChain s.buf p.segs patch, env := env, ret := .ok, raised := [] } : State)
    let answered := fun (tok : Nat) (patch : List (Nat × Byte)) (env : Oracles) => (wa = false → patch = []) ∧
      ∀ a rest, s.env.dmaMap = a :: rest → tok = a ∧ (wa = false → env = { s.env with dmaMap := rest }) ∧
        (wa = true → ∀ c cs, s.env.checksum = c :: cs → patch = c ∧ env = { s.env with dmaMap := rest, checksum := cs })
    let adds := fun (t : Accumulator) (ends : State → Prop) => ∃ m tok patch env, ends (added t m tok patch env) ∧
      answered tok patch env ∧ WritesFlits s.ring m (fun k => wrFlitAddr q t.start.toNat (t.flits.toNat + k))
        (((0x11 : BitVec 8) ++ BitVec.ofBool p.l3csum ++ BitVec.ofBool (p.l4csum && !wa) ++
          BitVec.ofBool p.vlan.isSome ++ (0 : BitVec 5) ++ p.vlan.getD 0 ++ p.len) :: encodeSgl p.segs)
    (q.txpkts.isOpen = false → q.coalesce = true → exec (.txpktsOpen i) s = .next { s with
      eq := s.eq.set i (some { q with txpkts := opened }), ret := .ok, raised := [] }) ∧
    (coalescable s.cfg p = false →
      exec (.txpktsAdd i p) s = .next { s with ret := .refused .badarg, raised := [.badarg] }) ∧
    (q.txpkts.isOpen = true → malformed p = false → coalescable s.cfg p = true → canAdd s.cfg q p = true →
      q.mapped = true → q.avail < q.cap → q.txpkts.npkt ≠ 255 → s.ring.wf →
      (q.txpkts.npkt.toNat + 1 ≠ s.cfg.txpktsMaxPkts → adds q.txpkts fun u => exec (.txpktsAdd i p) s = .next u) ∧
      (q.txpkts.npkt.toNat + 1 = s.cfg.txpktsMaxPkts → adds q.txpkts fun u => ∀ t, t.panic = false →
        (exec (.txpktsAdd i p) s = .next t ↔ exec (.txpktsFlush i) u = .next t))) ∧
    (q.txpkts.isOpen = true → malformed p = false → canAdd s.cfg q p = true → q.coalesce = true →
      coalescable s.cfg p = true → exec (.submit i p) s = exec (.txpktsAdd i p) s) ∧
    (q.txpkts.isOpen = false → malformed p = false → canAdd s.cfg q p = true → q.coalesce = true →
      coalescable s.cfg p = true → q.mapped = true → q.avail < q.cap → s.cfg.txpktsMaxPkts ≠ 1 → s.ring.wf →
      adds opened fun u => exec (.submit i p) s = .next u)

/-- TXPKTS_FLUSH of an open accumulator writes its header and padding and commits it (44_coalescing R355, R356); of a
closed one it does nothing, and one without a packet is only closed, which is the model's choice (log 10); TX_DONE is the
flush and then NOTIFY (30_encoding R148). A SUBMIT that the open accumulator cannot take, and any SUBMIT_WR, flushes it
first: it ends as from the flushed queue (43_egress_submit R301, R310, 44_coalescing R358). -/
def Obligations.FlushAndTxDone : Prop :=
  ∀ (s : State) (i : Nat) (q : EgressQueue), s.panic = false → s.eqAt i = some q →
    q.state = .active ∨ q.state = .stalled →
    (q.txpkts.isOpen = false → exec (.txpktsFlush i) s = .next { s with ret := .ok, raised := [] } ∧
      exec (.txDone i) s = exec (.notify (.eq i)) s ∧
      (q.pending = 0 → exec (.txDone i) s = .next { s with ret := .ok, raised := [] })) ∧
    (q.txpkts.isOpen = true → q.txpkts.npkt = 0 → exec (.txpktsFlush i) s = .next { s with
      eq := s.eq.set i (some { q with txpkts := { q.txpkts with isOpen := false } }), ret := .ok, raised := [] }) ∧
    (q.txpkts.isOpen = true → q.txpkts.npkt ≠ 0 → q.inRange = true → q.mapped = true → 2 ≤ q.txpkts.flits.toNat →
      s.ring.wf →
      let t := q.txpkts
      let f := t.flits.toNat
      let nd := (f + 7) / 8
      quietCommit s.cfg q nd = true → t.start = q.pidx →
      ∃ m, exec (.txpktsFlush i) s = .next { s with
          eq := s.eq.set i (some { committed q nd t.npkt.toNat t.npkt.toNat with txpkts := { t with isOpen := false } })
          ring := m, ret := .ok, raised := [] } ∧
        m.flit (wrFlitAddr q q.pidx.toNat 0) = (0x02 : BitVec 8) ++ t.npkt ++ (0 : BitVec 16) ++ q.flowid ++
          BitVec.ofNat 8 ((f + 1) / 2) ∧
        m.flit (wrFlitAddr q q.pidx.toNat 1) = t.plen.setWidth 16 ++ (0 : BitVec 48) ∧
        (∀ k, f ≤ k → k < 8 * nd → m.flit (wrFlitAddr q q.pidx.toNat k) = 0) ∧
        ∀ a, (∀ k, k < 2 ∨ (f ≤ k ∧ k < 8 * nd) →
          a < wrFlitAddr q q.pidx.toNat k ∨ wrFlitAddr q q.pidx.toNat k + 8 ≤ a) → m.get a = s.ring.get a) ∧
    (∀ q1 s1 q2 s2, flushIfOpen q { s with ret := .none, raised := [] } = .ok (q1, s1) →
      notifyEq q1 s1 = .ok (q2, s2) →
      exec (.txDone i) s = .next { s2 with eq := s2.eq.set i (some q2), ret := .ok }) ∧
    (∀ q1 s1, q.state = .active → q.txpkts.isOpen = true →
      flushIfOpen q { s with ret := .none, raised := [] } = .ok (q1, s1) →
      let flushed : State := { s1 with eq := s1.eq.set i (some q1) }
      (∀ p t, malformed p = false → t.panic = false →
        ¬ (q.coalesce = true ∧ coalescable s.cfg p = true ∧ canAdd s.cfg q p = true) →
        (exec (.submit i p) s = .next t ↔ exec (.submit i p) flushed = .next t)) ∧
      ∀ fs t, badRequest s.cfg fs = false → t.panic = false →
        (exec (.submitWr i fs) s = .next t ↔ exec (.submitWr i fs) flushed = .next t))

/-- A work request placed as it stands, with no reserved bit set, the pad flit only after an odd number, and its lengths
agreeing, is written at the producer index and committed, with a map for each packet it lists and the packet freed when its
bytes are inline; one with a list that the QE never builds is refused, and so is `WR_OP` = 0 (30_encoding R121, R131, R134,
R136, R138, R139, 44_coalescing R357). That these stand alone is the model's choice (log 11); the maps are an oracle's
answers (log 5). -/
def Obligations.RequestsPlaced : Prop :=
  ∀ (s : State) (i : Nat) (q : EgressQueue), s.panic = false → s.eqAt i = some q →
    let refused := fun (j : Instr) => exec j s = .next { s with ret := .refused .badarg, raised := [.badarg] }
    (∀ fs, q.state = .active ∨ q.state = .stalled → refused (.wrReserved00 i fs)) ∧
    (q.state = .active → q.txpkts.isOpen = false → q.inRange = true → q.mapped = true → s.ring.wf →
      let fits := fun n => n ≤ s.cfg.wrMaxFlits ∧ quietCommit s.cfg q ((n + 7) / 8) = true
      let stored := fun (m : Memory) (fs : List Flit) => WritesFlits s.ring m (wrFlitAddr q q.pidx.toNat)
        (fs ++ List.replicate (8 * ((fs.length + 7) / 8) - fs.length) 0)
      (∀ fs, badRequest s.cfg fs = false → fits fs.length → ∃ m, stored m fs ∧
        exec (.wrOpaque i fs) s = .next { s with
          eq := s.eq.set i (some (committed q ((fs.length + 7) / 8) 0 0)), ring := m, ret := .ok, raised := [] }) ∧
      (∀ pkt h body b data, h.flowid = q.flowid → pktParts h body = some b → b.payload = .imm data →
        fits (2 + body.length) → ∃ m, stored m (encodeHeader 0x01 h ++ body) ∧
        exec (.ethTxPkt i pkt h body) s = .next { s with
          eq := s.eq.set i (some (committed q ((2 + body.length + 7) / 8) 0 1)), ring := m
          out := s.out ++ [.freePkt pkt], ret := .ok, raised := [] }) ∧
      (∀ pkt h body b segs, h.flowid = q.flowid → pktParts h body = some b → b.payload = .sgl segs →
        (s.cfg.sglMaxSegs < segs.length → refused (.ethTxPkt i pkt h body)) ∧
        (q.mapsFree ≠ 0 → segs.length ≤ s.cfg.sglMaxSegs → fits (2 + body.length) → ∃ m tok env,
          stored m (encodeHeader 0x01 h ++ body) ∧
          (∀ a rest, s.env.dmaMap = a :: rest → tok = a ∧ env = { s.env with dmaMap := rest }) ∧
          exec (.ethTxPkt i pkt h body) s = .next { s with
            eq := s.eq.set i (some { committed q ((2 + body.length + 7) / 8) 1 1 with
              maps := q.maps ++ [⟨tok, pkt⟩], mapsFree := q.mapsFree - 1 })
            ring := m, env := env, ret := .ok, raised := [] })) ∧
      (∀ pkts h body rs, h.flowid = q.flowid → pktsParts h body = some rs →
        ((∃ r ∈ rs, s.cfg.sglMaxSegs < r.segs.length) → refused (.ethTxPkts i pkts h body)) ∧
        (pkts ≠ [] → pkts.length = h.npkt.toNat → pkts.length ≤ s.cfg.txpktsMaxPkts →
          pkts.length ≤ q.mapsFree.toNat → (∀ r ∈ rs, r.segs.length ≤ s.cfg.sglMaxSegs) →
          h.plen.toNat < 2 ^ s.cfg.txpktsLenBits → fits (2 + body.length) → ∃ m toks env,
          toks.length = pkts.length ∧ stored m (encodeHeader 0x02 h ++ body) ∧
          (∀ answers rest, s.env.dmaMap = answers ++ rest → answers.length = pkts.length →
            toks = answers ∧ env = { s.env with dmaMap := rest }) ∧
          exec (.ethTxPkts i pkts h body) s = .next { s with
            eq := s.eq.set i (some { committed q ((2 + body.length + 7) / 8) pkts.length pkts.length with
              maps := q.maps ++ List.zipWith TxMap.mk toks pkts
              mapsFree := q.mapsFree - BitVec.ofNat 16 pkts.length })
            ring := m, env := env, ret := .ok, raised := [] })))

/-! ## Records -/

/-- The other records written on their own: the parts of a request at their flits, no reserved bit set, a list of 1 to
`SGL_MAX_SEGS` segments and no other, a free-list entry in its slot, the MMIO words and the burst, which the device takes at
once (30_encoding R121, R122, R132 to R136, R140, R141, R143). What each does standing alone is the model's choice, and so is
that the slots told are pending no more, and that a part may overwrite the flits of packets already accepted (log 11). That a
part is refused with DOOMED on a torn-down queue (60_exceptions R460), whatever it holds, is too (log 39). -/
def Obligations.RecordsWritten : Prop :=
  (∀ (s : State) (i k : Nat) (q : EgressQueue), s.panic = false → s.eqAt i = some q → q.state = .active →
    q.mapped = true → q.avail < q.cap → 2 ≤ k → s.ring.wf →
    let fits := fun n => k + n ≤ s.cfg.wrMaxFlits ∧ (k + n + 7) / 8 ≤ q.avail.toNat
    let part := fun (j : Instr) (fs : List Flit) => fits fs.length → ∃ m,
      exec j s = .next { s with ring := m, ret := .ok, raised := [] } ∧
        WritesFlits s.ring m (fun n => wrFlitAddr q q.pidx.toNat (k + n)) fs
    (∀ r, r.rsvdA = 0 → r.rsvdB = 0 → r.rsvdC = 0 → part (.lso i k r) (encodeLso r)) ∧
    (∀ r, r.rsvd = 0 → part (.txpkt i k r) [encodeTxpkt r]) ∧
    (∀ segs, segs ≠ [] → segs.length ≤ s.cfg.sglMaxSegs → part (.sgl i k segs) (encodeSgl segs)) ∧
    (∀ segs, segs = [] ∨ s.cfg.sglMaxSegs < segs.length →
      exec (.sgl i k segs) s = .next { s with ret := .refused .badarg, raised := [.badarg] }) ∧
    (∀ data, data ≠ [] → part (.immediateData i k data) (packBytes data))) ∧
  (∀ (s : State) (i k : Nat) (q : EgressQueue) (l : Lso) (p : Txpkt) (segs : List PktSeg) (data : List Byte),
    s.panic = false → s.eqAt i = some q → q.state = .doomed ∨ q.state = .dead →
    ∀ j ∈ [Instr.lso i k l, .txpkt i k p, .sgl i k segs, .immediateData i k data],
      exec j s = .next { s with ret := .refused .doomed, raised := [.doomed] }) ∧
  (∀ (s : State) (i : Nat) (fl : FreeList) (r : Fle), s.panic = false → s.flAt i = some fl → fl.doomed = false →
    fl.inRange = true → fl.mapped = true → r.hwidx.toNat < s.cfg.bufferSizes.length → incIdx fl.pidx fl.cap ≠ fl.cidx →
    s.ring.wf → ∃ m, exec (.fle i r) s = .next { s with ring := m, ret := .ok, raised := [] } ∧
      WritesFlits s.ring m (fun _ => fl.base.toNat + 8 * fl.pidx.toNat) [r.addrHi ++ r.hwidx]) ∧
  (∀ (s : State) (i : Nat) (q : IngressQueue) (fl : FreeList) (d : DevFl) (reg : DoorbellReg) (r : Dbw),
    s.panic = false → s.iqAt i = some q → q.fl = some fl → OnlyFl s r.qid i fl → s.devFlAt i = some d → r.pidxInc ≠ 0 →
    r.pidxInc.toNat ≤ s.cfg.dbIncMax → r.pidxInc ≤ fl.pending → r.pidxInc.toNat ≤ distOf d.pidx fl.pidx fl.cap →
    reg = (if fl.dbMech = .reg then .db else .udb fl.udbAddr) → exec (.dbw reg r) s = .next { mmioWrite s
      (.word (match reg with | .db => .db | .udb a => .udb a) (r.qid ++ r.pidxInc)) with
        iq := s.iq.set i (some { q with fl := some { fl with pending := fl.pending - r.pidxInc } })
        ret := .ok, raised := [] }) ∧
  (∀ (s : State) (i : Nat) (q : EgressQueue) (d : DevEq) (reg : DoorbellReg) (r : Dbw), s.panic = false →
    OnlyEq s r.qid i q → s.devEqAt i = some d → r.pidxInc ≠ 0 → r.pidxInc.toNat ≤ s.cfg.dbIncMax →
    r.pidxInc ≤ q.pending → r.pidxInc.toNat ≤ distOf d.pidx q.pidx q.cap →
    reg = (if q.dbMech = .reg then .db else .udb q.udbAddr) → exec (.dbw reg r) s = .next { mmioWrite s
      (.word (match reg with | .db => .db | .udb a => .udb a) (r.qid ++ r.pidxInc)) with
        eq := s.eq.set i (some { q with pending := q.pending - r.pidxInc }), ret := .ok, raised := [] }) ∧
  (∀ (s : State) (i : Nat) (q : IngressQueue) (d : DevIq) (r : Icw), s.panic = false → OnlyIq s r.iqid i q →
    s.devIqAt i = some d → r.timerIdx ≠ 6 → (r.timerIdx = 7 → r.cntEn = false) →
    r.cidxInc.toNat ≤ q.cap.toNat - 1 - (d.credits.toNat + distOf q.cidx d.pidx q.cap) → exec (.icw r) s = .next { mmioWrite s
      (.word .icw (r.iqid ++ r.timerIdx ++ BitVec.ofBool r.cntEn ++ r.cidxInc)) with ret := .ok, raised := [] }) ∧
  ∀ (s : State) (i : Nat) (a : Addr) (q : EgressQueue) (d : DevEq) (fs : List Flit), s.panic = false →
    OnlyWindow s a i q → s.devEqAt i = some d → q.mapped = true → d.pidx < q.cap → distOf d.pidx q.pidx q.cap ≠ 0 →
    q.pending ≠ 0 → fs = (List.range 8).map (fun k => s.ring.flit (q.base.toNat + 64 * d.pidx.toNat + 8 * k)) →
    exec (.wcBurst a fs) s = .next { mmioWrite s (.burst a fs) with
      eq := s.eq.set i (some { q with pending := q.pending - 1 }), ret := .ok, raised := [] }

/-! ## Reclamation and notification -/

/-- Every step keeps the reference-count invariant of the arena (10_state R29), of rings whose indices are in range (10_state
R21): the count of a buffer with metadata is the slot that holds it and the live Shared segments that name it, those the
client holds (log 16) and those of half-built frames. That a handle is drawn from a counter is the model's choice
(log 17). -/
def Obligations.ReferencesStayExact : Prop :=
  ∀ s t, UnlessPanic (fun u => IndicesInRange u ∧ CountsExact u) s → step s = .next t →
    UnlessPanic (fun u => IndicesInRange u ∧ CountsExact u) t

/-- Whatever the status page shows, a RECLAIM that does not panic takes back whole records in order from `eq.cidx`: their
descriptors, their credits' oldest maps, each with its two events, and the records themselves, zeroed; it stops at the
bound, at the end of what is reclaimable, or before a record that is not (45_reclaim_doorbell R370, R371, R377). Of one
record that the device has finished, and of a record it has not: "the walk stops before it and the record stays whole";
RESUME_CHECK (R372), shown as an instruction issued by itself, which is the model's choice (log 10). -/
def Obligations.ReclaimWholeSlots : Prop :=
  (∀ (s t : State) (i : Nat) (q : EgressQueue) (n : BitVec 16) (d c : Nat), s.eqAt i = some q → q.inRange = true →
    exec (.reclaim i n) s = .next t → t.ret = .reclaimed d c →
    let total := distOf q.cidx (statusCidx s q) q.cap
    let record := fun j => q.sdesc.getD j { descUsed := 0, credits := 0, npkts := 0 }
    ∃ k,
      let taken := recordWalk q k q.cidx
      let r := decide (q.state = .stalled ∧ q.resumeThreshold.toNat ≤
        (q.avail + BitVec.ofNat 16 d).toNat + distOf (addTo q.cidx q.cap d) (statusCidx s q) q.cap)
      d = (taken.map fun j => (record j).descUsed.toNat).sum ∧ c = (taken.map fun j => (record j).credits.toNat).sum ∧
      d ≤ total ∧ c ≤ q.maps.length ∧ (∀ j ∈ taken, (record j).descUsed ≠ 0) ∧
      (∀ k', k' < k → ((recordWalk q k' q.cidx).map fun j => (record j).credits.toNat).sum < n.toNat) ∧
      (d = total ∨ n.toNat ≤ c ∨ total - d < (record (addTo q.cidx q.cap d).toNat).descUsed.toNat) ∧
      t = { s with
        eq := s.eq.set i (some { q with
          cidx := addTo q.cidx q.cap d, avail := q.avail + BitVec.ofNat 16 d, maps := q.maps.drop c
          mapsFree := q.mapsFree + BitVec.ofNat 16 c
          sdesc := taken.foldl (fun l j => l.set j { descUsed := 0, credits := 0, npkts := 0 }) q.sdesc
          state := if r then .active else q.state })
        out := s.out ++ ((q.maps.take c).flatMap fun m => [.dmaUnmap m.map, .freePkt m.pkt]) ++
          (if r then [.eqResumed q.qid] else [])
        stalled := if r then s.stalled.erase i else s.stalled
        ret := .reclaimed d c, raised := [] }) ∧
  ∀ (s : State) (i : Nat) (q : EgressQueue) (n : BitVec 16), s.panic = false → s.eqAt i = some q → q.state ≠ .dead →
    q.inRange = true →
    (q.state ≠ .stalled → q.mapped = true → statusSound s q = true →
      let r := q.sdesc.getD q.cidx.toNat {}
      let d := r.descUsed.toNat
      let c := r.credits.toNat
      (r.descUsed ≠ 0 → d = distOf q.cidx (statusCidx s q) q.cap → n ≠ 0 → c ≤ q.maps.length →
        exec (.reclaim i n) s = .next { s with
          eq := s.eq.set i (some { q with
            cidx := addTo q.cidx q.cap d, avail := q.avail + r.descUsed, maps := q.maps.drop c
            mapsFree := q.mapsFree + r.credits, sdesc := q.sdesc.set q.cidx.toNat { descUsed := 0, credits := 0, npkts := 0 } })
          out := s.out ++ ((q.maps.take c).flatMap fun m => [.dmaUnmap m.map, .freePkt m.pkt])
          ret := .reclaimed d c, raised := [] }) ∧
      (r.descUsed ≠ 0 → distOf q.cidx (statusCidx s q) q.cap < d →
        exec (.reclaim i n) s = .next { s with ret := .reclaimed 0 0, raised := [] })) ∧
    ∀ hw, hw < q.cap →
      (q.state = .stalled → q.resumeThreshold.toNat ≤ q.avail.toNat + distOf q.cidx hw q.cap →
        exec (.resumeCheck i hw) s = .next { s with
          eq := s.eq.set i (some { q with state := .active }), stalled := s.stalled.erase i
          out := s.out ++ [.eqResumed q.qid], ret := .ok, raised := [] }) ∧
      (¬ (q.state = .stalled ∧ q.resumeThreshold.toNat ≤ q.avail.toNat + distOf q.cidx hw q.cap) →
        exec (.resumeCheck i hw) s = .next { s with ret := .ok, raised := [] })

/-- Raise sites of the panic (60_exceptions R458): a status page outside the ring or ahead of the producer index, a
record of no descriptor, maps that run out, both at the first record of a walk; a posted slot without a buffer, shown of a
CONSUME_FRAME issued by itself, which is the model's choice (log 10). -/
def Obligations.PanicSites : Prop :=
  (∀ (s : State) (i : Nat) (q : EgressQueue) (n : BitVec 16), s.panic = false → s.eqAt i = some q → q.state ≠ .dead →
    q.mapped = true →
    (q.cap ≤ statusCidx s q ∨ distOf q.cidx q.pidx q.cap < distOf q.cidx (statusCidx s q) q.cap →
      exec (.reclaim i n) s = .next (takePanic s)) ∧
    (let r := q.sdesc.getD q.cidx.toNat {};
      statusSound s q = true → statusCidx s q ≠ q.cidx → q.inRange = true → n ≠ 0 →
      r.descUsed = 0 ∨ (r.descUsed.toNat ≤ distOf q.cidx (statusCidx s q) q.cap ∧ q.maps.length < r.credits.toNat) →
      exec (.reclaim i n) s = .next (takePanic s))) ∧
  ∀ (s : State) (i : Nat) (q : IngressQueue) (fl : FreeList) (total : BitVec 31), s.panic = false → s.iqAt i = some q →
    q.fl = some fl → fl.doomed = false → fl.bufResume = false → total ≠ 0 → fl.cidx ≠ fl.pidx →
    (fl.sdesc.getD fl.cidx.toNat {}).buf = none → exec (.consumeFrame i total false) s = .next (takePanic s)

/-- NOTIFY tells the device of everything pending in the fewest writes, by the queue's mechanism, and of nothing when
nothing is pending (45_reclaim_doorbell R373, R374). -/
def Obligations.NotifyFewestWrites : Prop :=
  let words := fun (c : Cfg) (reg : MmioReg) (qid : BitVec 16) (n : Nat) (ws : List MmioWrite) =>
    ws.length = (n + c.dbIncMax - 1) / c.dbIncMax ∧ toldBy ws = n ∧
      ∀ w ∈ ws, ∃ k : BitVec 16, 1 ≤ k.toNat ∧ k.toNat ≤ c.dbIncMax ∧ w = .word reg (qid ++ k)
  (∀ (s : State) (i : Nat) (fl : FreeList), s.panic = false → s.flAt i = some fl → fl.doomed = true →
    exec (.notify (.fl i)) s = .next { s with ret := .refused .doomed, raised := [.doomed] }) ∧
  (∀ (s : State) (i : Nat) (q : EgressQueue), s.panic = false → s.eqAt i = some q → q.state = .dead →
    exec (.notify (.eq i)) s = .next { s with ret := .refused .doomed, raised := [.doomed] }) ∧
  (∀ (s : State) (i : Nat) (q : IngressQueue) (fl : FreeList), s.panic = false → s.iqAt i = some q → q.fl = some fl →
    fl.doomed = false → 1 ≤ s.cfg.dbIncMax →
    (fl.pending = 0 → exec (.notify (.fl i)) s = .next { s with ret := .ok, raised := [] }) ∧
    (fl.pending ≠ 0 → ∃ ws, words s.cfg (if fl.dbMech = .reg then .db else .udb fl.udbAddr) fl.qid fl.pending.toNat ws ∧
      exec (.notify (.fl i)) s = .next { ws.foldl mmioWrite s with
        iq := s.iq.set i (some { q with fl := some { fl with pending := 0, dbGroups := 0 } })
        ret := .ok, raised := [] })) ∧
  ∀ (s : State) (i : Nat) (q : EgressQueue), s.panic = false → s.eqAt i = some q → q.state ≠ .dead →
    1 ≤ s.cfg.dbIncMax →
    (q.pending = 0 → exec (.notify (.eq i)) s = .next { s with ret := .ok, raised := [] }) ∧
    (q.pending ≠ 0 → ¬ (q.dbMech = .wcCopy ∧ q.pending = 1) →
      ∃ ws, words s.cfg (if q.dbMech = .reg then .db else .udb q.udbAddr) q.qid q.pending.toNat ws ∧
      exec (.notify (.eq i)) s = .next { ws.foldl mmioWrite s with
        eq := s.eq.set i (some { q with pending := 0 }), ret := .ok, raised := [] }) ∧
    (q.dbMech = .wcCopy → q.pending = 1 → q.inRange = true → q.mapped = true →
      exec (.notify (.eq i)) s = .next { mmioWrite s (.burst q.wcAddr ((List.range 8).map fun k =>
          s.ring.flit (q.base.toNat + 64 * ((q.pidx.toNat + (q.cap.toNat - 1)) % q.cap.toNat) + 8 * k))) with
        eq := s.eq.set i (some { q with pending := 0 }), ret := .ok, raised := [] })

/-! ## The device -/

/-- The device's reaction to each MMIO write of the QE, at the moment it is performed (46_device_agent R401); a credit word
with the reserved index 6 is left out (93_implementation_defined V8). DEV_DB as a step of its own is the write and the
reaction, which is the model's choice (log 40), for a write that the rules produce (30_encoding R140, R141, R143). -/
def Obligations.DeviceReaction : Prop :=
  (∀ (s : State) (v : BitVec 32) (reg : MmioReg) (i : Nat) (q : IngressQueue) (fl : FreeList) (d : DevFl), reg ≠ .icw →
    OnlyFl s (v.extractLsb' 16 16) i fl → s.iqAt i = some q → s.devFlAt i = some d →
    let n := v.extractLsb' 0 16
    let u := { s with
      mmio := s.mmio ++ [.word reg v]
      devFl := s.devFl.set i (some { d with pidx := BitVec.ofNat 16 ((d.pidx.toNat + n.toNat) % fl.cap.toNat) }) }
    mmioWrite s (.word reg v) = u ∧
    (s.panic = false → n ≠ 0 → n.toNat ≤ s.cfg.dbIncMax → n ≤ fl.pending → n.toNat ≤ distOf d.pidx fl.pidx fl.cap →
      reg = (if fl.dbMech = .reg then .db else .udb fl.udbAddr) →
      exec (.devDb (.word reg v)) s = .next { u with
        iq := s.iq.set i (some { q with fl := some { fl with pending := fl.pending - n } }), ret := .ok, raised := [] })) ∧
  (∀ (s : State) (v : BitVec 32) (reg : MmioReg) (i : Nat) (q : EgressQueue) (d : DevEq), reg ≠ .icw →
    OnlyEq s (v.extractLsb' 16 16) i q → s.devEqAt i = some d →
    let n := v.extractLsb' 0 16
    let u := { s with
      mmio := s.mmio ++ [.word reg v]
      devEq := s.devEq.set i (some { d with pidx := BitVec.ofNat 16 ((d.pidx.toNat + n.toNat) % q.cap.toNat) }) }
    mmioWrite s (.word reg v) = u ∧
    (s.panic = false → n ≠ 0 → n.toNat ≤ s.cfg.dbIncMax → n ≤ q.pending → n.toNat ≤ distOf d.pidx q.pidx q.cap →
      reg = (if q.dbMech = .reg then .db else .udb q.udbAddr) →
      exec (.devDb (.word reg v)) s = .next { u with
        eq := s.eq.set i (some { q with pending := q.pending - n }), ret := .ok, raised := [] })) ∧
  (∀ (s : State) (a : Addr) (fs : List Flit) (i : Nat) (q : EgressQueue) (d : DevEq), OnlyWindow s a i q →
    s.devEqAt i = some d →
    let u := { s with
      mmio := s.mmio ++ [.burst a fs]
      devEq := s.devEq.set i (some { d with pidx := BitVec.ofNat 16 ((d.pidx.toNat + 1) % q.cap.toNat) }) }
    mmioWrite s (.burst a fs) = u ∧
    (s.panic = false → q.mapped = true → d.pidx < q.cap → distOf d.pidx q.pidx q.cap ≠ 0 → q.pending ≠ 0 →
      fs = (List.range 8).map (fun k => s.ring.flit (q.base.toNat + 64 * d.pidx.toNat + 8 * k)) →
      exec (.devDb (.burst a fs)) s = .next { u with
        eq := s.eq.set i (some { q with pending := q.pending - 1 }), ret := .ok, raised := [] })) ∧
  (∀ (s : State) (v : BitVec 32) (i : Nat) (q : IngressQueue) (d : DevIq), OnlyIq s (v.extractLsb' 20 12) i q →
    s.devIqAt i = some d → v.extractLsb' 17 3 ≠ 6 →
    let n := v.extractLsb' 0 16
    let u := { s with
      mmio := s.mmio ++ [.word .icw v]
      devIq := s.devIq.set i (some { d with
        credits := d.credits + n, armed := if v.extractLsb' 17 3 = 7 then d.armed else true }) }
    mmioWrite s (.word .icw v) = u ∧
    (s.panic = false → (v.extractLsb' 17 3 = 7 → v.getLsbD 16 = false) →
      n.toNat ≤ q.cap.toNat - 1 - (d.credits.toNat + distOf q.cidx d.pidx q.cap) →
      exec (.devDb (.word .icw v)) s = .next { u with ret := .ok, raised := [] })) ∧
  ∀ (s : State) (w : MmioWrite), s.panic = true →
    exec (.devDb w) s = .next { s with ret := .notEnabled, raised := [] }

/-- DEV_RX (46_device_agent R403, 30_encoding R124, R126) of a frame that the device's current buffer holds, and with packing
off of one over several buffers: the bytes, the message before the footer, the cursors, one credit less. The device may
skip the rest of a buffer it is inside, and a skip at offset 0 changes nothing; without a credit it is not enabled, which
is returned as the model's choice has it (log 15). -/
def Obligations.DeviceReceives : Prop :=
  ∀ (s : State) (i : Nat) (q : IngressQueue) (fl : FreeList) (di : DevIq) (df : DevFl) (bytes : List Byte)
    (fm : FrameMeta), s.iqAt i = some q → q.fl = some fl → s.devIqAt i = some di → s.devFlAt i = some df →
    let entry := fun (m : Memory) => WritesFlits s.ring m (fun k => q.base.toNat + 16 * di.pidx.toNat + 8 * k)
      [(0x20 : BitVec 8) ++ BitVec.ofBool fm.csumOk ++ BitVec.ofBool fm.vlanValid ++ (0 : BitVec 6) ++ fm.vlanTag ++
          BitVec.ofNat 32 bytes.length,
        BitVec.ofBool (df.off = 0) ++ BitVec.ofNat 31 bytes.length ++ (0 : BitVec 24) ++ BitVec.ofBool di.gen ++
          (0 : BitVec 7)]
    let slot := fun k => (df.cidx.toNat + k) % fl.cap.toNat
    let a := fun k => ((s.ring.flit (fl.base.toNat + 8 * slot k)).extractLsb' 4 60).toNat * 16
    let hs := fun k => s.cfg.bufferSizes.getD ((s.ring.flit (fl.base.toNat + 8 * slot k)).extractLsb' 0 4).toNat 0
    (∀ skip, di.credits = 0 →
      exec (.devRx i bytes fm skip) s = .next { s with ret := .notEnabled, raised := [] }) ∧
    (df.off = 0 → exec (.devRx i bytes fm true) s = exec (.devRx i bytes fm false) s) ∧
    (df.off ≠ 0 → df.cidx ≠ df.pidx → ∀ t, t.ret = .ok →
      (exec (.devRx i bytes fm true) s = .next t ↔
        exec (.devRx i bytes fm false) { s with devFl := s.devFl.set i (some { df with
          cidx := BitVec.ofNat 16 ((df.cidx.toNat + 1) % fl.cap.toNat), off := 0 }) } = .next t)) ∧
    (di.credits ≠ 0 → bytes ≠ [] → bytes.length < 2 ^ 31 → df.cidx < fl.cap → di.pidx < q.cap →
      fl.mapped = true → q.mapped = true → s.ring.wf → s.buf.wf →
      (df.cidx ≠ df.pidx → df.off.toNat + bytes.length ≤ hs 0 → inSpace (a 0 + df.off.toNat) bytes.length = true →
        ∃ m b, exec (.devRx i bytes fm false) s = .next { s with
            ring := m, buf := b, devIq := s.devIq.set i (some (devPassed q di))
            devFl := s.devFl.set i (some (devConsumed s.cfg fl df bytes.length (hs 0))), ret := .ok, raised := [] } ∧
          WritesBytes s.buf b (a 0 + df.off.toNat) bytes ∧ entry m) ∧
      ∀ n, fl.packing = false → df.off = 0 → n + 1 ≤ distOf df.cidx df.pidx fl.cap →
        let sum := fun k => ((List.range k).map hs).sum
        let len := fun k => if k < n then hs k else bytes.length - sum n
        sum n < bytes.length → bytes.length ≤ sum (n + 1) →
        (∀ k, k ≤ n → 0 < hs k ∧ inSpace (a k) (len k) = true) →
        (∀ k j, k < j → j ≤ n → a k + len k ≤ a j ∨ a j + len j ≤ a k) →
        ∃ m b, exec (.devRx i bytes fm false) s = .next { s with
            ring := m, buf := b, devIq := s.devIq.set i (some (devPassed q di))
            devFl := s.devFl.set i (some { df with cidx := addTo df.cidx fl.cap (n + 1) }), ret := .ok, raised := [] } ∧
          (∀ k o, k ≤ n → o < len k → b.get (a k + o) = bytes.getD (sum k + o) 0) ∧
          (∀ x, (∀ k, k ≤ n → x < a k ∨ a k + len k ≤ x) → b.get x = s.buf.get x) ∧ entry m)

/-- The device posts an out-of-band or a forwarding entry against a credit, and raises an armed queue's interrupt once
(46_device_agent R404, R405, R408). That each of the three steps, without its precondition or on a queue that does not exist,
leaves the state and returns so is the model's choice (log 15). -/
def Obligations.DevicePosts : Prop :=
  (∀ (s : State) (i j : Nat) (f : Flit), s.iqAt i = none →
    ∀ k ∈ [Instr.devOob i f, .devFwd i j, .devFwd j i, .devIntr i],
      exec k s = .next { s with ret := .notEnabled, raised := [] }) ∧
  (∀ (s : State) (i : Nat) (q : IngressQueue) (d : DevIq) (f : Flit), s.iqAt i = some q → s.devIqAt i = some d →
    (d.credits = 0 → exec (.devOob i f) s = .next { s with ret := .notEnabled, raised := [] }) ∧
    (d.credits ≠ 0 → d.pidx < q.cap → q.mapped = true → s.ring.wf →
      ∃ m, exec (.devOob i f) s = .next { s with
          ring := m, devIq := s.devIq.set i (some (devPassed q d)), ret := .ok, raised := [] } ∧
        WritesFlits s.ring m (fun k => q.base.toNat + 16 * d.pidx.toNat + 8 * k)
          [f, (0 : BitVec 56) ++ BitVec.ofBool d.gen ++ (0 : BitVec 1) ++ (1 : BitVec 2) ++ (0 : BitVec 4)])) ∧
  (∀ (s : State) (i j : Nat) (p t : IngressQueue) (dp dt : DevIq), i ≠ j → s.iqAt i = some p → s.iqAt j = some t →
    s.devIqAt i = some dp → s.devIqAt j = some dt → t.role = .forwarded → t.parent = p.qid → dt.armed = true →
    dt.credits.toNat < t.cap.toNat - 1 → dp.credits ≠ 0 → dp.pidx < p.cap → p.mapped = true → s.ring.wf →
    ∃ m, exec (.devFwd i j) s = .next { s with
        ring := m, devIq := (s.devIq.set j (some { dt with armed := false })).set i (some (devPassed p dp))
        ret := .ok, raised := [] } ∧
      WritesFlits s.ring m (fun k => p.base.toNat + 16 * dp.pidx.toNat + 8 * k)
        [0, (0 : BitVec 20) ++ t.qid ++ (0 : BitVec 24) ++ BitVec.ofBool dp.gen ++ (0 : BitVec 1) ++ (2 : BitVec 2) ++
          (0 : BitVec 4)]) ∧
  (∀ (s : State) (i j : Nat) (p t : IngressQueue) (dp dt : DevIq), s.iqAt i = some p → s.iqAt j = some t →
    s.devIqAt i = some dp → s.devIqAt j = some dt →
    t.role ≠ .forwarded ∨ t.parent ≠ p.qid ∨ dt.armed = false ∨ t.cap.toNat - 1 ≤ dt.credits.toNat ∨ dp.credits = 0 →
    exec (.devFwd i j) s = .next { s with ret := .notEnabled, raised := [] }) ∧
  ∀ (s : State) (i : Nat) (q : IngressQueue) (d : DevIq), s.iqAt i = some q → s.devIqAt i = some d →
    (q.role ≠ .forwarded → d.armed = true → d.credits.toNat < q.cap.toNat - 1 →
      exec (.devIntr i) s = .next { s with
        devIq := s.devIq.set i (some { d with armed := false }), ret := .ok, raised := [] }) ∧
    (q.role = .forwarded ∨ d.armed = false ∨ q.cap.toNat - 1 ≤ d.credits.toNat →
      exec (.devIntr i) s = .next { s with ret := .notEnabled, raised := [] })

/-- The device reads only slots a doorbell has covered, consumes whole requests that it has covered, and writes flit 0
of a status page (46_device_agent R402, R406, R407, 30_encoding R142). The model's choices are the slot's index as an operand
of DEV_FL and what it returns (log 34), that a step without its precondition leaves the state and returns so, a request of
LEN16 = 0 among them (log 15), and that SP standing alone is the device's write of the page it has, and of no other
(log 11). -/
def Obligations.DeviceReads : Prop :=
  (∀ (s : State) (i idx : Nat) (fl : FreeList) (d : DevFl), s.flAt i = some fl → s.devFlAt i = some d →
    fl.mapped = true → idx < fl.cap.toNat →
    let e := s.ring.flit (fl.base.toNat + 8 * idx)
    exec (.devFl i idx) s = .next { s with
      ret := if dist d.cidx.toNat idx fl.cap.toNat < distOf d.cidx d.pidx fl.cap then
          .fetched (e.extractLsb' 4 60 ++ (0 : BitVec 4)) (s.cfg.bufferSizes.getD (e.extractLsb' 0 4).toNat 0)
        else .notEnabled
      raised := [] }) ∧
  (∀ (s : State) (i : Nat) (q : EgressQueue) (d : DevEq), s.eqAt i = some q → s.devEqAt i = some d →
    (d.cidx = d.pidx → exec (.devTx i) s = .next { s with ret := .notEnabled, raised := [] }) ∧
    (d.cidx ≠ d.pidx → d.cidx < q.cap → q.mapped = true →
      let len := ((s.ring.flit (wrFlitAddr q d.cidx.toNat 0)).extractLsb' 0 8).toNat
      let nd := (2 * len + 7) / 8
      (nd ≠ 0 → nd ≤ distOf d.cidx d.pidx q.cap → exec (.devTx i) s = .next { s with
        devEq := s.devEq.set i (some { d with cidx := addTo d.cidx q.cap nd })
        ret := .request ((List.range (2 * len)).map fun k => s.ring.flit (wrFlitAddr q d.cidx.toNat k))
        raised := [] }) ∧
      (nd = 0 ∨ distOf d.cidx d.pidx q.cap < nd →
        exec (.devTx i) s = .next { s with ret := .notEnabled, raised := [] }))) ∧
  (∀ (s : State) (i : Nat) (fl : FreeList) (d : DevFl) (r : Sp), s.flAt i = some fl → s.devFlAt i = some d →
    fl.mapped = true → s.ring.wf →
    let page := fun (j : Instr) (v : Flit) => ∃ m, exec j s = .next { s with ring := m, ret := .ok, raised := [] } ∧
      WritesFlits s.ring m (fun _ => fl.base.toNat + 8 * fl.cap.toNat) [v]
    let shown : Sp := { rsvd := 0, qid := fl.qid, cidx := d.cidx, pidx := d.pidx }
    page (.devStatus (.fl i)) ((0 : BitVec 16) ++ fl.qid ++ d.cidx ++ d.pidx) ∧
      (r = shown → page (.sp (.fl i) r) ((0 : BitVec 16) ++ fl.qid ++ d.cidx ++ d.pidx)) ∧
      (r ≠ shown → exec (.sp (.fl i) r) s = .next { s with ret := .notEnabled, raised := [] })) ∧
  ∀ (s : State) (i : Nat) (q : EgressQueue) (d : DevEq) (r : Sp), s.eqAt i = some q → s.devEqAt i = some d →
    q.mapped = true → s.ring.wf →
    let page := fun (j : Instr) (v : Flit) => ∃ m, exec j s = .next { s with ring := m, ret := .ok, raised := [] } ∧
      WritesFlits s.ring m (fun _ => q.base.toNat + 64 * q.cap.toNat) [v]
    let shown : Sp := { rsvd := 0, qid := q.qid, cidx := d.cidx, pidx := d.pidx }
    page (.devStatus (.eq i)) ((0 : BitVec 16) ++ q.qid ++ d.cidx ++ d.pidx) ∧
      (r = shown → page (.sp (.eq i) r) ((0 : BitVec 16) ++ q.qid ++ d.cidx ++ d.pidx)) ∧
      (r ≠ shown → exec (.sp (.eq i) r) s = .next { s with ret := .notEnabled, raised := [] })

end
end

