-- ==== Sys2Proof/Laws/Index.lean ====
section
/-! SUPPORT. Ring index arithmetic: the results stay in range, and a distance counts the steps taken. -/

namespace Sys2Proof.Machine

theorem ofNat16_toNat {n : Nat} (h : n < 65536) : (BitVec.ofNat 16 n).toNat = n := by
  simp only [BitVec.toNat_ofNat]; omega

theorem addTo_toNat {i cap : BitVec 16} (n : Nat) (h : 0 < cap.toNat) :
    (addTo i cap n).toNat = (i.toNat + n) % cap.toNat := by
  have := Nat.mod_lt (i.toNat + n) h
  have := cap.isLt
  exact ofNat16_toNat (by simp only [addIdx]; omega)

theorem addTo_lt {i cap : BitVec 16} (n : Nat) (h : 0 < cap.toNat) : (addTo i cap n).toNat < cap.toNat := by
  rw [addTo_toNat n h]; exact Nat.mod_lt _ h

theorem incIdx_eq_addTo (i cap : BitVec 16) : incIdx i cap = addTo i cap 1 := rfl

theorem addTo_addTo {i cap : BitVec 16} (m n : Nat) (h : 0 < cap.toNat) :
    addTo (addTo i cap m) cap n = addTo i cap (m + n) := by
  apply BitVec.eq_of_toNat_eq
  rw [addTo_toNat n h, addTo_toNat m h, addTo_toNat (m + n) h, Nat.mod_add_mod, Nat.add_assoc]

theorem addTo_zero {i cap : BitVec 16} (h : i < cap) : addTo i cap 0 = i := by
  have h : i.toNat < cap.toNat := h
  apply BitVec.eq_of_toNat_eq
  rw [addTo_toNat 0 (by omega), Nat.add_zero, Nat.mod_eq_of_lt h]

/-- A distance between indices of the ring, in two cases. -/
theorem distOf_eq {a b cap : BitVec 16} (ha : a < cap) (hb : b < cap) :
    distOf a b cap = if a.toNat ≤ b.toNat then b.toNat - a.toNat else b.toNat + cap.toNat - a.toNat := by
  have ha : a.toNat < cap.toNat := ha
  have hb : b.toNat < cap.toNat := hb
  unfold distOf dist
  rw [Nat.mod_eq_of_lt ha]
  split
  · rw [show b.toNat + cap.toNat - a.toNat = (b.toNat - a.toNat) + cap.toNat by omega, Nat.add_mod_right,
      Nat.mod_eq_of_lt (by omega)]
  · rw [Nat.mod_eq_of_lt (by omega)]

theorem distOf_lt {a b cap : BitVec 16} (h : 0 < cap.toNat) : distOf a b cap < cap.toNat := Nat.mod_lt _ h

/-- The producer index `n` further makes the distance `n` greater, while it stays below the capacity. -/
theorem distOf_addTo {a b cap : BitVec 16} (ha : a < cap) (hb : b < cap) {n : Nat}
    (h : distOf a b cap + n < cap.toNat) : distOf a (addTo b cap n) cap = distOf a b cap + n := by
  have hc : 0 < cap.toNat := Nat.lt_of_le_of_lt (Nat.zero_le _) h
  have hl : addTo b cap n < cap := addTo_lt n hc
  have h1 := distOf_eq ha hb
  have h2 := distOf_eq ha hl
  have h3 := addTo_toNat (i := b) n hc
  have ha' : a.toNat < cap.toNat := ha
  have hb' : b.toNat < cap.toNat := hb
  rw [h2, h3, h1]
  rw [h1] at h
  split at h
  · rename_i hle
    rw [if_pos hle]
    by_cases hw : b.toNat + n < cap.toNat
    · rw [Nat.mod_eq_of_lt hw, if_pos (by omega)]; omega
    · rw [Nat.mod_eq_sub_mod (by omega), Nat.mod_eq_of_lt (by omega), if_neg (by omega)]; omega
  · rename_i hle
    rw [if_neg hle, Nat.mod_eq_of_lt (by omega)]
    split <;> omega

/-- The consumer index `n` further makes the distance `n` smaller. -/
theorem distOf_addTo_left {a b cap : BitVec 16} (ha : a < cap) (hb : b < cap) {n : Nat} (h : n ≤ distOf a b cap) :
    distOf (addTo a cap n) b cap = distOf a b cap - n := by
  have hc : 0 < cap.toNat := by have : a.toNat < cap.toNat := ha; omega
  have hl : addTo a cap n < cap := addTo_lt n hc
  have h1 := distOf_eq ha hb
  have h2 := distOf_eq hl hb
  have h3 := addTo_toNat (i := a) n hc
  have ha' : a.toNat < cap.toNat := ha
  have hb' : b.toNat < cap.toNat := hb
  rw [h2, h3, h1]
  rw [h1] at h
  split at h
  · rename_i hle
    rw [if_pos hle, Nat.mod_eq_of_lt (by omega), if_pos (by omega)]; omega
  · rename_i hle
    rw [if_neg hle]
    by_cases hw : a.toNat + n < cap.toNat
    · rw [Nat.mod_eq_of_lt hw]; split <;> omega
    · rw [Nat.mod_eq_sub_mod (by omega), Nat.mod_eq_of_lt (by omega), if_pos (by omega)]; omega

/-- The ring is empty exactly when the distance is 0. -/
theorem distOf_eq_zero {a b cap : BitVec 16} (ha : a < cap) (hb : b < cap) : distOf a b cap = 0 ↔ a = b := by
  rw [distOf_eq ha hb]
  have ha' : a.toNat < cap.toNat := ha
  have hb' : b.toNat < cap.toNat := hb
  constructor
  · intro h; apply BitVec.eq_of_toNat_eq; split at h <;> omega
  · rintro rfl; simp

/-- A producer index whose successor is not the consumer index leaves room for one more slot. -/
theorem distOf_succ_lt {a b cap : BitVec 16} (ha : a < cap) (hb : b < cap) (h : incIdx b cap ≠ a) :
    distOf a b cap + 1 < cap.toNat := by
  have hc : 0 < cap.toNat := by have : a.toNat < cap.toNat := ha; omega
  have hlt := distOf_lt (a := a) (b := b) hc
  rcases Nat.lt_or_ge (distOf a b cap + 1) cap.toNat with h' | h'
  · exact h'
  · exfalso
    apply h
    apply BitVec.eq_of_toNat_eq
    rw [incIdx_eq_addTo, addTo_toNat 1 hc]
    have ha' : a.toNat < cap.toNat := ha
    have hb' : b.toNat < cap.toNat := hb
    have h1 := distOf_eq ha hb
    rw [h1] at h' hlt
    split at h'
    · have h0 : a.toNat = 0 := by omega
      rw [show b.toNat + 1 = cap.toNat by omega, Nat.mod_self, h0]
    · rw [Nat.mod_eq_of_lt (by omega)]; omega

end Sys2Proof.Machine
end

