-- ==== Sys2Proof/Laws/Memory.lean ====
section
/-! SUPPORT. The laws of the byte memories: read after write, the frame of a write, and the canonical form kept. -/

namespace Sys2Proof.Machine

@[simp] theorem Memory.get_nil (a : Nat) : Memory.get [] a = unwritten := rfl

theorem Memory.wf_nil : Memory.wf [] := by simp [Memory.wf]

/-- In the canonical form an address below the first entry is not listed. -/
theorem Memory.get_of_lt {m : Memory} {a : Nat} (h : ∀ c ∈ m, a < c.1) : m.get a = unwritten := by
  induction m with
  | nil => rfl
  | cons c m ih =>
    obtain ⟨b, w⟩ := c
    have hb : a < b := h (b, w) (by simp)
    simp only [Memory.get, if_neg (Nat.ne_of_lt hb)]
    exact ih fun c hc => h c (by simp [hc])

/-- A byte after a write, in the canonical form. -/
theorem Memory.get_put {m : Memory} (hm : m.wf) (a b : Nat) (v : Byte) :
    (m.put a v).get b = if b = a then v else m.get b := by
  induction m with
  | nil =>
    by_cases hv : v = unwritten <;> simp [Memory.put, Memory.get, hv]
  | cons c m ih =>
    obtain ⟨d, w⟩ := c
    have htl : Memory.wf m := ⟨(List.pairwise_cons.mp hm.1).2, fun c hc => hm.2 c (by simp [hc])⟩
    have hd : ∀ c ∈ m, d < c.1 := (List.pairwise_cons.mp hm.1).1
    by_cases h1 : a < d
    · by_cases hv : v = unwritten
      · simp only [Memory.put, if_pos h1, if_pos hv]
        by_cases hb : b = a
        · subst hb; rw [if_pos rfl, hv]
          exact Memory.get_of_lt (by
            intro c hc
            rcases List.mem_cons.mp hc with rfl | hc
            · exact h1
            · exact Nat.lt_trans h1 (hd c hc))
        · simp [hb]
      · simp only [Memory.put, if_pos h1, if_neg hv, Memory.get]
    · by_cases h2 : a = d
      · subst h2
        by_cases hv : v = unwritten
        · simp only [Memory.put, if_neg h1, if_pos hv, if_true]
          by_cases hb : b = a
          · subst hb; rw [if_pos rfl, hv]; exact Memory.get_of_lt hd
          · simp [Memory.get, hb]
        · simp only [Memory.put, if_neg h1, if_neg hv, if_true, Memory.get]
          by_cases hb : b = a <;> simp [hb]
      · simp only [Memory.put, if_neg h1, if_neg h2, Memory.get]
        by_cases hb : b = d
        · subst hb; simp [Ne.symm h2]
        · simp [hb, ih htl]

theorem Memory.mem_put {m : Memory} {a : Nat} {v : Byte} {c : Host.Cell} (h : c ∈ m.put a v) :
    c ∈ m ∨ (c = (a, v) ∧ v ≠ unwritten) := by
  induction m with
  | nil =>
    by_cases hv : v = unwritten <;> simp_all [Memory.put]
  | cons d m ih =>
    obtain ⟨b, w⟩ := d
    simp only [Memory.put] at h
    split at h
    · split at h
      · exact .inl h
      · rcases List.mem_cons.mp h with rfl | h
        · exact .inr ⟨rfl, by assumption⟩
        · exact .inl h
    · split at h
      · split at h
        · exact .inl (by simp [h])
        · rcases List.mem_cons.mp h with rfl | h
          · exact .inr ⟨rfl, by assumption⟩
          · exact .inl (by simp [h])
      · rcases List.mem_cons.mp h with rfl | h
        · exact .inl (by simp)
        · rcases ih h with h | h
          · exact .inl (by simp [h])
          · exact .inr h

/-- A write keeps the canonical form. -/
theorem Memory.put_wf {m : Memory} (hm : m.wf) (a : Nat) (v : Byte) : (m.put a v).wf := by
  refine ⟨?_, fun c hc => ?_⟩
  · induction m with
    | nil => by_cases hv : v = unwritten <;> simp [Memory.put, hv]
    | cons d m ih =>
      obtain ⟨b, w⟩ := d
      have hp := List.pairwise_cons.mp hm.1
      have htl : Memory.wf m := ⟨hp.2, fun c hc => hm.2 c (by simp [hc])⟩
      simp only [Memory.put]
      split
      · rename_i h1
        split
        · exact hm.1
        · refine List.pairwise_cons.mpr ⟨fun c hc => ?_, hm.1⟩
          rcases List.mem_cons.mp hc with rfl | hc
          · exact h1
          · exact Nat.lt_trans h1 (hp.1 c hc)
      · split
        · rename_i h1 h2
          subst h2
          split
          · exact hp.2
          · exact List.pairwise_cons.mpr ⟨hp.1, hp.2⟩
        · rename_i h1 h2
          refine List.pairwise_cons.mpr ⟨fun c hc => ?_, ih htl⟩
          rcases Memory.mem_put hc with hc | ⟨rfl, _⟩
          · exact hp.1 c hc
          · show b < a; omega
  · rcases Memory.mem_put hc with hc | ⟨rfl, hv⟩
    · exact hm.2 c hc
    · exact hv

/-- Consecutive writes keep the canonical form. -/
theorem Memory.putBytes_wf {m : Memory} (hm : m.wf) (a : Nat) (bs : List Byte) : (m.putBytes a bs).wf := by
  induction bs generalizing m a with
  | nil => exact hm
  | cons v vs ih => exact ih (Memory.put_wf hm a v) (a + 1)

/-- A flit's write keeps the canonical form. -/
theorem Memory.putFlit_wf {m : Memory} (hm : m.wf) (a : Nat) (v : Flit) : (m.putFlit a v).wf :=
  Memory.putBytes_wf hm a _

/-- Any list of cells is brought to the canonical form. -/
theorem Memory.canon_wf (m : List Host.Cell) : (Memory.canon m).wf := by
  induction m with
  | nil => exact Memory.wf_nil
  | cons c m ih => exact Memory.put_wf ih c.1 c.2

/-- A byte after consecutive writes. -/
theorem Memory.get_putBytes {m : Memory} (hm : m.wf) (a b : Nat) (bs : List Byte) :
    (m.putBytes a bs).get b = if a ≤ b ∧ b < a + bs.length then bs.getD (b - a) 0 else m.get b := by
  induction bs generalizing m a with
  | nil => rw [if_neg (by simp)]; rfl
  | cons v vs ih =>
    rw [Memory.putBytes, ih (Memory.put_wf hm a v), Memory.get_put hm]
    by_cases h1 : b = a
    · subst h1; simp
    · by_cases h2 : a + 1 ≤ b ∧ b < a + 1 + vs.length
      · rw [if_pos h2, if_pos (by simp only [List.length_cons]; omega)]
        obtain ⟨k, hk⟩ : ∃ k, b - a = k + 1 := ⟨b - a - 1, by omega⟩
        rw [hk, show b - (a + 1) = k by omega]; simp
      · rw [if_neg h2, if_neg h1, if_neg (by simp only [List.length_cons]; omega)]

@[simp] theorem flitBytes_length (v : Flit) : (flitBytes v).length = 8 := rfl

/-- A flit is made of its bytes. -/
theorem flitOf_flitBytes (v : Flit) :
    flitOf (field v 56 8) (field v 48 8) (field v 40 8) (field v 32 8) (field v 24 8) (field v 16 8) (field v 8 8)
      (field v 0 8) = v := by
  apply BitVec.eq_of_getLsbD_eq
  intro i hi
  simp only [flitOf, field, BitVec.getLsbD_append, BitVec.getLsbD_extractLsb']
  repeat' split
  all_goals (rw [decide_eq_true (by omega), Bool.true_and]; congr 1; omega)

/-- A flit read after it was written. -/
theorem Memory.flit_putFlit_same {m : Memory} (hm : m.wf) (a : Nat) (v : Flit) : (m.putFlit a v).flit a = v := by
  have h : ∀ k, k < 8 → (m.putFlit a v).get (a + k) = (flitBytes v).getD k 0 := by
    intro k hk
    rw [Memory.putFlit, Memory.get_putBytes hm, if_pos (by simp; omega)]
    congr 1; omega
  have h0 := h 0 (by omega)
  simp only [Nat.add_zero] at h0
  simp only [Memory.flit, h0, h 1 (by omega), h 2 (by omega), h 3 (by omega), h 4 (by omega), h 5 (by omega),
    h 6 (by omega), h 7 (by omega)]
  exact flitOf_flitBytes v

/-- A byte outside the flit written is as before. -/
theorem Memory.get_putFlit_other {m : Memory} (hm : m.wf) (a b : Nat) (v : Flit) (h : b < a ∨ a + 8 ≤ b) :
    (m.putFlit a v).get b = m.get b := by
  rw [Memory.putFlit, Memory.get_putBytes hm, if_neg (by simp; omega)]

/-- A flit read where no byte changed. -/
theorem Memory.flit_congr {m m' : Memory} {a : Nat} (h : ∀ k, k < 8 → m'.get (a + k) = m.get (a + k)) :
    m'.flit a = m.flit a := by
  have h0 := h 0 (by omega)
  simp only [Nat.add_zero] at h0
  simp only [Memory.flit, h0, h 1 (by omega), h 2 (by omega), h 3 (by omega), h 4 (by omega), h 5 (by omega),
    h 6 (by omega), h 7 (by omega)]

/-- A flit clear of the flit written is as before. -/
theorem Memory.flit_putFlit_other {m : Memory} (hm : m.wf) (a b : Nat) (v : Flit) (h : b + 8 ≤ a ∨ a + 8 ≤ b) :
    (m.putFlit a v).flit b = m.flit b :=
  Memory.flit_congr fun k hk => Memory.get_putFlit_other hm a (b + k) v (by omega)

@[simp] theorem Memory.bytes_length (m : Memory) (a n : Nat) : (m.bytes a n).length = n := by
  induction n generalizing a with
  | zero => rfl
  | succ n ih => simp [Memory.bytes, ih]

end Sys2Proof.Machine
end

