-- ==== Sys2Proof/Laws/State.lean ====
section
/-! SUPPORT. One lemma per field of the state per named update: what an update leaves and what it writes. -/

namespace Sys2Proof.Machine

variable (s : State)

/-! ### `State.setIq` -/

@[simp] theorem State.setIq_cfg (i : Nat) (q : IngressQueue) : (s.setIq i q).cfg = s.cfg := rfl
@[simp] theorem State.setIq_iq (i : Nat) (q : IngressQueue) : (s.setIq i q).iq = s.iq.set i (some q) := rfl
@[simp] theorem State.setIq_eq (i : Nat) (q : IngressQueue) : (s.setIq i q).eq = s.eq := rfl
@[simp] theorem State.setIq_arena (i : Nat) (q : IngressQueue) : (s.setIq i q).arena = s.arena := rfl
@[simp] theorem State.setIq_starving (i : Nat) (q : IngressQueue) : (s.setIq i q).starving = s.starving := rfl
@[simp] theorem State.setIq_stalled (i : Nat) (q : IngressQueue) : (s.setIq i q).stalled = s.stalled := rfl
@[simp] theorem State.setIq_worklist (i : Nat) (q : IngressQueue) : (s.setIq i q).worklist = s.worklist := rfl
@[simp] theorem State.setIq_panic (i : Nat) (q : IngressQueue) : (s.setIq i q).panic = s.panic := rfl
@[simp] theorem State.setIq_out (i : Nat) (q : IngressQueue) : (s.setIq i q).out = s.out := rfl
@[simp] theorem State.setIq_ring (i : Nat) (q : IngressQueue) : (s.setIq i q).ring = s.ring := rfl
@[simp] theorem State.setIq_buf (i : Nat) (q : IngressQueue) : (s.setIq i q).buf = s.buf := rfl
@[simp] theorem State.setIq_mmio (i : Nat) (q : IngressQueue) : (s.setIq i q).mmio = s.mmio := rfl
@[simp] theorem State.setIq_heap (i : Nat) (q : IngressQueue) : (s.setIq i q).heap = s.heap := rfl
@[simp] theorem State.setIq_devFl (i : Nat) (q : IngressQueue) : (s.setIq i q).devFl = s.devFl := rfl
@[simp] theorem State.setIq_devIq (i : Nat) (q : IngressQueue) : (s.setIq i q).devIq = s.devIq := rfl
@[simp] theorem State.setIq_devEq (i : Nat) (q : IngressQueue) : (s.setIq i q).devEq = s.devEq := rfl
@[simp] theorem State.setIq_port (i : Nat) (q : IngressQueue) : (s.setIq i q).port = s.port := rfl
@[simp] theorem State.setIq_env (i : Nat) (q : IngressQueue) : (s.setIq i q).env = s.env := rfl
@[simp] theorem State.setIq_held (i : Nat) (q : IngressQueue) : (s.setIq i q).held = s.held := rfl
@[simp] theorem State.setIq_given (i : Nat) (q : IngressQueue) : (s.setIq i q).given = s.given := rfl
@[simp] theorem State.setIq_ret (i : Nat) (q : IngressQueue) : (s.setIq i q).ret = s.ret := rfl
@[simp] theorem State.setIq_raised (i : Nat) (q : IngressQueue) : (s.setIq i q).raised = s.raised := rfl

/-! ### `State.setEq` -/

@[simp] theorem State.setEq_cfg (i : Nat) (q : EgressQueue) : (s.setEq i q).cfg = s.cfg := rfl
@[simp] theorem State.setEq_iq (i : Nat) (q : EgressQueue) : (s.setEq i q).iq = s.iq := rfl
@[simp] theorem State.setEq_eq (i : Nat) (q : EgressQueue) : (s.setEq i q).eq = s.eq.set i (some q) := rfl
@[simp] theorem State.setEq_arena (i : Nat) (q : EgressQueue) : (s.setEq i q).arena = s.arena := rfl
@[simp] theorem State.setEq_starving (i : Nat) (q : EgressQueue) : (s.setEq i q).starving = s.starving := rfl
@[simp] theorem State.setEq_stalled (i : Nat) (q : EgressQueue) : (s.setEq i q).stalled = s.stalled := rfl
@[simp] theorem State.setEq_worklist (i : Nat) (q : EgressQueue) : (s.setEq i q).worklist = s.worklist := rfl
@[simp] theorem State.setEq_panic (i : Nat) (q : EgressQueue) : (s.setEq i q).panic = s.panic := rfl
@[simp] theorem State.setEq_out (i : Nat) (q : EgressQueue) : (s.setEq i q).out = s.out := rfl
@[simp] theorem State.setEq_ring (i : Nat) (q : EgressQueue) : (s.setEq i q).ring = s.ring := rfl
@[simp] theorem State.setEq_buf (i : Nat) (q : EgressQueue) : (s.setEq i q).buf = s.buf := rfl
@[simp] theorem State.setEq_mmio (i : Nat) (q : EgressQueue) : (s.setEq i q).mmio = s.mmio := rfl
@[simp] theorem State.setEq_heap (i : Nat) (q : EgressQueue) : (s.setEq i q).heap = s.heap := rfl
@[simp] theorem State.setEq_devFl (i : Nat) (q : EgressQueue) : (s.setEq i q).devFl = s.devFl := rfl
@[simp] theorem State.setEq_devIq (i : Nat) (q : EgressQueue) : (s.setEq i q).devIq = s.devIq := rfl
@[simp] theorem State.setEq_devEq (i : Nat) (q : EgressQueue) : (s.setEq i q).devEq = s.devEq := rfl
@[simp] theorem State.setEq_port (i : Nat) (q : EgressQueue) : (s.setEq i q).port = s.port := rfl
@[simp] theorem State.setEq_env (i : Nat) (q : EgressQueue) : (s.setEq i q).env = s.env := rfl
@[simp] theorem State.setEq_held (i : Nat) (q : EgressQueue) : (s.setEq i q).held = s.held := rfl
@[simp] theorem State.setEq_given (i : Nat) (q : EgressQueue) : (s.setEq i q).given = s.given := rfl
@[simp] theorem State.setEq_ret (i : Nat) (q : EgressQueue) : (s.setEq i q).ret = s.ret := rfl
@[simp] theorem State.setEq_raised (i : Nat) (q : EgressQueue) : (s.setEq i q).raised = s.raised := rfl

/-! ### `State.setDevFl` -/

@[simp] theorem State.setDevFl_cfg (i : Nat) (d : DevFl) : (s.setDevFl i d).cfg = s.cfg := rfl
@[simp] theorem State.setDevFl_iq (i : Nat) (d : DevFl) : (s.setDevFl i d).iq = s.iq := rfl
@[simp] theorem State.setDevFl_eq (i : Nat) (d : DevFl) : (s.setDevFl i d).eq = s.eq := rfl
@[simp] theorem State.setDevFl_arena (i : Nat) (d : DevFl) : (s.setDevFl i d).arena = s.arena := rfl
@[simp] theorem State.setDevFl_starving (i : Nat) (d : DevFl) : (s.setDevFl i d).starving = s.starving := rfl
@[simp] theorem State.setDevFl_stalled (i : Nat) (d : DevFl) : (s.setDevFl i d).stalled = s.stalled := rfl
@[simp] theorem State.setDevFl_worklist (i : Nat) (d : DevFl) : (s.setDevFl i d).worklist = s.worklist := rfl
@[simp] theorem State.setDevFl_panic (i : Nat) (d : DevFl) : (s.setDevFl i d).panic = s.panic := rfl
@[simp] theorem State.setDevFl_out (i : Nat) (d : DevFl) : (s.setDevFl i d).out = s.out := rfl
@[simp] theorem State.setDevFl_ring (i : Nat) (d : DevFl) : (s.setDevFl i d).ring = s.ring := rfl
@[simp] theorem State.setDevFl_buf (i : Nat) (d : DevFl) : (s.setDevFl i d).buf = s.buf := rfl
@[simp] theorem State.setDevFl_mmio (i : Nat) (d : DevFl) : (s.setDevFl i d).mmio = s.mmio := rfl
@[simp] theorem State.setDevFl_heap (i : Nat) (d : DevFl) : (s.setDevFl i d).heap = s.heap := rfl
@[simp] theorem State.setDevFl_devFl (i : Nat) (d : DevFl) : (s.setDevFl i d).devFl = s.devFl.set i (some d) := rfl
@[simp] theorem State.setDevFl_devIq (i : Nat) (d : DevFl) : (s.setDevFl i d).devIq = s.devIq := rfl
@[simp] theorem State.setDevFl_devEq (i : Nat) (d : DevFl) : (s.setDevFl i d).devEq = s.devEq := rfl
@[simp] theorem State.setDevFl_port (i : Nat) (d : DevFl) : (s.setDevFl i d).port = s.port := rfl
@[simp] theorem State.setDevFl_env (i : Nat) (d : DevFl) : (s.setDevFl i d).env = s.env := rfl
@[simp] theorem State.setDevFl_held (i : Nat) (d : DevFl) : (s.setDevFl i d).held = s.held := rfl
@[simp] theorem State.setDevFl_given (i : Nat) (d : DevFl) : (s.setDevFl i d).given = s.given := rfl
@[simp] theorem State.setDevFl_ret (i : Nat) (d : DevFl) : (s.setDevFl i d).ret = s.ret := rfl
@[simp] theorem State.setDevFl_raised (i : Nat) (d : DevFl) : (s.setDevFl i d).raised = s.raised := rfl

/-! ### `State.setDevIq` -/

@[simp] theorem State.setDevIq_cfg (i : Nat) (d : DevIq) : (s.setDevIq i d).cfg = s.cfg := rfl
@[simp] theorem State.setDevIq_iq (i : Nat) (d : DevIq) : (s.setDevIq i d).iq = s.iq := rfl
@[simp] theorem State.setDevIq_eq (i : Nat) (d : DevIq) : (s.setDevIq i d).eq = s.eq := rfl
@[simp] theorem State.setDevIq_arena (i : Nat) (d : DevIq) : (s.setDevIq i d).arena = s.arena := rfl
@[simp] theorem State.setDevIq_starving (i : Nat) (d : DevIq) : (s.setDevIq i d).starving = s.starving := rfl
@[simp] theorem State.setDevIq_stalled (i : Nat) (d : DevIq) : (s.setDevIq i d).stalled = s.stalled := rfl
@[simp] theorem State.setDevIq_worklist (i : Nat) (d : DevIq) : (s.setDevIq i d).worklist = s.worklist := rfl
@[simp] theorem State.setDevIq_panic (i : Nat) (d : DevIq) : (s.setDevIq i d).panic = s.panic := rfl
@[simp] theorem State.setDevIq_out (i : Nat) (d : DevIq) : (s.setDevIq i d).out = s.out := rfl
@[simp] theorem State.setDevIq_ring (i : Nat) (d : DevIq) : (s.setDevIq i d).ring = s.ring := rfl
@[simp] theorem State.setDevIq_buf (i : Nat) (d : DevIq) : (s.setDevIq i d).buf = s.buf := rfl
@[simp] theorem State.setDevIq_mmio (i : Nat) (d : DevIq) : (s.setDevIq i d).mmio = s.mmio := rfl
@[simp] theorem State.setDevIq_heap (i : Nat) (d : DevIq) : (s.setDevIq i d).heap = s.heap := rfl
@[simp] theorem State.setDevIq_devFl (i : Nat) (d : DevIq) : (s.setDevIq i d).devFl = s.devFl := rfl
@[simp] theorem State.setDevIq_devIq (i : Nat) (d : DevIq) : (s.setDevIq i d).devIq = s.devIq.set i (some d) := rfl
@[simp] theorem State.setDevIq_devEq (i : Nat) (d : DevIq) : (s.setDevIq i d).devEq = s.devEq := rfl
@[simp] theorem State.setDevIq_port (i : Nat) (d : DevIq) : (s.setDevIq i d).port = s.port := rfl
@[simp] theorem State.setDevIq_env (i : Nat) (d : DevIq) : (s.setDevIq i d).env = s.env := rfl
@[simp] theorem State.setDevIq_held (i : Nat) (d : DevIq) : (s.setDevIq i d).held = s.held := rfl
@[simp] theorem State.setDevIq_given (i : Nat) (d : DevIq) : (s.setDevIq i d).given = s.given := rfl
@[simp] theorem State.setDevIq_ret (i : Nat) (d : DevIq) : (s.setDevIq i d).ret = s.ret := rfl
@[simp] theorem State.setDevIq_raised (i : Nat) (d : DevIq) : (s.setDevIq i d).raised = s.raised := rfl

/-! ### `State.setDevEq` -/

@[simp] theorem State.setDevEq_cfg (i : Nat) (d : DevEq) : (s.setDevEq i d).cfg = s.cfg := rfl
@[simp] theorem State.setDevEq_iq (i : Nat) (d : DevEq) : (s.setDevEq i d).iq = s.iq := rfl
@[simp] theorem State.setDevEq_eq (i : Nat) (d : DevEq) : (s.setDevEq i d).eq = s.eq := rfl
@[simp] theorem State.setDevEq_arena (i : Nat) (d : DevEq) : (s.setDevEq i d).arena = s.arena := rfl
@[simp] theorem State.setDevEq_starving (i : Nat) (d : DevEq) : (s.setDevEq i d).starving = s.starving := rfl
@[simp] theorem State.setDevEq_stalled (i : Nat) (d : DevEq) : (s.setDevEq i d).stalled = s.stalled := rfl
@[simp] theorem State.setDevEq_worklist (i : Nat) (d : DevEq) : (s.setDevEq i d).worklist = s.worklist := rfl
@[simp] theorem State.setDevEq_panic (i : Nat) (d : DevEq) : (s.setDevEq i d).panic = s.panic := rfl
@[simp] theorem State.setDevEq_out (i : Nat) (d : DevEq) : (s.setDevEq i d).out = s.out := rfl
@[simp] theorem State.setDevEq_ring (i : Nat) (d : DevEq) : (s.setDevEq i d).ring = s.ring := rfl
@[simp] theorem State.setDevEq_buf (i : Nat) (d : DevEq) : (s.setDevEq i d).buf = s.buf := rfl
@[simp] theorem State.setDevEq_mmio (i : Nat) (d : DevEq) : (s.setDevEq i d).mmio = s.mmio := rfl
@[simp] theorem State.setDevEq_heap (i : Nat) (d : DevEq) : (s.setDevEq i d).heap = s.heap := rfl
@[simp] theorem State.setDevEq_devFl (i : Nat) (d : DevEq) : (s.setDevEq i d).devFl = s.devFl := rfl
@[simp] theorem State.setDevEq_devIq (i : Nat) (d : DevEq) : (s.setDevEq i d).devIq = s.devIq := rfl
@[simp] theorem State.setDevEq_devEq (i : Nat) (d : DevEq) : (s.setDevEq i d).devEq = s.devEq.set i (some d) := rfl
@[simp] theorem State.setDevEq_port (i : Nat) (d : DevEq) : (s.setDevEq i d).port = s.port := rfl
@[simp] theorem State.setDevEq_env (i : Nat) (d : DevEq) : (s.setDevEq i d).env = s.env := rfl
@[simp] theorem State.setDevEq_held (i : Nat) (d : DevEq) : (s.setDevEq i d).held = s.held := rfl
@[simp] theorem State.setDevEq_given (i : Nat) (d : DevEq) : (s.setDevEq i d).given = s.given := rfl
@[simp] theorem State.setDevEq_ret (i : Nat) (d : DevEq) : (s.setDevEq i d).ret = s.ret := rfl
@[simp] theorem State.setDevEq_raised (i : Nat) (d : DevEq) : (s.setDevEq i d).raised = s.raised := rfl

/-! ### `State.setArena` -/

@[simp] theorem State.setArena_cfg (a : List Buffer) : (s.setArena a).cfg = s.cfg := rfl
@[simp] theorem State.setArena_iq (a : List Buffer) : (s.setArena a).iq = s.iq := rfl
@[simp] theorem State.setArena_eq (a : List Buffer) : (s.setArena a).eq = s.eq := rfl
@[simp] theorem State.setArena_arena (a : List Buffer) : (s.setArena a).arena = a := rfl
@[simp] theorem State.setArena_starving (a : List Buffer) : (s.setArena a).starving = s.starving := rfl
@[simp] theorem State.setArena_stalled (a : List Buffer) : (s.setArena a).stalled = s.stalled := rfl
@[simp] theorem State.setArena_worklist (a : List Buffer) : (s.setArena a).worklist = s.worklist := rfl
@[simp] theorem State.setArena_panic (a : List Buffer) : (s.setArena a).panic = s.panic := rfl
@[simp] theorem State.setArena_out (a : List Buffer) : (s.setArena a).out = s.out := rfl
@[simp] theorem State.setArena_ring (a : List Buffer) : (s.setArena a).ring = s.ring := rfl
@[simp] theorem State.setArena_buf (a : List Buffer) : (s.setArena a).buf = s.buf := rfl
@[simp] theorem State.setArena_mmio (a : List Buffer) : (s.setArena a).mmio = s.mmio := rfl
@[simp] theorem State.setArena_heap (a : List Buffer) : (s.setArena a).heap = s.heap := rfl
@[simp] theorem State.setArena_devFl (a : List Buffer) : (s.setArena a).devFl = s.devFl := rfl
@[simp] theorem State.setArena_devIq (a : List Buffer) : (s.setArena a).devIq = s.devIq := rfl
@[simp] theorem State.setArena_devEq (a : List Buffer) : (s.setArena a).devEq = s.devEq := rfl
@[simp] theorem State.setArena_port (a : List Buffer) : (s.setArena a).port = s.port := rfl
@[simp] theorem State.setArena_env (a : List Buffer) : (s.setArena a).env = s.env := rfl
@[simp] theorem State.setArena_held (a : List Buffer) : (s.setArena a).held = s.held := rfl
@[simp] theorem State.setArena_given (a : List Buffer) : (s.setArena a).given = s.given := rfl
@[simp] theorem State.setArena_ret (a : List Buffer) : (s.setArena a).ret = s.ret := rfl
@[simp] theorem State.setArena_raised (a : List Buffer) : (s.setArena a).raised = s.raised := rfl

/-! ### `State.setStarving` -/

@[simp] theorem State.setStarving_cfg (l : List Nat) : (s.setStarving l).cfg = s.cfg := rfl
@[simp] theorem State.setStarving_iq (l : List Nat) : (s.setStarving l).iq = s.iq := rfl
@[simp] theorem State.setStarving_eq (l : List Nat) : (s.setStarving l).eq = s.eq := rfl
@[simp] theorem State.setStarving_arena (l : List Nat) : (s.setStarving l).arena = s.arena := rfl
@[simp] theorem State.setStarving_starving (l : List Nat) : (s.setStarving l).starving = l := rfl
@[simp] theorem State.setStarving_stalled (l : List Nat) : (s.setStarving l).stalled = s.stalled := rfl
@[simp] theorem State.setStarving_worklist (l : List Nat) : (s.setStarving l).worklist = s.worklist := rfl
@[simp] theorem State.setStarving_panic (l : List Nat) : (s.setStarving l).panic = s.panic := rfl
@[simp] theorem State.setStarving_out (l : List Nat) : (s.setStarving l).out = s.out := rfl
@[simp] theorem State.setStarving_ring (l : List Nat) : (s.setStarving l).ring = s.ring := rfl
@[simp] theorem State.setStarving_buf (l : List Nat) : (s.setStarving l).buf = s.buf := rfl
@[simp] theorem State.setStarving_mmio (l : List Nat) : (s.setStarving l).mmio = s.mmio := rfl
@[simp] theorem State.setStarving_heap (l : List Nat) : (s.setStarving l).heap = s.heap := rfl
@[simp] theorem State.setStarving_devFl (l : List Nat) : (s.setStarving l).devFl = s.devFl := rfl
@[simp] theorem State.setStarving_devIq (l : List Nat) : (s.setStarving l).devIq = s.devIq := rfl
@[simp] theorem State.setStarving_devEq (l : List Nat) : (s.setStarving l).devEq = s.devEq := rfl
@[simp] theorem State.setStarving_port (l : List Nat) : (s.setStarving l).port = s.port := rfl
@[simp] theorem State.setStarving_env (l : List Nat) : (s.setStarving l).env = s.env := rfl
@[simp] theorem State.setStarving_held (l : List Nat) : (s.setStarving l).held = s.held := rfl
@[simp] theorem State.setStarving_given (l : List Nat) : (s.setStarving l).given = s.given := rfl
@[simp] theorem State.setStarving_ret (l : List Nat) : (s.setStarving l).ret = s.ret := rfl
@[simp] theorem State.setStarving_raised (l : List Nat) : (s.setStarving l).raised = s.raised := rfl

/-! ### `State.setStalled` -/

@[simp] theorem State.setStalled_cfg (l : List Nat) : (s.setStalled l).cfg = s.cfg := rfl
@[simp] theorem State.setStalled_iq (l : List Nat) : (s.setStalled l).iq = s.iq := rfl
@[simp] theorem State.setStalled_eq (l : List Nat) : (s.setStalled l).eq = s.eq := rfl
@[simp] theorem State.setStalled_arena (l : List Nat) : (s.setStalled l).arena = s.arena := rfl
@[simp] theorem State.setStalled_starving (l : List Nat) : (s.setStalled l).starving = s.starving := rfl
@[simp] theorem State.setStalled_stalled (l : List Nat) : (s.setStalled l).stalled = l := rfl
@[simp] theorem State.setStalled_worklist (l : List Nat) : (s.setStalled l).worklist = s.worklist := rfl
@[simp] theorem State.setStalled_panic (l : List Nat) : (s.setStalled l).panic = s.panic := rfl
@[simp] theorem State.setStalled_out (l : List Nat) : (s.setStalled l).out = s.out := rfl
@[simp] theorem State.setStalled_ring (l : List Nat) : (s.setStalled l).ring = s.ring := rfl
@[simp] theorem State.setStalled_buf (l : List Nat) : (s.setStalled l).buf = s.buf := rfl
@[simp] theorem State.setStalled_mmio (l : List Nat) : (s.setStalled l).mmio = s.mmio := rfl
@[simp] theorem State.setStalled_heap (l : List Nat) : (s.setStalled l).heap = s.heap := rfl
@[simp] theorem State.setStalled_devFl (l : List Nat) : (s.setStalled l).devFl = s.devFl := rfl
@[simp] theorem State.setStalled_devIq (l : List Nat) : (s.setStalled l).devIq = s.devIq := rfl
@[simp] theorem State.setStalled_devEq (l : List Nat) : (s.setStalled l).devEq = s.devEq := rfl
@[simp] theorem State.setStalled_port (l : List Nat) : (s.setStalled l).port = s.port := rfl
@[simp] theorem State.setStalled_env (l : List Nat) : (s.setStalled l).env = s.env := rfl
@[simp] theorem State.setStalled_held (l : List Nat) : (s.setStalled l).held = s.held := rfl
@[simp] theorem State.setStalled_given (l : List Nat) : (s.setStalled l).given = s.given := rfl
@[simp] theorem State.setStalled_ret (l : List Nat) : (s.setStalled l).ret = s.ret := rfl
@[simp] theorem State.setStalled_raised (l : List Nat) : (s.setStalled l).raised = s.raised := rfl

/-! ### `State.setWorklist` -/

@[simp] theorem State.setWorklist_cfg (l : List Nat) : (s.setWorklist l).cfg = s.cfg := rfl
@[simp] theorem State.setWorklist_iq (l : List Nat) : (s.setWorklist l).iq = s.iq := rfl
@[simp] theorem State.setWorklist_eq (l : List Nat) : (s.setWorklist l).eq = s.eq := rfl
@[simp] theorem State.setWorklist_arena (l : List Nat) : (s.setWorklist l).arena = s.arena := rfl
@[simp] theorem State.setWorklist_starving (l : List Nat) : (s.setWorklist l).starving = s.starving := rfl
@[simp] theorem State.setWorklist_stalled (l : List Nat) : (s.setWorklist l).stalled = s.stalled := rfl
@[simp] theorem State.setWorklist_worklist (l : List Nat) : (s.setWorklist l).worklist = l := rfl
@[simp] theorem State.setWorklist_panic (l : List Nat) : (s.setWorklist l).panic = s.panic := rfl
@[simp] theorem State.setWorklist_out (l : List Nat) : (s.setWorklist l).out = s.out := rfl
@[simp] theorem State.setWorklist_ring (l : List Nat) : (s.setWorklist l).ring = s.ring := rfl
@[simp] theorem State.setWorklist_buf (l : List Nat) : (s.setWorklist l).buf = s.buf := rfl
@[simp] theorem State.setWorklist_mmio (l : List Nat) : (s.setWorklist l).mmio = s.mmio := rfl
@[simp] theorem State.setWorklist_heap (l : List Nat) : (s.setWorklist l).heap = s.heap := rfl
@[simp] theorem State.setWorklist_devFl (l : List Nat) : (s.setWorklist l).devFl = s.devFl := rfl
@[simp] theorem State.setWorklist_devIq (l : List Nat) : (s.setWorklist l).devIq = s.devIq := rfl
@[simp] theorem State.setWorklist_devEq (l : List Nat) : (s.setWorklist l).devEq = s.devEq := rfl
@[simp] theorem State.setWorklist_port (l : List Nat) : (s.setWorklist l).port = s.port := rfl
@[simp] theorem State.setWorklist_env (l : List Nat) : (s.setWorklist l).env = s.env := rfl
@[simp] theorem State.setWorklist_held (l : List Nat) : (s.setWorklist l).held = s.held := rfl
@[simp] theorem State.setWorklist_given (l : List Nat) : (s.setWorklist l).given = s.given := rfl
@[simp] theorem State.setWorklist_ret (l : List Nat) : (s.setWorklist l).ret = s.ret := rfl
@[simp] theorem State.setWorklist_raised (l : List Nat) : (s.setWorklist l).raised = s.raised := rfl

/-! ### `State.setRing` -/

@[simp] theorem State.setRing_cfg (m : Memory) : (s.setRing m).cfg = s.cfg := rfl
@[simp] theorem State.setRing_iq (m : Memory) : (s.setRing m).iq = s.iq := rfl
@[simp] theorem State.setRing_eq (m : Memory) : (s.setRing m).eq = s.eq := rfl
@[simp] theorem State.setRing_arena (m : Memory) : (s.setRing m).arena = s.arena := rfl
@[simp] theorem State.setRing_starving (m : Memory) : (s.setRing m).starving = s.starving := rfl
@[simp] theorem State.setRing_stalled (m : Memory) : (s.setRing m).stalled = s.stalled := rfl
@[simp] theorem State.setRing_worklist (m : Memory) : (s.setRing m).worklist = s.worklist := rfl
@[simp] theorem State.setRing_panic (m : Memory) : (s.setRing m).panic = s.panic := rfl
@[simp] theorem State.setRing_out (m : Memory) : (s.setRing m).out = s.out := rfl
@[simp] theorem State.setRing_ring (m : Memory) : (s.setRing m).ring = m := rfl
@[simp] theorem State.setRing_buf (m : Memory) : (s.setRing m).buf = s.buf := rfl
@[simp] theorem State.setRing_mmio (m : Memory) : (s.setRing m).mmio = s.mmio := rfl
@[simp] theorem State.setRing_heap (m : Memory) : (s.setRing m).heap = s.heap := rfl
@[simp] theorem State.setRing_devFl (m : Memory) : (s.setRing m).devFl = s.devFl := rfl
@[simp] theorem State.setRing_devIq (m : Memory) : (s.setRing m).devIq = s.devIq := rfl
@[simp] theorem State.setRing_devEq (m : Memory) : (s.setRing m).devEq = s.devEq := rfl
@[simp] theorem State.setRing_port (m : Memory) : (s.setRing m).port = s.port := rfl
@[simp] theorem State.setRing_env (m : Memory) : (s.setRing m).env = s.env := rfl
@[simp] theorem State.setRing_held (m : Memory) : (s.setRing m).held = s.held := rfl
@[simp] theorem State.setRing_given (m : Memory) : (s.setRing m).given = s.given := rfl
@[simp] theorem State.setRing_ret (m : Memory) : (s.setRing m).ret = s.ret := rfl
@[simp] theorem State.setRing_raised (m : Memory) : (s.setRing m).raised = s.raised := rfl

/-! ### `State.setBuf` -/

@[simp] theorem State.setBuf_cfg (m : Memory) : (s.setBuf m).cfg = s.cfg := rfl
@[simp] theorem State.setBuf_iq (m : Memory) : (s.setBuf m).iq = s.iq := rfl
@[simp] theorem State.setBuf_eq (m : Memory) : (s.setBuf m).eq = s.eq := rfl
@[simp] theorem State.setBuf_arena (m : Memory) : (s.setBuf m).arena = s.arena := rfl
@[simp] theorem State.setBuf_starving (m : Memory) : (s.setBuf m).starving = s.starving := rfl
@[simp] theorem State.setBuf_stalled (m : Memory) : (s.setBuf m).stalled = s.stalled := rfl
@[simp] theorem State.setBuf_worklist (m : Memory) : (s.setBuf m).worklist = s.worklist := rfl
@[simp] theorem State.setBuf_panic (m : Memory) : (s.setBuf m).panic = s.panic := rfl
@[simp] theorem State.setBuf_out (m : Memory) : (s.setBuf m).out = s.out := rfl
@[simp] theorem State.setBuf_ring (m : Memory) : (s.setBuf m).ring = s.ring := rfl
@[simp] theorem State.setBuf_buf (m : Memory) : (s.setBuf m).buf = m := rfl
@[simp] theorem State.setBuf_mmio (m : Memory) : (s.setBuf m).mmio = s.mmio := rfl
@[simp] theorem State.setBuf_heap (m : Memory) : (s.setBuf m).heap = s.heap := rfl
@[simp] theorem State.setBuf_devFl (m : Memory) : (s.setBuf m).devFl = s.devFl := rfl
@[simp] theorem State.setBuf_devIq (m : Memory) : (s.setBuf m).devIq = s.devIq := rfl
@[simp] theorem State.setBuf_devEq (m : Memory) : (s.setBuf m).devEq = s.devEq := rfl
@[simp] theorem State.setBuf_port (m : Memory) : (s.setBuf m).port = s.port := rfl
@[simp] theorem State.setBuf_env (m : Memory) : (s.setBuf m).env = s.env := rfl
@[simp] theorem State.setBuf_held (m : Memory) : (s.setBuf m).held = s.held := rfl
@[simp] theorem State.setBuf_given (m : Memory) : (s.setBuf m).given = s.given := rfl
@[simp] theorem State.setBuf_ret (m : Memory) : (s.setBuf m).ret = s.ret := rfl
@[simp] theorem State.setBuf_raised (m : Memory) : (s.setBuf m).raised = s.raised := rfl

/-! ### `State.setHeap` -/

@[simp] theorem State.setHeap_cfg (h : List HeapObject) : (s.setHeap h).cfg = s.cfg := rfl
@[simp] theorem State.setHeap_iq (h : List HeapObject) : (s.setHeap h).iq = s.iq := rfl
@[simp] theorem State.setHeap_eq (h : List HeapObject) : (s.setHeap h).eq = s.eq := rfl
@[simp] theorem State.setHeap_arena (h : List HeapObject) : (s.setHeap h).arena = s.arena := rfl
@[simp] theorem State.setHeap_starving (h : List HeapObject) : (s.setHeap h).starving = s.starving := rfl
@[simp] theorem State.setHeap_stalled (h : List HeapObject) : (s.setHeap h).stalled = s.stalled := rfl
@[simp] theorem State.setHeap_worklist (h : List HeapObject) : (s.setHeap h).worklist = s.worklist := rfl
@[simp] theorem State.setHeap_panic (h : List HeapObject) : (s.setHeap h).panic = s.panic := rfl
@[simp] theorem State.setHeap_out (h : List HeapObject) : (s.setHeap h).out = s.out := rfl
@[simp] theorem State.setHeap_ring (h : List HeapObject) : (s.setHeap h).ring = s.ring := rfl
@[simp] theorem State.setHeap_buf (h : List HeapObject) : (s.setHeap h).buf = s.buf := rfl
@[simp] theorem State.setHeap_mmio (h : List HeapObject) : (s.setHeap h).mmio = s.mmio := rfl
@[simp] theorem State.setHeap_heap (h : List HeapObject) : (s.setHeap h).heap = h := rfl
@[simp] theorem State.setHeap_devFl (h : List HeapObject) : (s.setHeap h).devFl = s.devFl := rfl
@[simp] theorem State.setHeap_devIq (h : List HeapObject) : (s.setHeap h).devIq = s.devIq := rfl
@[simp] theorem State.setHeap_devEq (h : List HeapObject) : (s.setHeap h).devEq = s.devEq := rfl
@[simp] theorem State.setHeap_port (h : List HeapObject) : (s.setHeap h).port = s.port := rfl
@[simp] theorem State.setHeap_env (h : List HeapObject) : (s.setHeap h).env = s.env := rfl
@[simp] theorem State.setHeap_held (h : List HeapObject) : (s.setHeap h).held = s.held := rfl
@[simp] theorem State.setHeap_given (h : List HeapObject) : (s.setHeap h).given = s.given := rfl
@[simp] theorem State.setHeap_ret (h : List HeapObject) : (s.setHeap h).ret = s.ret := rfl
@[simp] theorem State.setHeap_raised (h : List HeapObject) : (s.setHeap h).raised = s.raised := rfl

/-! ### `State.setEnv` -/

@[simp] theorem State.setEnv_cfg (e : Oracles) : (s.setEnv e).cfg = s.cfg := rfl
@[simp] theorem State.setEnv_iq (e : Oracles) : (s.setEnv e).iq = s.iq := rfl
@[simp] theorem State.setEnv_eq (e : Oracles) : (s.setEnv e).eq = s.eq := rfl
@[simp] theorem State.setEnv_arena (e : Oracles) : (s.setEnv e).arena = s.arena := rfl
@[simp] theorem State.setEnv_starving (e : Oracles) : (s.setEnv e).starving = s.starving := rfl
@[simp] theorem State.setEnv_stalled (e : Oracles) : (s.setEnv e).stalled = s.stalled := rfl
@[simp] theorem State.setEnv_worklist (e : Oracles) : (s.setEnv e).worklist = s.worklist := rfl
@[simp] theorem State.setEnv_panic (e : Oracles) : (s.setEnv e).panic = s.panic := rfl
@[simp] theorem State.setEnv_out (e : Oracles) : (s.setEnv e).out = s.out := rfl
@[simp] theorem State.setEnv_ring (e : Oracles) : (s.setEnv e).ring = s.ring := rfl
@[simp] theorem State.setEnv_buf (e : Oracles) : (s.setEnv e).buf = s.buf := rfl
@[simp] theorem State.setEnv_mmio (e : Oracles) : (s.setEnv e).mmio = s.mmio := rfl
@[simp] theorem State.setEnv_heap (e : Oracles) : (s.setEnv e).heap = s.heap := rfl
@[simp] theorem State.setEnv_devFl (e : Oracles) : (s.setEnv e).devFl = s.devFl := rfl
@[simp] theorem State.setEnv_devIq (e : Oracles) : (s.setEnv e).devIq = s.devIq := rfl
@[simp] theorem State.setEnv_devEq (e : Oracles) : (s.setEnv e).devEq = s.devEq := rfl
@[simp] theorem State.setEnv_port (e : Oracles) : (s.setEnv e).port = s.port := rfl
@[simp] theorem State.setEnv_env (e : Oracles) : (s.setEnv e).env = e := rfl
@[simp] theorem State.setEnv_held (e : Oracles) : (s.setEnv e).held = s.held := rfl
@[simp] theorem State.setEnv_given (e : Oracles) : (s.setEnv e).given = s.given := rfl
@[simp] theorem State.setEnv_ret (e : Oracles) : (s.setEnv e).ret = s.ret := rfl
@[simp] theorem State.setEnv_raised (e : Oracles) : (s.setEnv e).raised = s.raised := rfl

/-! ### `State.setHeld` -/

@[simp] theorem State.setHeld_cfg (h : List Segment) : (s.setHeld h).cfg = s.cfg := rfl
@[simp] theorem State.setHeld_iq (h : List Segment) : (s.setHeld h).iq = s.iq := rfl
@[simp] theorem State.setHeld_eq (h : List Segment) : (s.setHeld h).eq = s.eq := rfl
@[simp] theorem State.setHeld_arena (h : List Segment) : (s.setHeld h).arena = s.arena := rfl
@[simp] theorem State.setHeld_starving (h : List Segment) : (s.setHeld h).starving = s.starving := rfl
@[simp] theorem State.setHeld_stalled (h : List Segment) : (s.setHeld h).stalled = s.stalled := rfl
@[simp] theorem State.setHeld_worklist (h : List Segment) : (s.setHeld h).worklist = s.worklist := rfl
@[simp] theorem State.setHeld_panic (h : List Segment) : (s.setHeld h).panic = s.panic := rfl
@[simp] theorem State.setHeld_out (h : List Segment) : (s.setHeld h).out = s.out := rfl
@[simp] theorem State.setHeld_ring (h : List Segment) : (s.setHeld h).ring = s.ring := rfl
@[simp] theorem State.setHeld_buf (h : List Segment) : (s.setHeld h).buf = s.buf := rfl
@[simp] theorem State.setHeld_mmio (h : List Segment) : (s.setHeld h).mmio = s.mmio := rfl
@[simp] theorem State.setHeld_heap (h : List Segment) : (s.setHeld h).heap = s.heap := rfl
@[simp] theorem State.setHeld_devFl (h : List Segment) : (s.setHeld h).devFl = s.devFl := rfl
@[simp] theorem State.setHeld_devIq (h : List Segment) : (s.setHeld h).devIq = s.devIq := rfl
@[simp] theorem State.setHeld_devEq (h : List Segment) : (s.setHeld h).devEq = s.devEq := rfl
@[simp] theorem State.setHeld_port (h : List Segment) : (s.setHeld h).port = s.port := rfl
@[simp] theorem State.setHeld_env (h : List Segment) : (s.setHeld h).env = s.env := rfl
@[simp] theorem State.setHeld_held (h : List Segment) : (s.setHeld h).held = h := rfl
@[simp] theorem State.setHeld_given (h : List Segment) : (s.setHeld h).given = s.given := rfl
@[simp] theorem State.setHeld_ret (h : List Segment) : (s.setHeld h).ret = s.ret := rfl
@[simp] theorem State.setHeld_raised (h : List Segment) : (s.setHeld h).raised = s.raised := rfl

/-! ### `State.setGiven` -/

@[simp] theorem State.setGiven_cfg (g : List Segment) : (s.setGiven g).cfg = s.cfg := rfl
@[simp] theorem State.setGiven_iq (g : List Segment) : (s.setGiven g).iq = s.iq := rfl
@[simp] theorem State.setGiven_eq (g : List Segment) : (s.setGiven g).eq = s.eq := rfl
@[simp] theorem State.setGiven_arena (g : List Segment) : (s.setGiven g).arena = s.arena := rfl
@[simp] theorem State.setGiven_starving (g : List Segment) : (s.setGiven g).starving = s.starving := rfl
@[simp] theorem State.setGiven_stalled (g : List Segment) : (s.setGiven g).stalled = s.stalled := rfl
@[simp] theorem State.setGiven_worklist (g : List Segment) : (s.setGiven g).worklist = s.worklist := rfl
@[simp] theorem State.setGiven_panic (g : List Segment) : (s.setGiven g).panic = s.panic := rfl
@[simp] theorem State.setGiven_out (g : List Segment) : (s.setGiven g).out = s.out := rfl
@[simp] theorem State.setGiven_ring (g : List Segment) : (s.setGiven g).ring = s.ring := rfl
@[simp] theorem State.setGiven_buf (g : List Segment) : (s.setGiven g).buf = s.buf := rfl
@[simp] theorem State.setGiven_mmio (g : List Segment) : (s.setGiven g).mmio = s.mmio := rfl
@[simp] theorem State.setGiven_heap (g : List Segment) : (s.setGiven g).heap = s.heap := rfl
@[simp] theorem State.setGiven_devFl (g : List Segment) : (s.setGiven g).devFl = s.devFl := rfl
@[simp] theorem State.setGiven_devIq (g : List Segment) : (s.setGiven g).devIq = s.devIq := rfl
@[simp] theorem State.setGiven_devEq (g : List Segment) : (s.setGiven g).devEq = s.devEq := rfl
@[simp] theorem State.setGiven_port (g : List Segment) : (s.setGiven g).port = s.port := rfl
@[simp] theorem State.setGiven_env (g : List Segment) : (s.setGiven g).env = s.env := rfl
@[simp] theorem State.setGiven_held (g : List Segment) : (s.setGiven g).held = s.held := rfl
@[simp] theorem State.setGiven_given (g : List Segment) : (s.setGiven g).given = g := rfl
@[simp] theorem State.setGiven_ret (g : List Segment) : (s.setGiven g).ret = s.ret := rfl
@[simp] theorem State.setGiven_raised (g : List Segment) : (s.setGiven g).raised = s.raised := rfl

/-! ### `State.setPort` -/

@[simp] theorem State.setPort_cfg (p : List Words) : (s.setPort p).cfg = s.cfg := rfl
@[simp] theorem State.setPort_iq (p : List Words) : (s.setPort p).iq = s.iq := rfl
@[simp] theorem State.setPort_eq (p : List Words) : (s.setPort p).eq = s.eq := rfl
@[simp] theorem State.setPort_arena (p : List Words) : (s.setPort p).arena = s.arena := rfl
@[simp] theorem State.setPort_starving (p : List Words) : (s.setPort p).starving = s.starving := rfl
@[simp] theorem State.setPort_stalled (p : List Words) : (s.setPort p).stalled = s.stalled := rfl
@[simp] theorem State.setPort_worklist (p : List Words) : (s.setPort p).worklist = s.worklist := rfl
@[simp] theorem State.setPort_panic (p : List Words) : (s.setPort p).panic = s.panic := rfl
@[simp] theorem State.setPort_out (p : List Words) : (s.setPort p).out = s.out := rfl
@[simp] theorem State.setPort_ring (p : List Words) : (s.setPort p).ring = s.ring := rfl
@[simp] theorem State.setPort_buf (p : List Words) : (s.setPort p).buf = s.buf := rfl
@[simp] theorem State.setPort_mmio (p : List Words) : (s.setPort p).mmio = s.mmio := rfl
@[simp] theorem State.setPort_heap (p : List Words) : (s.setPort p).heap = s.heap := rfl
@[simp] theorem State.setPort_devFl (p : List Words) : (s.setPort p).devFl = s.devFl := rfl
@[simp] theorem State.setPort_devIq (p : List Words) : (s.setPort p).devIq = s.devIq := rfl
@[simp] theorem State.setPort_devEq (p : List Words) : (s.setPort p).devEq = s.devEq := rfl
@[simp] theorem State.setPort_port (p : List Words) : (s.setPort p).port = p := rfl
@[simp] theorem State.setPort_env (p : List Words) : (s.setPort p).env = s.env := rfl
@[simp] theorem State.setPort_held (p : List Words) : (s.setPort p).held = s.held := rfl
@[simp] theorem State.setPort_given (p : List Words) : (s.setPort p).given = s.given := rfl
@[simp] theorem State.setPort_ret (p : List Words) : (s.setPort p).ret = s.ret := rfl
@[simp] theorem State.setPort_raised (p : List Words) : (s.setPort p).raised = s.raised := rfl

/-! ### `State.logMmio` -/

@[simp] theorem State.logMmio_cfg (w : MmioWrite) : (s.logMmio w).cfg = s.cfg := rfl
@[simp] theorem State.logMmio_iq (w : MmioWrite) : (s.logMmio w).iq = s.iq := rfl
@[simp] theorem State.logMmio_eq (w : MmioWrite) : (s.logMmio w).eq = s.eq := rfl
@[simp] theorem State.logMmio_arena (w : MmioWrite) : (s.logMmio w).arena = s.arena := rfl
@[simp] theorem State.logMmio_starving (w : MmioWrite) : (s.logMmio w).starving = s.starving := rfl
@[simp] theorem State.logMmio_stalled (w : MmioWrite) : (s.logMmio w).stalled = s.stalled := rfl
@[simp] theorem State.logMmio_worklist (w : MmioWrite) : (s.logMmio w).worklist = s.worklist := rfl
@[simp] theorem State.logMmio_panic (w : MmioWrite) : (s.logMmio w).panic = s.panic := rfl
@[simp] theorem State.logMmio_out (w : MmioWrite) : (s.logMmio w).out = s.out := rfl
@[simp] theorem State.logMmio_ring (w : MmioWrite) : (s.logMmio w).ring = s.ring := rfl
@[simp] theorem State.logMmio_buf (w : MmioWrite) : (s.logMmio w).buf = s.buf := rfl
@[simp] theorem State.logMmio_mmio (w : MmioWrite) : (s.logMmio w).mmio = s.mmio ++ [w] := rfl
@[simp] theorem State.logMmio_heap (w : MmioWrite) : (s.logMmio w).heap = s.heap := rfl
@[simp] theorem State.logMmio_devFl (w : MmioWrite) : (s.logMmio w).devFl = s.devFl := rfl
@[simp] theorem State.logMmio_devIq (w : MmioWrite) : (s.logMmio w).devIq = s.devIq := rfl
@[simp] theorem State.logMmio_devEq (w : MmioWrite) : (s.logMmio w).devEq = s.devEq := rfl
@[simp] theorem State.logMmio_port (w : MmioWrite) : (s.logMmio w).port = s.port := rfl
@[simp] theorem State.logMmio_env (w : MmioWrite) : (s.logMmio w).env = s.env := rfl
@[simp] theorem State.logMmio_held (w : MmioWrite) : (s.logMmio w).held = s.held := rfl
@[simp] theorem State.logMmio_given (w : MmioWrite) : (s.logMmio w).given = s.given := rfl
@[simp] theorem State.logMmio_ret (w : MmioWrite) : (s.logMmio w).ret = s.ret := rfl
@[simp] theorem State.logMmio_raised (w : MmioWrite) : (s.logMmio w).raised = s.raised := rfl

/-! ### `State.emit` -/

@[simp] theorem State.emit_cfg (e : Event) : (s.emit e).cfg = s.cfg := rfl
@[simp] theorem State.emit_iq (e : Event) : (s.emit e).iq = s.iq := rfl
@[simp] theorem State.emit_eq (e : Event) : (s.emit e).eq = s.eq := rfl
@[simp] theorem State.emit_arena (e : Event) : (s.emit e).arena = s.arena := rfl
@[simp] theorem State.emit_starving (e : Event) : (s.emit e).starving = s.starving := rfl
@[simp] theorem State.emit_stalled (e : Event) : (s.emit e).stalled = s.stalled := rfl
@[simp] theorem State.emit_worklist (e : Event) : (s.emit e).worklist = s.worklist := rfl
@[simp] theorem State.emit_panic (e : Event) : (s.emit e).panic = s.panic := rfl
@[simp] theorem State.emit_out (e : Event) : (s.emit e).out = s.out ++ [e] := rfl
@[simp] theorem State.emit_ring (e : Event) : (s.emit e).ring = s.ring := rfl
@[simp] theorem State.emit_buf (e : Event) : (s.emit e).buf = s.buf := rfl
@[simp] theorem State.emit_mmio (e : Event) : (s.emit e).mmio = s.mmio := rfl
@[simp] theorem State.emit_heap (e : Event) : (s.emit e).heap = s.heap := rfl
@[simp] theorem State.emit_devFl (e : Event) : (s.emit e).devFl = s.devFl := rfl
@[simp] theorem State.emit_devIq (e : Event) : (s.emit e).devIq = s.devIq := rfl
@[simp] theorem State.emit_devEq (e : Event) : (s.emit e).devEq = s.devEq := rfl
@[simp] theorem State.emit_port (e : Event) : (s.emit e).port = s.port := rfl
@[simp] theorem State.emit_env (e : Event) : (s.emit e).env = s.env := rfl
@[simp] theorem State.emit_held (e : Event) : (s.emit e).held = s.held := rfl
@[simp] theorem State.emit_given (e : Event) : (s.emit e).given = s.given := rfl
@[simp] theorem State.emit_ret (e : Event) : (s.emit e).ret = s.ret := rfl
@[simp] theorem State.emit_raised (e : Event) : (s.emit e).raised = s.raised := rfl

/-! ### `State.raise` -/

@[simp] theorem State.raise_cfg (e : Exc) : (s.raise e).cfg = s.cfg := rfl
@[simp] theorem State.raise_iq (e : Exc) : (s.raise e).iq = s.iq := rfl
@[simp] theorem State.raise_eq (e : Exc) : (s.raise e).eq = s.eq := rfl
@[simp] theorem State.raise_arena (e : Exc) : (s.raise e).arena = s.arena := rfl
@[simp] theorem State.raise_starving (e : Exc) : (s.raise e).starving = s.starving := rfl
@[simp] theorem State.raise_stalled (e : Exc) : (s.raise e).stalled = s.stalled := rfl
@[simp] theorem State.raise_worklist (e : Exc) : (s.raise e).worklist = s.worklist := rfl
@[simp] theorem State.raise_panic (e : Exc) : (s.raise e).panic = s.panic := rfl
@[simp] theorem State.raise_out (e : Exc) : (s.raise e).out = s.out := rfl
@[simp] theorem State.raise_ring (e : Exc) : (s.raise e).ring = s.ring := rfl
@[simp] theorem State.raise_buf (e : Exc) : (s.raise e).buf = s.buf := rfl
@[simp] theorem State.raise_mmio (e : Exc) : (s.raise e).mmio = s.mmio := rfl
@[simp] theorem State.raise_heap (e : Exc) : (s.raise e).heap = s.heap := rfl
@[simp] theorem State.raise_devFl (e : Exc) : (s.raise e).devFl = s.devFl := rfl
@[simp] theorem State.raise_devIq (e : Exc) : (s.raise e).devIq = s.devIq := rfl
@[simp] theorem State.raise_devEq (e : Exc) : (s.raise e).devEq = s.devEq := rfl
@[simp] theorem State.raise_port (e : Exc) : (s.raise e).port = s.port := rfl
@[simp] theorem State.raise_env (e : Exc) : (s.raise e).env = s.env := rfl
@[simp] theorem State.raise_held (e : Exc) : (s.raise e).held = s.held := rfl
@[simp] theorem State.raise_given (e : Exc) : (s.raise e).given = s.given := rfl
@[simp] theorem State.raise_ret (e : Exc) : (s.raise e).ret = s.ret := rfl
@[simp] theorem State.raise_raised (e : Exc) : (s.raise e).raised = s.raised ++ [e] := rfl

/-! ### `State.begin` -/

@[simp] theorem State.begin_cfg : s.begin.cfg = s.cfg := rfl
@[simp] theorem State.begin_iq : s.begin.iq = s.iq := rfl
@[simp] theorem State.begin_eq : s.begin.eq = s.eq := rfl
@[simp] theorem State.begin_arena : s.begin.arena = s.arena := rfl
@[simp] theorem State.begin_starving : s.begin.starving = s.starving := rfl
@[simp] theorem State.begin_stalled : s.begin.stalled = s.stalled := rfl
@[simp] theorem State.begin_worklist : s.begin.worklist = s.worklist := rfl
@[simp] theorem State.begin_panic : s.begin.panic = s.panic := rfl
@[simp] theorem State.begin_out : s.begin.out = s.out := rfl
@[simp] theorem State.begin_ring : s.begin.ring = s.ring := rfl
@[simp] theorem State.begin_buf : s.begin.buf = s.buf := rfl
@[simp] theorem State.begin_mmio : s.begin.mmio = s.mmio := rfl
@[simp] theorem State.begin_heap : s.begin.heap = s.heap := rfl
@[simp] theorem State.begin_devFl : s.begin.devFl = s.devFl := rfl
@[simp] theorem State.begin_devIq : s.begin.devIq = s.devIq := rfl
@[simp] theorem State.begin_devEq : s.begin.devEq = s.devEq := rfl
@[simp] theorem State.begin_port : s.begin.port = s.port := rfl
@[simp] theorem State.begin_env : s.begin.env = s.env := rfl
@[simp] theorem State.begin_held : s.begin.held = s.held := rfl
@[simp] theorem State.begin_given : s.begin.given = s.given := rfl
@[simp] theorem State.begin_ret : s.begin.ret = .none := rfl
@[simp] theorem State.begin_raised : s.begin.raised = [] := rfl

/-! ### `State.answer` -/

@[simp] theorem State.answer_cfg (r : Ret) : (s.answer r).cfg = s.cfg := rfl
@[simp] theorem State.answer_iq (r : Ret) : (s.answer r).iq = s.iq := rfl
@[simp] theorem State.answer_eq (r : Ret) : (s.answer r).eq = s.eq := rfl
@[simp] theorem State.answer_arena (r : Ret) : (s.answer r).arena = s.arena := rfl
@[simp] theorem State.answer_starving (r : Ret) : (s.answer r).starving = s.starving := rfl
@[simp] theorem State.answer_stalled (r : Ret) : (s.answer r).stalled = s.stalled := rfl
@[simp] theorem State.answer_worklist (r : Ret) : (s.answer r).worklist = s.worklist := rfl
@[simp] theorem State.answer_panic (r : Ret) : (s.answer r).panic = s.panic := rfl
@[simp] theorem State.answer_out (r : Ret) : (s.answer r).out = s.out := rfl
@[simp] theorem State.answer_ring (r : Ret) : (s.answer r).ring = s.ring := rfl
@[simp] theorem State.answer_buf (r : Ret) : (s.answer r).buf = s.buf := rfl
@[simp] theorem State.answer_mmio (r : Ret) : (s.answer r).mmio = s.mmio := rfl
@[simp] theorem State.answer_heap (r : Ret) : (s.answer r).heap = s.heap := rfl
@[simp] theorem State.answer_devFl (r : Ret) : (s.answer r).devFl = s.devFl := rfl
@[simp] theorem State.answer_devIq (r : Ret) : (s.answer r).devIq = s.devIq := rfl
@[simp] theorem State.answer_devEq (r : Ret) : (s.answer r).devEq = s.devEq := rfl
@[simp] theorem State.answer_port (r : Ret) : (s.answer r).port = s.port := rfl
@[simp] theorem State.answer_env (r : Ret) : (s.answer r).env = s.env := rfl
@[simp] theorem State.answer_held (r : Ret) : (s.answer r).held = s.held := rfl
@[simp] theorem State.answer_given (r : Ret) : (s.answer r).given = s.given := rfl
@[simp] theorem State.answer_ret (r : Ret) : (s.answer r).ret = r := rfl
@[simp] theorem State.answer_raised (r : Ret) : (s.answer r).raised = s.raised := rfl

/-! ### Lookups after an update -/

@[simp] theorem State.setEq_iqAt (i : Nat) (q : EgressQueue) (j : Nat) : (s.setEq i q).iqAt j = s.iqAt j := rfl
@[simp] theorem State.setDevFl_iqAt (i : Nat) (d : DevFl) (j : Nat) : (s.setDevFl i d).iqAt j = s.iqAt j := rfl
@[simp] theorem State.setDevIq_iqAt (i : Nat) (d : DevIq) (j : Nat) : (s.setDevIq i d).iqAt j = s.iqAt j := rfl
@[simp] theorem State.setDevEq_iqAt (i : Nat) (d : DevEq) (j : Nat) : (s.setDevEq i d).iqAt j = s.iqAt j := rfl
@[simp] theorem State.setArena_iqAt (a : List Buffer) (j : Nat) : (s.setArena a).iqAt j = s.iqAt j := rfl
@[simp] theorem State.setStarving_iqAt (l : List Nat) (j : Nat) : (s.setStarving l).iqAt j = s.iqAt j := rfl
@[simp] theorem State.setStalled_iqAt (l : List Nat) (j : Nat) : (s.setStalled l).iqAt j = s.iqAt j := rfl
@[simp] theorem State.setWorklist_iqAt (l : List Nat) (j : Nat) : (s.setWorklist l).iqAt j = s.iqAt j := rfl
@[simp] theorem State.setRing_iqAt (m : Memory) (j : Nat) : (s.setRing m).iqAt j = s.iqAt j := rfl
@[simp] theorem State.setBuf_iqAt (m : Memory) (j : Nat) : (s.setBuf m).iqAt j = s.iqAt j := rfl
@[simp] theorem State.setHeap_iqAt (h : List HeapObject) (j : Nat) : (s.setHeap h).iqAt j = s.iqAt j := rfl
@[simp] theorem State.setEnv_iqAt (e : Oracles) (j : Nat) : (s.setEnv e).iqAt j = s.iqAt j := rfl
@[simp] theorem State.setHeld_iqAt (h : List Segment) (j : Nat) : (s.setHeld h).iqAt j = s.iqAt j := rfl
@[simp] theorem State.setGiven_iqAt (g : List Segment) (j : Nat) : (s.setGiven g).iqAt j = s.iqAt j := rfl
@[simp] theorem State.setPort_iqAt (p : List Words) (j : Nat) : (s.setPort p).iqAt j = s.iqAt j := rfl
@[simp] theorem State.logMmio_iqAt (w : MmioWrite) (j : Nat) : (s.logMmio w).iqAt j = s.iqAt j := rfl
@[simp] theorem State.emit_iqAt (e : Event) (j : Nat) : (s.emit e).iqAt j = s.iqAt j := rfl
@[simp] theorem State.raise_iqAt (e : Exc) (j : Nat) : (s.raise e).iqAt j = s.iqAt j := rfl
@[simp] theorem State.begin_iqAt (j : Nat) : s.begin.iqAt j = s.iqAt j := rfl
@[simp] theorem State.answer_iqAt (r : Ret) (j : Nat) : (s.answer r).iqAt j = s.iqAt j := rfl
@[simp] theorem State.setIq_eqAt (i : Nat) (q : IngressQueue) (j : Nat) : (s.setIq i q).eqAt j = s.eqAt j := rfl
@[simp] theorem State.setDevFl_eqAt (i : Nat) (d : DevFl) (j : Nat) : (s.setDevFl i d).eqAt j = s.eqAt j := rfl
@[simp] theorem State.setDevIq_eqAt (i : Nat) (d : DevIq) (j : Nat) : (s.setDevIq i d).eqAt j = s.eqAt j := rfl
@[simp] theorem State.setDevEq_eqAt (i : Nat) (d : DevEq) (j : Nat) : (s.setDevEq i d).eqAt j = s.eqAt j := rfl
@[simp] theorem State.setArena_eqAt (a : List Buffer) (j : Nat) : (s.setArena a).eqAt j = s.eqAt j := rfl
@[simp] theorem State.setStarving_eqAt (l : List Nat) (j : Nat) : (s.setStarving l).eqAt j = s.eqAt j := rfl
@[simp] theorem State.setStalled_eqAt (l : List Nat) (j : Nat) : (s.setStalled l).eqAt j = s.eqAt j := rfl
@[simp] theorem State.setWorklist_eqAt (l : List Nat) (j : Nat) : (s.setWorklist l).eqAt j = s.eqAt j := rfl
@[simp] theorem State.setRing_eqAt (m : Memory) (j : Nat) : (s.setRing m).eqAt j = s.eqAt j := rfl
@[simp] theorem State.setBuf_eqAt (m : Memory) (j : Nat) : (s.setBuf m).eqAt j = s.eqAt j := rfl
@[simp] theorem State.setHeap_eqAt (h : List HeapObject) (j : Nat) : (s.setHeap h).eqAt j = s.eqAt j := rfl
@[simp] theorem State.setEnv_eqAt (e : Oracles) (j : Nat) : (s.setEnv e).eqAt j = s.eqAt j := rfl
@[simp] theorem State.setHeld_eqAt (h : List Segment) (j : Nat) : (s.setHeld h).eqAt j = s.eqAt j := rfl
@[simp] theorem State.setGiven_eqAt (g : List Segment) (j : Nat) : (s.setGiven g).eqAt j = s.eqAt j := rfl
@[simp] theorem State.setPort_eqAt (p : List Words) (j : Nat) : (s.setPort p).eqAt j = s.eqAt j := rfl
@[simp] theorem State.logMmio_eqAt (w : MmioWrite) (j : Nat) : (s.logMmio w).eqAt j = s.eqAt j := rfl
@[simp] theorem State.emit_eqAt (e : Event) (j : Nat) : (s.emit e).eqAt j = s.eqAt j := rfl
@[simp] theorem State.raise_eqAt (e : Exc) (j : Nat) : (s.raise e).eqAt j = s.eqAt j := rfl
@[simp] theorem State.begin_eqAt (j : Nat) : s.begin.eqAt j = s.eqAt j := rfl
@[simp] theorem State.answer_eqAt (r : Ret) (j : Nat) : (s.answer r).eqAt j = s.eqAt j := rfl
@[simp] theorem State.setEq_flAt (i : Nat) (q : EgressQueue) (j : Nat) : (s.setEq i q).flAt j = s.flAt j := rfl
@[simp] theorem State.setDevFl_flAt (i : Nat) (d : DevFl) (j : Nat) : (s.setDevFl i d).flAt j = s.flAt j := rfl
@[simp] theorem State.setDevIq_flAt (i : Nat) (d : DevIq) (j : Nat) : (s.setDevIq i d).flAt j = s.flAt j := rfl
@[simp] theorem State.setDevEq_flAt (i : Nat) (d : DevEq) (j : Nat) : (s.setDevEq i d).flAt j = s.flAt j := rfl
@[simp] theorem State.setArena_flAt (a : List Buffer) (j : Nat) : (s.setArena a).flAt j = s.flAt j := rfl
@[simp] theorem State.setStarving_flAt (l : List Nat) (j : Nat) : (s.setStarving l).flAt j = s.flAt j := rfl
@[simp] theorem State.setStalled_flAt (l : List Nat) (j : Nat) : (s.setStalled l).flAt j = s.flAt j := rfl
@[simp] theorem State.setWorklist_flAt (l : List Nat) (j : Nat) : (s.setWorklist l).flAt j = s.flAt j := rfl
@[simp] theorem State.setRing_flAt (m : Memory) (j : Nat) : (s.setRing m).flAt j = s.flAt j := rfl
@[simp] theorem State.setBuf_flAt (m : Memory) (j : Nat) : (s.setBuf m).flAt j = s.flAt j := rfl
@[simp] theorem State.setHeap_flAt (h : List HeapObject) (j : Nat) : (s.setHeap h).flAt j = s.flAt j := rfl
@[simp] theorem State.setEnv_flAt (e : Oracles) (j : Nat) : (s.setEnv e).flAt j = s.flAt j := rfl
@[simp] theorem State.setHeld_flAt (h : List Segment) (j : Nat) : (s.setHeld h).flAt j = s.flAt j := rfl
@[simp] theorem State.setGiven_flAt (g : List Segment) (j : Nat) : (s.setGiven g).flAt j = s.flAt j := rfl
@[simp] theorem State.setPort_flAt (p : List Words) (j : Nat) : (s.setPort p).flAt j = s.flAt j := rfl
@[simp] theorem State.logMmio_flAt (w : MmioWrite) (j : Nat) : (s.logMmio w).flAt j = s.flAt j := rfl
@[simp] theorem State.emit_flAt (e : Event) (j : Nat) : (s.emit e).flAt j = s.flAt j := rfl
@[simp] theorem State.raise_flAt (e : Exc) (j : Nat) : (s.raise e).flAt j = s.flAt j := rfl
@[simp] theorem State.begin_flAt (j : Nat) : s.begin.flAt j = s.flAt j := rfl
@[simp] theorem State.answer_flAt (r : Ret) (j : Nat) : (s.answer r).flAt j = s.flAt j := rfl
@[simp] theorem State.setIq_devFlAt (i : Nat) (q : IngressQueue) (j : Nat) : (s.setIq i q).devFlAt j = s.devFlAt j := rfl
@[simp] theorem State.setEq_devFlAt (i : Nat) (q : EgressQueue) (j : Nat) : (s.setEq i q).devFlAt j = s.devFlAt j := rfl
@[simp] theorem State.setDevIq_devFlAt (i : Nat) (d : DevIq) (j : Nat) : (s.setDevIq i d).devFlAt j = s.devFlAt j := rfl
@[simp] theorem State.setDevEq_devFlAt (i : Nat) (d : DevEq) (j : Nat) : (s.setDevEq i d).devFlAt j = s.devFlAt j := rfl
@[simp] theorem State.setArena_devFlAt (a : List Buffer) (j : Nat) : (s.setArena a).devFlAt j = s.devFlAt j := rfl
@[simp] theorem State.setStarving_devFlAt (l : List Nat) (j : Nat) : (s.setStarving l).devFlAt j = s.devFlAt j := rfl
@[simp] theorem State.setStalled_devFlAt (l : List Nat) (j : Nat) : (s.setStalled l).devFlAt j = s.devFlAt j := rfl
@[simp] theorem State.setWorklist_devFlAt (l : List Nat) (j : Nat) : (s.setWorklist l).devFlAt j = s.devFlAt j := rfl
@[simp] theorem State.setRing_devFlAt (m : Memory) (j : Nat) : (s.setRing m).devFlAt j = s.devFlAt j := rfl
@[simp] theorem State.setBuf_devFlAt (m : Memory) (j : Nat) : (s.setBuf m).devFlAt j = s.devFlAt j := rfl
@[simp] theorem State.setHeap_devFlAt (h : List HeapObject) (j : Nat) : (s.setHeap h).devFlAt j = s.devFlAt j := rfl
@[simp] theorem State.setEnv_devFlAt (e : Oracles) (j : Nat) : (s.setEnv e).devFlAt j = s.devFlAt j := rfl
@[simp] theorem State.setHeld_devFlAt (h : List Segment) (j : Nat) : (s.setHeld h).devFlAt j = s.devFlAt j := rfl
@[simp] theorem State.setGiven_devFlAt (g : List Segment) (j : Nat) : (s.setGiven g).devFlAt j = s.devFlAt j := rfl
@[simp] theorem State.setPort_devFlAt (p : List Words) (j : Nat) : (s.setPort p).devFlAt j = s.devFlAt j := rfl
@[simp] theorem State.logMmio_devFlAt (w : MmioWrite) (j : Nat) : (s.logMmio w).devFlAt j = s.devFlAt j := rfl
@[simp] theorem State.emit_devFlAt (e : Event) (j : Nat) : (s.emit e).devFlAt j = s.devFlAt j := rfl
@[simp] theorem State.raise_devFlAt (e : Exc) (j : Nat) : (s.raise e).devFlAt j = s.devFlAt j := rfl
@[simp] theorem State.begin_devFlAt (j : Nat) : s.begin.devFlAt j = s.devFlAt j := rfl
@[simp] theorem State.answer_devFlAt (r : Ret) (j : Nat) : (s.answer r).devFlAt j = s.devFlAt j := rfl
@[simp] theorem State.setIq_devIqAt (i : Nat) (q : IngressQueue) (j : Nat) : (s.setIq i q).devIqAt j = s.devIqAt j := rfl
@[simp] theorem State.setEq_devIqAt (i : Nat) (q : EgressQueue) (j : Nat) : (s.setEq i q).devIqAt j = s.devIqAt j := rfl
@[simp] theorem State.setDevFl_devIqAt (i : Nat) (d : DevFl) (j : Nat) : (s.setDevFl i d).devIqAt j = s.devIqAt j := rfl
@[simp] theorem State.setDevEq_devIqAt (i : Nat) (d : DevEq) (j : Nat) : (s.setDevEq i d).devIqAt j = s.devIqAt j := rfl
@[simp] theorem State.setArena_devIqAt (a : List Buffer) (j : Nat) : (s.setArena a).devIqAt j = s.devIqAt j := rfl
@[simp] theorem State.setStarving_devIqAt (l : List Nat) (j : Nat) : (s.setStarving l).devIqAt j = s.devIqAt j := rfl
@[simp] theorem State.setStalled_devIqAt (l : List Nat) (j : Nat) : (s.setStalled l).devIqAt j = s.devIqAt j := rfl
@[simp] theorem State.setWorklist_devIqAt (l : List Nat) (j : Nat) : (s.setWorklist l).devIqAt j = s.devIqAt j := rfl
@[simp] theorem State.setRing_devIqAt (m : Memory) (j : Nat) : (s.setRing m).devIqAt j = s.devIqAt j := rfl
@[simp] theorem State.setBuf_devIqAt (m : Memory) (j : Nat) : (s.setBuf m).devIqAt j = s.devIqAt j := rfl
@[simp] theorem State.setHeap_devIqAt (h : List HeapObject) (j : Nat) : (s.setHeap h).devIqAt j = s.devIqAt j := rfl
@[simp] theorem State.setEnv_devIqAt (e : Oracles) (j : Nat) : (s.setEnv e).devIqAt j = s.devIqAt j := rfl
@[simp] theorem State.setHeld_devIqAt (h : List Segment) (j : Nat) : (s.setHeld h).devIqAt j = s.devIqAt j := rfl
@[simp] theorem State.setGiven_devIqAt (g : List Segment) (j : Nat) : (s.setGiven g).devIqAt j = s.devIqAt j := rfl
@[simp] theorem State.setPort_devIqAt (p : List Words) (j : Nat) : (s.setPort p).devIqAt j = s.devIqAt j := rfl
@[simp] theorem State.logMmio_devIqAt (w : MmioWrite) (j : Nat) : (s.logMmio w).devIqAt j = s.devIqAt j := rfl
@[simp] theorem State.emit_devIqAt (e : Event) (j : Nat) : (s.emit e).devIqAt j = s.devIqAt j := rfl
@[simp] theorem State.raise_devIqAt (e : Exc) (j : Nat) : (s.raise e).devIqAt j = s.devIqAt j := rfl
@[simp] theorem State.begin_devIqAt (j : Nat) : s.begin.devIqAt j = s.devIqAt j := rfl
@[simp] theorem State.answer_devIqAt (r : Ret) (j : Nat) : (s.answer r).devIqAt j = s.devIqAt j := rfl
@[simp] theorem State.setIq_devEqAt (i : Nat) (q : IngressQueue) (j : Nat) : (s.setIq i q).devEqAt j = s.devEqAt j := rfl
@[simp] theorem State.setEq_devEqAt (i : Nat) (q : EgressQueue) (j : Nat) : (s.setEq i q).devEqAt j = s.devEqAt j := rfl
@[simp] theorem State.setDevFl_devEqAt (i : Nat) (d : DevFl) (j : Nat) : (s.setDevFl i d).devEqAt j = s.devEqAt j := rfl
@[simp] theorem State.setDevIq_devEqAt (i : Nat) (d : DevIq) (j : Nat) : (s.setDevIq i d).devEqAt j = s.devEqAt j := rfl
@[simp] theorem State.setArena_devEqAt (a : List Buffer) (j : Nat) : (s.setArena a).devEqAt j = s.devEqAt j := rfl
@[simp] theorem State.setStarving_devEqAt (l : List Nat) (j : Nat) : (s.setStarving l).devEqAt j = s.devEqAt j := rfl
@[simp] theorem State.setStalled_devEqAt (l : List Nat) (j : Nat) : (s.setStalled l).devEqAt j = s.devEqAt j := rfl
@[simp] theorem State.setWorklist_devEqAt (l : List Nat) (j : Nat) : (s.setWorklist l).devEqAt j = s.devEqAt j := rfl
@[simp] theorem State.setRing_devEqAt (m : Memory) (j : Nat) : (s.setRing m).devEqAt j = s.devEqAt j := rfl
@[simp] theorem State.setBuf_devEqAt (m : Memory) (j : Nat) : (s.setBuf m).devEqAt j = s.devEqAt j := rfl
@[simp] theorem State.setHeap_devEqAt (h : List HeapObject) (j : Nat) : (s.setHeap h).devEqAt j = s.devEqAt j := rfl
@[simp] theorem State.setEnv_devEqAt (e : Oracles) (j : Nat) : (s.setEnv e).devEqAt j = s.devEqAt j := rfl
@[simp] theorem State.setHeld_devEqAt (h : List Segment) (j : Nat) : (s.setHeld h).devEqAt j = s.devEqAt j := rfl
@[simp] theorem State.setGiven_devEqAt (g : List Segment) (j : Nat) : (s.setGiven g).devEqAt j = s.devEqAt j := rfl
@[simp] theorem State.setPort_devEqAt (p : List Words) (j : Nat) : (s.setPort p).devEqAt j = s.devEqAt j := rfl
@[simp] theorem State.logMmio_devEqAt (w : MmioWrite) (j : Nat) : (s.logMmio w).devEqAt j = s.devEqAt j := rfl
@[simp] theorem State.emit_devEqAt (e : Event) (j : Nat) : (s.emit e).devEqAt j = s.devEqAt j := rfl
@[simp] theorem State.raise_devEqAt (e : Exc) (j : Nat) : (s.raise e).devEqAt j = s.devEqAt j := rfl
@[simp] theorem State.begin_devEqAt (j : Nat) : s.begin.devEqAt j = s.devEqAt j := rfl
@[simp] theorem State.answer_devEqAt (r : Ret) (j : Nat) : (s.answer r).devEqAt j = s.devEqAt j := rfl

theorem State.setIq_iqAt (i : Nat) (q : IngressQueue) (j : Nat) :
    (s.setIq i q).iqAt j = if i = j ∧ i < s.iq.length then some q else s.iqAt j := by
  simp only [State.iqAt, State.setIq_iq, List.getElem?_set]
  split <;> rename_i h <;> [skip; simp [h]]
  subst h; split <;> simp_all

theorem State.iqAt_lt (i : Nat) (q : IngressQueue) (h : s.iqAt i = some q) : i < s.iq.length := by
  simp only [State.iqAt] at h
  by_contra hc
  rw [List.getElem?_eq_none (by omega)] at h
  simp at h

theorem State.setIq_iqAt_same (i : Nat) (q w : IngressQueue) (h : s.iqAt i = some w) : (s.setIq i q).iqAt i = some q := by
  rw [State.setIq_iqAt]; simp [State.iqAt_lt s i w h]

theorem State.setIq_iqAt_other (i j : Nat) (q : IngressQueue) (h : i ≠ j) : (s.setIq i q).iqAt j = s.iqAt j := by
  rw [State.setIq_iqAt]; simp [h]

theorem State.setEq_eqAt (i : Nat) (q : EgressQueue) (j : Nat) :
    (s.setEq i q).eqAt j = if i = j ∧ i < s.eq.length then some q else s.eqAt j := by
  simp only [State.eqAt, State.setEq_eq, List.getElem?_set]
  split <;> rename_i h <;> [skip; simp [h]]
  subst h; split <;> simp_all

theorem State.eqAt_lt (i : Nat) (q : EgressQueue) (h : s.eqAt i = some q) : i < s.eq.length := by
  simp only [State.eqAt] at h
  by_contra hc
  rw [List.getElem?_eq_none (by omega)] at h
  simp at h

theorem State.setEq_eqAt_same (i : Nat) (q w : EgressQueue) (h : s.eqAt i = some w) : (s.setEq i q).eqAt i = some q := by
  rw [State.setEq_eqAt]; simp [State.eqAt_lt s i w h]

theorem State.setEq_eqAt_other (i j : Nat) (q : EgressQueue) (h : i ≠ j) : (s.setEq i q).eqAt j = s.eqAt j := by
  rw [State.setEq_eqAt]; simp [h]

theorem State.setDevFl_devFlAt (i : Nat) (d : DevFl) (j : Nat) :
    (s.setDevFl i d).devFlAt j = if i = j ∧ i < s.devFl.length then some d else s.devFlAt j := by
  simp only [State.devFlAt, State.setDevFl_devFl, List.getElem?_set]
  split <;> rename_i h <;> [skip; simp [h]]
  subst h; split <;> simp_all

theorem State.devFlAt_lt (i : Nat) (d : DevFl) (h : s.devFlAt i = some d) : i < s.devFl.length := by
  simp only [State.devFlAt] at h
  by_contra hc
  rw [List.getElem?_eq_none (by omega)] at h
  simp at h

theorem State.setDevFl_devFlAt_same (i : Nat) (d w : DevFl) (h : s.devFlAt i = some w) : (s.setDevFl i d).devFlAt i = some d := by
  rw [State.setDevFl_devFlAt]; simp [State.devFlAt_lt s i w h]

theorem State.setDevFl_devFlAt_other (i j : Nat) (d : DevFl) (h : i ≠ j) : (s.setDevFl i d).devFlAt j = s.devFlAt j := by
  rw [State.setDevFl_devFlAt]; simp [h]

theorem State.setDevIq_devIqAt (i : Nat) (d : DevIq) (j : Nat) :
    (s.setDevIq i d).devIqAt j = if i = j ∧ i < s.devIq.length then some d else s.devIqAt j := by
  simp only [State.devIqAt, State.setDevIq_devIq, List.getElem?_set]
  split <;> rename_i h <;> [skip; simp [h]]
  subst h; split <;> simp_all

theorem State.devIqAt_lt (i : Nat) (d : DevIq) (h : s.devIqAt i = some d) : i < s.devIq.length := by
  simp only [State.devIqAt] at h
  by_contra hc
  rw [List.getElem?_eq_none (by omega)] at h
  simp at h

theorem State.setDevIq_devIqAt_same (i : Nat) (d w : DevIq) (h : s.devIqAt i = some w) : (s.setDevIq i d).devIqAt i = some d := by
  rw [State.setDevIq_devIqAt]; simp [State.devIqAt_lt s i w h]

theorem State.setDevIq_devIqAt_other (i j : Nat) (d : DevIq) (h : i ≠ j) : (s.setDevIq i d).devIqAt j = s.devIqAt j := by
  rw [State.setDevIq_devIqAt]; simp [h]

theorem State.setDevEq_devEqAt (i : Nat) (d : DevEq) (j : Nat) :
    (s.setDevEq i d).devEqAt j = if i = j ∧ i < s.devEq.length then some d else s.devEqAt j := by
  simp only [State.devEqAt, State.setDevEq_devEq, List.getElem?_set]
  split <;> rename_i h <;> [skip; simp [h]]
  subst h; split <;> simp_all

theorem State.devEqAt_lt (i : Nat) (d : DevEq) (h : s.devEqAt i = some d) : i < s.devEq.length := by
  simp only [State.devEqAt] at h
  by_contra hc
  rw [List.getElem?_eq_none (by omega)] at h
  simp at h

theorem State.setDevEq_devEqAt_same (i : Nat) (d w : DevEq) (h : s.devEqAt i = some w) : (s.setDevEq i d).devEqAt i = some d := by
  rw [State.setDevEq_devEqAt]; simp [State.devEqAt_lt s i w h]

theorem State.setDevEq_devEqAt_other (i j : Nat) (d : DevEq) (h : i ≠ j) : (s.setDevEq i d).devEqAt j = s.devEqAt j := by
  rw [State.setDevEq_devEqAt]; simp [h]

theorem State.flAt_eq (i : Nat) : s.flAt i = (s.iqAt i).bind (·.fl) := rfl

end Sys2Proof.Machine
end

