-- ==== Sys2Proof/Laws/Ops.lean ====
section
/-! SUPPORT. What the shared operations can do, said once for each: which fields of the state an operation may change
when it completes. Later proofs cite these and do not unfold the operations. -/

namespace Sys2Proof.Machine

/-! ## Answers -/

@[simp] theorem Res.bind_ok {α β : Type} (a : α) (f : α → Res β) : ((Except.ok a : Res α) >>= f) = f a := rfl

@[simp] theorem Res.bind_error {α β : Type} (e : Stop) (f : α → Res β) :
    ((Except.error e : Res α) >>= f) = .error e := rfl

@[simp] theorem Res.pure_eq {α : Type} (a : α) : (pure a : Res α) = .ok a := rfl

/-- An operation in two parts completes exactly when both complete. -/
theorem Res.bind_eq_ok {α β : Type} {x : Res α} {f : α → Res β} {b : β} :
    x >>= f = .ok b ↔ ∃ a, x = .ok a ∧ f a = .ok b := by
  cases x with
  | error e => simp
  | ok a => simp

@[simp] theorem refuseDoomed_ne {α : Type} (a : α) : (refuseDoomed : Res α) ≠ .ok a := by simp [refuseDoomed]

@[simp] theorem refuseBadarg_ne {α : Type} (a : α) : (refuseBadarg : Res α) ≠ .ok a := by simp [refuseBadarg]

@[simp] theorem ringInvariant_ne {α : Type} (a : α) : (ringInvariant : Res α) ≠ .ok a := by simp [ringInvariant]

/-! ## Running a meaning -/

/-- A next state of a QE transition: its operation completed, or was refused, or panicked. -/
theorem runQe_next {s t : State} {body : State → Res (State × Ret)} (h : runQe s body = .next t) :
    s.panic = false ∧
      ((∃ u r, body s.begin = .ok (u, r) ∧ t = u.answer r) ∨ (∃ e, body s.begin = .error (.refuse e) ∧ t = takeRefusal s e) ∨
        (body s.begin = .error .panic ∧ t = takePanic s)) := by
  unfold runQe at h
  split at h
  · cases h
  · refine ⟨by simp_all, ?_⟩
    unfold conclude at h
    split at h
    · exact .inl ⟨_, _, by assumption, by cases h; rfl⟩
    · exact .inr (.inl ⟨_, by assumption, by cases h; rfl⟩)
    · exact .inr (.inr ⟨by assumption, by cases h; rfl⟩)
    · cases h

/-- A QE transition whose operation completes. -/
theorem runQe_ok {s u : State} {r : Ret} {body : State → Res (State × Ret)} (hp : s.panic = false)
    (h : body s.begin = .ok (u, r)) : runQe s body = .next (u.answer r) := by
  simp [runQe, hp, conclude, h]

/-- A QE transition whose operation is refused. -/
theorem runQe_refuse {s : State} {e : Exc} {body : State → Res (State × Ret)} (hp : s.panic = false)
    (h : body s.begin = .error (.refuse e)) : runQe s body = .next (takeRefusal s e) := by
  simp [runQe, hp, conclude, h]

/-- A QE transition whose operation panics. -/
theorem runQe_panic {s : State} {body : State → Res (State × Ret)} (hp : s.panic = false)
    (h : body s.begin = .error .panic) : runQe s body = .next (takePanic s) := by
  simp [runQe, hp, conclude, h]

/-- A next state of a device step: it was taken, or was not enabled, or its operation stopped. -/
theorem runDevice_next {s t : State} {body : State → Res (Option (State × Ret))} (h : runDevice s body = .next t) :
    (∃ u r, body s.begin = .ok (some (u, r)) ∧ t = u.answer r) ∨
      (body s.begin = .ok none ∧ t = s.begin.answer .notEnabled) ∨
      (∃ e, body s.begin = .error (.refuse e) ∧ t = takeRefusal s e) ∨
        (body s.begin = .error .panic ∧ t = takePanic s) := by
  unfold runDevice at h
  split at h
  · exact .inl ⟨_, _, by assumption, by cases h; rfl⟩
  · exact .inr (.inl ⟨by assumption, by cases h; rfl⟩)
  · exact .inr (.inr (.inl ⟨_, by assumption, by cases h; rfl⟩))
  · exact .inr (.inr (.inr ⟨by assumption, by cases h; rfl⟩))
  · cases h

/-- A device step that is taken. -/
theorem runDevice_ok {s u : State} {r : Ret} {body : State → Res (Option (State × Ret))}
    (h : body s.begin = .ok (some (u, r))) : runDevice s body = .next (u.answer r) := by
  simp [runDevice, h]

/-- What an operation on ingress queue `i` that completes has done. -/
theorem onIq_ok {s u : State} {i : Nat} {r : Ret} {f : IngressQueue → Res (IngressQueue × State × Ret)}
    (h : onIq s i f = .ok (u, r)) :
    ∃ q q' s', s.iqAt i = some q ∧ f q = .ok (q', s', r) ∧ u = s'.setIq i q' := by
  unfold onIq at h
  split at h
  · simp at h
  · obtain ⟨⟨q', s', r'⟩, h1, h2⟩ := Res.bind_eq_ok.mp h
    simp only [Res.pure_eq, Except.ok.injEq, Prod.mk.injEq] at h2
    obtain ⟨rfl, rfl⟩ := h2
    exact ⟨_, q', s', by assumption, h1, rfl⟩

/-- What an operation on egress queue `i` that completes has done. -/
theorem onEq_ok {s u : State} {i : Nat} {r : Ret} {f : EgressQueue → Res (EgressQueue × State × Ret)}
    (h : onEq s i f = .ok (u, r)) :
    ∃ q q' s', s.eqAt i = some q ∧ f q = .ok (q', s', r) ∧ u = s'.setEq i q' := by
  unfold onEq at h
  split at h
  · simp at h
  · obtain ⟨⟨q', s', r'⟩, h1, h2⟩ := Res.bind_eq_ok.mp h
    simp only [Res.pure_eq, Except.ok.injEq, Prod.mk.injEq] at h2
    obtain ⟨rfl, rfl⟩ := h2
    exact ⟨_, q', s', by assumption, h1, rfl⟩

/-- What an operation on the free list of ingress queue `i` that completes has done. -/
theorem onFl_ok {s u : State} {i : Nat} {r : Ret} {f : FreeList → Res (FreeList × State × Ret)}
    (h : onFl s i f = .ok (u, r)) :
    ∃ q fl fl' s', s.iqAt i = some q ∧ q.fl = some fl ∧ f fl = .ok (fl', s', r) ∧
      u = s'.setIq i { q with fl := some fl' } := by
  unfold onFl at h
  split at h
  · simp at h
  · split at h
    · simp at h
    · obtain ⟨⟨q', s', r'⟩, h1, h2⟩ := Res.bind_eq_ok.mp h
      simp only [Res.pure_eq, Except.ok.injEq, Prod.mk.injEq] at h2
      obtain ⟨rfl, rfl⟩ := h2
      exact ⟨_, _, q', s', by assumption, by assumption, h1, rfl⟩

theorem onIq_eq {s : State} {i : Nat} {q : IngressQueue} {f : IngressQueue → Res (IngressQueue × State × Ret)}
    (h : s.iqAt i = some q) : onIq s i f = (do let (q, s, r) ← f q; return (s.setIq i q, r)) := by
  simp only [onIq, h]

theorem onEq_eq {s : State} {i : Nat} {q : EgressQueue} {f : EgressQueue → Res (EgressQueue × State × Ret)}
    (h : s.eqAt i = some q) : onEq s i f = (do let (q, s, r) ← f q; return (s.setEq i q, r)) := by
  simp only [onEq, h]

theorem onFl_eq {s : State} {i : Nat} {q : IngressQueue} {fl : FreeList} {f : FreeList → Res (FreeList × State × Ret)}
    (h : s.iqAt i = some q) (hf : q.fl = some fl) :
    onFl s i f = (do let (fl, s, r) ← f fl; return (s.setIq i { q with fl := some fl }, r)) := by
  simp only [onFl, h, hf]

/-! ## Memory -/

theorem ringRead_ok {s : State} {a : Nat} {v : Flit} (h : ringRead s a = .ok v) :
    inSpace a 8 = true ∧ v = s.ring.flit a := by
  unfold ringRead at h; split at h
  · exact ⟨by assumption, by cases h; rfl⟩
  · cases h

theorem ringRead_eq {s : State} {a : Nat} (h : inSpace a 8 = true) : ringRead s a = .ok (s.ring.flit a) := by
  simp [ringRead, h]

theorem ringWrite_ok {s t : State} {a : Nat} {v : Flit} (h : ringWrite s a v = .ok t) :
    inSpace a 8 = true ∧ t = { s with ring := s.ring.putFlit a v } := by
  unfold ringWrite at h; split at h
  · exact ⟨by assumption, by cases h; rfl⟩
  · cases h

theorem ringWrite_eq {s : State} {a : Nat} {v : Flit} (h : inSpace a 8 = true) :
    ringWrite s a v = .ok { s with ring := s.ring.putFlit a v } := by
  simp [ringWrite, h, State.setRing]

theorem bufWrite_ok {s t : State} {a : Nat} {bs : List Byte} (h : bufWrite s a bs = .ok t) :
    inSpace a bs.length = true ∧ t = { s with buf := s.buf.putBytes a bs } := by
  unfold bufWrite at h; split at h
  · exact ⟨by assumption, by cases h; rfl⟩
  · cases h

/-- Consecutive flits written change ring space only. -/
theorem ringWriteAll_ok {fs : List Flit} {s t : State} {a : Nat} (h : ringWriteAll s a fs = .ok t) :
    ∃ m, t = { s with ring := m } ∧ (s.ring.wf → m.wf) := by
  induction fs generalizing s a with
  | nil => cases h; exact ⟨_, rfl, id⟩
  | cons v vs ih =>
    obtain ⟨u, h1, h2⟩ := Res.bind_eq_ok.mp h
    obtain ⟨_, rfl⟩ := ringWrite_ok h1
    obtain ⟨m, rfl, hm⟩ := ih h2
    exact ⟨m, rfl, fun hw => hm (Memory.putFlit_wf hw a v)⟩

/-- The flits of a request written change ring space only. -/
theorem writeFlits_ok {fs : List Flit} {q : EgressQueue} {st k : Nat} {s t : State}
    (h : writeFlits q st s k fs = .ok t) : ∃ m, t = { s with ring := m } ∧ (s.ring.wf → m.wf) := by
  induction fs generalizing s k with
  | nil => cases h; exact ⟨_, rfl, id⟩
  | cons v vs ih =>
    obtain ⟨u, h1, h2⟩ := Res.bind_eq_ok.mp h
    obtain ⟨_, rfl⟩ := ringWrite_ok h1
    obtain ⟨m, rfl, hm⟩ := ih h2
    exact ⟨m, rfl, fun hw => hm (Memory.putFlit_wf hw _ v)⟩

/-! ## The arena -/

/-- A reference given back changes the arena only. -/
theorem dropRef_ok {s t : State} {b : Buffer} (h : dropRef s b = .ok t) :
    b.refcount ≠ 0 ∧ ((b.refcount = 1 ∧ t = { s with arena := s.arena.filter (·.handle ≠ b.handle) }) ∨
      (b.refcount ≠ 1 ∧ t = s.addRef b (-1))) := by
  unfold dropRef at h
  split at h
  · simp at h
  · refine ⟨by assumption, ?_⟩
    split at h
    · exact .inl ⟨by assumption, by cases h; rfl⟩
    · exact .inr ⟨by assumption, by cases h; rfl⟩

theorem dropRef_arena {s t : State} {b : Buffer} (h : dropRef s b = .ok t) : ∃ a, t = { s with arena := a } := by
  rcases dropRef_ok h with ⟨_, ⟨_, rfl⟩ | ⟨_, rfl⟩⟩
  · exact ⟨_, rfl⟩
  · exact ⟨_, rfl⟩

/-! ## Oracles -/

/-- A buffer asked of a zone changes the arena and the oracles only. -/
theorem zoneAlloc_state (s : State) (z : Nat) (m : Bool) : ∃ a e, (zoneAlloc s z m).2 = { s with arena := a, env := e } := by
  unfold zoneAlloc
  dsimp only
  split
  · split
    · exact ⟨_, _, rfl⟩
    · exact ⟨_, _, rfl⟩
  · exact ⟨_, _, rfl⟩

/-- A heap object asked for changes the heap and the oracles only. -/
theorem heapAlloc_state (s : State) (bs : List Byte) : ∃ h e, (heapAlloc s bs).2 = { s with heap := h, env := e } := by
  unfold heapAlloc
  dsimp only
  split
  · exact ⟨_, _, rfl⟩
  · exact ⟨_, _, rfl⟩

/-- A map asked for changes the oracles only. -/
theorem askMap_state (s : State) : ∃ e, (askMap s).2 = { s with env := e } := ⟨_, rfl⟩

theorem patchChain_wf {m : Memory} (hm : m.wf) (gs : List PktSeg) (cs : List (Nat × Byte)) : (patchChain m gs cs).wf := by
  induction cs generalizing m with
  | nil => exact hm
  | cons c cs ih =>
    unfold patchChain
    split
    · split
      · exact ih (Memory.put_wf hm _ _)
      · exact ih hm
    · exact ih hm

/-- The client's compaction changes the oracles only. -/
theorem compact_state (s : State) (gs : List PktSeg) : ∃ e, (compact s gs).2 = { s with env := e } := ⟨_, rfl⟩

/-- A chain that counts as compacted is shorter, and holds the packet's bytes. -/
theorem compact_some {s : State} {gs r : List PktSeg} (h : (compact s gs).1 = some r) :
    r.length < gs.length ∧ segsLen r = segsLen gs ∧ chainBytes s.buf r = chainBytes s.buf gs := by
  obtain ⟨-, hr⟩ := Option.filter_eq_some_iff.mp h
  simp only [shorterChain, Bool.and_eq_true, decide_eq_true_eq] at hr
  exact ⟨hr.1.1.1, hr.1.2, hr.2⟩

/-- The client's checksum changes buffer space and the oracles only. -/
theorem swChecksum_state (s : State) (gs : List PktSeg) :
    ∃ m e, swChecksum s gs = { s with buf := m, env := e } ∧ (s.buf.wf → m.wf) :=
  ⟨_, _, rfl, fun h => patchChain_wf h _ _⟩

/-! ## MMIO writes -/

@[simp] theorem pickShared_one {α : Type} (key : Nat) (q : α) : pickShared key [q] = some q := rfl

@[simp] theorem pickShared_nil {α : Type} (key : Nat) : pickShared key ([] : List α) = none := rfl

/-- The device's producer index moved changes the device's copies only. -/
theorem devAdvance_state (s : State) (q : QRef) (n : Nat) :
    ∃ f e, devAdvance s q n = { s with devFl := f, devEq := e } := by
  unfold devAdvance
  split
  · split
    · exact ⟨_, _, rfl⟩
    · exact ⟨_, _, rfl⟩
  · split
    · exact ⟨_, _, rfl⟩
    · exact ⟨_, _, rfl⟩

/-- The device's reaction changes the device's copies only. -/
theorem devReact_state {s t : State} {w : MmioWrite} (h : devReact s w = some t) :
    ∃ f i e, t = { s with devFl := f, devIq := i, devEq := e } := by
  unfold devReact at h
  split at h
  · split at h
    · obtain ⟨d, _, rfl⟩ := Option.map_eq_some_iff.mp h
      exact ⟨_, _, _, rfl⟩
    · cases h
  all_goals
    obtain ⟨q, _, rfl⟩ := Option.map_eq_some_iff.mp h
    obtain ⟨f, e, he⟩ := devAdvance_state s _ _
    exact ⟨f, _, e, he⟩

/-- An MMIO write is performed once, and changes the device's copies only. -/
theorem mmioWrite_state (s : State) (w : MmioWrite) :
    ∃ f i e, mmioWrite s w = { s with mmio := s.mmio ++ [w], devFl := f, devIq := i, devEq := e } := by
  unfold mmioWrite
  cases h : devReact (s.logMmio w) w with
  | none => exact ⟨_, _, _, rfl⟩
  | some t =>
    obtain ⟨f, i, e, rfl⟩ := devReact_state h
    exact ⟨f, i, e, rfl⟩

/-- Several MMIO writes. -/
theorem mmioWrites_state {α : Type} (f : α → MmioWrite) (ks : List α) (s : State) :
    ∃ df di de, ks.foldl (fun s k => mmioWrite s (f k)) s =
      { s with mmio := s.mmio ++ ks.map f, devFl := df, devIq := di, devEq := de } := by
  induction ks generalizing s with
  | nil => exact ⟨s.devFl, s.devIq, s.devEq, by simp⟩
  | cons k ks ih =>
    obtain ⟨a, b, c, h⟩ := mmioWrite_state s (f k)
    obtain ⟨a', b', c', h'⟩ := ih (mmioWrite s (f k))
    refine ⟨a', b', c', ?_⟩
    rw [List.foldl_cons, h', h]
    simp

/-- Doorbell words change the MMIO trace and the device's copies only. -/
theorem ringDoorbell_state (s : State) (reg : MmioReg) (qid : BitVec 16) (n : Nat) :
    ∃ ws df di de, ringDoorbell s reg qid n =
      { s with mmio := s.mmio ++ ws, devFl := df, devIq := di, devEq := de } := by
  obtain ⟨a, b, c, h⟩ := mmioWrites_state (fun k => MmioWrite.word reg (encodeDbw ⟨qid, BitVec.ofNat 16 k⟩))
    (doorbellIncs (dbIncLimit s.cfg) n) s
  exact ⟨_, a, b, c, h⟩

/-- NOTIFY of a free list that completes. -/
theorem notifyFl_ok {fl fl' : FreeList} {s t : State} (h : notifyFl fl s = .ok (fl', t)) :
    fl.doomed = false ∧ (∃ g, fl' = { fl with pending := 0, dbGroups := g }) ∧
      ∃ ws df di de, t = { s with mmio := s.mmio ++ ws, devFl := df, devIq := di, devEq := de } := by
  unfold notifyFl at h
  split at h
  · simp at h
  · refine ⟨by simp_all, ?_⟩
    split at h
    · rename_i hp
      cases h
      exact ⟨⟨fl.dbGroups, by rw [← hp]⟩, [], s.devFl, s.devIq, s.devEq, by simp⟩
    · cases h
      exact ⟨⟨0, rfl⟩, ringDoorbell_state _ _ _ _⟩

/-- NOTIFY of an egress queue that completes. -/
theorem notifyEq_ok {q q' : EgressQueue} {s t : State} (h : notifyEq q s = .ok (q', t)) :
    q.state ≠ .dead ∧ q' = { q with pending := 0 } ∧
      ∃ ws df di de, t = { s with mmio := s.mmio ++ ws, devFl := df, devIq := di, devEq := de } := by
  unfold notifyEq at h
  split at h
  · simp at h
  · refine ⟨by assumption, ?_⟩
    split at h
    · rename_i hp
      cases h
      exact ⟨by rw [← hp], [], s.devFl, s.devIq, s.devEq, by simp⟩
    · split at h
      · obtain ⟨d, _, h2⟩ := Res.bind_eq_ok.mp h
        cases h2
        obtain ⟨a, b, c, hm⟩ := mmioWrite_state s (.burst q.wcAddr d)
        exact ⟨rfl, _, a, b, c, hm⟩
      · cases h
        exact ⟨rfl, ringDoorbell_state _ _ _ _⟩

end Sys2Proof.Machine
end

