-- ==== Sys2Proof/Laws/Egress.lean ====
section
/-! SUPPORT. What RECLAIM, the commit of a request, the accumulator's operations and SUBMIT can do. -/

namespace Sys2Proof.Machine

/-! ## RECLAIM -/

/-- The events of maps released, oldest first (45_reclaim_doorbell R370). -/
def releaseEvents (ms : List TxMap) : List Event := ms.flatMap fun m => [.dmaUnmap m.map, .freePkt m.pkt]

theorem releaseMaps_ok {n : Nat} {q q' : EgressQueue} {s t : State} (h : releaseMaps n q s = .ok (q', t)) :
    n ≤ q.maps.length ∧ q' = { q with maps := q.maps.drop n, mapsFree := q.mapsFree + BitVec.ofNat 16 n } ∧
      t = { s with out := s.out ++ releaseEvents (q.maps.take n) } := by
  induction n generalizing q s with
  | zero => cases h; simp [releaseEvents]
  | succ n ih =>
    unfold releaseMaps at h
    split at h
    · simp at h
    · rename_i m ms hm
      obtain ⟨h1, rfl, rfl⟩ := ih h
      refine ⟨by simp [hm]; exact h1, ?_, ?_⟩
      · simp only [hm, List.drop_succ_cons]
        congr 1
        rw [BitVec.add_assoc, show (1 : BitVec 16) = BitVec.ofNat 16 1 from rfl, ← BitVec.ofNat_add, Nat.add_comm]
      · simp [hm, releaseEvents, State.emit]

/-- The walk of RECLAIM: `d` descriptors and `c` credits taken. -/
theorem reclaimLoop_ok {b fuel left : Nat} {q q' : EgressQueue} {s t : State} {d0 c0 d1 c1 : Nat}
    (h : reclaimLoop b fuel left q s d0 c0 = .ok (q', t, d1, c1)) :
    ∃ d c sd, d1 = d0 + d ∧ c1 = c0 + c ∧ d ≤ left ∧ c ≤ q.maps.length ∧
      q' = { q with
        cidx := q'.cidx, maps := q.maps.drop c, mapsFree := q.mapsFree + BitVec.ofNat 16 c, sdesc := sd } ∧
      (q.cidx < q.cap → q'.cidx = addTo q.cidx q.cap d) ∧ sd.length = q.sdesc.length ∧
      t = { s with out := s.out ++ releaseEvents (q.maps.take c) } := by
  induction fuel generalizing left q s d0 c0 with
  | zero =>
    cases h
    exact ⟨0, 0, _, rfl, rfl, Nat.zero_le _, Nat.zero_le _, by simp, fun hc => (addTo_zero hc).symm, rfl,
      by simp [releaseEvents]⟩
  | succ fuel ih =>
    unfold reclaimLoop at h
    split at h
    · cases h
      exact ⟨0, 0, _, rfl, rfl, Nat.zero_le _, Nat.zero_le _, by simp, fun hc => (addTo_zero hc).symm, rfl,
        by simp [releaseEvents]⟩
    · dsimp only at h
      split at h
      · simp at h
      · split at h
        · cases h
          exact ⟨0, 0, _, rfl, rfl, Nat.zero_le _, Nat.zero_le _, by simp, fun hc => (addTo_zero hc).symm, rfl,
            by simp [releaseEvents]⟩
        · rename_i hle
          obtain ⟨⟨q1, s1⟩, h1, h2⟩ := Res.bind_eq_ok.mp h
          obtain ⟨hm, rfl, rfl⟩ := releaseMaps_ok h1
          dsimp only at h2
          generalize hsd : recordAt q q.cidx.toNat = sd at *
          obtain ⟨d, c, sd', rfl, rfl, hd, hc, hq, hci, hl, rfl⟩ := ih h2
          refine ⟨sd.descUsed.toNat + d, sd.credits.toNat + c, sd', by omega, by omega, by omega, ?_, ?_, ?_, ?_, ?_⟩
          · simp only [setRecord, List.length_drop] at hc; omega
          · rw [hq]
            simp only [setRecord, List.drop_drop]
            congr 1
            rw [BitVec.add_assoc, ← BitVec.ofNat_add]
          · intro hcc
            have hpos : 0 < q.cap.toNat := by have : q.cidx.toNat < q.cap.toNat := hcc; omega
            have := hci (addTo_lt _ hpos)
            simp only [setRecord] at this
            rw [this, addTo_addTo _ _ hpos]
          · simpa [setRecord] using hl
          · simp only [setRecord, releaseEvents, List.append_assoc, ← List.flatMap_append]
            rw [← List.take_add]

/-- `RESUME_CHECK`. -/
theorem resumeCheck_eq (i : Nat) (hw : BitVec 16) (q : EgressQueue) (s : State) :
    resumeCheck i hw q s = if resumes q hw then
      ({ q with state := .active }, { s with stalled := s.stalled.erase i, out := s.out ++ [.eqResumed q.qid] })
    else (q, s) := rfl

/-- `RECLAIM` that completes: `d` descriptors and `c` credits taken, their events emitted, the resume check made. -/
theorem reclaim_ok {i b : Nat} {q q' : EgressQueue} {s t : State} {d c : Nat}
    (h : reclaim i b q s = .ok (q', t, d, c)) :
    q.state ≠ .dead ∧ ∃ hw x sd, hw < q.cap ∧ hw = (decodeSp (s.ring.flit (eqStatusAddr q))).cidx ∧
      reclaimable q hw ≤ occEq q ∧ d ≤ reclaimable q hw ∧ c ≤ q.maps.length ∧
      (q.cidx < q.cap → x = addTo q.cidx q.cap d) ∧ sd.length = q.sdesc.length ∧
      (q', t) = resumeCheck i hw
        { q with
          cidx := x, avail := q.avail + BitVec.ofNat 16 d, maps := q.maps.drop c
          mapsFree := q.mapsFree + BitVec.ofNat 16 c, sdesc := sd }
        { s with out := s.out ++ releaseEvents (q.maps.take c) } := by
  unfold reclaim at h
  split at h
  · simp at h
  · refine ⟨by assumption, ?_⟩
    obtain ⟨sp, h1, h2⟩ := Res.bind_eq_ok.mp h
    obtain ⟨_, rfl⟩ := ringRead_ok h1
    dsimp only at h2
    split at h2
    · simp at h2
    · split at h2
      · simp at h2
      · rename_i hcap hocc
        obtain ⟨⟨q1, s1, d1, c1⟩, h3, h4⟩ := Res.bind_eq_ok.mp h2
        obtain ⟨d2, c2, sd, rfl, rfl, hd, hc, hq, hci, hl, rfl⟩ := reclaimLoop_ok h3
        simp only [Res.pure_eq, Except.ok.injEq, Prod.mk.injEq, Nat.zero_add] at h4
        obtain ⟨rfl, rfl, rfl, rfl⟩ := h4
        refine ⟨_, q1.cidx, sd, BitVec.not_le.mp hcap, rfl, by omega, hd, hc, hci, hl, ?_⟩
        rw [hq]

/-! ## Committing a request -/

/-- The queue after its commit, before any doorbell (43_egress_submit R308). -/
def commitRecord (q : EgressQueue) (nd credits npkts : Nat) : EgressQueue :=
  { q with
    sdesc := q.sdesc.set q.pidx.toNat ⟨BitVec.ofNat 16 nd, BitVec.ofNat 16 credits, BitVec.ofNat 8 npkts⟩
    pidx := addTo q.pidx q.cap nd, avail := q.avail - BitVec.ofNat 16 nd, pending := q.pending + BitVec.ofNat 16 nd }

/-- A commit that completes: the credits sufficed, and a doorbell may have been rung. -/
theorem commit_ok {nd cr np : Nat} {q q' : EgressQueue} {s t : State} (h : commit nd cr np q s = .ok (q', t)) :
    nd ≤ q.avail.toNat ∧ (∃ p, q' = { commitRecord q nd cr np with pending := p }) ∧
      ∃ ws df di de, t = { s with mmio := s.mmio ++ ws, devFl := df, devIq := di, devEq := de } := by
  unfold commit at h
  split at h
  · simp at h
  · refine ⟨by omega, ?_⟩
    dsimp only at h
    split at h
    · obtain ⟨_, rfl, hs⟩ := notifyEq_ok h
      exact ⟨⟨0, rfl⟩, hs⟩
    · cases h
      exact ⟨⟨_, rfl⟩, [], s.devFl, s.devIq, s.devEq, by simp⟩

/-- What an egress operation may change of the state: ring space, buffer space, the MMIO trace, the device's copies, the
oracles, and the events. -/
def EgressFrame (s t : State) : Prop :=
  (∃ m b ws df di de e o, t = { s with
    ring := m, buf := b, mmio := s.mmio ++ ws, devFl := df, devIq := di, devEq := de, env := e, out := s.out ++ o
    raised := t.raised, stalled := t.stalled }) ∧ (s.ring.wf → t.ring.wf) ∧ (s.buf.wf → t.buf.wf)

theorem EgressFrame.refl (s : State) : EgressFrame s s :=
  ⟨⟨s.ring, s.buf, [], s.devFl, s.devIq, s.devEq, s.env, [], by simp⟩, id, id⟩

theorem EgressFrame.trans {s t u : State} (h : EgressFrame s t) (h' : EgressFrame t u) : EgressFrame s u := by
  obtain ⟨⟨m, b, ws, df, di, de, e, o, ht⟩, h1, h2⟩ := h
  obtain ⟨⟨m', b', ws', df', di', de', e', o', hu⟩, h3, h4⟩ := h'
  refine ⟨⟨m', b', ws ++ ws', df', di', de', e', o ++ o', ?_⟩, fun x => h3 (h1 x), fun x => h4 (h2 x)⟩
  rw [hu, ht]; simp

theorem EgressFrame.of_mmio {s t : State}
    (h : ∃ ws df di de, t = { s with mmio := s.mmio ++ ws, devFl := df, devIq := di, devEq := de }) : EgressFrame s t := by
  obtain ⟨ws, df, di, de, rfl⟩ := h
  exact ⟨⟨s.ring, s.buf, ws, df, di, de, s.env, [], by simp⟩, id, id⟩

theorem EgressFrame.of_ring {s t : State} (h : ∃ m, t = { s with ring := m } ∧ (s.ring.wf → m.wf)) : EgressFrame s t := by
  obtain ⟨m, rfl, hm⟩ := h
  exact ⟨⟨m, s.buf, [], s.devFl, s.devIq, s.devEq, s.env, [], by simp⟩, hm, id⟩

theorem EgressFrame.of_buf {s t : State} (h : ∃ m e, t = { s with buf := m, env := e } ∧ (s.buf.wf → m.wf)) :
    EgressFrame s t := by
  obtain ⟨m, e, rfl, hm⟩ := h
  exact ⟨⟨s.ring, m, [], s.devFl, s.devIq, s.devEq, e, [], by simp⟩, id, hm⟩

theorem EgressFrame.emit (s : State) (e : Event) : EgressFrame s (s.emit e) :=
  ⟨⟨s.ring, s.buf, [], s.devFl, s.devIq, s.devEq, s.env, [e], by simp [State.emit]⟩, id, id⟩

theorem EgressFrame.raise (s : State) (e : Exc) : EgressFrame s (s.raise e) :=
  ⟨⟨s.ring, s.buf, [], s.devFl, s.devIq, s.devEq, s.env, [], by simp [State.raise]⟩, id, id⟩

theorem EgressFrame.setStalled (s : State) (l : List Nat) : EgressFrame s (s.setStalled l) :=
  ⟨⟨s.ring, s.buf, [], s.devFl, s.devIq, s.devEq, s.env, [], by simp [State.setStalled]⟩, id, id⟩

theorem csumBits_state (p : Packet) (s : State) :
    ∃ m e, (csumBits p s).2 = { s with buf := m, env := e } ∧ (s.buf.wf → m.wf) := by
  unfold csumBits
  dsimp only
  split
  · exact swChecksum_state s p.segs
  · exact ⟨s.buf, s.env, rfl, id⟩

/-- The scatter-gather list built or given up changes the oracles and the exceptions only. -/
theorem buildSgl_frame (p : Packet) (s : State) : EgressFrame s (buildSgl p s).2 ∧ (buildSgl p s).2.stalled = s.stalled := by
  have hm : ∀ t : State, EgressFrame t (askMap t).2 := fun t =>
    ⟨⟨t.ring, t.buf, [], t.devFl, t.devIq, t.devEq, (askMap t).2.env, [], by simp [askMap, State.setEnv]⟩, id, id⟩
  obtain ⟨e, hs⟩ := compact_state s p.segs
  have hc : EgressFrame s (compact s p.segs).2 := .of_buf ⟨s.buf, e, hs, id⟩
  unfold buildSgl
  dsimp only
  split
  · split
    · split
      · exact ⟨hc.trans (.raise _ _), by simp [hs]⟩
      · exact ⟨hc.trans (hm _), by simp [askMap, hs]⟩
    · exact ⟨hc.trans (.raise _ _), by simp [hs]⟩
  · exact ⟨hm s, rfl⟩

/-- What an egress operation may change of its queue. -/
def EgressSame (q q' : EgressQueue) : Prop :=
  q' = { q with
    pidx := q'.pidx, avail := q'.avail, pending := q'.pending, state := q'.state, mapsFree := q'.mapsFree, maps := q'.maps
    sdesc := q'.sdesc, txpkts := q'.txpkts, cidx := q'.cidx } ∧ q'.sdesc.length = q.sdesc.length

theorem EgressSame.refl (q : EgressQueue) : EgressSame q q := ⟨rfl, rfl⟩

theorem EgressSame.trans {q r w : EgressQueue} (h : EgressSame q r) (h' : EgressSame r w) : EgressSame q w := by
  obtain ⟨h1, h2⟩ := h
  obtain ⟨h3, h4⟩ := h'
  refine ⟨?_, h4.trans h2⟩
  rw [h3, h1]

theorem commit_same {nd cr np : Nat} {q q' : EgressQueue} {s t : State} (h : commit nd cr np q s = .ok (q', t)) :
    EgressSame q q' ∧ EgressFrame s t ∧ t.stalled = s.stalled ∧ q'.state = q.state := by
  obtain ⟨_, ⟨p, rfl⟩, ws, df, di, de, rfl⟩ := commit_ok h
  exact ⟨⟨rfl, by simp [commitRecord]⟩, .of_mmio ⟨ws, df, di, de, rfl⟩, rfl, rfl⟩

/-- `txpkts_flush` that completes: of an accumulator without a packet only the closing; else the queue is the commit's,
with the accumulator closed. -/
theorem txpktsFlush_ok {q q' : EgressQueue} {s t : State} (h : txpktsFlush q s = .ok (q', t)) :
    (q.txpkts.npkt = 0 ∧ q' = closed q ∧ t = s) ∨
      (q.txpkts.npkt ≠ 0 ∧
        (∃ p, q' = { commitRecord (closed q) (ceilDiv q.txpkts.flits.toNat 8) q.txpkts.npkt.toNat q.txpkts.npkt.toNat with
          pending := p }) ∧
        ceilDiv q.txpkts.flits.toNat 8 ≤ q.avail.toNat ∧ EgressFrame s t ∧ t.stalled = s.stalled) := by
  unfold txpktsFlush at h
  split at h
  · cases h
    exact .inl ⟨‹_›, rfl, rfl⟩
  · obtain ⟨s1, h1, h2⟩ := Res.bind_eq_ok.mp h
    obtain ⟨s2, h3, h4⟩ := Res.bind_eq_ok.mp h2
    obtain ⟨hle, hq, hs⟩ := commit_ok h4
    have f1 := EgressFrame.of_ring (writeFlits_ok h1)
    have f2 := EgressFrame.of_ring (writeFlits_ok h3)
    obtain ⟨m1, rfl, _⟩ := writeFlits_ok h1
    obtain ⟨m2, rfl, _⟩ := writeFlits_ok h3
    refine .inr ⟨‹_›, hq, hle, (f1.trans f2).trans (.of_mmio hs), ?_⟩
    obtain ⟨ws, df, di, de, rfl⟩ := hs
    rfl

/-- Either way the queue's identity and state stay, and the accumulator is closed. -/
theorem txpktsFlush_same {q q' : EgressQueue} {s t : State} (h : txpktsFlush q s = .ok (q', t)) :
    EgressSame q q' ∧ EgressFrame s t ∧ t.stalled = s.stalled ∧ q'.state = q.state ∧ q'.txpkts.isOpen = false := by
  rcases txpktsFlush_ok h with ⟨_, rfl, rfl⟩ | ⟨_, ⟨p, rfl⟩, _, hf, hs⟩
  · exact ⟨⟨rfl, rfl⟩, .refl _, rfl, rfl, rfl⟩
  · exact ⟨⟨rfl, by simp [commitRecord, closed]⟩, hf, hs, rfl, rfl⟩

theorem flushIfOpen_ok {q q' : EgressQueue} {s t : State} (h : flushIfOpen q s = .ok (q', t)) :
    EgressSame q q' ∧ EgressFrame s t ∧ t.stalled = s.stalled ∧ q'.state = q.state ∧ q'.txpkts.isOpen = false := by
  unfold flushIfOpen at h
  split at h
  · exact txpktsFlush_same h
  · cases h
    exact ⟨.refl _, .refl _, rfl, rfl, by simp_all⟩

theorem txpktsAdd_ok {p : Packet} {q q' : EgressQueue} {s t : State} (h : txpktsAdd p q s = .ok (q', t)) :
    EgressSame q q' ∧ EgressFrame s t ∧ t.stalled = s.stalled ∧ q'.state = q.state := by
  unfold txpktsAdd at h
  dsimp only at h
  obtain ⟨s1, h1, h2⟩ := Res.bind_eq_ok.mp h
  have f0 : EgressFrame s (csumBits p (askMap s).2).2 := by
    refine EgressFrame.trans ?_ (.of_buf (csumBits_state p (askMap s).2))
    exact ⟨⟨s.ring, s.buf, [], s.devFl, s.devIq, s.devEq, (askMap s).2.env, [], by simp [askMap, State.setEnv]⟩, id, id⟩
  have st0 : (csumBits p (askMap s).2).2.stalled = s.stalled := by
    obtain ⟨m, e, he, _⟩ := csumBits_state p (askMap s).2
    rw [he]; rfl
  have f1 := EgressFrame.of_ring (writeFlits_ok h1)
  have st1 : s1.stalled = s.stalled := by
    obtain ⟨m1, rfl, _⟩ := writeFlits_ok h1
    exact st0
  split at h2
  · obtain ⟨he, hf, hs, hst, _⟩ := txpktsFlush_same h2
    exact ⟨EgressSame.trans ⟨rfl, rfl⟩ he, (f0.trans f1).trans hf, hs.trans st1, hst⟩
  · cases h2
    exact ⟨⟨rfl, rfl⟩, f0.trans f1, st1, rfl⟩

/-- A stall that completes: the queue is Stalled and on the list. -/
theorem stall_ok {i : Nat} {cause : Exc} {q q' : EgressQueue} {s t : State} {r : Ret}
    (h : stall i cause q s = .ok (q', t, r)) :
    EgressSame q q' ∧ EgressFrame s t ∧ t.stalled = s.stalled ++ [i] ∧ q'.state = .stalled ∧ r = .noResource ∧
      q.state ≠ .dead := by
  unfold stall at h
  obtain ⟨⟨q1, s1⟩, h1, h2⟩ := Res.bind_eq_ok.mp h
  obtain ⟨⟨q2, s2⟩, h3, h4⟩ := Res.bind_eq_ok.mp h2
  simp only [Res.pure_eq, Except.ok.injEq, Prod.mk.injEq] at h4
  obtain ⟨rfl, rfl, rfl⟩ := h4
  obtain ⟨e1, f1, s1', st1, _⟩ := flushIfOpen_ok h1
  obtain ⟨nd, rfl, hs⟩ := notifyEq_ok h3
  have f2 := EgressFrame.of_mmio hs
  obtain ⟨ws, df, di, de, rfl⟩ := hs
  refine ⟨e1.trans ⟨rfl, rfl⟩, ((f1.trans f2).trans (.setStalled _ _)).trans (.raise _ _), ?_, rfl, rfl, ?_⟩
  · simp [State.setStalled, State.raise, s1']
  · rw [← st1]; exact nd

/-- What a submission that completes leaves: an Active queue unless it stalled, which puts it on the list. -/
def SubmitEnd (i : Nat) (q q' : EgressQueue) (s t : State) : Prop :=
  EgressSame q q' ∧ EgressFrame s t ∧
    ((q'.state = q.state ∧ t.stalled = s.stalled) ∨
      (q.state = .active ∧ q'.state = .stalled ∧ t.stalled = s.stalled ++ [i]))

theorem stall_end {i : Nat} {cause : Exc} {q q' : EgressQueue} {s t : State} {r : Ret} (ha : q.state = .active)
    (h : stall i cause q s = .ok (q', t, r)) : SubmitEnd i q q' s t := by
  obtain ⟨h1, h2, h3, h4, _⟩ := stall_ok h
  exact ⟨h1, h2, .inr ⟨ha, h4, h3⟩⟩

theorem writeWr_ok {q : EgressQueue} {st : Nat} {fs : List Flit} {s t : State} (h : writeWr q st fs s = .ok t) :
    ∃ m, t = { s with ring := m } ∧ (s.ring.wf → m.wf) := writeFlits_ok h

theorem submitImm_ok {i : Nat} {p : Packet} {q q' : EgressQueue} {s t : State} {r : Ret} (ha : q.state = .active)
    (h : submitImm i p q s = .ok (q', t, r)) : SubmitEnd i q q' s t := by
  unfold submitImm at h
  dsimp only at h
  split at h
  · exact stall_end ha h
  · obtain ⟨bs, _, h2⟩ := Res.bind_eq_ok.mp h
    obtain ⟨s2, h3, h4⟩ := Res.bind_eq_ok.mp h2
    obtain ⟨⟨q3, s3⟩, h5, h6⟩ := Res.bind_eq_ok.mp h4
    simp only [Res.pure_eq, Except.ok.injEq, Prod.mk.injEq] at h6
    obtain ⟨rfl, rfl, rfl⟩ := h6
    have f0 := EgressFrame.of_buf (csumBits_state p s)
    obtain ⟨m0, e0, he0, _⟩ := csumBits_state p s
    have f1 := EgressFrame.of_ring (writeWr_ok h3)
    obtain ⟨m1, rfl, _⟩ := writeWr_ok h3
    obtain ⟨g1, g2, g3, g4⟩ := commit_same h5
    refine ⟨g1, ((f0.trans f1).trans (.emit _ _)).trans g2, .inl ⟨g4, ?_⟩⟩
    rw [g3, he0]; rfl

theorem submitSgl_ok {i : Nat} {p : Packet} {q q' : EgressQueue} {s t : State} {r : Ret} (ha : q.state = .active)
    (h : submitSgl i p q s = .ok (q', t, r)) : SubmitEnd i q q' s t := by
  unfold submitSgl at h
  split at h
  · exact stall_end ha h
  · obtain ⟨fb, sb⟩ := buildSgl_frame p s
    dsimp only at h
    split at h
    · cases h
      exact ⟨.refl _, fb.trans (.emit _ _), .inl ⟨rfl, sb⟩⟩
    · split at h
      · obtain ⟨h1, h2, h3⟩ := stall_end ha h
        refine ⟨h1, fb.trans h2, ?_⟩
        rw [sb] at h3; exact h3
      · obtain ⟨s2, h3, h4⟩ := Res.bind_eq_ok.mp h
        obtain ⟨⟨q3, s3⟩, h5, h6⟩ := Res.bind_eq_ok.mp h4
        simp only [Res.pure_eq, Except.ok.injEq, Prod.mk.injEq] at h6
        obtain ⟨rfl, rfl, rfl⟩ := h6
        rename_i map segs hr hav
        have f0 := EgressFrame.of_buf (csumBits_state { p with segs := segs } (buildSgl p s).2)
        obtain ⟨m0, e0, he0, _⟩ := csumBits_state { p with segs := segs } (buildSgl p s).2
        have f1 := EgressFrame.of_ring (writeWr_ok h3)
        obtain ⟨m1, rfl, _⟩ := writeWr_ok h3
        obtain ⟨g1, g2, g3, g4⟩ := commit_same h5
        refine ⟨(EgressSame.trans ⟨rfl, rfl⟩ g1 : EgressSame q _), ((fb.trans f0).trans f1).trans g2, .inl ⟨g4, ?_⟩⟩
        rw [g3, he0]; exact sb

/-- SUBMIT that completes. -/
theorem submit_ok {i : Nat} {p : Packet} {q q' : EgressQueue} {s t : State} {r : Ret}
    (h : submit i p q s = .ok (q', t, r)) : SubmitEnd i q q' s t := by
  unfold submit at h
  split at h
  · simp at h
  · rename_i hr
    split at h
    · simp at h
    · split at h
      · cases h; exact ⟨.refl _, .raise _ _, .inl ⟨rfl, rfl⟩⟩
      · rename_i hst
        have ha : q.state = .active := by
          cases hq : q.state <;> simp_all [refusesSubmit]
        dsimp only at h
        split at h
        · obtain ⟨⟨q1, s1⟩, h1, h2⟩ := Res.bind_eq_ok.mp h
          cases h2
          obtain ⟨g1, g2, g3, g4⟩ := txpktsAdd_ok h1
          exact ⟨g1, g2, .inl ⟨g4, g3⟩⟩
        · obtain ⟨⟨q1, s1⟩, h1, h2⟩ := Res.bind_eq_ok.mp h
          obtain ⟨g1, g2, g3, g4, _⟩ := flushIfOpen_ok h1
          have lift : ∀ {q2 s2}, SubmitEnd i q1 q2 s1 s2 → SubmitEnd i q q2 s s2 := by
            rintro q2 s2 ⟨k1, k2, k3⟩
            refine ⟨g1.trans k1, g2.trans k2, ?_⟩
            rw [g3, g4] at k3; exact k3
          dsimp only at h2
          split at h2
          · split at h2
            · obtain ⟨⟨q2, s2⟩, h3, h4⟩ := Res.bind_eq_ok.mp h2
              cases h4
              obtain ⟨k1, k2, k3, k4⟩ := txpktsAdd_ok h3
              exact lift ⟨(EgressSame.trans ⟨rfl, rfl⟩ k1 : EgressSame q1 _), k2, .inl ⟨k4, k3⟩⟩
            · exact lift (stall_end (g4.trans ha) h2)
          · unfold submitSingle at h2
            split at h2
            · exact lift (submitImm_ok (g4.trans ha) h2)
            · exact lift (submitSgl_ok (g4.trans ha) h2)

/-- SUBMIT_WR that completes. -/
theorem submitWr_ok {i : Nat} {fs : List Flit} {q q' : EgressQueue} {s t : State} {r : Ret}
    (h : submitWr i fs q s = .ok (q', t, r)) : SubmitEnd i q q' s t := by
  unfold submitWr at h
  split at h
  · simp at h
  · split at h
    · simp at h
    · split at h
      · cases h; exact ⟨.refl _, .raise _ _, .inl ⟨rfl, rfl⟩⟩
      · rename_i hr hb hst
        have ha : q.state = .active := by
          cases hq : q.state <;> simp_all [refusesSubmit]
        obtain ⟨⟨q1, s1⟩, h1, h2⟩ := Res.bind_eq_ok.mp h
        obtain ⟨g1, g2, g3, g4, _⟩ := flushIfOpen_ok h1
        have lift : ∀ {q2 s2}, SubmitEnd i q1 q2 s1 s2 → SubmitEnd i q q2 s s2 := by
          rintro q2 s2 ⟨k1, k2, k3⟩
          refine ⟨g1.trans k1, g2.trans k2, ?_⟩
          rw [g3, g4] at k3; exact k3
        dsimp only at h2
        split at h2
        · exact lift (stall_end (g4.trans ha) h2)
        · obtain ⟨s2, h3, h4⟩ := Res.bind_eq_ok.mp h2
          obtain ⟨⟨q3, s3⟩, h5, h6⟩ := Res.bind_eq_ok.mp h4
          simp only [Res.pure_eq, Except.ok.injEq, Prod.mk.injEq] at h6
          obtain ⟨rfl, rfl, rfl⟩ := h6
          have f1 := EgressFrame.of_ring (writeWr_ok h3)
          obtain ⟨m1, rfl, _⟩ := writeWr_ok h3
          obtain ⟨k1, k2, k3, k4⟩ := commit_same h5
          exact lift ⟨k1, f1.trans k2, .inl ⟨k4, k3⟩⟩

end Sys2Proof.Machine
end

