-- ==== Sys2Proof/Laws/FreeList.lean ====
section
/-! SUPPORT. What REFILL, CONSUME_FRAME and the releases can do. -/

namespace Sys2Proof.Machine

/-! ## REFILL -/

theorem allocateFrom_state (l : ClusterLayout) (s : State) :
    ∃ a e, (allocateFrom l s).2 = { s with arena := a, env := e } := zoneAlloc_state s l.zone _

theorem allocateInto_state (fl : FreeList) (s : State) :
    ∃ a e, (allocateInto fl s).2 = { s with arena := a, env := e } := by
  obtain ⟨a, e, h⟩ := allocateFrom_state fl.cllDef s
  unfold allocateInto
  dsimp only
  split
  · exact ⟨a, e, h⟩
  · obtain ⟨a', e', h'⟩ := allocateFrom_state (by assumption) (allocateFrom fl.cllDef s).2
    exact ⟨a', e', by rw [h', h]⟩
  · exact ⟨a, e, h⟩

theorem tryRecycle_ok {sd sd' : FreeListSlot} {h : Nat} {s t : State} {r : Bool}
    (ho : tryRecycle sd h s = .ok (sd', t, r)) : ∃ a, t = { s with arena := a } := by
  unfold tryRecycle at ho
  split at ho
  · cases ho; exact ⟨_, rfl⟩
  · split at ho
    · simp at ho
    · split at ho
      · simp at ho
      · split at ho <;> (cases ho; exact ⟨_, rfl⟩)

theorem readySlot_ok {fl : FreeList} {s t : State} {r : Option FreeListSlot} {sd : FreeListSlot}
    (h : readySlot fl s = .ok (r, sd, t)) : ∃ a e, t = { s with arena := a, env := e } := by
  unfold readySlot at h
  dsimp only at h
  split at h
  · obtain ⟨⟨sd1, s1, b⟩, h1, h2⟩ := Res.bind_eq_ok.mp h
    obtain ⟨a, rfl⟩ := tryRecycle_ok h1
    dsimp only at h2
    split at h2
    · cases h2; exact ⟨a, s.env, rfl⟩
    · cases h2
      obtain ⟨a', e', h'⟩ := allocateInto_state fl { s with arena := a }
      exact ⟨a', e', by rw [h']⟩
  · cases h
    exact allocateInto_state fl s

theorem postEntry_ok {fl : FreeList} {sd : FreeListSlot} {s t : State} (h : postEntry fl sd s = .ok t) :
    ∃ m, t = { s with ring := m } ∧ (s.ring.wf → m.wf) := by
  unfold postEntry at h
  split at h
  · simp at h
  · obtain ⟨_, rfl⟩ := ringWrite_ok h
    exact ⟨_, rfl, fun hw => Memory.putFlit_wf hw _ _⟩

theorem countPost_ok {fl fl' : FreeList} {s t : State} (h : countPost fl s = .ok (fl', t)) :
    (∃ p g, fl' = { fl with pidx := incIdx fl.pidx fl.cap, pending := p, dbGroups := g }) ∧
      ∃ ws df di de, t = { s with mmio := s.mmio ++ ws, devFl := df, devIq := di, devEq := de } := by
  unfold countPost at h
  dsimp only at h
  split at h
  · split at h
    · obtain ⟨_, ⟨g, rfl⟩, hs⟩ := notifyFl_ok h
      exact ⟨⟨0, g, rfl⟩, hs⟩
    · cases h; exact ⟨⟨_, _, rfl⟩, [], s.devFl, s.devIq, s.devEq, by simp⟩
  · cases h; exact ⟨⟨_, _, rfl⟩, [], s.devFl, s.devIq, s.devEq, by simp⟩

/-- Why the loop of REFILL ended, with `k` slots posted of at most `n`. -/
def RefillEnd (n k : Nat) (fl' : FreeList) (es : List Exc) : Prop :=
  (es = [] ∧ (k = n ∨ incIdx fl'.pidx fl'.cap = fl'.cidx)) ∨ es = [.noresourceBuf]

/-- The loop of REFILL: what it changes of the list and of the state, how many slots it posts, and why it ends. -/
theorem refillLoop_ok {n : Nat} {fl fl' : FreeList} {s t : State} {p p' : Nat}
    (h : refillLoop n fl s p = .ok (fl', t, p')) :
    ∃ k, p' = p + k ∧ k ≤ n ∧
      (∃ x pe g sd, fl' = { fl with pidx := x, pending := pe, dbGroups := g, sdesc := sd } ∧
        sd.length = fl.sdesc.length) ∧
      (fl.pidx < fl.cap → fl.cidx < fl.cap →
        fl'.pidx = addTo fl.pidx fl.cap k ∧ occ fl' = occ fl + k ∧ occ fl' < fl.cap.toNat) ∧
      ∃ a e m ws df di de es, t = { s with
        arena := a, env := e, ring := m, mmio := s.mmio ++ ws, devFl := df, devIq := di, devEq := de
        raised := s.raised ++ es } ∧ (s.ring.wf → m.wf) ∧ RefillEnd n k fl' es := by
  induction n generalizing fl s p with
  | zero =>
    cases h
    refine ⟨0, rfl, Nat.le_refl _, ⟨_, _, _, _, rfl, rfl⟩, fun h1 h2 => ⟨(addTo_zero h1).symm, rfl, ?_⟩, t.arena, t.env, t.ring, [],
      t.devFl, t.devIq, t.devEq, [], by simp, id, .inl ⟨rfl, .inl rfl⟩⟩
    have : fl'.pidx.toNat < fl'.cap.toNat := h1
    exact distOf_lt (by omega)
  | succ n ih =>
    unfold refillLoop at h
    split at h
    · rename_i hfull
      cases h
      refine ⟨0, rfl, Nat.zero_le _, ⟨_, _, _, _, rfl, rfl⟩, fun h1 h2 => ⟨(addTo_zero h1).symm, rfl, ?_⟩, t.arena, t.env, t.ring,
        [], t.devFl, t.devIq, t.devEq, [], by simp, id, .inl ⟨rfl, .inr hfull⟩⟩
      have : fl'.pidx.toNat < fl'.cap.toNat := h1
      exact distOf_lt (by omega)
    · rename_i hne
      obtain ⟨⟨r, sd, s1⟩, h1, h2⟩ := Res.bind_eq_ok.mp h
      obtain ⟨a1, e1, rfl⟩ := readySlot_ok h1
      dsimp only at h2
      cases r with
      | none =>
        cases h2
        refine ⟨0, rfl, Nat.zero_le _, ⟨_, _, _, _, rfl, by simp⟩,
          fun h1 h2 => ⟨(addTo_zero h1).symm, rfl, ?_⟩, a1, e1, s.ring, [], s.devFl, s.devIq, s.devEq, [.noresourceBuf],
          by simp [State.raise], id, .inr rfl⟩
        have : fl.pidx.toNat < fl.cap.toNat := h1
        exact distOf_lt (Nat.lt_of_le_of_lt (Nat.zero_le _) this)
      | some sd' =>
        obtain ⟨s2, h3, h4⟩ := Res.bind_eq_ok.mp h2
        obtain ⟨m2, rfl, hw2⟩ := postEntry_ok h3
        obtain ⟨⟨fl3, s3⟩, h5, h6⟩ := Res.bind_eq_ok.mp h4
        obtain ⟨⟨pe, g, rfl⟩, ws3, df3, di3, de3, rfl⟩ := countPost_ok h5
        obtain ⟨k, rfl, hk, ⟨x, pe', g', sd4, rfl, hlen⟩, hidx, a4, e4, m4, ws4, df4, di4, de4, es, rfl, hw4, hend⟩ :=
          ih h6
        refine ⟨k + 1, by omega, by omega, ⟨x, pe', g', sd4, rfl, by simpa [setSlot] using hlen⟩, ?_,
          a4, e4, m4, ws3 ++ ws4, df4, di4, de4, es, by simp, fun hw => hw4 (hw2 hw), ?_⟩
        · intro hp hc
          have hpos : 0 < fl.cap.toNat := by have : fl.pidx.toNat < fl.cap.toNat := hp; omega
          obtain ⟨i1, i2, i3⟩ := hidx (addTo_lt 1 hpos) hc
          have hsucc := distOf_succ_lt hc hp hne
          have hd := distOf_addTo hc hp (n := 1) hsucc
          refine ⟨?_, ?_, i3⟩
          · rw [Nat.add_comm k 1, ← addTo_addTo 1 k hpos]; exact i1
          · rw [i2]
            show distOf fl.cidx (incIdx fl.pidx fl.cap) fl.cap + k = distOf fl.cidx fl.pidx fl.cap + (k + 1)
            rw [incIdx_eq_addTo, hd]; omega
        · rcases hend with ⟨rfl, hk' | hf⟩ | rfl
          · exact .inl ⟨rfl, .inl (by omega)⟩
          · exact .inl ⟨rfl, .inr hf⟩
          · exact .inr rfl

/-- `REFILL` that completes. -/
theorem refill_ok {n : Nat} {fl fl' : FreeList} {s t : State} {p : Nat} {st : Bool}
    (h : refill n fl s = .ok (fl', t, p, st)) :
    fl.doomed = false ∧ p ≤ n ∧ st = starvingIndicator fl' ∧
      (∃ x g sd, fl' = { fl with pidx := x, pending := 0, dbGroups := g, sdesc := sd } ∧
        sd.length = fl.sdesc.length) ∧
      (fl.pidx < fl.cap → fl.cidx < fl.cap →
        fl'.pidx = addTo fl.pidx fl.cap p ∧ occ fl' = occ fl + p ∧ occ fl' < fl.cap.toNat) ∧
      ∃ a e m ws df di de es, t = { s with
        arena := a, env := e, ring := m, mmio := s.mmio ++ ws, devFl := df, devIq := di, devEq := de
        raised := s.raised ++ es } ∧ (s.ring.wf → m.wf) ∧ RefillEnd n p fl' es := by
  unfold refill at h
  split at h
  · simp at h
  · obtain ⟨⟨fl1, s1, p1⟩, h1, h2⟩ := Res.bind_eq_ok.mp h
    obtain ⟨⟨fl2, s2⟩, h3, h4⟩ := Res.bind_eq_ok.mp h2
    simp only [Res.pure_eq, Except.ok.injEq, Prod.mk.injEq] at h4
    obtain ⟨rfl, rfl, rfl, rfl⟩ := h4
    obtain ⟨k, rfl, hk, ⟨x, pe, g, sd, rfl, hlen⟩, hidx, a, e, m, ws, df, di, de, es, rfl, hw, hend⟩ := refillLoop_ok h1
    obtain ⟨_, ⟨g', rfl⟩, ws', df', di', de', rfl⟩ := notifyFl_ok h3
    rw [Nat.zero_add]
    refine ⟨by simp_all, hk, rfl, ⟨x, g', sd, rfl, hlen⟩, ?_, a, e, m, ws ++ ws', df', di', de', es, by simp,
      hw, hend⟩
    intro h1 h2
    exact hidx h1 h2

theorem registerStarving_eq (i : Nat) (st : Bool) (fl : FreeList) (s : State) :
    registerStarving i st fl s = ({ fl with starving := fl.starving || st },
      { s with starving := s.starving ++ if st then [i] else [] }) := by
  cases st <;> simp [registerStarving, State.setStarving]

/-! ## CONSUME_FRAME -/

theorem advanceSlot_ok {fl fl' : FreeList} (h : advanceSlot fl = .ok fl') :
    fl.cidx ≠ fl.pidx ∧ fl' = { fl with cidx := incIdx fl.cidx fl.cap, rxOffset := 0 } := by
  unfold advanceSlot at h
  split at h
  · simp at h
  · cases h; exact ⟨by assumption, rfl⟩

theorem moveCursor_ok {c : Cfg} {fl fl' : FreeList} {len hs : Nat} (h : moveCursor c fl len hs = .ok fl') :
    ∃ x o, fl' = { fl with cidx := x, rxOffset := o } ∧ (x = fl.cidx ∨ x = incIdx fl.cidx fl.cap) := by
  unfold moveCursor at h
  split at h
  · dsimp only at h
    split at h
    · obtain ⟨_, rfl⟩ := advanceSlot_ok h; exact ⟨_, _, rfl, .inr rfl⟩
    · cases h; exact ⟨_, _, rfl, .inl rfl⟩
  · obtain ⟨_, rfl⟩ := advanceSlot_ok h; exact ⟨_, _, rfl, .inr rfl⟩

/-- The bytes of a segment. -/
def segLen : Segment → BitVec 32
  | .copy _ n => n
  | .shared _ _ n => n
  | .owned _ _ n => n

theorem consumeSegment_ok {sd : FreeListSlot} {off len : Nat} {s t : State} {r : Option (Segment × FreeListSlot)}
    (h : consumeSegment sd off len s = .ok (r, t)) :
    (∃ a hp e, t = { s with arena := a, heap := hp, env := e }) ∧ ∀ seg sd', r = some (seg, sd') → segLen seg = BitVec.ofNat 32 len := by
  unfold consumeSegment at h
  split at h
  · simp at h
  · dsimp only at h
    split at h
    · obtain ⟨bs, h1, h2⟩ := Res.bind_eq_ok.mp h
      cases h2
      obtain ⟨hp, e, he⟩ := heapAlloc_state s bs
      refine ⟨⟨s.arena, hp, e, by rw [he]⟩, ?_⟩
      intro seg sd' hr
      obtain ⟨x, _, hx⟩ := Option.map_eq_some_iff.mp hr
      cases hx; rfl
    · split at h
      · cases h
        exact ⟨⟨_, s.heap, s.env, rfl⟩, fun seg sd' hr => by cases hr; rfl⟩
      · cases h
        exact ⟨⟨s.arena, s.heap, s.env, rfl⟩, fun seg sd' hr => by cases hr; rfl⟩

/-- The loop of CONSUME_FRAME: what it changes, and what the frame holds when it ends. -/
theorem consumeLoop_ok {fuel rem : Nat} {fl fl' : FreeList} {s t : State} {f : LogicalFrame} {r : Option LogicalFrame}
    (h : consumeLoop fuel rem fl s f = .ok (r, fl', t)) :
    (∃ x o sd b rs, fl' = { fl with cidx := x, rxOffset := o, sdesc := sd, bufResume := b, resume := rs } ∧
        sd.length = fl.sdesc.length ∧ (0 < fl.cap.toNat → fl.cidx < fl.cap → x < fl.cap)) ∧
      (∃ a hp e es, t = { s with arena := a, heap := hp, env := e, raised := s.raised ++ es }) ∧
      (rem ≤ fuel → match r with
        | some g => g.len = f.len + BitVec.ofNat 32 rem ∧ (∃ l, g.segs = f.segs ++ l) ∧ g.fm = f.fm ∧
            fl'.bufResume = fl.bufResume ∧ fl'.resume = fl.resume
        | none => fl'.bufResume = true ∧ ∃ g k, fl'.resume = some ⟨g, BitVec.ofNat 32 k⟩ ∧ k ≤ rem ∧
            g.len + BitVec.ofNat 32 k = f.len + BitVec.ofNat 32 rem ∧ (∃ l, g.segs = f.segs ++ l) ∧ g.fm = f.fm) := by
  induction fuel generalizing rem fl s f with
  | zero =>
    cases h
    refine ⟨⟨_, _, _, _, _, rfl, rfl, fun _ h => h⟩, ⟨t.arena, t.heap, t.env, [], by simp⟩, fun hr => ?_⟩
    have : rem = 0 := by omega
    subst this
    exact ⟨by simp, ⟨[], by simp⟩, rfl, rfl, rfl⟩
  | succ fuel ih =>
    unfold consumeLoop at h
    split at h
    · rename_i h0
      subst h0
      cases h
      exact ⟨⟨_, _, _, _, _, rfl, rfl, fun _ h => h⟩, ⟨t.arena, t.heap, t.env, [], by simp⟩,
        fun hr => ⟨by simp, ⟨[], by simp⟩, rfl, rfl, rfl⟩⟩
    · rename_i hrem
      split at h
      · cases h
        exact ⟨⟨_, _, _, _, _, rfl, rfl, fun _ h => h⟩, ⟨s.arena, s.heap, s.env, [.noresourceBuf], rfl⟩,
          fun hr => ⟨rfl, f, rem, rfl, Nat.le_refl _, rfl, ⟨[], by simp⟩, rfl⟩⟩
      · dsimp only at h
        split at h
        · simp at h
        · rename_i hoff
          obtain ⟨⟨r1, s1⟩, h1, h2⟩ := Res.bind_eq_ok.mp h
          obtain ⟨⟨a1, hp1, e1, rfl⟩, hlen⟩ := consumeSegment_ok h1
          dsimp only at h2
          cases r1 with
          | none =>
            cases h2
            exact ⟨⟨_, _, _, _, _, rfl, rfl, fun _ h => h⟩, ⟨a1, hp1, e1, [.noresourceBuf], rfl⟩,
              fun hr => ⟨rfl, f, rem, rfl, Nat.le_refl _, rfl, ⟨[], by simp⟩, rfl⟩⟩
          | some p =>
            obtain ⟨seg, sd'⟩ := p
            obtain ⟨fl2, h3, h4⟩ := Res.bind_eq_ok.mp h2
            obtain ⟨x, o, rfl, hx⟩ := moveCursor_ok h3
            obtain ⟨⟨x', o', sd4, b4, rs4, rfl, hl4, hx4⟩, ⟨a4, hp4, e4, es4, rfl⟩, hres⟩ := ih h4
            refine ⟨⟨x', o', sd4, b4, rs4, rfl, by simpa [setSlot] using hl4, fun hc hci => hx4 hc ?_⟩,
              ⟨a4, hp4, e4, es4, rfl⟩, fun hr => ?_⟩
            · rcases hx with rfl | rfl
              · exact hci
              · exact addTo_lt 1 hc
            · generalize hL : min rem (classSize s.cfg (slotAt fl fl.cidx.toNat).layout - fl.rxOffset.toNat) = L at *
              have hLr : L ≤ rem := by omega
              have hL0 : 0 < L := by
                have : classSize s.cfg (slotAt fl fl.cidx.toNat).layout - fl.rxOffset.toNat ≠ 0 := by omega
                omega
              have hsum : f.len + BitVec.ofNat 32 L + BitVec.ofNat 32 (rem - L) = f.len + BitVec.ofNat 32 rem := by
                rw [BitVec.add_assoc, ← BitVec.ofNat_add]; congr 2; omega
              have hres := hres (by omega)
              cases r with
              | some g =>
                obtain ⟨q1, ⟨l, q2⟩, q3, q4, q5⟩ := hres
                exact ⟨by rw [q1]; exact hsum, ⟨seg :: l, by rw [q2]; simp [LogicalFrame.extend]⟩, q3, q4, q5⟩
              | none =>
                obtain ⟨q1, g, k, q2, q3, q4, ⟨l, q5⟩, q6⟩ := hres
                exact ⟨q1, g, k, q2, by omega, by rw [q4]; exact hsum,
                  ⟨seg :: l, by rw [q5]; simp [LogicalFrame.extend]⟩, q6⟩

/-- `CONSUME_FRAME` that completes or saves its frame: the list keeps its identity, and only the arena, the heap, the
oracles and the exceptions of the state change. -/
theorem consumeFrame_ok {fl fl' : FreeList} {total : Nat} {nb : Bool} {s t : State} {r : Option LogicalFrame}
    (h : consumeFrame fl total nb s = .ok (r, fl', t)) :
    (∃ x o sd b rs, fl' = { fl with cidx := x, rxOffset := o, sdesc := sd, bufResume := b, resume := rs } ∧
        sd.length = fl.sdesc.length ∧ (0 < fl.cap.toNat → fl.cidx < fl.cap → x < fl.cap)) ∧
      ∃ a hp e es, t = { s with arena := a, heap := hp, env := e, raised := s.raised ++ es } := by
  unfold consumeFrame at h
  split at h
  · obtain ⟨⟨x, o, sd, b, rs, rfl, h1, h2⟩, h3, _⟩ := consumeLoop_ok h
    exact ⟨⟨x, o, sd, b, rs, rfl, h1, h2⟩, h3⟩
  · obtain ⟨fl1, h1, h2⟩ := Res.bind_eq_ok.mp h
    obtain ⟨⟨x, o, sd, b, rs, rfl, h3, h4⟩, h5, _⟩ := consumeLoop_ok h2
    unfold startFrame at h1
    split at h1
    · obtain ⟨_, rfl⟩ := advanceSlot_ok h1
      exact ⟨⟨x, o, sd, b, rs, rfl, h3, fun hc _ => h4 hc (addTo_lt 1 hc)⟩, h5⟩
    · cases h1
      exact ⟨⟨x, o, sd, b, rs, rfl, h3, h4⟩, h5⟩

/-! ## Releases -/

theorem releaseSegment_ok {s t : State} {g : Segment} (h : releaseSegment s g = .ok t) :
    ∃ a hp, t = { s with arena := a, heap := hp } := by
  cases g with
  | copy x n =>
    simp only [releaseSegment] at h
    split at h
    · cases h; exact ⟨_, _, rfl⟩
    · simp at h
  | shared x o n =>
    simp only [releaseSegment] at h
    split at h
    · obtain ⟨a, rfl⟩ := dropRef_arena h; exact ⟨_, _, rfl⟩
    · simp at h
  | owned x o n =>
    simp only [releaseSegment] at h
    split at h
    · cases h; exact ⟨_, _, rfl⟩
    · simp at h

/-- The QE's own release of a frame's segments: buffers and heap objects given up, and each segment noted. -/
theorem releaseAll_ok {gs : List Segment} {s t : State} (h : releaseAll s gs = .ok t) :
    ∃ a hp, t = { s with arena := a, heap := hp, given := s.given ++ gs } := by
  induction gs generalizing s with
  | nil => cases h; exact ⟨t.arena, t.heap, by simp⟩
  | cons g gs ih =>
    obtain ⟨u, h1, h2⟩ := Res.bind_eq_ok.mp h
    obtain ⟨_, _, rfl⟩ := releaseSegment_ok h1
    obtain ⟨a, hp, rfl⟩ := ih h2
    exact ⟨a, hp, by simp [State.setGiven]⟩

end Sys2Proof.Machine
end

