-- ==== Sys2Proof/Laws/Ingress.lean ====
section
/-! SUPPORT. What the arms of the dispatch and a service call can do. -/

namespace Sys2Proof.Machine

/-- What a service call may change of its queue. -/
def IngressSame (q q' : IngressQueue) : Prop :=
  q' = { q with
    cidx := q'.cidx, gen := q'.gen, fl := q'.fl, lroPending := q'.lroPending, rxErrors := q'.rxErrors
    protoErrors := q'.protoErrors }

theorem IngressSame.refl (q : IngressQueue) : IngressSame q q := rfl

theorem IngressSame.trans {q r w : IngressQueue} (h : IngressSame q r) (h' : IngressSame r w) : IngressSame q w := by
  unfold IngressSame at *
  rw [h', h]

/-- What a service call leaves of the state: the configuration, the panic bit, buffer space, the port and the return
value; the events, the MMIO trace and the worklist only grow. -/
def ServiceFrame (s t : State) : Prop :=
  (∃ o w wl, t = { s with
    iq := t.iq, eq := t.eq, arena := t.arena, starving := t.starving, stalled := t.stalled, worklist := s.worklist ++ wl
    out := s.out ++ o, ring := t.ring, mmio := s.mmio ++ w, heap := t.heap, devFl := t.devFl, devIq := t.devIq
    devEq := t.devEq, env := t.env, held := t.held, given := t.given, raised := t.raised }) ∧ (s.ring.wf → t.ring.wf)

theorem ServiceFrame.refl (s : State) : ServiceFrame s s := ⟨⟨[], [], [], by simp⟩, id⟩

theorem ServiceFrame.trans {s t u : State} (h : ServiceFrame s t) (h' : ServiceFrame t u) : ServiceFrame s u := by
  obtain ⟨⟨o, w, wl, ht⟩, h1⟩ := h
  obtain ⟨⟨o', w', wl', hu⟩, h2⟩ := h'
  refine ⟨⟨o ++ o', w ++ w', wl ++ wl', ?_⟩, fun x => h2 (h1 x)⟩
  rw [hu, ht]; simp

theorem ServiceFrame.of_mmio {s t : State}
    (h : ∃ ws df di de, t = { s with mmio := s.mmio ++ ws, devFl := df, devIq := di, devEq := de }) : ServiceFrame s t := by
  obtain ⟨ws, df, di, de, rfl⟩ := h
  exact ⟨⟨[], ws, [], by simp⟩, id⟩

theorem ServiceFrame.of_release {s t : State} {gs : List Segment}
    (h : ∃ a hp, t = { s with arena := a, heap := hp, given := s.given ++ gs }) : ServiceFrame s t := by
  obtain ⟨a, hp, rfl⟩ := h
  exact ⟨⟨[], [], [], by simp⟩, id⟩

theorem ServiceFrame.setIq (s : State) (i : Nat) (q : IngressQueue) : ServiceFrame s (s.setIq i q) :=
  ⟨⟨[], [], [], by simp [State.setIq]⟩, id⟩

theorem ServiceFrame.setEq (s : State) (i : Nat) (q : EgressQueue) : ServiceFrame s (s.setEq i q) :=
  ⟨⟨[], [], [], by simp [State.setEq]⟩, id⟩

theorem ServiceFrame.emit (s : State) (e : Event) : ServiceFrame s (s.emit e) :=
  ⟨⟨[e], [], [], by simp [State.emit]⟩, id⟩

theorem ServiceFrame.raise (s : State) (e : Exc) : ServiceFrame s (s.raise e) :=
  ⟨⟨[], [], [], by simp [State.raise]⟩, id⟩

theorem ServiceFrame.setHeld (s : State) (h : List Segment) : ServiceFrame s (s.setHeld h) :=
  ⟨⟨[], [], [], by simp [State.setHeld]⟩, id⟩

theorem ServiceFrame.setStarving (s : State) (h : List Nat) : ServiceFrame s (s.setStarving h) :=
  ⟨⟨[], [], [], by simp [State.setStarving]⟩, id⟩

/-! ## The arms -/

/-- What an arm keeps: the queue's identity, its cursor, and the state but for what a service call may change. -/
def ArmOk (q q' : IngressQueue) (s t : State) : Prop :=
  IngressSame q q' ∧ q'.cidx = q.cidx ∧ q'.gen = q.gen ∧ ServiceFrame s t

theorem violationAs_arm (e : Exc) (q : IngressQueue) (s : State) (f0 f1 : Flit) :
    ArmOk q (violationAs e q s f0 f1).1 s (violationAs e q s f0 f1).2 :=
  ⟨rfl, rfl, rfl, (ServiceFrame.raise _ _).trans (.emit _ _)⟩

theorem violation_arm (q : IngressQueue) (s : State) (f0 f1 : Flit) :
    ArmOk q (violation q s f0 f1).1 s (violation q s f0 f1).2 := violationAs_arm _ _ _ _ _

theorem deliver_arm (q : IngressQueue) (f : LogicalFrame) (s : State) :
    ArmOk q (deliver q f s).1 s (deliver q f s).2 := by
  unfold deliver
  dsimp only
  split
  · exact ⟨rfl, rfl, rfl, (ServiceFrame.setHeld _ _).trans (.emit _ _)⟩
  · exact ⟨rfl, rfl, rfl, (ServiceFrame.setHeld _ _).trans (.emit _ _)⟩

theorem judgeFrame_ok {e : RxEntry} {f0 f1 : Flit} {f : LogicalFrame} {q q' : IngressQueue} {s t : State}
    (h : judgeFrame e f0 f1 f q s = .ok (q', t)) : ArmOk q q' s t := by
  unfold judgeFrame at h
  split at h
  · obtain ⟨s1, h1, h2⟩ := Res.bind_eq_ok.mp h
    cases h2
    obtain ⟨a, b, c, d⟩ := violation_arm q s1 f0 f1
    exact ⟨a, b, c, (ServiceFrame.of_release (releaseAll_ok h1)).trans d⟩
  · split at h
    · obtain ⟨s1, h1, h2⟩ := Res.bind_eq_ok.mp h
      cases h2
      exact ⟨rfl, rfl, rfl, ((ServiceFrame.of_release (releaseAll_ok h1)).trans (.raise _ _)).trans (.emit _ _)⟩
    · have hd := deliver_arm q (f.withMeta (frameMeta e)) s
      rw [Except.ok.inj h] at hd
      exact hd

theorem dispatchRx_ok {e : RxEntry} {f0 f1 : Flit} {q q' : IngressQueue} {s t : State} {b : Bool}
    (h : dispatchRx e f0 f1 q s = .ok (b, q', t)) : ArmOk q q' s t := by
  unfold dispatchRx at h
  split at h
  · cases h; exact violation_arm _ _ _ _
  · split at h
    · cases h; exact violation_arm _ _ _ _
    · obtain ⟨⟨r, fl', s1⟩, h1, h2⟩ := Res.bind_eq_ok.mp h
      obtain ⟨_, a, hp, en, es, rfl⟩ := consumeFrame_ok h1
      have hf : ServiceFrame s { s with arena := a, heap := hp, env := en, raised := s.raised ++ es } :=
        ⟨⟨[], [], [], by simp⟩, id⟩
      dsimp only at h2
      split at h2
      · cases h2; exact ⟨rfl, rfl, rfl, hf⟩
      · obtain ⟨⟨q2, s2⟩, h3, h4⟩ := Res.bind_eq_ok.mp h2
        cases h4
        obtain ⟨k1, k2, k3, k4⟩ := judgeFrame_ok h3
        exact ⟨IngressSame.trans (r := { q with fl := some fl' }) rfl k1, k2, k3, hf.trans k4⟩

theorem reclaim_frame {i b : Nat} {q q' : EgressQueue} {s t : State} {d c : Nat}
    (h : reclaim i b q s = .ok (q', t, d, c)) :
    ∃ o l, t = { s with out := s.out ++ o, stalled := l } ∧ EgressSame q q' := by
  obtain ⟨_, hw, x, sd, _, _, _, _, _, _, hl, he⟩ := reclaim_ok h
  rw [resumeCheck_eq] at he
  split at he
  · cases he; exact ⟨releaseEvents (q.maps.take c) ++ [.eqResumed q.qid], s.stalled.erase i, by simp, rfl, hl⟩
  · cases he; exact ⟨_, s.stalled, rfl, rfl, hl⟩

theorem egrUpdate_ok {eqid : BitVec 16} {f0 f1 : Flit} {q q' : IngressQueue} {s t : State}
    (h : egrUpdate eqid f0 f1 q s = .ok (q', t)) : ArmOk q q' s t := by
  unfold egrUpdate at h
  split at h
  · cases h; exact violation_arm _ _ _ _
  · split at h
    · cases h; exact violation_arm _ _ _ _
    · obtain ⟨⟨e1, s1, d, c⟩, h1, h2⟩ := Res.bind_eq_ok.mp h
      cases h2
      obtain ⟨o, l, rfl, _⟩ := reclaim_frame h1
      exact ⟨rfl, rfl, rfl, ⟨⟨o, [], [], by simp [State.setEq]⟩, id⟩⟩

theorem dispatchOob_arm (op : BitVec 8) (f0 f1 : Flit) (q : IngressQueue) (s : State) :
    ArmOk q (dispatchOob op f0 f1 q s).1 s (dispatchOob op f0 f1 q s).2 := by
  unfold dispatchOob
  split
  · exact violation_arm _ _ _ _
  · exact ⟨rfl, rfl, rfl, .emit _ _⟩

/-- A forwarded-interrupt arm that keeps what an arm keeps. -/
def FwdOk (fwd : FwdArm) : Prop := ∀ t f0 f1 q s q' s', fwd t f0 f1 q s = .ok (q', s') → ArmOk q q' s s'

theorem dispatchTyped_ok {fwd : FwdArm} (hf : FwdOk fwd) {f0 f1 : Flit} {q q' : IngressQueue} {s t : State} {b : Bool}
    (h : dispatchTyped fwd f0 f1 q s = .ok (b, q', t)) : ArmOk q q' s t := by
  unfold dispatchTyped at h
  split at h
  · exact dispatchRx_ok h
  · obtain ⟨⟨q1, s1⟩, h1, h2⟩ := Res.bind_eq_ok.mp h
    cases h2; exact egrUpdate_ok h1
  · cases h; exact dispatchOob_arm _ _ _ _ _
  · obtain ⟨⟨q1, s1⟩, h1, h2⟩ := Res.bind_eq_ok.mp h
    cases h2; exact hf _ _ _ _ _ _ _ h1
  · cases h; exact violation_arm _ _ _ _

/-- An entry that `gen_check` does not hold back goes to its arm (60_exceptions R456). -/
@[simp] theorem afterGenCheck_of_not {f0 f1 : Flit} {arm : IngressQueue → State → Res (Bool × IngressQueue × State)}
    {q : IngressQueue} {s : State} (h : genCheck s.cfg q f0 f1 = false) : afterGenCheck f0 f1 arm q s = arm q s := by
  simp [afterGenCheck, h]

/-- Without a platform's test no entry is held back. -/
@[simp] theorem genCheck_nil {c : Cfg} (h : c.genCheck = []) (q : IngressQueue) (f0 f1 : Flit) :
    genCheck c q f0 f1 = false := by simp [genCheck, h]

theorem afterGenCheck_ok {f0 f1 : Flit} {arm : IngressQueue → State → Res (Bool × IngressQueue × State)}
    {q q' : IngressQueue} {s t : State} {b : Bool} (ha : arm q s = .ok (b, q', t) → ArmOk q q' s t)
    (h : afterGenCheck f0 f1 arm q s = .ok (b, q', t)) : ArmOk q q' s t := by
  unfold afterGenCheck at h
  split at h
  · cases h; exact violationAs_arm _ _ _ _ _
  · exact ha h

theorem dispatch_ok {fwd : FwdArm} (hf : FwdOk fwd) {f0 f1 : Flit} {q q' : IngressQueue} {s t : State} {b : Bool}
    (h : dispatch fwd f0 f1 q s = .ok (b, q', t)) : ArmOk q q' s t := afterGenCheck_ok (dispatchTyped_ok hf) h

/-! ## The end of a service call -/

theorem lroFlush_arm (q : IngressQueue) (s : State) : ArmOk q (lroFlush q s).1 s (lroFlush q s).2 := by
  unfold lroFlush
  split
  · exact ⟨rfl, rfl, rfl, .emit _ _⟩
  · exact ⟨rfl, rfl, rfl, .refl _⟩

theorem refillIfLow_ok {i : Nat} {q q' : IngressQueue} {s t : State} (h : refillIfLow i q s = .ok (q', t)) :
    ArmOk q q' s t := by
  unfold refillIfLow at h
  split at h
  · cases h; exact ⟨rfl, rfl, rfl, .refl _⟩
  · split at h
    · obtain ⟨⟨fl1, s1, p, st⟩, h1, h2⟩ := Res.bind_eq_ok.mp h
      obtain ⟨_, _, _, _, _, a, e, m, ws, df, di, de, es, rfl, hw, _⟩ := refill_ok h1
      dsimp only at h2
      rw [registerStarving_eq] at h2
      cases h2
      exact ⟨rfl, rfl, rfl, ⟨⟨[], ws, [], by simp⟩, hw⟩⟩
    · cases h; exact ⟨rfl, rfl, rfl, .refl _⟩

theorem writeCredit_frame (s : State) (qid : BitVec 12) (ti : BitVec 3) (cnt : Bool) (n : Nat) :
    ServiceFrame s (writeCredit s qid ti cnt n) := by
  obtain ⟨f, i, e, h⟩ := mmioWrite_state s (.word .icw (encodeIcw ⟨qid, ti, cnt, BitVec.ofNat 16 n⟩))
  exact .of_mmio ⟨_, f, i, e, h⟩

theorem endService_ok {i : Nat} {b r : Bool} {q q' : IngressQueue} {s t : State}
    (h : endService i b q s = .ok (q', t, r)) : ArmOk q q' s t ∧ r = b := by
  unfold endService at h
  obtain ⟨⟨q1, s1⟩, h1, h2⟩ := Res.bind_eq_ok.mp h
  cases h2
  obtain ⟨a, b1, c, d⟩ := lroFlush_arm q s
  obtain ⟨a', b', c', d'⟩ := refillIfLow_ok h1
  exact ⟨⟨a.trans a', b'.trans b1, c'.trans c, d.trans d'⟩, rfl⟩

/-- The loop of SERVICE: the cursor moves over at most the budget. -/
theorem serviceLoop_ok {fwd : FwdArm} (hf : FwdOk fwd) {i left nd : Nat} {q q' : IngressQueue} {s t : State} {r : Bool}
    (h : serviceLoop fwd i left nd q s = .ok (q', t, r)) :
    IngressSame q q' ∧ ServiceFrame s t ∧ ∃ n, n ≤ left ∧ (q.cidx < q.cap → q'.cidx = addTo q.cidx q.cap n) := by
  induction left generalizing nd q s with
  | zero =>
    unfold serviceLoop budgetExit at h
    obtain ⟨⟨a, b, c, d⟩, _⟩ := endService_ok h
    exact ⟨a, (writeCredit_frame _ _ _ _ _).trans d, 0, Nat.le_refl _, fun hc => by rw [b, addTo_zero hc]⟩
  | succ left ih =>
    unfold serviceLoop at h
    obtain ⟨f1, _, h2⟩ := Res.bind_eq_ok.mp h
    split at h2
    · obtain ⟨f0, _, h4⟩ := Res.bind_eq_ok.mp h2
      obtain ⟨⟨adv, q1, s1⟩, h5, h6⟩ := Res.bind_eq_ok.mp h4
      obtain ⟨a, b, c, d⟩ := dispatch_ok hf h5
      dsimp only at h6
      split at h6
      · obtain ⟨k1, k2, n, hn, k3⟩ := ih h6
        refine ⟨a.trans (IngressSame.trans (r := advanceCursor q1) rfl k1), d.trans k2, n + 1, by omega, fun hc => ?_⟩
        have hcap : q1.cap = q.cap := by rw [a]
        have hpos : 0 < q.cap.toNat := by have : q.cidx.toNat < q.cap.toNat := hc; omega
        have h7 : (advanceCursor q1).cidx = addTo q.cidx q.cap 1 := by
          simp only [advanceCursor, b, hcap, incIdx_eq_addTo]
        have h8 : (advanceCursor q1).cap = q.cap := hcap
        rw [h7, h8] at k3
        rw [k3 (addTo_lt 1 hpos), addTo_addTo _ _ hpos, Nat.add_comm]
      · unfold frameIncomplete at h6
        obtain ⟨⟨a', b', c', d'⟩, _⟩ := endService_ok h6
        refine ⟨a.trans a', d.trans ((?_ : ServiceFrame s1 _).trans d'), 0, Nat.zero_le _,
          fun hc => by rw [b', b, addTo_zero hc]⟩
        split
        · exact writeCredit_frame _ _ _ _ _
        · exact .refl _
    · unfold ringEmpty at h2
      obtain ⟨⟨a, b, c, d⟩, _⟩ := endService_ok h2
      exact ⟨a, (writeCredit_frame _ _ _ _ _).trans d, 0, Nat.zero_le _, fun hc => by rw [b, addTo_zero hc]⟩

theorem fwdNested_ok : FwdOk fwdNested := by
  intro t f0 f1 q s q' s' h
  cases h
  exact violation_arm _ _ _ _

theorem finishService_eq (s : State) (i : Nat) (q : IngressQueue) (b : Bool) :
    finishService s i q b =
      ({ q with state := if b then .idle else q.state }, { s with worklist := s.worklist ++ if b then [] else [i] }) := by
  cases b <;> simp [finishService, State.setWorklist]

theorem dispatchFwd_ok (budget : Nat) : FwdOk (dispatchFwd budget) := by
  intro t f0 f1 q s q' s' h
  unfold dispatchFwd at h
  split at h
  · cases h; exact violation_arm _ _ _ _
  · split at h
    · cases h; exact violation_arm _ _ _ _
    · split at h
      · cases h; exact ⟨rfl, rfl, rfl, .refl _⟩
      · rename_i _ _ j _ _ _ _
        obtain ⟨⟨t1, s1, r⟩, h1, h2⟩ := Res.bind_eq_ok.mp h
        obtain ⟨_, k, _⟩ := serviceLoop_ok fwdNested_ok h1
        dsimp only at h2
        rw [finishService_eq] at h2
        cases h2
        refine ⟨rfl, rfl, rfl, (k.trans (?_ : ServiceFrame s1 _)).trans (.setIq _ _ _)⟩
        exact ⟨⟨[], [], if r then [] else [j], by simp⟩, id⟩

/-- A service call that completes. -/
theorem service_ok {i b : Nat} {q q' : IngressQueue} {s t : State} {r : Bool} (h : service i b q s = .ok (q', t, r)) :
    IngressSame q q' ∧ ServiceFrame s t ∧ ∃ n, n ≤ b ∧ (q.cidx < q.cap → q'.cidx = addTo q.cidx q.cap n) :=
  serviceLoop_ok (dispatchFwd_ok b) h

end Sys2Proof.Machine
end

