-- ==== Sys2Proof/Laws/PerInstr.lean ====
section
/-! SUPPORT. One lemma per instruction: its words are an encoding exactly when its row of the table has one
(30_encoding R120). -/

namespace Sys2Proof.Laws.Form

/-- Whether words are an encoding, and not an operation that stands for itself. -/
def isEncoding : Words → Bool
  | .unencoded _ => false
  | .command _ _ | .entry _ _ | .request _ _ _ | .part _ _ _ | .immediate _ _ _ _ | .freeListEntry _ _
  | .statusPage _ _ | .regWrite _ _ | .burst _ _ => true

/-- An instruction is written as an encoding exactly when its row has one. -/
def Statement (i : Instr) : Prop := isEncoding (encode i) = i.space.encoded

theorem createIq (i : Nat) (a : CreateIqArgs) : Statement (.createIq i a) := rfl

theorem createFl (i : Nat) (a : CreateFlArgs) : Statement (.createFl i a) := rfl

theorem createEq (i : Nat) (a : CreateEqArgs) : Statement (.createEq i a) := rfl

theorem teardownIq (i : Nat) : Statement (.teardownIq i) := rfl

theorem teardownEq (i : Nat) : Statement (.teardownEq i) := rfl

theorem timerTick : Statement .timerTick := rfl

theorem refill (i : Nat) (n : Nat) : Statement (.refill i n) := rfl

theorem frameRelease (seg : Segment) : Statement (.frameRelease seg) := rfl

theorem interrupt (i : Nat) : Statement (.interrupt i) := rfl

theorem service (i : Nat) (budget : BitVec 16) : Statement (.service i budget) := rfl

theorem deferredRun : Statement .deferredRun := rfl

theorem submit (i : Nat) (pkt : Packet) : Statement (.submit i pkt) := rfl

theorem submitWr (i : Nat) (flits : List Flit) : Statement (.submitWr i flits) := rfl

theorem txpktsFlush (i : Nat) : Statement (.txpktsFlush i) := rfl

theorem reclaim (i : Nat) (maxCredits : BitVec 16) : Statement (.reclaim i maxCredits) := rfl

theorem notify (q : QRef) : Statement (.notify q) := rfl

theorem txDone (i : Nat) : Statement (.txDone i) := rfl

theorem findBestRefillSource (maxp : BitVec 32) (packing : Bool) : Statement (.findBestRefillSource maxp packing) := rfl

theorem findSafeRefillSource (packing : Bool) : Statement (.findSafeRefillSource packing) := rfl

theorem consumeFrame (i : Nat) (totalLength : BitVec 31) (newbuf : Bool) : Statement (.consumeFrame i totalLength newbuf) :=
  rfl

theorem txpktsOpen (i : Nat) : Statement (.txpktsOpen i) := rfl

theorem txpktsAdd (i : Nat) (pkt : Packet) : Statement (.txpktsAdd i pkt) := rfl

theorem resumeCheck (i : Nat) (hw : BitVec 16) : Statement (.resumeCheck i hw) := rfl

theorem iqeRx (i : Nat) (e : RxEntry) : Statement (.iqeRx i e) := rfl

theorem iqeEgrUpdate (i : Nat) (e : EgrUpdateEntry) : Statement (.iqeEgrUpdate i e) := rfl

theorem iqeOob (i : Nat) (e : OobEntry) : Statement (.iqeOob i e) := rfl

theorem iqeFwd (i : Nat) (e : FwdEntry) : Statement (.iqeFwd i e) := rfl

theorem iqeReserved (i : Nat) (e : ReservedEntry) : Statement (.iqeReserved i e) := rfl

theorem ethTxPkt (i : Nat) (pkt : Nat) (h : WrHeader) (body : List Flit) : Statement (.ethTxPkt i pkt h body) := rfl

theorem ethTxPkts (i : Nat) (pkts : List Nat) (h : WrHeader) (body : List Flit) : Statement (.ethTxPkts i pkts h body) :=
  rfl

theorem wrOpaque (i : Nat) (flits : List Flit) : Statement (.wrOpaque i flits) := rfl

theorem wrReserved00 (i : Nat) (flits : List Flit) : Statement (.wrReserved00 i flits) := rfl

theorem lso (i : Nat) (k : Nat) (r : Lso) : Statement (.lso i k r) := rfl

theorem txpkt (i : Nat) (k : Nat) (r : Txpkt) : Statement (.txpkt i k r) := rfl

theorem sgl (i : Nat) (k : Nat) (segs : List PktSeg) : Statement (.sgl i k segs) := rfl

theorem immediateData (i : Nat) (k : Nat) (data : List Byte) : Statement (.immediateData i k data) := rfl

theorem fle (i : Nat) (r : Fle) : Statement (.fle i r) := rfl

theorem dbw (reg : DoorbellReg) (r : Dbw) : Statement (.dbw reg r) := by cases reg <;> rfl

theorem icw (r : Icw) : Statement (.icw r) := rfl

theorem sp (q : QRef) (r : Sp) : Statement (.sp q r) := rfl

theorem wcBurst (window : Addr) (flits : List Flit) : Statement (.wcBurst window flits) := rfl

theorem devDb (w : MmioWrite) : Statement (.devDb w) := rfl

theorem devFl (i : Nat) (idx : Nat) : Statement (.devFl i idx) := rfl

theorem devRx (i : Nat) (bytes : List Byte) (fm : FrameMeta) (skip : Bool) : Statement (.devRx i bytes fm skip) := rfl

theorem devOob (i : Nat) (flit0 : Flit) : Statement (.devOob i flit0) := rfl

theorem devFwd (parent target : Nat) : Statement (.devFwd parent target) := rfl

theorem devTx (i : Nat) : Statement (.devTx i) := rfl

theorem devStatus (q : QRef) : Statement (.devStatus q) := rfl

theorem devIntr (i : Nat) : Statement (.devIntr i) := rfl

end Sys2Proof.Laws.Form
end

