-- ==== Sys2Proof/Laws/Writes.lean ====
section
/-! SUPPORT. What the shared writes store, in the terms of the statements; the lists of queues that an identifier
names; MMIO writes and the model's own fields. -/

namespace Sys2Proof.Machine

/-! ## Ring space -/

/-- One more flit stored before others that leave its bytes alone. -/
theorem WritesFlits.cons {m m' : Memory} {addr : Nat → Nat} {v : Flit} {vs : List Flit} (hw : m.wf)
    (h : WritesFlits (m.putFlit (addr 0) v) m' (fun k => addr (k + 1)) vs)
    (hd : ∀ k, k < vs.length → addr 0 + 8 ≤ addr (k + 1) ∨ addr (k + 1) + 8 ≤ addr 0) :
    WritesFlits m m' addr (v :: vs) := by
  obtain ⟨h1, h2⟩ := h
  refine ⟨fun k hk => ?_, fun b hb => ?_⟩
  · cases k with
    | zero =>
      rw [List.getElem_cons_zero, ← Memory.flit_putFlit_same hw (addr 0) v]
      exact Memory.flit_congr fun j hj => h2 _ fun n hn => by have := hd n hn; dsimp only; omega
    | succ k => exact h1 k (by simpa using hk)
  · rw [h2 b fun k hk => hb (k + 1) (by simpa using hk)]
    exact Memory.get_putFlit_other hw _ _ _ (hb 0 (by simp))

/-- Consecutive flits written inside the address space. -/
theorem ringWriteAll_writes {fs : List Flit} {s : State} {a : Nat} (hs : inSpace a (8 * fs.length) = true)
    (hw : s.ring.wf) :
    ∃ m, ringWriteAll s a fs = .ok { s with ring := m } ∧ m.wf ∧ WritesFlits s.ring m (fun k => a + 8 * k) fs := by
  induction fs generalizing s a with
  | nil => exact ⟨s.ring, rfl, hw, by simp, fun _ _ => rfl⟩
  | cons v vs ih =>
    simp only [inSpace, List.length_cons, decide_eq_true_eq] at hs
    obtain ⟨m, h1, h2, h3⟩ := ih (s := { s with ring := s.ring.putFlit a v }) (a := a + 8)
      (by simp only [inSpace, decide_eq_true_eq]; omega) (Memory.putFlit_wf hw a v)
    refine ⟨m, ?_, h2, WritesFlits.cons hw ?_ fun k _ => by omega⟩
    · rw [ringWriteAll, ringWrite_eq (by simp only [inSpace, decide_eq_true_eq]; omega), Res.bind_ok, h1]
    · have e : (fun k => a + 8 * (k + 1)) = fun k => a + 8 + 8 * k := funext fun k => by omega
      rw [e]; exact h3

/-- Flits of a request written at addresses inside the address space that do not meet. -/
theorem writeFlits_writes {fs : List Flit} {q : EgressQueue} {st k : Nat} {s : State} (hw : s.ring.wf)
    (hs : ∀ n, n < fs.length → inSpace (wrFlitAddr q st (k + n)) 8 = true)
    (hd : ∀ n p, n < p → p < fs.length → wrFlitAddr q st (k + n) + 8 ≤ wrFlitAddr q st (k + p) ∨
      wrFlitAddr q st (k + p) + 8 ≤ wrFlitAddr q st (k + n)) :
    ∃ m, writeFlits q st s k fs = .ok { s with ring := m } ∧ m.wf ∧
      WritesFlits s.ring m (fun n => wrFlitAddr q st (k + n)) fs := by
  induction fs generalizing s k with
  | nil => exact ⟨s.ring, rfl, hw, by simp, fun _ _ => rfl⟩
  | cons v vs ih =>
    have e : ∀ n, k + 1 + n = k + (n + 1) := fun n => by omega
    obtain ⟨m, h1, h2, h3⟩ := ih (s := { s with ring := s.ring.putFlit (wrFlitAddr q st k) v }) (k := k + 1)
      (Memory.putFlit_wf hw _ v) (fun n hn => by rw [e]; exact hs (n + 1) (by simpa using hn))
      (fun n p hnp hp => by rw [e, e]; exact hd (n + 1) (p + 1) (by omega) (by simpa using hp))
    refine ⟨m, ?_, h2, WritesFlits.cons hw ?_ fun n hn => hd 0 (n + 1) (by omega) (by simpa using hn)⟩
    · rw [writeFlits, ringWrite_eq (a := wrFlitAddr q st k) (hs 0 (by simp)), Res.bind_ok, h1]
    · have e' : (fun n => wrFlitAddr q st (k + (n + 1))) = fun n => wrFlitAddr q st (k + 1 + n) :=
        funext fun n => by rw [e]
      rw [e']; exact h3

/-- A flit of a request lies in the ring. -/
theorem wrFlitAddr_inSpace {q : EgressQueue} (hm : q.mapped = true) (hc : 0 < q.cap.toNat) (st k : Nat) :
    inSpace (wrFlitAddr q st k) 8 = true := by
  have := Nat.mod_lt (8 * st + k) (show 0 < 8 * q.cap.toNat by omega)
  simp only [EgressQueue.mapped, inSpace, decide_eq_true_eq] at *
  unfold wrFlitAddr
  generalize (8 * st + k) % (8 * q.cap.toNat) = x at *
  omega

/-- Two flits of a request no longer than the ring do not meet (20_memory R94). -/
theorem wrFlitAddr_apart {q : EgressQueue} {st j k : Nat} (hjk : j < k) (hk : k < j + 8 * q.cap.toNat) :
    wrFlitAddr q st j + 8 ≤ wrFlitAddr q st k ∨ wrFlitAddr q st k + 8 ≤ wrFlitAddr q st j := by
  have hne : (8 * st + j) % (8 * q.cap.toNat) ≠ (8 * st + k) % (8 * q.cap.toNat) := by
    intro h
    have h1 : (8 * st + k - (8 * st + j)) % (8 * q.cap.toNat) = 0 := Nat.sub_mod_eq_zero_of_mod_eq h.symm
    rw [Nat.mod_eq_of_lt (by omega)] at h1
    omega
  unfold wrFlitAddr
  omega

/-! ## Queues -/

/-- The indices of the queues that satisfy a test. -/
theorem indicesOf_mem {α : Type} (p : α → Bool) (l : List (Option α)) (j : Nat) :
    j ∈ indicesOf p l ↔ ∃ q, (l[j]?).join = some q ∧ p q = true := by
  unfold indicesOf
  simp only [List.mem_filterMap, Prod.exists]
  constructor
  · rintro ⟨a, k, h, h2⟩
    rw [List.mem_zipIdx_iff_getElem?] at h
    cases a with
    | none => simp at h2
    | some q =>
      simp only [Option.ite_none_right_eq_some, Option.some.injEq] at h2
      obtain ⟨h3, rfl⟩ := h2
      exact ⟨q, by simp_all, h3⟩
  · rintro ⟨q, h1, h2⟩
    refine ⟨some q, j, ?_, by simp [h2]⟩
    rw [List.mem_zipIdx_iff_getElem?]
    cases h : l[j]? with
    | none => simp [h] at h1
    | some x => simp only [h, Option.join_some] at h1; simp [h1]

/-- Indices are listed in rising order. -/
theorem indicesOf_sorted {α : Type} (p : α → Bool) (l : List (Option α)) : (indicesOf p l).Pairwise (· < ·) := by
  have h : l.zipIdx.Pairwise fun x y => x.2 < y.2 := by
    have h := List.pairwise_lt_range' (s := 0) (n := l.length) (step := 1)
    rw [← List.zipIdx_map_snd, List.pairwise_map] at h
    exact h
  refine h.filterMap _ fun x y hxy a ha b hb => ?_
  have snd : ∀ (z : Option α × Nat) (c : Nat),
      (match z.1 with | some q => if p q then some z.2 else none | none => none) = some c → z.2 = c := by
    intro z c hc
    split at hc
    · simpa using (Option.ite_none_right_eq_some.mp hc).2
    · cases hc
  rw [← snd x a ha, ← snd y b hb]
  exact hxy

/-- One queue alone satisfies the test. -/
theorem indicesOf_eq_singleton {α : Type} {p : α → Bool} {l : List (Option α)} {i : Nat} {q : α}
    (h : (l[i]?).join = some q) (hp : p q = true) (hu : ∀ (j : Nat) (x : α), (l[j]?).join = some x → p x = true → j = i) :
    indicesOf p l = [i] := by
  have hm : i ∈ indicesOf p l := (indicesOf_mem p l i).mpr ⟨q, h, hp⟩
  have hall : ∀ j ∈ indicesOf p l, j = i := fun j hj => by
    obtain ⟨x, h1, h2⟩ := (indicesOf_mem p l j).mp hj
    exact hu j x h1 h2
  have hs := indicesOf_sorted p l
  cases hl : indicesOf p l with
  | nil => simp [hl] at hm
  | cons a rest =>
    rw [hl] at hall hs
    have ha := hall a (by simp)
    cases rest with
    | nil => rw [ha]
    | cons b rest =>
      have hb := hall b (by simp)
      have := (List.pairwise_cons.mp hs).1 b (by simp)
      omega

/-- No queue satisfies the test. -/
theorem indicesOf_eq_nil {α : Type} {p : α → Bool} {l : List (Option α)}
    (h : ∀ (j : Nat) (x : α), (l[j]?).join = some x → p x = false) : indicesOf p l = [] := by
  apply List.eq_nil_iff_forall_not_mem.mpr
  intro j hj
  obtain ⟨x, h1, h2⟩ := (indicesOf_mem p l j).mp hj
  simp [h j x h1] at h2

/-- Writing back what a list of contexts holds changes nothing. -/
theorem set_self {α : Type} {l : List (Option α)} {i : Nat} {q : α} (h : (l[i]?).join = some q) :
    l.set i (some q) = l := by
  apply List.ext_getElem?
  intro j
  rw [List.getElem?_set]
  split
  · rename_i e; subst e
    split
    · cases hh : l[i]? <;> simp_all
    · rw [List.getElem?_eq_none (by omega)]
  · rfl

/-! ## MMIO writes and the model's own fields -/

/-- The device's reaction does not look at what was returned and raised. -/
theorem devAdvance_answered (s : State) (q : QRef) (n : Nat) (r : Ret) (es : List Exc) :
    devAdvance { s with ret := r, raised := es } q n = { devAdvance s q n with ret := r, raised := es } := by
  cases q with
  | fl i =>
    show (match s.flAt i, s.devFlAt i with | some _, some _ => _ | _, _ => _) = _
    unfold devAdvance
    dsimp only
    cases s.flAt i <;> cases s.devFlAt i <;> rfl
  | eq i =>
    show (match s.eqAt i, s.devEqAt i with | some _, some _ => _ | _, _ => _) = _
    unfold devAdvance
    dsimp only
    cases s.eqAt i <;> cases s.devEqAt i <;> rfl

/-- An MMIO write does not look at what was returned and raised. -/
theorem mmioWrite_answered (s : State) (w : MmioWrite) (r : Ret) (es : List Exc) :
    mmioWrite { s with ret := r, raised := es } w = { mmioWrite s w with ret := r, raised := es } := by
  have h : devReact (State.logMmio { s with ret := r, raised := es } w) w =
      (devReact (s.logMmio w) w).map fun t => { t with ret := r, raised := es } := by
    have ha := devAdvance_answered (s.logMmio w)
    cases w with
    | word reg v =>
      cases reg with
      | icw =>
        show (match creditTarget s v with | some _ => _ | none => _) =
          Option.map _ (match creditTarget s v with | some _ => _ | none => _)
        cases creditTarget s v with
        | none => rfl
        | some i =>
          show Option.map _ (s.devIqAt i) = Option.map _ (Option.map _ (s.devIqAt i))
          cases s.devIqAt i <;> rfl
      | db =>
        show Option.map _ (doorbellTarget s v) = Option.map _ (Option.map _ (doorbellTarget s v))
        cases doorbellTarget s v with
        | none => rfl
        | some q => exact congrArg some (ha q _ r es)
      | udb a =>
        show Option.map _ (doorbellTarget s v) = Option.map _ (Option.map _ (doorbellTarget s v))
        cases doorbellTarget s v with
        | none => rfl
        | some q => exact congrArg some (ha q _ r es)
    | burst a fs =>
      show Option.map _ (windowTarget s a) = Option.map _ (Option.map _ (windowTarget s a))
      cases windowTarget s a with
      | none => rfl
      | some i => exact congrArg some (ha (.eq i) _ r es)
  unfold mmioWrite
  rw [h]
  cases devReact (s.logMmio w) w <;> rfl

/-- What telling changes: the queues' own counts. -/
theorem tell_state (s : State) (r : QRef) (n : Nat) : ∃ iq eq, tell s r n = { s with iq := iq, eq := eq } := by
  cases r with
  | fl i => unfold tell; dsimp only; split <;> exact ⟨_, _, rfl⟩
  | eq i => unfold tell; dsimp only; split <;> exact ⟨_, _, rfl⟩

/-- A doorbell word standing alone: what was not told before is told. -/
theorem doorbellAlone_ok {s t : State} {reg : MmioReg} {v : BitVec 32} (h : doorbellAlone s reg v = some t) :
    ∃ r, doorbellTarget s v = some r ∧ 1 ≤ (decodeDbw v).pidxInc.toNat ∧
      (decodeDbw v).pidxInc.toNat ≤ dbIncLimit s.cfg ∧ (decodeDbw v).pidxInc.toNat ≤ untold s r ∧
        ownRegister s reg r = true ∧ t = tell (mmioWrite s (.word reg v)) r (decodeDbw v).pidxInc.toNat := by
  unfold doorbellAlone at h
  split at h
  · cases h
  · rename_i r hr
    simp only [Option.ite_none_right_eq_some, Bool.and_eq_true, decide_eq_true_eq, Option.some.injEq] at h
    obtain ⟨⟨⟨⟨h1, h2⟩, h3⟩, h4⟩, rfl⟩ := h
    exact ⟨r, hr, h1, h2, h3, h4, rfl⟩

/-- A credit word standing alone is the write. -/
theorem creditAlone_ok {s t : State} {v : BitVec 32} (h : creditAlone s v = some t) :
    t = mmioWrite s (.word .icw v) := by
  unfold creditAlone at h
  split at h
  · cases h
  · split at h
    · simp only [Option.ite_none_left_eq_some, Option.some.injEq] at h
      exact h.2.symm
    · cases h

/-- A burst standing alone tells of one descriptor. -/
theorem burstAlone_ok {s t : State} {a : Addr} {fs : List Flit} (h : burstAlone s a fs = .ok (some t)) :
    ∃ i, windowTarget s a = some i ∧ 1 ≤ untold s (.eq i) ∧ t = tell (mmioWrite s (.burst a fs)) (.eq i) 1 := by
  unfold burstAlone at h
  split at h
  · cases h
  · rename_i i hi
    split at h
    · obtain ⟨ring, _, h⟩ := Res.bind_eq_ok.mp h
      split at h
      · rename_i hc
        simp only [Bool.and_eq_true, decide_eq_true_eq] at hc
        cases h
        exact ⟨i, hi, hc.1, rfl⟩
      · cases h
    · cases h

/-- A write standing alone: the write, and for a doorbell or a burst the slots it tells are pending no more. -/
theorem writeAlone_ok {s t : State} {w : MmioWrite} (h : writeAlone s w = .ok (some t)) :
    t = mmioWrite s w ∨ ∃ r n, 1 ≤ n ∧ n ≤ untold s r ∧ t = tell (mmioWrite s w) r n := by
  cases w with
  | burst a fs =>
    obtain ⟨i, _, h2, h3⟩ := burstAlone_ok h
    exact .inr ⟨_, _, Nat.le_refl 1, h2, h3⟩
  | word reg v =>
    cases reg with
    | icw => exact .inl (creditAlone_ok (by simpa [writeAlone] using h))
    | db =>
      obtain ⟨r, _, h1, _, h3, _, h5⟩ := doorbellAlone_ok (reg := .db) (by simpa [writeAlone] using h)
      exact .inr ⟨r, _, h1, h3, h5⟩
    | udb a =>
      obtain ⟨r, _, h1, _, h3, _, h5⟩ := doorbellAlone_ok (reg := .udb a) (by simpa [writeAlone] using h)
      exact .inr ⟨r, _, h1, h3, h5⟩

/-- The write of a status page stores one flit of ring space. -/
theorem writeStatus_ok {s t : State} {q : QRef} {r : Sp} {x : Ret} (h : writeStatus s q r = .ok (some (t, x))) :
    x = .ok ∧ ∃ a, t = { s with ring := s.ring.putFlit a (encodeSp r) } := by
  unfold writeStatus at h
  split at h
  all_goals
    split at h
    · obtain ⟨u, h1, h2⟩ := Res.bind_eq_ok.mp h
      cases h2
      exact ⟨rfl, _, (ringWrite_ok h1).2⟩
    · cases h

end Sys2Proof.Machine
end

