-- ==== Sys2Proof/Tests/Slice0.lean ====
section
/-! SUPPORT. Tests: what WellFormed refuses, the words of every instruction written out from the spec, one step of the
families on small states, and states that meet the hypotheses of the statements. -/

namespace Sys2Proof.Tests

open Sys2Proof Sys2Proof.Machine

-- The theorems of this file are elaborated one after another: many kernel evaluations at once take a thread each.
set_option Elab.async false

/-! ## WellFormed: an ill-formed term for each check -/

theorem test_wf_oob : (Instr.iqeOob 0 { opcode := 0x21 }).wellFormed = false := by decide +kernel

/-- A single-packet request of one byte (30_encoding R136). -/
def pktBody : List Flit := [0x1100000000000001, 0xAB00000000000000]

def pktHead : WrHeader := { immdlen := 9, len16 := 2 }

theorem test_wf_pkt : (Instr.ethTxPkt 0 0 pktHead pktBody).wellFormed = true := by decide +kernel

theorem test_wf_pkt_checks :
    (Instr.ethTxPkt 0 0 pktHead [0]).wellFormed = false ∧
    (Instr.ethTxPkt 0 0 { pktHead with len16 := 3 } pktBody).wellFormed = false ∧
    (Instr.ethTxPkt 0 0 { pktHead with npkt := 1 } pktBody).wellFormed = false ∧
    (Instr.ethTxPkt 0 0 { pktHead with plen := 1 } pktBody).wellFormed = false ∧
    (Instr.ethTxPkt 0 0 { pktHead with rsvd := 1 } pktBody).wellFormed = false := by decide +kernel

/-- A reserved bit of the packet header or of the list, immediate data that is not the packet's length, and immediate data
after an LSO prefix. -/
theorem test_wf_pkt_body :
    (Instr.ethTxPkt 0 0 pktHead [0x1101000000000001, 0xAB00000000000000]).wellFormed = false ∧
    (Instr.ethTxPkt 0 0 { immdlen := 8, len16 := 3 } [0x1100000000000064, 0x1201000100000064, 0x9000]).wellFormed = false ∧
    (Instr.ethTxPkt 0 0 pktHead [0x1100000000000002, 0xAB00000000000000]).wellFormed = false ∧
    (let b : PktBody := ⟨some { mss := 4 }, { pktLen := 1 }, .imm [0xAB]⟩;
      (Instr.ethTxPkt 0 0 (pktHeader 0 b) (encodePktBody b)).wellFormed = false) := by decide +kernel

/-- A coalesced request of one packet (30_encoding R138). -/
def pktsBody : List Flit := [0x1100000000000064, 0x1200000100000064, 0x9000]

def pktsHead : WrHeader := { npkt := 1, len16 := 3, plen := 100 }

theorem test_wf_pkts : (Instr.ethTxPkts 0 [4] pktsHead pktsBody).wellFormed = true := by decide +kernel

theorem test_wf_pkts_checks :
    (Instr.ethTxPkts 0 [] { len16 := 1 } []).wellFormed = false ∧
    (Instr.ethTxPkts 0 [4, 5] pktsHead pktsBody).wellFormed = false ∧
    (Instr.ethTxPkts 0 [4] { pktsHead with immdlen := 8 } pktsBody).wellFormed = false ∧
    (Instr.ethTxPkts 0 [4] { pktsHead with len16 := 2 } pktsBody).wellFormed = false ∧
    (Instr.ethTxPkts 0 [4] { pktsHead with plen := 99 } pktsBody).wellFormed = false ∧
    (Instr.ethTxPkts 0 [4] { pktsHead with rsvd := 1 } pktsBody).wellFormed = false ∧
    (Instr.ethTxPkts 0 [4] pktsHead [0x1100000000000064]).wellFormed = false ∧
    (Instr.ethTxPkts 0 [4] pktsHead [0x1101000000000064, 0x1200000100000064, 0x9000]).wellFormed = false := by decide +kernel

/-- 30_encoding R139: the pad flit stands after an odd number of flits only. -/
theorem test_wf_pad :
    (Instr.ethTxPkt 0 0 { pktHead with len16 := 3 } (pktBody ++ [0])).wellFormed = false ∧
    (Instr.ethTxPkts 0 [4] pktsHead (pktsBody ++ [0])).wellFormed = true ∧
    (Instr.ethTxPkts 0 [4, 5] { npkt := 2, len16 := 4, plen := 200 } (pktsBody ++ pktsBody)).wellFormed = true ∧
    (Instr.ethTxPkts 0 [4, 5] { npkt := 2, len16 := 5, plen := 200 } (pktsBody ++ pktsBody ++ [0])).wellFormed = false := by
  decide +kernel

theorem test_wf_opaque :
    (Instr.wrOpaque 0 [0x8000000000000001, 0]).wellFormed = true ∧
    (Instr.wrOpaque 0 [0x0000000000000001, 0]).wellFormed = false ∧
    (Instr.wrOpaque 0 [0x0100000000000001, 0]).wellFormed = false ∧
    (Instr.wrOpaque 0 [0x0200000000000001, 0]).wellFormed = false ∧
    (Instr.wrOpaque 0 [0x8000000000000002, 0]).wellFormed = false ∧
    (Instr.wrOpaque 0 [0x8000000000000001]).wellFormed = false ∧
    (Instr.wrOpaque 0 []).wellFormed = false := by decide +kernel

theorem test_wf_zero_op :
    (Instr.wrReserved00 0 [0x8000000000000001]).wellFormed = false ∧ (Instr.wrReserved00 0 []).wellFormed = false := by
  decide +kernel

theorem test_wf_sgl : (Instr.sgl 0 2 []).wellFormed = false := by decide +kernel

theorem test_wf_sgl_long (segs : List PktSeg) (h : segs.length = 65536) : (Instr.sgl 0 2 segs).wellFormed = false := by
  simp [Instr.wellFormed, h]

theorem test_wf_records :
    (Instr.immediateData 0 2 []).wellFormed = false ∧ (Instr.dbw .db ⟨7, 0⟩).wellFormed = false ∧
    (Instr.icw ⟨5, 6, false, 0⟩).wellFormed = false ∧ (Instr.icw ⟨5, 7, true, 0⟩).wellFormed = false ∧
    (Instr.wcBurst 0 (List.replicate 7 0)).wellFormed = false ∧ (Instr.lso 0 2 { rsvdA := 1 }).wellFormed = false ∧
    (Instr.lso 0 2 { rsvdB := 1 }).wellFormed = false ∧ (Instr.lso 0 2 { rsvdC := 1 }).wellFormed = false ∧
    (Instr.txpkt 0 2 { rsvd := 1 }).wellFormed = false := by decide +kernel

/-! ## The words of every instruction (30_encoding; 95_test_vectors section 3.2) -/

/-- The decoder reads `i` from these words. -/
def reads (w : Words) (i : Instr) : Bool := match decode w with | .ok j => j = i | .error _ => false

theorem test_decode_commands :
    reads (.command 0x01 (.createIq 0 {})) (.createIq 0 {}) ∧ reads (.command 0x02 (.createFl 0 {})) (.createFl 0 {}) ∧
    reads (.command 0x03 (.createEq 0 {})) (.createEq 0 {}) ∧ reads (.command 0x04 (.queue 3)) (.teardownIq 3) ∧
    reads (.command 0x05 (.queue 3)) (.teardownEq 3) ∧ reads (.command 0x06 .none) .timerTick ∧
    reads (.command 0x10 (.count 1 64)) (.refill 1 64) ∧
    reads (.command 0x20 (.segment (.copy 2 60))) (.frameRelease (.copy 2 60)) ∧
    reads (.command 0x30 (.queue 3)) (.interrupt 3) ∧ reads (.command 0x31 (.bound 3 64)) (.service 3 64) ∧
    reads (.command 0x32 .none) .deferredRun ∧ reads (.command 0x40 (.packet 1 {})) (.submit 1 {}) ∧
    reads (.command 0x41 (.flits 1 [0, 1])) (.submitWr 1 [0, 1]) ∧ reads (.command 0x42 (.queue 1)) (.txpktsFlush 1) ∧
    reads (.command 0x50 (.bound 1 32)) (.reclaim 1 32) ∧ reads (.command 0x51 (.ring (.eq 1))) (.notify (.eq 1)) := by
  decide +kernel

theorem test_decode_unencoded :
    ∀ i ∈ [Instr.txDone 0, .findBestRefillSource 1500 true, .findSafeRefillSource false, .consumeFrame 0 60 true,
      .txpktsOpen 0, .txpktsAdd 0 {}, .resumeCheck 0 3, .devDb (.word .db 0x00070020), .devFl 0 1, .devRx 0 [1] {} false,
      .devOob 0 5, .devFwd 0 1, .devTx 0, .devStatus (.fl 0), .devIntr 0], reads (.unencoded i) i := by decide +kernel

/-- A receive entry of 60 bytes with VLAN tag 100, then one of 1500 bytes with `NEWBUF` and `GEN`. -/
theorem test_decode_rx :
    reads (.entry 0 [0x20, 0x40, 0x00, 0x64, 0, 0, 0, 0x3C, 0, 0, 0, 0x3C, 0, 0, 0, 0])
      (.iqeRx 0 { vlanValid := true, vlanTag := 100, msgLen := 60, len := 60 }) ∧
    reads (.entry 0 [0x20, 0x80, 0, 0, 0, 0, 0x05, 0xDC, 0x80, 0, 0x05, 0xDC, 0, 0, 0, 0x80])
      (.iqeRx 0 { csumOk := true, msgLen := 1500, newbuf := true, len := 1500, footer := { gen := true } }) := by
  decide +kernel

theorem test_decode_entries :
    reads (.entry 0 [0x21, 0, 0, 0x07, 0, 0x05, 0, 0, 0, 0, 0, 0, 0, 0, 0, 0x90])
      (.iqeEgrUpdate 0 { eqid := 7, cidx := 5, footer := { gen := true } }) ∧
    reads (.entry 0 [0x35, 0, 0, 0, 0, 0x12, 0x34, 0x56, 0, 0, 0, 0, 0, 0, 0, 0x90])
      (.iqeOob 0 { opcode := 0x35, data := 0x123456, footer := { gen := true } }) ∧
    reads (.entry 0 [0, 0, 0, 0, 0, 0, 0, 0, 0, 0, 0, 0x09, 0, 0, 0, 0xA0])
      (.iqeFwd 0 { targetQid := 9, footer := { gen := true } }) ∧
    reads (.entry 0 [0, 0, 0, 0, 0, 0, 0, 0, 0, 0, 0, 0, 0, 0, 0, 0xB0]) (.iqeReserved 0 { footer := { gen := true } }) := by
  decide +kernel

theorem test_decode_requests :
    reads (.request 1 [4] [0x01, 0, 0, 0x09, 0, 0x01, 0x23, 0x02, 0, 0, 0, 0, 0, 0, 0, 0,
        0x11, 0, 0, 0, 0, 0, 0, 0x01, 0xAB, 0, 0, 0, 0, 0, 0, 0])
      (.ethTxPkt 1 4 { immdlen := 9, flowid := 0x123, len16 := 2 } [0x1100000000000001, 0xAB00000000000000]) ∧
    reads (.request 1 [4] [0x02, 0x01, 0, 0, 0, 0x01, 0x23, 0x03, 0, 0x64, 0, 0, 0, 0, 0, 0,
        0x11, 0, 0, 0, 0, 0, 0, 0x64, 0x12, 0, 0, 0x01, 0, 0, 0, 0x64, 0, 0, 0, 0, 0, 0, 0x90, 0])
      (.ethTxPkts 1 [4] { npkt := 1, flowid := 0x123, len16 := 3, plen := 100 } pktsBody) ∧
    reads (.request 1 [] [0x80, 0, 0, 0, 0, 0, 0, 0x01, 0, 0, 0, 0, 0, 0, 0, 0xAA])
      (.wrOpaque 1 [0x8000000000000001, 0xAA]) ∧
    reads (.request 1 [] [0, 0, 0, 0, 0, 0, 0, 0x01]) (.wrReserved00 1 [1]) := by decide +kernel

theorem test_decode_parts :
    reads (.part 1 2 [0x10, 0, 0x0E, 0x14, 0x20, 0, 0, 0, 0x05, 0xA8, 0, 0, 0, 0, 0xFE, 0xCA])
      (.lso 1 2 { l2len := 14, l3len := 20, l4len := 32, mss := 1448, totalLen := 65226 }) ∧
    reads (.part 1 2 [0x11, 0xE0, 0xFF, 0xFF, 0, 0, 0xFF, 0xFF])
      (.txpkt 1 2 { l3CsumEn := true, l4CsumEn := true, vlanEn := true, vlanTag := 0xFFFF, pktLen := 65535 }) ∧
    reads (.part 1 3 [0x12, 0, 0, 0x02, 0, 0, 0x01, 0, 0, 0, 0, 0, 0, 0, 0x10, 0, 0, 0, 0x02, 0, 0, 0, 0, 0,
        0, 0, 0, 0, 0, 0, 0x20, 0])
      (.sgl 1 3 [⟨0x1000, 0x100⟩, ⟨0x2000, 0x200⟩]) ∧
    reads (.immediate 1 3 3 [0x61, 0x62, 0x63, 0, 0, 0, 0, 0]) (.immediateData 1 3 [0x61, 0x62, 0x63]) := by
  decide +kernel

theorem test_decode_records :
    reads (.freeListEntry 0 [0, 0, 0, 0, 0, 0x3F, 0xFF, 0xF5]) (.fle 0 ⟨0x3FFFF, 5⟩) ∧
    reads (.regWrite .db 0x00070020) (.dbw .db ⟨7, 32⟩) ∧
    reads (.regWrite (.udb 0x77000) 0x000C0008) (.dbw (.udb 0x77000) ⟨12, 8⟩) ∧
    reads (.regWrite .icw 0x00530003) (.icw ⟨5, 1, true, 3⟩) ∧
    reads (.statusPage (.eq 0) [0, 0, 0, 0x0C, 0, 0x03, 0, 0x07]) (.sp (.eq 0) ⟨0, 12, 3, 7⟩) ∧
    reads (.burst 0x66000 (List.replicate 63 0 ++ [0x05])) (.wcBurst 0x66000 [0, 0, 0, 0, 0, 0, 0, 5]) := by
  decide +kernel

/-- The decoder rejects these words with this reason. -/
def rejects (w : Words) (e : DecodeError) : Bool := match decode w with | .ok _ => false | .error f => f = e

theorem test_decode_rejects :
    rejects (.command 0x07 .none) (.unknownCode 0x07) ∧ rejects (.command 0x30 .none) (.wrongOperands 0x30) ∧
    rejects (.part 0 2 [0x13, 0, 0, 0, 0, 0, 0, 0]) (.unknownSubOp 0x13) ∧
    rejects (.unencoded .timerTick) .hasEncoding ∧ rejects (.entry 0 [0]) .wrongLength := by decide +kernel

/-! ## Small states -/

/-- The next state of an instruction, if there is one. -/
def after (i : Instr) (s : State) : Option State := match exec i s with | .next t => some t | _ => none

def iq0 : IngressQueue := newIq { qid := 1, base := 0x1000, cap := 4, budget := 4, timerIdx := 1 }

def fl0 : FreeList :=
  newFl { qid := 7, base := 0x4000, cap := 16, lowat := 4, refillThresh := some 0 } { metaOff := 2048 } none

def eq0 : EgressQueue := newEq { qid := 9, flowid := 5, base := 0x8000, cap := 16, resumeThreshold := 2 }

/-- A free list whose slot 0 is posted with buffer `h`. -/
def posted (h : Nat) : FreeList := { fl0 with pidx := 1, sdesc := fl0.sdesc.set 0 ⟨some h, { metaOff := 2048 }, 0⟩ }

def withFl (q : IngressQueue) (fl : FreeList) : IngressQueue := { q with fl := some fl }

/-- One queue of each kind, with a buffer without and one with a reference count. -/
def machine (q : IngressQueue) (e : EgressQueue) : State :=
  { State.reset with
    iq := [some q], eq := [some e], devFl := [some {}], devIq := [some { credits := 3, armed := true }]
    devEq := [some {}], arena := [⟨0, 0x100000, 0, false, 0⟩, ⟨1, 0x200000, 0, true, 1⟩] }

def m0 : State := machine iq0 eq0

/-- The ring with flits stored from an address. -/
def stored (m : Memory) (a : Nat) : List Flit → Memory
  | [] => m
  | v :: vs => stored (m.putFlit a v) (a + 8) vs

/-! ## One step, on the spec's own examples -/

/-- 47_system R430: "credit word `0x00530000`". -/
theorem test_create_iq :
    (after (.createIq 0 { qid := 5, base := 0x20000, cap := 2, budget := 64, timerIdx := 1, cntEn := true })
      State.reset).map (·.mmio) = some [.word .icw 0x00530000] := by decide +kernel

/-- 47_system R431: `cll_def = {hwidx 0, zone 0, 0, 2048}`. -/
theorem test_create_fl : (after (.createFl 0 { base := 0x4000, cap := 16, maxp := 1500 }) m0).map
    (fun t => (t.flAt 0).map (·.cllDef)) = some (some ⟨0, 0, 0, 2048⟩) := by decide +kernel

/-- 47_system R432: `avail = 15`, `maps_free = 16`. -/
theorem test_create_eq : (after (.createEq 0 { base := 0x4000, cap := 16, resumeThreshold := 8 }) State.reset).map
    (fun t => (t.eqAt 0).map fun q => (q.avail, q.mapsFree)) = some (some (15, 16)) := by decide +kernel

/-- 47_system R434: `pidx = 5`, `cidx = 0`, status page `CIDX = 5`: `Done`. -/
theorem test_teardown_eq :
    (after (.teardownEq 0) { machine iq0 { eq0 with pidx := 5, avail := 10, sdesc := eq0.sdesc.set 0 ⟨5, 0, 0⟩ } with
      ring := stored [] 0x8400 [0x0000000900050005] }).map (·.ret) = some .done := by decide +kernel

/-- 40_free_list R186: `(1500, packing = 1)`. -/
theorem test_find_best : (after (.findBestRefillSource 1500 true) State.reset).map (·.ret) =
    some (.layout (some ⟨5, 3, 0, 16368⟩)) := by decide +kernel

/-- The model's choice of log 39: a list with DOOMED set answers DOOMED, whatever the count. -/
theorem test_refill_doomed : (after (.refill 0 65536)
      (machine (withFl iq0 { fl0 with doomed := true }) eq0)).map (·.ret) = some (.refused .doomed) := by decide +kernel

/-- 40_free_list R190, 30_encoding R122: the entry of a recycled buffer. -/
theorem test_refill : (after (.refill 0 1)
      (machine (withFl iq0 { fl0 with sdesc := fl0.sdesc.set 0 ⟨some 1, { hwidx := 2, metaOff := 2032 }, 0⟩ }) eq0)).map
    (fun t => (t.ring.flit 0x4000, t.ret)) = some (0x0000000000200002, .refilled 1 true) := by decide +kernel

/-- 41_frame_reassembly R226: cursor 0, a frame of 1500: 1536. -/
theorem test_consume_packed : (after (.consumeFrame 0 1500 false)
      (machine (withFl iq0 { posted 1 with
        packing := true, sdesc := fl0.sdesc.set 0 ⟨some 1, { hwidx := 5, metaOff := 16368 }, 0⟩ }) eq0)).map
    (fun t => (t.flAt 0).map fun fl => (fl.rxOffset, fl.cidx)) = some (some (1536, 0)) := by decide +kernel

/-- 41_frame_reassembly R225: a shared segment, `refcount = 2`. -/
theorem test_consume_shared : (after (.consumeFrame 0 1500 false) (machine (withFl iq0 (posted 1)) eq0)).map
    (fun t => (t.ret, t.bufferOf 1)) =
    some (.complete { segs := [.shared 1 0 1500], len := 1500 }, some ⟨1, 0x200000, 0, true, 2⟩) := by decide +kernel

/-- 60_exceptions R458: releasing a segment twice. -/
theorem test_release_twice :
    exec (.frameRelease (.owned 0 0 60)) { m0 with out := [.deliver 1 { segs := [.owned 0 0 60], len := 60 }] } =
      .next (takePanic { m0 with out := [.deliver 1 { segs := [.owned 0 0 60], len := 60 }] }) := rfl

/-- 42_ingress_service R253: an entry whose buffers are there. -/
theorem test_iqe_rx : (after
      (.iqeRx 0 { csumOk := true, msgLen := 1500, newbuf := true, len := 1500, footer := { gen := true } })
      (machine { withFl iq0 (posted 0) with state := .busy } eq0)).map (·.out) =
    some [.deliver 1 { segs := [.owned 0 0 1500], len := 1500, fm := ⟨true, false, 0⟩ }] := by decide +kernel

/-- 30_encoding R130, 43_egress_submit R312: a header of immediate data, and a byte. -/
theorem test_submit : (after (.submit 0 { handle := 3, len := 1, segs := [⟨0x900000, 1⟩] })
      { m0 with buf := [(0x900000, 0xAB)] }).map
    (fun t => (t.ring.flit 0x8000, t.ring.flit 0x8018, t.out)) =
    some (0x0100000900000502, 0xAB00000000000000, [.freePkt 3]) := by decide +kernel

/-- 44_coalescing R355: the header of three packets, `NPKT = 3`, `LEN16 = 6`, `PLEN = 300`. -/
theorem test_flush : (after (.txpktsFlush 0) (machine iq0 { eq0 with
      flowid := 0x123, txpkts := ⟨true, 3, 11, 300, 0⟩ })).map (fun t => (t.ring.flit 0x8000, t.ring.flit 0x8008)) =
    some (0x0203000000012306, 0x012C000000000000) := by decide +kernel

/-- 45_reclaim_doorbell R371: record `{2, 1, 1}` at `cidx = 3`, status page `CIDX = 4`. -/
theorem test_reclaim : (after (.reclaim 0 32) { machine iq0 { eq0 with
      pidx := 5, cidx := 3, avail := 13, sdesc := eq0.sdesc.set 3 ⟨2, 1, 1⟩ } with
      ring := stored [] 0x8400 [0x0000000900040005] }).map (·.ret) = some (.reclaimed 0 0) := by decide +kernel

/-- 45_reclaim_doorbell R372: `avail = 3`, 2 reclaimable, `resume_threshold = 5`. -/
theorem test_resume : (after (.resumeCheck 0 14) { machine iq0 { eq0 with
      pidx := 8, cidx := 12, avail := 3, resumeThreshold := 5, state := .stalled } with stalled := [0] }).map
    (fun t => (t.out, t.stalled)) = some ([.eqResumed 9], []) := by decide +kernel

/-- 45_reclaim_doorbell R373: free list `qid = 7`, `pending = 32`: `0x00070020`. -/
theorem test_notify : (after (.notify (.fl 0)) (machine (withFl iq0 { fl0 with pending := 32 }) eq0)).map (·.mmio) =
    some [.word .db 0x00070020] := by decide +kernel

/-- 46_device_agent R403: the entry of a frame of 3 bytes. -/
theorem test_dev_rx : (after (.devRx 0 [1, 2, 3] {} false)
      { machine (withFl iq0 (posted 0)) eq0 with devFl := [some ⟨1, 0, 0⟩], ring := stored [] 0x4000 [0x100000] }).map
    (fun t => (t.ring.flit 0x1000, t.ring.flit 0x1008, t.buf)) =
    some (0x2000000000000003, 0x8000000300000080, [(0x100000, 1), (0x100001, 2), (0x100002, 3)]) := by decide +kernel

/-- 30_encoding R122: the table's own word of a doorbell, run as the first instruction after reset. -/
theorem test_fetch : step (State.reset.withFetchWord 8 0x06) = .next { State.reset with ret := .ok } := rfl

/-- 60_exceptions R460: "every operation on it refuses". -/
theorem test_create_fl_dead : (after (.createFl 0 { base := 0x4000, cap := 16, maxp := 1500 })
    (machine { iq0 with state := .dead } eq0)).map (·.ret) = some (.refused .doomed) := by decide +kernel

/-- 47_system R430, 20_memory R86: an `EMBED_BYTES` that is no multiple of 16. -/
theorem test_create_fl_embed : (after (.createFl 0 { base := 0x4000, cap := 16, maxp := 1500 })
    { m0 with cfg := { m0.cfg with embedBytes := 8 } }).map (·.ret) = some (.refused .badarg) := by decide +kernel

/-- 46_device_agent R407: the device writes the page it has, and no other. -/
theorem test_sp :
    (after (.sp (.eq 0) ⟨0, 9, 0, 0⟩) m0).map (fun t => (t.ret, t.ring.flit 0x8400)) = some (.ok, 0x0000000900000000) ∧
    (after (.sp (.eq 0) ⟨0, 9, 3, 0⟩) m0).map (·.ret) = some .notEnabled := by decide +kernel

/-- 30_encoding R121: the reserved bits of a list's words are ignored. -/
theorem test_decode_sgl_reserved :
    reads (.part 1 3 [0x12, 0xFF, 0, 0x02, 0, 0, 0x01, 0, 0, 0, 0, 0, 0, 0, 0x10, 0, 0, 0, 0x02, 0, 0, 0, 0, 7,
        0, 0, 0, 0, 0, 0, 0x20, 0]) (.sgl 1 3 [⟨0x1000, 0x100⟩, ⟨0x2000, 0x200⟩]) := by decide +kernel

/-- 30_encoding R134: the QE builds no list of 40 segments. -/
theorem test_sgl_long : (after (.sgl 0 3 (List.replicate 40 ⟨0x9000, 3⟩)) m0).map (·.ret) = some (.refused .badarg) ∧
    (after (.sgl 0 3 (List.replicate 39 ⟨0x9000, 3⟩)) m0).map (·.ret) = some .ok := by decide +kernel

/-- The model's choice of log 39: on a torn-down queue a part is refused with DOOMED, whatever it holds. -/
theorem test_sgl_doomed : (after (.sgl 0 3 (List.replicate 40 ⟨0x9000, 3⟩)) (machine iq0 { eq0 with state := .doomed })).map
    (·.ret) = some (.refused .doomed) := by decide +kernel

/-- The model's choice of log 11: a part overwrites flit 3 of the packet that the open accumulator holds. -/
theorem test_part_overwrites :
    (after (.txpkt 0 3 {}) { machine iq0 { eq0 with txpkts := { isOpen := true, npkt := 1, flits := 5 } } with
      ring := stored [] 0x8010 [7, 8, 9] }).map (fun t => (t.ring.flit 0x8010, t.ring.flit 0x8018, t.ret)) =
    some (7, encodeTxpkt {}, .ok) := by decide +kernel

/-- 41_frame_reassembly R229, R230: the segments of a frame of the wrong length were released, and are noted so. -/
theorem test_discarded : (after
      (.iqeRx 0 { opcode := 0x20, msgLen := 1499, newbuf := true, len := 1500, footer := { gen := true } })
      (machine { withFl iq0 (posted 0) with state := .busy } eq0)).map (fun t => (t.given, t.arena.length)) =
    some ([.owned 0 0 1500], 1) := by decide +kernel

/-! ## States that meet the hypotheses of the statements, clause by clause -/

theorem forIq {s : State} {P : Nat → IngressQueue → Prop} (h : ∀ j, j < s.iq.length → ∀ q ∈ s.iqAt j, P j q) :
    ∀ j q, s.iqAt j = some q → P j q := by
  intro j q hq
  refine h j ?_ q hq
  by_contra hc
  simp [State.iqAt, List.getElem?_eq_none (Nat.not_lt.mp hc)] at hq

theorem forEq {s : State} {P : Nat → EgressQueue → Prop} (h : ∀ j, j < s.eq.length → ∀ q ∈ s.eqAt j, P j q) :
    ∀ j q, s.eqAt j = some q → P j q := by
  intro j q hq
  refine h j ?_ q hq
  by_contra hc
  simp [State.eqAt, List.getElem?_eq_none (Nat.not_lt.mp hc)] at hq

theorem forFl {s : State} {P : Nat → FreeList → Prop} (h : ∀ j, j < s.iq.length → ∀ fl ∈ s.flAt j, P j fl) :
    ∀ j fl, s.flAt j = some fl → P j fl := by
  intro j fl hq
  refine h j ?_ fl hq
  by_contra hc
  simp [State.flAt, State.iqAt, List.getElem?_eq_none (Nat.not_lt.mp hc)] at hq

/-- A machine with the words of an instruction handed over. -/
def handed (w : Words) (s : State) : State := { s with port := [w] }

def busy0 : IngressQueue := { iq0 with state := .busy }

/-- A free list with 15 posted buffers' worth of slots, none posted, all recyclable. -/
def ready : FreeList := { fl0 with sdesc := List.replicate 16 ⟨some 0, { metaOff := 2048 }, 0⟩ }

/-- The state a panic leaves is not next from an ordinary step; this one does panic. -/
def twice : State := { m0 with out := [.deliver 1 { segs := [.owned 0 0 60], len := 60 }] }

theorem witness_DecodeEncode :
    (Instr.ethTxPkts 0 [4] pktsHead pktsBody).wellFormed = true ∧
    (Instr.iqeOob 0 { opcode := 0x35, data := 0x123456 }).wellFormed = true := by decide +kernel

theorem witness_SglLayout :
    ([⟨0x1000, 0x100⟩, ⟨0x2000, 0x200⟩, ⟨0x3000, 0x300⟩, ⟨0x4000, 0x400⟩] : List PktSeg).length + 1 ≤ 65535 := by decide

theorem witness_RecordsKeepEveryBit :
    topByte 0x10000E1420000000 = 0x10 ∧ topByte 0x11E0FFFF0000FFFF = 0x11 := by decide

theorem witness_PacketRequestsReadBack :
    (let b : PktBody := ⟨some { mss := 1448 }, {}, .imm [1]⟩;
     match b.payload with
     | .imm data => 1 ≤ data.length ∧ data.length + 24 < 65536
     | .sgl segs => 1 ≤ segs.length ∧ segs.length ≤ 65535) ∧
    (let b : PktBody := ⟨none, {}, .sgl [⟨0x9000, 100⟩]⟩;
     match b.payload with
     | .imm data => 1 ≤ data.length ∧ data.length + 24 < 65536
     | .sgl segs => 1 ≤ segs.length ∧ segs.length ≤ 65535) ∧
    ∀ r ∈ ([⟨{}, [⟨0x9000, 100⟩]⟩] : List PktRecord), 1 ≤ r.segs.length ∧ r.segs.length ≤ 65535 := by decide

theorem witness_StepRunsDecoded :
    m0.port = [] ∧ (handed (.command 0x06 .none) m0).port = [.command 0x06 .none] ∧
    decode (.command 0x06 .none) = .ok .timerTick ∧ Instr.timerTick.wellFormed = true := ⟨rfl, rfl, rfl, rfl⟩

theorem witness_PanicLatch :
    (∃ t, exec (.frameRelease (.owned 0 0 60)) twice = .next t ∧ twice.panic = false ∧ t.panic = true) ∧
    (∃ t, ({ m0 with panic := true } : State).panic = true ∧
      step { m0 with panic := true, port := [.unencoded (.devIntr 0)] } = .next t) ∧
    ({ m0 with panic := true } : State).panic = true ∧ Instr.timerTick.space ≠ .device ∧
      ∀ q r, Instr.timerTick ≠ .sp q r :=
  ⟨⟨_, rfl, rfl, rfl⟩, ⟨_, rfl, rfl⟩, rfl, by decide, fun _ _ => by simp⟩

/-- A step of the machine with one queue of each kind, which every invariant holds of. -/
theorem witness_step : ∃ t, step (handed (.command 0x06 .none) m0) = .next t := ⟨_, rfl⟩

theorem witness_MemoriesStayCanonical : MemoriesCanonical (handed (.command 0x06 .none) m0) := by
  unfold MemoriesCanonical; decide +kernel

theorem witness_IndicesStayInRange : UnlessPanic IndicesInRange (handed (.command 0x06 .none) m0) :=
  .inr ⟨forIq (by decide +kernel), forEq (by decide +kernel)⟩

theorem witness_EgressStaysAccounted : UnlessPanic EgressAccounted (handed (.command 0x06 .none) m0) :=
  .inr (forEq (by decide +kernel))

theorem witness_CoalescingStaysBounded :
    m0.cfg.txpktsMaxPkts < 256 ∧ m0.cfg.wrMaxFlits < 65536 ∧ m0.cfg.txpktsLenBits ≤ 32 ∧
    UnlessPanic CoalescingBounded (handed (.command 0x06 .none) m0) :=
  ⟨by decide, by decide, by decide, .inr (forEq (by decide +kernel))⟩

theorem witness_EgressRecordsExact :
    UnlessPanic (fun u => EgressAccounted u ∧ EgressWalked u ∧ CoalescingBounded u) (handed (.command 0x06 .none) m0) :=
  .inr ⟨forEq (by decide +kernel), forEq (by decide +kernel), forEq (by decide +kernel)⟩

theorem witness_StalledListExact : UnlessPanic StalledExact (handed (.command 0x06 .none) m0) := by
  refine .inr ⟨by decide, fun i => ⟨fun h => absurd h (by simp [handed, m0, machine, State.reset, State.resetWith]), ?_⟩⟩
  rintro ⟨q, hq, hs⟩
  exact absurd hs ((forEq (P := fun _ q => q.state ≠ .stalled) (by decide +kernel)) i q hq)

theorem witness_WorklistStaysExact : UnlessPanic WorklistExact (handed (.command 0x06 .none) m0) := by
  refine .inr ⟨by decide, fun i => ⟨fun h => absurd h (by simp [handed, m0, machine, State.reset, State.resetWith]), ?_⟩⟩
  rintro ⟨q, hq, hs⟩
  exact absurd hs ((forIq (P := fun _ q => q.state ≠ .busy) (by decide +kernel)) i q hq)

theorem witness_StarvingListExact : UnlessPanic StarvingExact (handed (.command 0x06 .none) m0) := by
  refine .inr ⟨by decide, fun i => ⟨fun h => absurd h (by simp [handed, m0, machine, State.reset, State.resetWith]), ?_⟩, ?_⟩
  · rintro ⟨fl, hq, hs⟩
    exact absurd hs ((forFl (P := fun _ fl => fl.starving ≠ true) (by decide +kernel)) i fl hq)
  · intro i q fl hq hf
    have h := (forIq (s := handed (.command 0x06 .none) m0) (P := fun _ q => q.fl = none) (by decide +kernel)) i q hq
    rw [h] at hf; cases hf

theorem witness_RefusalChangesNothing :
    ∃ t, exec (.teardownIq 5) m0 = .next t ∧ t.ret = .refused .badarg := ⟨_, rfl, rfl⟩

theorem witness_DoomedQueueRefuses :
    (machine iq0 { eq0 with state := .doomed }).panic = false ∧
    (machine iq0 { eq0 with state := .doomed }).eqAt 0 = some { eq0 with state := .doomed } ∧
    (machine iq0 { eq0 with state := .dead }).eqAt 0 = some { eq0 with state := .dead } ∧
    (∃ t, exec (.reclaim 0 1) (machine iq0 { eq0 with state := .doomed }) = .next t) ∧
    ∃ t, exec (.notify (.eq 0)) (machine iq0 { eq0 with state := .doomed }) = .next t :=
  ⟨rfl, rfl, rfl, ⟨_, rfl⟩, ⟨_, rfl⟩⟩

theorem witness_CommandsRefused_dead :
    (machine { iq0 with state := .dead } eq0).iqAt 0 = some { iq0 with state := .dead } ∧
    (machine (withFl iq0 { fl0 with doomed := true }) eq0).flAt 0 = some { fl0 with doomed := true } ∧
    (machine iq0 { eq0 with state := .dead }).eqAt 0 = some { eq0 with state := .dead } := ⟨rfl, rfl, rfl⟩

/-- The malformed packets of `Obligations.CommandsRefused`. -/
abbrev BadPacket (p : Packet) : Prop :=
  p.len = 0 ∨ p.segs = [] ∨ (∃ g ∈ p.segs, g.len = 0) ∨ (p.segs.map fun g => g.len.toNat).sum ≠ p.len.toNat ∨
    (p.tso = true ∧ (p.mss = 0 ∨ p.len.toNat ≤ p.l2len.toNat + p.l3len.toNat + p.l4len.toNat))

/-- The bad requests of `Obligations.CommandsRefused`. -/
abbrev BadFlits (fs : List Flit) : Prop :=
  fs.length < 2 ∨ m0.cfg.wrMaxFlits < fs.length ∨
    (∃ f ∈ fs.head?, (f.extractLsb' 56 8).toNat ∈ [0x00, 0x01, 0x02] ∨ (f.extractLsb' 0 8).toNat ≠ (fs.length + 1) / 2)

theorem witness_CommandsRefused_badarg :
    ((0x07 : BitVec 8).toNat ∉ [0x01, 0x02, 0x03, 0x04, 0x05, 0x06, 0x10, 0x20, 0x30, 0x31, 0x32, 0x40, 0x41, 0x42, 0x50,
      0x51] ∧ (handed (.command 0x07 .none) m0).port = .command 0x07 .none :: []) ∧
    m0.iqAt 5 = none ∧ m0.eqAt 5 = none ∧
    ((machine (withFl iq0 fl0) eq0).flAt 0 = some fl0 ∧ fl0.doomed = false ∧ 65535 < 65536) ∧
    ((machine { iq0 with role := .forwarded } eq0).iqAt 0 = some { iq0 with role := .forwarded } ∧ iq0.state ≠ .dead) ∧
    (m0.eqAt 0 = some eq0 ∧ (eq0.state = .active ∨ eq0.state = .stalled)) ∧
    (BadPacket {} ∧ BadPacket { len := 1 } ∧ BadPacket { len := 1, segs := [⟨0, 1⟩, ⟨0, 0⟩] } ∧
      BadPacket { len := 2, segs := [⟨0, 1⟩] } ∧ BadPacket { len := 1, segs := [⟨0, 1⟩], tso := true } ∧
      BadPacket { len := 1, segs := [⟨0, 1⟩], tso := true, mss := 1, l2len := 1 }) := by
  decide +kernel

theorem witness_CommandsRefused_badwr :
    BadFlits [0] ∧ BadFlits (List.replicate 65 0) ∧ BadFlits [0x0200000000000001, 0] ∧
    BadFlits [0x8000000000000002, 0] :=
  ⟨.inl (by decide), .inr (.inl (by decide)), .inr (.inr ⟨_, rfl, .inl (by decide)⟩), .inr (.inr ⟨_, rfl, .inr (by decide)⟩)⟩

theorem legalIq0 : LegalIq State.reset 0 { qid := 4095, base := 0x1000, cap := 2, budget := 1, timerIdx := 5 } :=
  ⟨by decide, forIq0, by decide, fun j q _ hq => absurd hq (by rw [resetIq]; simp), by decide, by decide, by decide,
    by decide, by decide, (fun h => by cases h), by decide⟩
where
  resetIq (j : Nat) : State.reset.iqAt j = none := by
    simp only [State.iqAt, State.reset, State.resetWith, List.getElem?_replicate]; split <;> rfl
  forIq0 : ∀ q, State.reset.iqAt 0 = some q → q.state = .dead := fun q hq => by rw [resetIq] at hq; cases hq

theorem witness_CreateIq :
    LegalIq State.reset 0 { qid := 4095, base := 0x1000, cap := 2, budget := 1, timerIdx := 5 } ∧
    inSpace 0x1000 (16 * 2) = true ∧ State.reset.ring.wf ∧ ¬ LegalIq State.reset 0 { qid := 4096 } ∧
    ¬ LegalIq State.reset 16 {} :=
  ⟨legalIq0, by decide, Memory_wf, fun h => absurd h.2.2.1 (by decide), fun h => absurd h.1 (by decide)⟩
where Memory_wf : Memory.wf [] := by decide

theorem legalFl0 : LegalFl m0 0 { base := 0x4000, cap := 16, maxp := 1500, lowat := 15 } :=
  ⟨⟨iq0, rfl, rfl, rfl⟩, by decide, by decide, by decide, by decide, by decide, by decide, .inl rfl,
    ⟨⟨5, rfl⟩, ⟨6, rfl⟩, by decide, by decide, by decide, by decide, by decide, by decide⟩, by decide⟩

theorem witness_CreateFl :
    (machine { iq0 with state := .dead } eq0).iqAt 0 = some { iq0 with state := .dead } ∧
    LegalFl m0 0 { base := 0x4000, cap := 16, maxp := 1500, lowat := 15 } ∧ m0.iqAt 0 = some iq0 ∧
    findBest m0.cfg 1500 false = some ⟨0, 0, 0, 2048⟩ ∧ inSpace (0x4000 + 8 * 16) 64 = true ∧
    ¬ LegalFl m0 0 { base := 0x4000, cap := 16, lowat := 16 } :=
  ⟨rfl, legalFl0, rfl, by decide +kernel, by decide, fun h => absurd h.2.2.2.2.2.1 (by decide)⟩

theorem legalEq0 : LegalEq State.reset 0 { qid := 9, base := 0x8000, cap := 9, resumeThreshold := 8 } :=
  ⟨by decide, fun q hq => absurd hq (by rw [resetEq]; simp), fun j q _ hq => absurd hq (by rw [resetEq]; simp),
    fun j fl hf => absurd hf (by rw [State.flAt, legalIq0.resetIq]; simp), by decide, by decide, by decide, by decide,
    by decide, by decide, by decide, by decide, by decide⟩
where
  resetEq (j : Nat) : State.reset.eqAt j = none := by
    simp only [State.eqAt, State.reset, State.resetWith, List.getElem?_replicate]; split <;> rfl

theorem witness_CreateEq :
    LegalEq State.reset 0 { qid := 9, base := 0x8000, cap := 9, resumeThreshold := 8 } ∧
    inSpace (0x8000 + 64 * 9) 64 = true ∧
    ¬ LegalEq State.reset 0 { qid := 9, base := 0x8000, cap := 8, resumeThreshold := 1 } :=
  ⟨legalEq0, by decide, fun h => absurd h.2.2.2.2.2.2.1 (by decide)⟩

/-- Rings at the end of the address space. -/
theorem witness_CommandsRefused_fault :
    LegalIq State.reset 0 { base := 0xFFFFFFFFFFFFFFC0, cap := 5, budget := 1 } ∧
    inSpace 0xFFFFFFFFFFFFFFC0 (16 * 5) = false ∧
    LegalFl m0 0 { base := 0xFFFFFFFFFFFFFFC0, cap := 16, maxp := 1500 } ∧
    inSpace (0xFFFFFFFFFFFFFFC0 + 8 * 16) 64 = false ∧
    LegalEq State.reset 0 { base := 0xFFFFFFFFFFFFFFC0, cap := 9, resumeThreshold := 8 } ∧
    inSpace (0xFFFFFFFFFFFFFFC0 + 64 * 9) 64 = false ∧
    ((machine iq0 { eq0 with base := 0xFFFFFFFFFFFFFFC0 }).eqAt 0 = some { eq0 with base := 0xFFFFFFFFFFFFFFC0 } ∧
      inSpace (0xFFFFFFFFFFFFFFC0 + 64 * 16) 8 = false) := by
  obtain ⟨a1, a2, _, a4, _, _, _, _, _, a10⟩ := legalIq0
  obtain ⟨b1, b2, b3, b4, b5, b6, b7, b8, b9⟩ := legalFl0
  obtain ⟨c1, c2, _, _, c5, _⟩ := legalEq0
  refine ⟨⟨a1, a2, by decide, fun j q _ hq => absurd hq (by rw [legalIq0.resetIq]; simp), by decide, by decide, by decide,
    by decide, by decide, (fun h => by cases h), by decide⟩, by decide, ⟨b1, by decide, b3, b4, b5, by decide, by decide, b8, b9⟩,
    by decide, ⟨c1, c2, fun j q _ hq => absurd hq (by rw [legalEq0.resetEq]; simp),
      fun j fl hf => absurd hf (by rw [State.flAt, legalIq0.resetIq]; simp), by decide, by decide, by decide, by decide,
      by decide, by decide, by decide, by decide, by decide⟩, by decide, rfl, by decide⟩

/-! ### Creation, teardown, timer -/

/-- A Forwarder queue and another queue beside it. -/
def pair (p t : IngressQueue) : State :=
  { m0 with
    iq := [some p, some t], devIq := [some { credits := 3, armed := true }, some { credits := 0, armed := true }] }

def forwarder0 : IngressQueue := { iq0 with role := .forwarder }

def child0 : IngressQueue := newIq { qid := 2, base := 0x2000, cap := 4, role := .forwarded, parent := 1, budget := 4 }

/-- A list with a buffer of each kind in its slots, the counted one under a frame segment, and a frame begun. -/
def used : FreeList :=
  { fl0 with
    bufResume := true, resume := some ⟨{ segs := [.shared 1 0 200], len := 200 }, 100⟩, starving := true
    sdesc := (fl0.sdesc.set 0 ⟨some 0, { metaOff := 2048 }, 0⟩).set 1 ⟨some 1, {}, 1⟩ }

def usedState : State :=
  { machine (withFl iq0 used) eq0 with
    starving := [0], arena := [⟨0, 0x100000, 0, false, 0⟩, ⟨1, 0x200000, 0, true, 2⟩] }

theorem witness_TeardownIq :
    m0.iqAt 0 = some iq0 ∧
    (∃ t, (pair forwarder0 child0).iqAt 1 = some t ∧ t.state ≠ .dead ∧ t.parent = forwarder0.qid) ∧
    ¬ (busy0.role = .forwarder) ∧ iq0.state = .idle ∧ iq0.fl = none ∧
    (∃ s1, releaseAll { usedState with starving := [], ret := .none, raised := [] } [.shared 1 0 200] = .ok s1 ∧
      (used.sdesc.filterMap (·.buf)).Nodup ∧
      ∀ h ∈ used.sdesc.filterMap (·.buf), ∃ b, s1.bufferOf h = some b ∧ (b.hasMeta = true → b.refcount ≠ 0)) :=
  ⟨rfl, ⟨_, rfl, by decide⟩, by decide, rfl, rfl, ⟨_, rfl, by decide +kernel⟩⟩

/-- A queue with a request pending that the device has consumed. -/
def sent : EgressQueue := { eq0 with pidx := 2, avail := 13, pending := 2, sdesc := eq0.sdesc.set 0 ⟨2, 0, 0⟩ }

theorem witness_TeardownEq :
    eq0.state ≠ .dead ∧ eq0.txpkts.isOpen = false ∧ eq0.pending = 0 ∧ eq0.mapped = true ∧ eq0.inRange = true ∧
    statusCidx m0 eq0 = eq0.cidx ∧
    (∃ x, reclaim 0 65535 { sent with state := .doomed }
      { machine iq0 { sent with state := .doomed } with ret := .none } = .ok x) ∧
    ∃ q1 s1 q2 s2 x, flushIfOpen sent { machine iq0 sent with ret := .none, raised := [] } = .ok (q1, s1) ∧
      notifyEq q1 s1 = .ok (q2, s2) ∧
      reclaim 0 65535 { q2 with state := .doomed } { s2 with stalled := s2.stalled } = .ok x :=
  ⟨by decide, rfl, rfl, by decide, by decide, by decide +kernel, ⟨_, rfl⟩, ⟨_, _, _, _, _, rfl, rfl, rfl⟩⟩

def starvingState : State := { machine (withFl iq0 { ready with starving := true }) eq0 with starving := [0] }

def stalledState : State := { machine iq0 { sent with state := .stalled } with stalled := [0] }

theorem witness_TimerTick :
    (m0.starving = [] ∧ m0.stalled = []) ∧
    (starvingState.panic = false ∧ starvingState.stalled = [] ∧
      starvingState.iqAt 0 = some (withFl iq0 { ready with starving := true }) ∧ ready.doomed = false ∧
      ready.inRange = true ∧ ready.mapped = true ∧ allRecyclable ready = true ∧ slotsSound starvingState ready = true ∧
      ready.lowat < ready.cap ∧ starvingState.ring.wf ∧ ready.pending.toNat + freeSlots ready < 65536) ∧
    ∃ x, reclaim 0 m0.cfg.egrReclaimBatch { sent with state := .stalled }
      { stalledState with ret := .none, raised := [] } = .ok x :=
  ⟨by decide, by decide +kernel, ⟨_, rfl⟩⟩

/-! ### The free list -/

theorem witness_RefillPosts :
    (machine (withFl iq0 ready) eq0).iqAt 0 = some (withFl iq0 ready) ∧ ready.doomed = false ∧ ready.inRange = true ∧
    ready.mapped = true ∧ allRecyclable ready = true ∧ slotsSound (machine (withFl iq0 ready) eq0) ready = true ∧
    m0.ring.wf ∧ ready.pending = 0 ∧ ready.dbGroups = 0 ∧ ready.cap.toNat % 8 = 0 ∧ freeSlots ready ≤ m0.cfg.dbIncMax := by
  decide +kernel

/-- 40_free_list R184: three groups complete and five slots pending; the eighth post completes the fourth. -/
theorem witness_RefillPosts_cadence :
    (after (.refill 0 11) (machine (withFl iq0 { ready with cidx := 15, pending := 5, dbGroups := 3 }) eq0)).map
      (fun t => (t.mmio, t.devFlAt 0)) = some ([.word .db 0x0007000D, .word .db 0x00070003], some ⟨0, 0, 0⟩) := by
  decide +kernel

/-- A list whose slot 0 holds the counted buffer under a frame segment, the buffer's count, and the zones' answers. -/
def oneSlot (count : BitVec 32) (zone : List (Option Addr)) : State :=
  { machine (withFl iq0 { fl0 with sdesc := fl0.sdesc.set 0 ⟨some 1, {}, 1⟩ }) eq0 with
    arena := [⟨1, 0x200000, 0, true, count⟩], env := { zone, nextBuf := 2 } }

def emptySlot (zone : List (Option Addr)) : State := { machine (withFl iq0 fl0) eq0 with env := { zone, nextBuf := 2 } }

theorem witness_RefillOneSlot :
    (fl0.pending = 0 ∧ fl0.inRange = true ∧ fl0.mapped = true ∧ incIdx fl0.pidx fl0.cap ≠ fl0.cidx) ∧
    (oneSlot 1 []).bufferOf 1 = some ⟨1, 0x200000, 0, true, 1⟩ ∧
    ((oneSlot 3 [some 0x300000]).bufferOf 1 = some ⟨1, 0x200000, 0, true, 3⟩ ∧
      freshBuffer (oneSlot 3 [some 0x300000]) 2048 0x300000 = true ∧ (oneSlot 3 [some 0x300000]).bufferOf 2 = none) ∧
    (freshBuffer (emptySlot [some 0x300000]) 2048 0x300000 = true ∧ (emptySlot [some 0x300000]).bufferOf 2 = none) ∧
    (fl0.sdesc.getD fl0.pidx.toNat {}).buf = none ∧ (emptySlot [none]).env.zone = none :: [] ∧ fl0.cllSafe = none := by
  decide +kernel

/-- A list with a safe layout, in zone 1. -/
def guarded : FreeList := { fl0 with cllSafe := some ⟨2, 1, 0, 4096⟩ }

def guardedSlot (zone : List (Option Addr)) : State :=
  { machine (withFl iq0 guarded) eq0 with env := { zone, nextBuf := 2 } }

theorem witness_RefillOneSlot_safe :
    guarded.cllSafe = some ⟨2, 1, 0, 4096⟩ ∧ (guardedSlot [none, some 0x300000]).env.zone = none :: some 0x300000 :: [] ∧
    freshBuffer (guardedSlot [none, some 0x300000]) (m0.cfg.zoneSizes.getD 1 0) 0x300000 = true ∧
    (guardedSlot [none, some 0x300000]).bufferOf 2 = none ∧ guarded.cllSafe.isSome = true ∧
    (guardedSlot [none, none]).env.zone = none :: none :: [] := by decide +kernel

/-- 40_free_list R183: the slot has the safe layout, and both zones' answers are taken. -/
theorem test_refill_safe : (after (.refill 0 1) (guardedSlot [none, some 0x300000])).map
    (fun t => (t.ring.flit 0x4000, t.env.zone, (t.flAt 0).map fun fl => (fl.sdesc.getD 0 {}).layout)) =
    some (0x300002, [], some ⟨2, 1, 0, 4096⟩) := by decide +kernel

theorem witness_RefillKeepsOneSlot :
    ∃ t p st, exec (.refill 0 1) (emptySlot [none]) = .next t ∧ t.ret = .refilled p st ∧ fl0.inRange = true :=
  ⟨_, _, _, rfl, rfl, by decide⟩

theorem witness_StarvingIndicator :
    ∃ t p st, exec (.refill 0 1) (emptySlot [some 0x300000]) = .next t ∧ t.ret = .refilled p st := ⟨_, _, _, rfl, rfl⟩

theorem witness_RefillSources : m0.panic = false := rfl

/-! ### Frame reassembly -/

/-- The machine with slot 0 posted with buffer `h`, and the heap's answers. -/
def receiving (h : Nat) (heap : List Bool) : State :=
  { machine (withFl iq0 (posted h)) eq0 with env := { heap } }

/-- A packed list whose cursor stands inside its buffer. -/
def inside : FreeList := { posted 1 with packing := true, rxOffset := 1536 }

theorem witness_ConsumeOneSegment :
    ((posted 1).doomed = false ∧ (posted 1).bufResume = false ∧ (posted 1).inRange = true ∧ (posted 1).rxOffset = 0 ∧
      (posted 1).cidx ≠ (posted 1).pidx ∧ ((posted 1).sdesc.getD 0 {}).buf = some 1) ∧
    ((receiving 1 []).bufferOf 1 = some ⟨1, 0x200000, 0, true, 1⟩ ∧ (receiving 0 []).bufferOf 0 = some ⟨0, 0x100000, 0, false, 0⟩) ∧
    (inSpace (0x200000 + (0 + 0)) 127 = true ∧ m0.cfg.rxCopyThreshold = 128 ∧ m0.cfg.bufferSizes.getD 0 0 = 2048) ∧
    fl0.cidx = fl0.pidx ∧
    (inside.rxOffset ≠ 0 ∧ inside.bufResume = false ∧ inside.doomed = false ∧ inside.cidx ≠ inside.pidx) := by
  decide +kernel

/-- The abandoned buffer leaves the list empty, and the frame is incomplete. -/
theorem witness_ConsumeOneSegment_newbuf :
    ∃ t, exec (.consumeFrame 0 60 true) (machine (withFl iq0 inside) eq0) = .next t ∧ t.panic = false := ⟨_, rfl, rfl⟩

/-- Two posted slots of 2048 bytes. -/
def posted2 : FreeList :=
  { fl0 with pidx := 2, sdesc := (fl0.sdesc.set 0 ⟨some 0, { metaOff := 2048 }, 0⟩).set 1 ⟨some 1, { metaOff := 2048 }, 0⟩ }

/-- A frame of 2048 bytes is one segment; one of 3000 is two, the second of 952; one of 2100 is two, the second, of 52,
copied. -/
theorem witness_ReassemblyCounts :
    (posted2.inRange = true ∧ posted2.packing = false ∧ posted2.rxOffset = 0 ∧ 1 + 1 ≤ occ posted2) ∧
    ({ m0 with env := { heap := [true, true] } } : State).env.heap = List.replicate (1 + 1) true ++ [] ∧
    (0 < 2048 ∧ 2048 ≤ 2048) ∧ (2048 < 3000 ∧ 3000 ≤ 2048 + 2048 ∧ m0.cfg.rxCopyThreshold ≤ 3000 - 2048) ∧
    (2048 < 2100 ∧ 2100 ≤ 2048 + 2048 ∧ 2100 - 2048 < m0.cfg.rxCopyThreshold) ∧
    ∀ k, k ≤ 1 → ∃ a b, (posted2.sdesc.getD k {}).buf = some a ∧ m0.bufferOf a = some b ∧
      inSpace (b.base.toNat + (posted2.sdesc.getD k {}).layout.payloadOff.toNat) 52 = true := by
  refine ⟨by decide, rfl, by decide, by decide, by decide, fun k hk => ?_⟩
  interval_cases k
  · exact ⟨_, _, rfl, rfl, by decide +kernel⟩
  · exact ⟨_, _, rfl, rfl, by decide +kernel⟩

/-- A frame of 3000 bytes of which 2048 are there. -/
def resuming : FreeList :=
  { posted 1 with bufResume := true, resume := some ⟨{ segs := [.owned 0 0 2048], len := 2048 }, 952⟩ }

theorem witness_FrameLength :
    (∃ t f, exec (.consumeFrame 0 1500 false) (receiving 1 []) = .next t ∧ t.panic = false ∧ t.ret = .complete f) ∧
    (∃ t, exec (.consumeFrame 0 3000 false) (receiving 1 []) = .next t ∧ t.panic = false ∧ t.ret = .incomplete) ∧
    ∃ t f, exec (.consumeFrame 0 5 true) (machine (withFl iq0 resuming) eq0) = .next t ∧ t.panic = false ∧
      resuming.bufResume = true ∧ t.ret = .complete f :=
  ⟨⟨_, _, rfl, rfl, rfl⟩, ⟨_, rfl, rfl, rfl⟩, ⟨_, _, rfl, rfl, rfl, rfl⟩⟩

def holding : State :=
  { m0 with
    held := [.copy 4 60, .shared 1 0 200, .owned 0 0 1500, .shared 0 0 1], heap := [⟨4, List.replicate 60 0⟩] }

/-- A segment that a CONSUME_FRAME gave, released since. -/
def givenState : State := { m0 with given := [.copy 3 60] }

/-- 60_exceptions R458: releasing it again. -/
theorem test_release_given : exec (.frameRelease (.copy 3 60)) givenState = .next (takePanic givenState) := rfl

theorem witness_FrameRelease :
    (.copy 4 60 ∈ holding.held ∧ (heapObject holding.heap 4).isSome = true) ∧
    (.shared 1 0 200 ∈ holding.held ∧ holding.bufferOf 1 = some ⟨1, 0x200000, 0, true, 1⟩) ∧
    (.owned 0 0 1500 ∈ holding.held ∧ holding.bufferOf 0 = some ⟨0, 0x100000, 0, false, 0⟩) ∧
    .shared 0 0 1 ∈ holding.held ∧
    (.owned 0 0 60 ∉ twice.held ∧ .deliver 1 { segs := [.owned 0 0 60], len := 60 } ∈ twice.out) ∧
    (.copy 3 60 ∉ givenState.held ∧ .copy 3 60 ∈ givenState.given) ∧
    .copy 9 60 ∉ holding.held ∧ .copy 9 60 ∉ holding.given ∧ .copy 9 60 ∉ deliveredSegs holding.out := by decide +kernel

/-- A frame that the QE itself released. -/
theorem witness_FrameRelease_discarded :
    (∃ t, releaseAll m0 [.owned 0 0 1500] = .ok t) ∧ Segment.owned 0 0 1500 ∉ m0.held := ⟨⟨_, rfl⟩, by decide⟩

/-! ### Ingress service -/

def onWorklist : State := { machine busy0 eq0 with worklist := [0] }

theorem witness_EmptyRingService :
    m0.worklist = [] ∧ iq0.mapped = true ∧ iq0.cidx < iq0.cap ∧ ringEmptyAt m0 iq0 = true ∧ quietEnd iq0 = true ∧
    iq0.state = .idle ∧ iq0.role ≠ .forwarded ∧ iq0.budget ≠ 0 ∧ busy0.state = .busy ∧ onWorklist.worklist = 0 :: [] ∧
    ringEmptyAt onWorklist busy0 = true := by decide +kernel

theorem onlyChild0 (t : IngressQueue) (hq : t.qid = 2) (hr : t.role = .forwarded) (hp : t.parent = 1)
    (hs : t.state ≠ .dead) (p : IngressQueue) (hpr : p.role = .forwarder) (hpq : p.qid = 1) :
    OnlyChild (pair p t) p 2 1 t := by
  refine ⟨rfl, hq, hr, hp.trans hpq.symm, hs, fun k x hk _ hx _ _ => ?_⟩
  rcases k with _ | _ | k
  · cases hk; rw [hpr] at hx; cases hx
  · rfl
  · cases hk

theorem witness_BusyReject :
    (busy0.state = .busy ∧ busy0.role ≠ .forwarded ∧ busy0.role ≠ .forwarder) ∧
    OnlyChild (pair { forwarder0 with state := .busy } { child0 with state := .busy })
      { forwarder0 with state := .busy } 2 1 { child0 with state := .busy } ∧
    forwarder0.cidx < forwarder0.cap ∧ ({ targetQid := 2, footer := { gen := true } } : FwdEntry).footer.gen = forwarder0.gen ∧
    (forwarder0.qid, encodeFwd { targetQid := 2, footer := { gen := true } }) ∉ m0.cfg.genCheck ∧
    (∀ j t, (pair forwarder0 { child0 with state := .dead }).iqAt j = some t → t.parent = forwarder0.qid → t.state = .dead) :=
  ⟨by decide, onlyChild0 _ rfl rfl rfl (by decide) _ rfl rfl, by decide, rfl, by decide +kernel, forIq (by decide +kernel)⟩

/-- Two reserved entries in the ring. -/
def twoEntries : State := { machine busy0 eq0 with ring := stored [] 0x1000 [0, 0xB0, 0, 0xB0] }

/-- One reserved entry, for a queue of budget 1. -/
def oneEntry (q : IngressQueue) : State :=
  { machine { q with budget := 1 } eq0 with ring := stored [] 0x1000 [0, 0xB0], worklist := if q.state = .busy then [0] else [] }

def reservedEntry : ReservedEntry := { footer := { gen := true } }

theorem witness_ServiceBounded :
    busy0.cidx < busy0.cap ∧
    (after (.service 0 4) twoEntries).map (·.ret) = some .done ∧
    (after (.service 0 2) twoEntries).map (·.ret) = some .more ∧
    (after (.interrupt 0) (oneEntry iq0)).map (·.ret) = some .more ∧
    (after (.interrupt 0) m0).map (·.ret) = some .done ∧
    (after .deferredRun (oneEntry busy0)).map (·.ret) = some .more := by decide +kernel

/-- A service of two entries returns their credits in one word (42_ingress_service R259). -/
theorem witness_ServiceBounded_credits :
    AloneIq twoEntries 0 busy0 ∧
    (after (.service 0 4) twoEntries).map (fun t => creditsOf 1 t.mmio) =
      some [(1 : BitVec 12) ++ (1 : BitVec 3) ++ BitVec.ofBool busy0.cntEn ++ (2 : BitVec 16)] := by
  refine ⟨fun j x hj hx => ?_, by decide +kernel⟩
  exact (forIq (s := twoEntries) (P := fun j x => j ≠ 0 → x.state ≠ .dead → x.qid ≠ busy0.qid) (by decide +kernel)) j x hx hj

/-- A queue with frames to flush and a list to refill. -/
def unquiet (q : IngressQueue) : IngressQueue := withFl { q with lro := true, lroPending := 2 } { ready with refillThresh := 3 }

/-- 42_ingress_service R260, R261: the flush, then the refill of the 15 free slots, which the device is told of. -/
theorem witness_ServiceBounded_end :
    (lroDue (unquiet iq0) = true ∧ ready.doomed = false ∧ occ ready < 3) ∧
    (after (.refill 0 15) (machine (unquiet iq0) eq0)).map (·.panic) = some false ∧
    (after (.interrupt 0) (machine (unquiet iq0) eq0)).map (fun t => (t.out, t.mmio, (t.flAt 0).map occ, t.ret)) =
      some ([.lroFlush 1], [.word .icw 0x00120000, .word .db 0x0007000F], some 15, .done) := by decide +kernel

theorem witness_ServiceBounded_one :
    (∀ q ∈ [iq0, busy0], (oneEntry q).iqAt 0 = some { q with budget := 1 } ∧ q.cidx < q.cap ∧ q.mapped = true ∧
      reservedEntry.footer.gen = q.gen ∧ (q.qid, encodeReserved reservedEntry) ∉ m0.cfg.genCheck ∧
      (oneEntry q).ring.flit (q.base.toNat + 16 * q.cidx.toNat) = (encodeReserved reservedEntry).1 ∧
      (oneEntry q).ring.flit (q.base.toNat + 16 * q.cidx.toNat + 8) = (encodeReserved reservedEntry).2) ∧
    iq0.role ≠ .forwarded ∧ (oneEntry busy0).worklist = 0 :: [] := by decide +kernel

def entry1500 : RxEntry := { csumOk := true, msgLen := 1500, newbuf := true, len := 1500, footer := { gen := true } }

def arrived : State :=
  { machine (withFl iq0 (posted 0)) eq0 with
    ring := stored [] 0x1000 [(encodeRx entry1500).1, (encodeRx entry1500).2] }

theorem witness_RxDelivered :
    ({} : RxEntry).footer.gen ≠ busy0.gen ∧
    ((iq0.qid, encodeRx entry1500) ∉ m0.cfg.genCheck ∧ iq0.cidx < iq0.cap ∧ entry1500.footer.gen = iq0.gen ∧
      (posted 0).inRange = true ∧ (posted 0).bufResume = false ∧ (posted 0).packing = false ∧ (posted 0).rxOffset = 0 ∧ (posted 0).cidx ≠ (posted 0).pidx ∧
      ((posted 0).sdesc.getD 0 {}).buf = some 0 ∧ arrived.bufferOf 0 = some ⟨0, 0x100000, 0, false, 0⟩ ∧
      m0.cfg.rxCopyThreshold ≤ 1500 ∧ 1500 ≤ m0.cfg.bufferSizes.getD 0 0) ∧
    (iq0.state = .idle ∧ 2 ≤ iq0.budget.toNat ∧ iq0.mapped = true ∧ iq0.lro = false ∧ (posted 0).refillThresh = 0 ∧
      arrived.ring.flit 0x1000 = (encodeRx entry1500).1 ∧ arrived.ring.flit 0x1008 = (encodeRx entry1500).2 ∧
      ringEmptyAt arrived (passed (withFl iq0 (posted 0))) = true) := by decide +kernel

theorem witness_RxJudged :
    (∃ fl1 s1, consumeFrame fl0 1500 true { machine (withFl busy0 fl0) eq0 with ret := .none, raised := [] } =
      .ok (none, fl1, s1)) ∧
    ∃ f fl1 s1 s2, consumeFrame (posted 0) 1500 true
        { machine (withFl busy0 (posted 0)) eq0 with ret := .none, raised := [] } = .ok (some f, fl1, s1) ∧
      releaseAll s1 f.segs = .ok s2 := ⟨⟨_, _, rfl⟩, ⟨_, _, _, _, rfl, rfl⟩⟩

/-- A platform's test that is true of one entry (log 29). -/
def tested (f : Flit × Flit) : State := { m0 with cfg := { m0.cfg with genCheck := [(1, f)] } }

theorem witness_ProtocolViolations_code6 (f : Flit × Flit) :
    (busy0.qid, f) ∈ (tested f).cfg.genCheck ∧ (busy0.qid, f) ∉ m0.cfg.genCheck :=
  ⟨List.mem_singleton.mpr rfl, List.not_mem_nil⟩

theorem witness_ProtocolViolations :
    ({ footer := { gen := true } } : ReservedEntry).footer.gen = busy0.gen ∧ busy0.fl = none ∧
    (0x36 : BitVec 8) ∉ m0.cfg.handlers ∧ busy0.role ≠ .forwarder ∧
    (∀ j x, m0.eqAt j = some x → x.qid = (3 : BitVec 16) → x.state = .dead) ∧
    ∀ j x, (pair { forwarder0 with state := .busy } { child0 with state := .dead }).iqAt j = some x → x.qid = (2 : BitVec 12) →
      x.role = .forwarded → x.parent = forwarder0.qid → x.state = .dead :=
  ⟨rfl, rfl, by decide, by decide, forEq (by decide +kernel), forIq (by decide +kernel)⟩

theorem witness_OutOfBandEntries :
    ((busy0.qid, encodeOob { opcode := 0x35, footer := { gen := true } }) ∉ m0.cfg.genCheck ∧
      (busy0.qid, encodeEgrUpdate { eqid := 9, footer := { gen := true } }) ∉ m0.cfg.genCheck) ∧
    ((0x35 : BitVec 8) ≠ 0x20 ∧ (0x35 : BitVec 8) ≠ 0x21 ∧ (0x35 : BitVec 8) ∈ m0.cfg.handlers) ∧
    (eq0.state ≠ .dead ∧ eq0.qid = 9 ∧ ∀ k y, m0.eqAt k = some y → y.state ≠ .dead → y.qid = (9 : BitVec 16) → k = 0) ∧
    (eq0.mapped = true ∧ eq0.inRange = true ∧ statusCidx m0 eq0 = eq0.cidx ∧ eq0.state ≠ .stalled) ∧
    ∃ x, reclaim 0 m0.cfg.egrReclaimBatch eq0 { machine busy0 eq0 with ret := .none, raised := [] } = .ok x :=
  ⟨by decide +kernel, by decide, ⟨by decide, rfl, forEq (by decide +kernel)⟩, by decide +kernel, ⟨_, rfl⟩⟩

theorem witness_ForwardedInterrupt :
    (forwarder0.qid, encodeFwd { targetQid := 2, footer := { gen := true } }) ∉ m0.cfg.genCheck ∧
    OnlyChild (pair { forwarder0 with state := .busy } child0) { forwarder0 with state := .busy } 2 1 child0 ∧
    (child0.state = .idle ∧ child0.mapped = true ∧ child0.cidx < child0.cap ∧ ringEmptyAt m0 child0 = true ∧
      quietEnd child0 = true) ∧
    ∃ x, serviceNested 1 (max 1 (4 / 8)) { child0 with state := .busy }
      { pair { forwarder0 with state := .busy } child0 with ret := .none, raised := [] } = .ok x :=
  ⟨by decide +kernel, onlyChild0 _ rfl rfl rfl (by decide) _ rfl rfl, by decide +kernel, ⟨_, rfl⟩⟩

/-! ### Egress submission -/

/-- A packet of 20 bytes in two buffers. -/
def small : Packet := { handle := 3, len := 20, segs := [⟨0x900000, 16⟩, ⟨0x900100, 4⟩] }

def large : Packet := { small with forceSgl := true }

def segmented : Packet := { large with tso := true, l2len := 14, mss := 4 }

/-- One for which the checksum workaround fires. -/
def summed (p : Packet) : Packet := { p with l4csum := true, tcp := true }

/-- The condition of the checksum workaround. -/
abbrev Fires (p : Packet) : Prop := (p.l4csum && p.tcp && decide (p.len.toNat < m0.cfg.csumMinFrame)) = true

theorem witness_SubmitImmediate :
    eq0.inRange = true ∧ eq0.mapped = true ∧ m0.ring.wf ∧
    (∀ p ∈ [small, summed small], singlePath m0.cfg eq0 p = true ∧ p.tso = false ∧
      p.forceSgl = false ∧ p.len.toNat ≤ m0.cfg.immMaxBytes ∧
      (∀ g ∈ p.segs, inSpace g.addr.toNat g.len.toNat = true)) ∧ quietCommit m0.cfg eq0 1 = true ∧
    ¬ Fires small ∧ Fires (summed small) ∧
    ({ m0 with env := { checksum := [[(16, 0xAA)]] } } : State).env.checksum = [(16, 0xAA)] :: [] := by decide +kernel

/-- A packet of more buffers than a list holds, and a shorter chain of the same bytes. -/
def scattered : Packet := { large with len := 42, segs := List.replicate 42 ⟨0x900000, 1⟩ }

def gathered : List PktSeg := [⟨0x910000, 42⟩]

theorem witness_SubmitList :
    (∀ p ∈ [large, segmented, summed large], singlePath m0.cfg eq0 p = true ∧ chooseMode m0.cfg p = .sgl ∧
      p.segs.length ≤ m0.cfg.sglMaxSegs) ∧ Fires (summed large) ∧ eq0.mapsFree ≠ 0 ∧ m0.ring.wf ∧
    quietCommit m0.cfg eq0 2 = true ∧
    ({ m0 with env := { dmaMap := [5], checksum := [[(16, 0xAA)]] } } : State).env.dmaMap = 5 :: [] ∧
    (singlePath m0.cfg eq0 scattered = true ∧ chooseMode m0.cfg scattered = .sgl ∧
      m0.cfg.sglMaxSegs < scattered.segs.length) ∧
    (shorterChain scattered.segs gathered = true ∧ chainBytes m0.buf gathered = chainBytes m0.buf scattered.segs ∧
      gathered.length ≤ m0.cfg.sglMaxSegs) ∧
    (let chain := ⟨0x900000, 3⟩ :: List.replicate 39 ⟨0x900000, 1⟩;
      shorterChain scattered.segs chain = true ∧ m0.cfg.sglMaxSegs < chain.length) := by decide +kernel

def request2 : List Flit := [0x8000000000000001, 0xAA]

/-- A queue that coalesces. -/
def coal : EgressQueue := { eq0 with coalesce := true }

theorem witness_SubmitStalls :
    (malformed small = false ∧ badRequest m0.cfg request2 = false) ∧
    (∀ q ∈ [{ eq0 with avail := 0 }, { eq0 with mapsFree := 0 }, { coal with avail := 0 }, { coal with mapsFree := 0 }],
      q.pending = 0 ∧ q.state = .active ∧ q.txpkts.isOpen = false) ∧
    (∃ x, notifyEq { eq0 with avail := 0 } { machine iq0 { eq0 with avail := 0 } with ret := .none, raised := [] } = .ok x) ∧
    (singlePath m0.cfg eq0 small = true ∧ chooseMode m0.cfg small = .imm ∧ 0 < ceilDiv (wrFlits small .imm 0) 8) ∧
    (singlePath m0.cfg eq0 large = true ∧ chooseMode m0.cfg large = .sgl) ∧
    (coalescable m0.cfg small = true ∧ canAdd m0.cfg { coal with avail := 0 } small = false ∧
      canAdd m0.cfg { coal with mapsFree := 0 } small = false) ∧ 0 < ceilDiv request2.length 8 ∧
    ({ eq0 with avail := 0 } : EgressQueue).avail.toNat < ceilDiv (wrFlits large .sgl large.segs.length) 8 ∧
    (∃ x, notifyEq { eq0 with avail := 0 } { machine iq0 { eq0 with avail := 0 } with
      env := { dmaMap := [] }, ret := .none, raised := [] } = .ok x) :=
  ⟨by decide +kernel, by decide +kernel, ⟨_, rfl⟩, by decide +kernel, by decide +kernel, by decide +kernel, by decide,
    by decide, ⟨_, rfl⟩⟩

theorem witness_SubmitWr :
    (eq0.inRange = true ∧ eq0.mapped = true ∧ eq0.state = .active ∧ eq0.txpkts.isOpen = false ∧
      badRequest m0.cfg request2 = false ∧ m0.ring.wf ∧ quietCommit m0.cfg eq0 1 = true) ∧
    ((1 : Nat) ≤ eq0.avail.toNat ∧ eq0.avail < eq0.cap ∧ 7 + 1 < 65536 ∧ m0.cfg.eqDbBatch ≤ 7 + 1 ∧
      7 + 1 ≤ m0.cfg.dbIncMax ∧ eq0.dbMech ≠ .wcCopy) := by decide +kernel

/-- A queue with an accumulator of one packet. -/
def collecting : EgressQueue := { coal with maps := [⟨5, 3⟩], mapsFree := 15, txpkts := ⟨true, 1, 5, 100, 0⟩ }

/-- An accumulator of two packets is full. -/
def fullAtTwo : State := { machine iq0 collecting with cfg := { m0.cfg with txpktsMaxPkts := 2 }, env := { dmaMap := [7] } }

theorem witness_Coalescing :
    (coal.state = .active ∧ coal.txpkts.isOpen = false ∧ coal.mapped = true ∧ coal.avail < coal.cap ∧ m0.ring.wf) ∧
    (∀ p ∈ [small, summed small], malformed p = false ∧ coalescable m0.cfg p = true ∧ canAdd m0.cfg coal p = true) ∧
    coalescable m0.cfg segmented = false ∧
    Fires (summed small) ∧ m0.cfg.txpktsMaxPkts ≠ 1 ∧
    (collecting.txpkts.isOpen = true ∧ canAdd m0.cfg collecting small = true ∧
      collecting.txpkts.npkt.toNat + 1 ≠ m0.cfg.txpktsMaxPkts ∧ collecting.txpkts.npkt ≠ 255 ∧ collecting.coalesce = true) ∧
    (canAdd fullAtTwo.cfg collecting small = true ∧ collecting.txpkts.npkt.toNat + 1 = fullAtTwo.cfg.txpktsMaxPkts) := by
  decide +kernel

/-- The packet that fills the accumulator is written and the request committed. -/
theorem witness_Coalescing_full :
    (after (.txpktsAdd 0 small) fullAtTwo).map (fun t => (t.panic, (t.eqAt 0).map fun q => (q.txpkts.isOpen, q.avail.toNat))) =
      some (false, some (false, 13)) := by decide +kernel

/-- An accumulator opened by a TXPKTS_OPEN standing alone. -/
def openedAlone : EgressQueue := { coal with txpkts := ⟨true, 0, 2, 0, 0⟩ }

theorem witness_FlushAndTxDone :
    (eq0.txpkts.isOpen = false ∧ eq0.pending = 0) ∧ (openedAlone.txpkts.isOpen = true ∧ openedAlone.txpkts.npkt = 0) ∧
    (collecting.txpkts.isOpen = true ∧ collecting.txpkts.npkt ≠ 0 ∧ collecting.inRange = true ∧ collecting.mapped = true ∧
      2 ≤ collecting.txpkts.flits.toNat ∧ quietCommit m0.cfg collecting 1 = true ∧
      collecting.txpkts.start = collecting.pidx) ∧
    ∃ q1 s1 x, flushIfOpen collecting { machine iq0 collecting with ret := .none, raised := [] } = .ok (q1, s1) ∧
      notifyEq q1 s1 = .ok x := ⟨by decide, by decide, by decide +kernel, ⟨_, _, _, rfl, rfl⟩⟩

/-- A segmented packet and an opaque request on a queue with an open accumulator. -/
theorem witness_FlushAndTxDone_first :
    (malformed segmented = false ∧ coalescable m0.cfg segmented = false ∧ badRequest m0.cfg request2 = false) ∧
    (after (.submit 0 segmented) { machine iq0 collecting with env := { dmaMap := [7] } }).map (·.panic) = some false ∧
    (after (.submitWr 0 request2) (machine iq0 collecting)).map (·.panic) = some false := by decide +kernel

theorem witness_RequestsPlaced :
    (badRequest m0.cfg request2 = false ∧ ∀ n ∈ [2, 4, 5], n ≤ m0.cfg.wrMaxFlits ∧ quietCommit m0.cfg eq0 ((n + 7) / 8) = true) ∧
    (∃ b, pktParts { pktHead with flowid := 5 } pktBody = some b ∧ b.payload = .imm [0xAB]) ∧
    (∃ b, pktParts { immdlen := 8, len16 := 3, flowid := 5 } pktsBody = some b ∧ b.payload = .sgl [⟨0x9000, 100⟩]) ∧
    (∃ rs, pktsParts { pktsHead with flowid := 5 } pktsBody = some rs ∧ ∀ r ∈ rs, r.segs.length ≤ m0.cfg.sglMaxSegs) ∧
    1 ≤ m0.cfg.sglMaxSegs ∧ [4].length = pktsHead.npkt.toNat ∧
    [4].length ≤ m0.cfg.txpktsMaxPkts ∧ [4].length ≤ eq0.mapsFree.toNat ∧ pktsHead.plen.toNat < 2 ^ m0.cfg.txpktsLenBits ∧
    eq0.flowid = 5 := by
  refine ⟨by decide +kernel, by decide +kernel, by decide +kernel, ⟨_, rfl, by decide +kernel⟩, by decide +kernel⟩

/-- A list that the QE never builds, alone and in a record. -/
theorem witness_RequestsPlaced_long :
    let segs : List PktSeg := List.replicate 40 ⟨0x9000, 3⟩
    let b : PktBody := ⟨none, {}, .sgl segs⟩
    (∃ b', pktParts (pktHeader 5 b) (encodePktBody b) = some b' ∧ b'.payload = .sgl segs) ∧
    (∃ rs, pktsParts (pktsHeader 5 1 (3 + sglFlits 40) 0) (encodeRecord ⟨{}, segs⟩) = some rs ∧
      ∃ r ∈ rs, m0.cfg.sglMaxSegs < r.segs.length) ∧ m0.cfg.sglMaxSegs < segs.length :=
  ⟨⟨_, rfl, rfl⟩, ⟨_, rfl, by decide +kernel⟩, by decide⟩

/-! ### Records -/

theorem onlyFl0 (fl : FreeList) (hd : fl.doomed = false) (hq : fl.qid = 7) :
    OnlyFl (machine (withFl iq0 fl) eq0) 7 0 fl := by
  refine ⟨rfl, hd, hq, fun j g hj _ _ => ?_, fun j e hj _ => ?_⟩
  · rcases j with _ | j
    · rfl
    · cases hj
  · rcases j with _ | j
    · cases hj; decide
    · cases hj

theorem onlyEq0 (q : EgressQueue) (hs : q.state ≠ .dead) (hq : q.qid = 9) : OnlyEq (machine iq0 q) 9 0 q := by
  refine ⟨rfl, hs, hq, fun j e hj _ _ => ?_, fun j g hj _ => ?_⟩
  · rcases j with _ | j
    · rfl
    · cases hj
  · rcases j with _ | j <;> cases hj

theorem onlyIq0 : OnlyIq m0 1 0 iq0 := by
  refine ⟨rfl, by decide, rfl, fun j x hj _ _ => ?_⟩
  rcases j with _ | j
  · rfl
  · cases hj

/-- A queue with a write-combining window. -/
def windowed : EgressQueue := { eq0 with dbMech := .wcCopy, wcAddr := 0x66000, pidx := 1, avail := 14, pending := 1 }

theorem onlyWindow0 : OnlyWindow (machine iq0 windowed) 0x66000 0 windowed := by
  refine ⟨rfl, by decide, rfl, rfl, fun j e hj _ _ _ => ?_⟩
  rcases j with _ | j
  · rfl
  · cases hj

/-- A list with a posted slot that the device was not told of. -/
def untoldFl : FreeList := { posted 0 with pending := 1 }

/-- A doorbell word standing alone: the slots it tells are pending no more (log 11). -/
theorem test_dbw : (after (.dbw .db ⟨7, 1⟩) (machine (withFl iq0 untoldFl) eq0)).map
    (fun t => (t.mmio, (t.flAt 0).map (·.pending), t.devFlAt 0)) =
    some ([.word .db 0x00070001], some 0, some ⟨1, 0, 0⟩) := by decide +kernel

theorem witness_RecordsWritten_list :
    [(⟨0x9000, 3⟩ : PktSeg)].length ≤ m0.cfg.sglMaxSegs ∧ m0.cfg.sglMaxSegs < (List.replicate 40 (⟨0x9000, 3⟩ : PktSeg)).length := by
  decide +kernel

theorem witness_RecordsWritten_doomed : (machine iq0 { eq0 with state := .doomed }).panic = false ∧
    (machine iq0 { eq0 with state := .doomed }).eqAt 0 = some { eq0 with state := .doomed } := ⟨rfl, rfl⟩

theorem witness_RecordsWritten :
    (eq0.state = .active ∧ eq0.mapped = true ∧ eq0.avail < eq0.cap ∧ 2 + 3 ≤ m0.cfg.wrMaxFlits ∧
      (2 + 3 + 7) / 8 ≤ eq0.avail.toNat) ∧
    (fl0.inRange = true ∧ fl0.mapped = true ∧ (5 : Nat) < m0.cfg.bufferSizes.length ∧ incIdx fl0.pidx fl0.cap ≠ fl0.cidx) ∧
    (OnlyFl (machine (withFl iq0 untoldFl) eq0) 7 0 untoldFl ∧ 1 ≤ distOf 0 untoldFl.pidx untoldFl.cap ∧
      (1 : BitVec 16) ≤ untoldFl.pending ∧ untoldFl.dbMech = .reg) ∧
    (OnlyEq (machine iq0 sent) 9 0 sent ∧ 2 ≤ distOf 0 sent.pidx sent.cap ∧ (2 : BitVec 16) ≤ sent.pending ∧
      sent.dbMech = .reg ∧ 2 ≤ m0.cfg.dbIncMax) ∧
    (OnlyIq m0 1 0 iq0 ∧ m0.devIqAt 0 = some { credits := 3, armed := true } ∧
      OnlyIq { m0 with devIq := [some { credits := 1, armed := true }] } 1 0 iq0 ∧ 2 ≤ iq0.cap.toNat - 1 - (1 + distOf iq0.cidx 0 iq0.cap)) ∧
    OnlyWindow (machine iq0 windowed) 0x66000 0 windowed ∧ windowed.mapped = true ∧
    (({} : DevEq).pidx < windowed.cap ∧ distOf 0 windowed.pidx windowed.cap ≠ 0 ∧ windowed.pending ≠ 0) :=
  ⟨by decide +kernel, by decide +kernel, ⟨onlyFl0 _ rfl rfl, by decide⟩, ⟨onlyEq0 _ (by decide) rfl, by decide⟩,
    ⟨onlyIq0, rfl, onlyIq0, by decide⟩, onlyWindow0, by decide, by decide⟩

/-! ### Reclamation and notification -/

/-- Two records in the ring, of which the device has consumed the first. -/
def twoSent : EgressQueue :=
  { eq0 with
    pidx := 3, avail := 12, maps := [⟨5, 3⟩, ⟨6, 4⟩], mapsFree := 14
    sdesc := (eq0.sdesc.set 0 ⟨1, 1, 1⟩).set 1 ⟨2, 1, 1⟩ }

/-- The machine with that queue and the consumer index its status page shows. -/
def shows (q : EgressQueue) (cidx : BitVec 16) : State :=
  { machine iq0 q with ring := stored [] 0x8400 [encodeSp ⟨0, 9, cidx, q.pidx⟩] }

/-- A counted buffer in a slot, named by a half-built frame and by a segment that the client holds and now releases. -/
def counted : State :=
  handed (.command 0x20 (.segment (.shared 1 0 9)))
    { usedState with
      held := [.shared 1 0 9], arena := [⟨0, 0x100000, 0, false, 0⟩, ⟨1, 0x200000, 0, true, 3⟩], env := { nextBuf := 2 } }

theorem witness_ReferencesStayExact :
    UnlessPanic (fun u => IndicesInRange u ∧ CountsExact u) counted ∧ ∃ t, step counted = .next t := by
  refine ⟨.inr ⟨⟨forIq (by decide +kernel), forEq (by decide +kernel)⟩,
    ⟨?_, by decide +kernel, by decide +kernel, by decide +kernel, ?_⟩⟩, ⟨_, rfl⟩⟩
  · simp only [CountExact]; decide +kernel
  · intro i q fl hq hd _
    exact absurd hd ((forIq (s := counted) (P := fun _ q => q.state ≠ .dead) (by decide +kernel)) i q hq)

theorem witness_ReclaimWholeSlots_walk :
    ∃ t d c, twoSent.inRange = true ∧ exec (.reclaim 0 32) (shows twoSent 1) = .next t ∧ t.ret = .reclaimed d c :=
  ⟨_, _, _, by decide, rfl, rfl⟩

theorem witness_ReclaimWholeSlots :
    (twoSent.state ≠ .dead ∧ twoSent.state ≠ .stalled ∧ twoSent.inRange = true ∧ twoSent.mapped = true ∧
      statusSound (shows twoSent 1) twoSent = true ∧ 1 = distOf twoSent.cidx (statusCidx (shows twoSent 1) twoSent) twoSent.cap ∧
      (twoSent.sdesc.getD 0 {}).descUsed = 1 ∧ 1 ≤ twoSent.maps.length) ∧
    (let q := { twoSent with sdesc := eq0.sdesc.set 0 ⟨3, 2, 2⟩ };
      statusSound (shows q 1) q = true ∧ distOf q.cidx (statusCidx (shows q 1) q) q.cap < 3) ∧
    (let q := { twoSent with state := .stalled };
      1 < q.cap ∧ q.resumeThreshold.toNat ≤ q.avail.toNat + distOf q.cidx 1 q.cap) := by decide +kernel

theorem witness_PanicSites :
    (twoSent.cap ≤ statusCidx (shows twoSent 16) twoSent) ∧
    distOf twoSent.cidx twoSent.pidx twoSent.cap <
      distOf twoSent.cidx (statusCidx (shows twoSent 4) twoSent) twoSent.cap ∧
    (let q := { twoSent with sdesc := eq0.sdesc };
      statusSound (shows q 1) q = true ∧ statusCidx (shows q 1) q ≠ q.cidx ∧ (q.sdesc.getD 0 {}).descUsed = 0) ∧
    (let q := { twoSent with maps := [] };
      statusSound (shows q 1) q = true ∧ (q.sdesc.getD 0 {}).descUsed.toNat ≤ 1 ∧ q.maps.length < (q.sdesc.getD 0 {}).credits.toNat) ∧
    (let fl := { fl0 with pidx := 1 };
      fl.bufResume = false ∧ fl.cidx ≠ fl.pidx ∧ (fl.sdesc.getD fl.cidx.toNat {}).buf = none) := by decide +kernel

theorem witness_NotifyFewestWrites :
    (({ fl0 with doomed := true } : FreeList).doomed = true ∧ ({ eq0 with state := .dead } : EgressQueue).state = .dead) ∧
    (fl0.doomed = false ∧ 1 ≤ m0.cfg.dbIncMax ∧ fl0.pending = 0 ∧ ({ fl0 with pending := 32 } : FreeList).pending ≠ 0) ∧
    (eq0.state ≠ .dead ∧ eq0.pending = 0 ∧ sent.pending ≠ 0 ∧ ¬ (sent.dbMech = .wcCopy ∧ sent.pending = 1)) ∧
    (windowed.dbMech = .wcCopy ∧ windowed.pending = 1 ∧ windowed.inRange = true ∧ windowed.mapped = true) := by decide +kernel

/-! ### The device -/

theorem witness_DeviceReaction :
    (OnlyFl (machine (withFl iq0 untoldFl) eq0) ((0x00070001 : BitVec 32).extractLsb' 16 16) 0 untoldFl ∧
      (1 : BitVec 16) ≤ untoldFl.pending ∧ 1 ≤ distOf 0 untoldFl.pidx untoldFl.cap ∧ untoldFl.dbMech = .reg) ∧
    (OnlyEq (machine iq0 sent) ((0x00090001 : BitVec 32).extractLsb' 16 16) 0 sent ∧
      (1 : BitVec 16) ≤ sent.pending ∧ 1 ≤ distOf 0 sent.pidx sent.cap ∧ sent.dbMech = .reg ∧ 1 ≤ m0.cfg.dbIncMax) ∧
    (OnlyWindow (machine iq0 windowed) 0x66000 0 windowed ∧ windowed.mapped = true ∧ ({} : DevEq).pidx < windowed.cap ∧
      distOf 0 windowed.pidx windowed.cap ≠ 0 ∧ windowed.pending ≠ 0) ∧
    (OnlyIq m0 ((0x00130001 : BitVec 32).extractLsb' 20 12) 0 iq0 ∧ (0x00130001 : BitVec 32).extractLsb' 17 3 ≠ 6 ∧
      OnlyIq { m0 with devIq := [some { credits := 1, armed := true }] } ((0x00130001 : BitVec 32).extractLsb' 20 12) 0 iq0 ∧
      1 ≤ iq0.cap.toNat - 1 - (1 + distOf iq0.cidx 0 iq0.cap)) ∧
    m0.devFlAt 0 = some {} ∧ m0.devEqAt 0 = some {} ∧ ({ m0 with panic := true } : State).panic = true :=
  ⟨⟨onlyFl0 _ rfl rfl, by decide⟩, ⟨onlyEq0 _ (by decide) rfl, by decide⟩, ⟨onlyWindow0, by decide⟩,
    ⟨onlyIq0, by decide, onlyIq0, by decide⟩, rfl, rfl, rfl⟩

/-- The device has one buffer of 2048 bytes at 0x100000. -/
def fed : State :=
  { machine (withFl iq0 (posted 0)) eq0 with devFl := [some ⟨1, 0, 0⟩], ring := stored [] 0x4000 [0x100000] }

theorem witness_DeviceReceives :
    (∃ d, m0.devIqAt 0 = some d ∧ d.credits ≠ 0) ∧
    (∃ d, fed.devFlAt 0 = some d ∧ d.cidx ≠ d.pidx ∧ d.cidx < (posted 0).cap ∧ d.off.toNat + 2048 ≤
      fed.cfg.bufferSizes.getD ((fed.ring.flit 0x4000).extractLsb' 0 4).toNat 0) ∧
    (posted 0).mapped = true ∧ iq0.mapped = true ∧ fed.ring.wf ∧
    inSpace (((fed.ring.flit 0x4000).extractLsb' 4 60).toNat * 16 + 0) 2048 = true := by decide +kernel

/-- Two buffers of 2048 bytes, and a frame of 3000. -/
def fed2 : State :=
  { machine (withFl iq0 posted2) eq0 with devFl := [some ⟨2, 0, 0⟩], ring := stored [] 0x4000 [0x100000, 0x200000] }

theorem witness_DeviceReceives_several :
    posted2.packing = false ∧ 1 + 1 ≤ distOf 0 2 posted2.cap ∧ fed2.buf.wf ∧
    ∀ p ∈ [(0x4000, 0x100000), (0x4008, 0x200000)],
      fed2.cfg.bufferSizes.getD ((fed2.ring.flit p.1).extractLsb' 0 4).toNat 0 = 2048 ∧
      ((fed2.ring.flit p.1).extractLsb' 4 60).toNat * 16 = p.2 ∧ inSpace p.2 2048 = true := by decide +kernel

/-- The device skips the rest of the buffer it is inside. -/
theorem witness_DeviceReceives_skip :
    (after (.devRx 0 [1] {} true) { fed2 with devFl := [some ⟨2, 0, 64⟩] }).map (fun t => (t.ret, t.devFlAt 0, t.buf)) =
      some (.ok, some ⟨2, 2, 0⟩, [(0x200000, 1)]) := by decide +kernel

theorem witness_DeviceReceives_nocredit :
    ({ fed with devIq := [some { credits := 0 }] } : State).devIqAt 0 = some { credits := 0 } := rfl

/-- The target not forwarded, of another parent, not armed, without an entry, and the parent without a credit. -/
theorem witness_DevicePosts_not :
    m0.iqAt 5 = none ∧ iq0.role ≠ .forwarded ∧ child0.parent ≠ (5 : BitVec 12) ∧ ({ credits := 0 } : DevIq).armed = false ∧
    iq0.cap.toNat - 1 ≤ ({ credits := 3 } : DevIq).credits.toNat ∧ ({ credits := 0 } : DevIq).credits = 0 := by decide +kernel

/-- 46_device_agent R405: without a credit of the parent the target stays armed. -/
theorem test_dev_fwd_no_credit :
    (after (.devFwd 0 1) { pair forwarder0 child0 with devIq := [some { credits := 0 }, some { credits := 0, armed := true }] }).map
      (fun t => (t.ret, t.devIqAt 1)) = some (.notEnabled, some { credits := 0, armed := true }) := by decide +kernel

theorem witness_DevicePosts :
    (∃ d, m0.devIqAt 0 = some d ∧ d.credits ≠ 0 ∧ d.pidx < iq0.cap ∧ d.armed = true ∧
      ({ d with credits := 2 } : DevIq).credits.toNat < iq0.cap.toNat - 1 ∧ iq0.cap.toNat - 1 ≤ d.credits.toNat) ∧
    (∃ d, (pair forwarder0 child0).devIqAt 1 = some d ∧ d.armed = true ∧ d.credits.toNat < child0.cap.toNat - 1) ∧
    (child0.role = .forwarded ∧ child0.parent = forwarder0.qid ∧ forwarder0.mapped = true) := by decide +kernel

/-- A queue whose ring holds a request of two flits that the device has been told of. -/
def told : State := { machine iq0 sent with ring := stored [] 0x8000 request2, devEq := [some ⟨1, 0⟩] }

theorem witness_DeviceReads :
    (fl0.mapped = true ∧ (15 : Nat) < fl0.cap.toNat ∧ m0.ring.wf ∧ eq0.mapped = true) ∧
    (∃ d, m0.devEqAt 0 = some d ∧ d.cidx = d.pidx) ∧
    (∃ d, told.devEqAt 0 = some d ∧ d.cidx ≠ d.pidx ∧ d.cidx < sent.cap ∧
      ((told.ring.flit (wrFlitAddr sent d.cidx.toNat 0)).extractLsb' 0 8).toNat = 1 ∧
      (2 * 1 + 7) / 8 ≤ distOf d.cidx d.pidx sent.cap) ∧
    (let s := { told with ring := stored [] 0x8000 [0x8000000000000005] };
      distOf 0 1 sent.cap < (2 * ((s.ring.flit 0x8000).extractLsb' 0 8).toNat + 7) / 8) ∧
    (let s := { told with ring := [] };
      (2 * ((s.ring.flit 0x8000).extractLsb' 0 8).toNat + 7) / 8 = 0) ∧
    (⟨0, 9, 0, 1⟩ : Sp) = { rsvd := 0, qid := sent.qid, cidx := 0, pidx := 1 } ∧ (⟨0, 9, 1, 1⟩ : Sp) ≠ ⟨0, 9, 0, 1⟩ := by
  decide +kernel

end Sys2Proof.Tests
end

section
/-! PROOFS. What an operation keeps of the panic bit (10_state R65) and of the stalled list (10_state R56). Each operation is
shown once to keep both; a step then either panics or keeps both. -/

namespace Sys2Proof.Machine

/-! ## What an operation keeps -/

/-- The egress queues, the stalled list and the panic bit are as they were. -/
def SameEgress (s t : State) : Prop := t.panic = s.panic ∧ t.eq = s.eq ∧ t.stalled = s.stalled

/-- The panic bit is as it was, and an exact stalled list stays exact. -/
def KeepsStalled (s t : State) : Prop := t.panic = s.panic ∧ (StalledExact s → StalledExact t)

/-- The list holds queue `i` exactly when its state is Stalled, and no queue twice. -/
def ListedAs (l : List Nat) (i : Nat) (st : EqState) : Prop := l.Nodup ∧ (i ∈ l ↔ st = .stalled)

/-- What an operation on egress queue `i` keeps, whose context it holds and has not written back: the panic bit, the contexts
in the state, what the stalled list says of queue `i`, and what it says of the others. -/
def QueueKeeps (i : Nat) (q q' : EgressQueue) (s t : State) : Prop :=
  t.panic = s.panic ∧ t.eq = s.eq ∧ (ListedAs s.stalled i q.state → ListedAs t.stalled i q'.state) ∧
    ∀ j, j ≠ i → (j ∈ t.stalled ↔ j ∈ s.stalled)

theorem SameEgress.refl (s : State) : SameEgress s s := ⟨rfl, rfl, rfl⟩

theorem SameEgress.trans {s t u : State} (h : SameEgress s t) (h' : SameEgress t u) : SameEgress s u := by
  obtain ⟨hp, he, hl⟩ := h
  obtain ⟨hp', he', hl'⟩ := h'
  exact ⟨hp'.trans hp, he'.trans he, hl'.trans hl⟩

theorem SameEgress.of_mmio {s t : State}
    (h : ∃ ws df di de, t = { s with mmio := s.mmio ++ ws, devFl := df, devIq := di, devEq := de }) : SameEgress s t := by
  obtain ⟨_, _, _, _, rfl⟩ := h
  exact ⟨rfl, rfl, rfl⟩

theorem SameEgress.of_ring {s t : State} (h : ∃ m, t = { s with ring := m } ∧ (s.ring.wf → m.wf)) : SameEgress s t := by
  obtain ⟨_, rfl, _⟩ := h
  exact ⟨rfl, rfl, rfl⟩

theorem EgressFrame.same {s t : State} (h : EgressFrame s t) (hl : t.stalled = s.stalled) : SameEgress s t := by
  obtain ⟨⟨_, _, _, _, _, _, _, _, ht⟩, _, _⟩ := h
  exact ⟨by rw [ht], by rw [ht], hl⟩

theorem KeepsStalled.refl (s : State) : KeepsStalled s s := ⟨rfl, id⟩

theorem KeepsStalled.trans {s t u : State} (h : KeepsStalled s t) (h' : KeepsStalled t u) : KeepsStalled s u :=
  ⟨h'.1.trans h.1, h'.2 ∘ h.2⟩

theorem SameEgress.keeps {s t : State} (h : SameEgress s t) : KeepsStalled s t := by
  obtain ⟨hp, he, hl⟩ := h
  refine ⟨hp, fun hs => ?_⟩
  simpa only [StalledExact, State.eqAt, he, hl] using hs

/-! ### The queue an operation holds -/

theorem QueueKeeps.of_same {i : Nat} {q q' : EgressQueue} {s t : State} (h : SameEgress s t)
    (hq : q'.state = .stalled ↔ q.state = .stalled) : QueueKeeps i q q' s t := by
  obtain ⟨hp, he, hl⟩ := h
  exact ⟨hp, he, by simp [ListedAs, hl, hq], by simp [hl]⟩

theorem QueueKeeps.of_frame {i : Nat} {q q' : EgressQueue} {s t : State} (h : EgressFrame s t)
    (hl : t.stalled = s.stalled) (hq : q'.state = q.state) : QueueKeeps i q q' s t :=
  .of_same (h.same hl) (by rw [hq])

/-- A queue that stalls goes to the end of the list (43_egress_submit R309). -/
theorem QueueKeeps.of_append {i : Nat} {q q' : EgressQueue} {s t : State} (hp : t.panic = s.panic) (he : t.eq = s.eq)
    (hl : t.stalled = s.stalled ++ [i]) (hq : q.state ≠ .stalled) (hq' : q'.state = .stalled) : QueueKeeps i q q' s t := by
  refine ⟨hp, he, fun ⟨hn, hm⟩ => ⟨?_, by simp [hl, hq']⟩, fun j hj => by simp [hl, hj]⟩
  have hi : i ∉ s.stalled := fun h => hq (hm.mp h)
  rw [hl]
  exact List.nodup_append_comm.mp (List.nodup_cons.mpr ⟨hi, hn⟩)

/-- A queue that is no more Stalled leaves the list (45_reclaim_doorbell R372, 47_system R434). -/
theorem QueueKeeps.of_erase {i : Nat} {q q' : EgressQueue} {s t : State} (hp : t.panic = s.panic) (he : t.eq = s.eq)
    (hl : t.stalled = s.stalled.erase i) (hq' : q'.state ≠ .stalled) : QueueKeeps i q q' s t := by
  refine ⟨hp, he, fun ⟨hn, _⟩ => ?_, fun j hj => by rw [hl]; exact List.mem_erase_of_ne hj⟩
  rw [hl]
  exact ⟨hn.erase i, iff_of_false hn.not_mem_erase hq'⟩

theorem QueueKeeps.trans {i : Nat} {q r w : EgressQueue} {s t u : State} (h : QueueKeeps i q r s t)
    (h' : QueueKeeps i r w t u) : QueueKeeps i q w s u := by
  obtain ⟨hp, he, hi, ho⟩ := h
  obtain ⟨hp', he', hi', ho'⟩ := h'
  exact ⟨hp'.trans hp, he'.trans he, hi' ∘ hi, fun j hj => (ho' j hj).trans (ho j hj)⟩

/-- The context written back. -/
theorem QueueKeeps.setEq {i : Nat} {q q' : EgressQueue} {s t : State} (hq : s.eqAt i = some q)
    (h : QueueKeeps i q q' s t) : KeepsStalled s (t.setEq i q') := by
  obtain ⟨hp, he, hi, ho⟩ := h
  refine ⟨hp, fun ⟨hn, hs⟩ => ?_⟩
  have hat : ∀ j, t.eqAt j = s.eqAt j := fun j => by rw [State.eqAt, he]; rfl
  obtain ⟨hn', hm'⟩ := hi ⟨hn, by simp [hs, hq]⟩
  refine ⟨hn', fun j => ?_⟩
  by_cases hj : j = i
  · subst hj
    rw [State.setEq_eqAt_same t j q' q ((hat j).trans hq)]
    simpa using hm'
  · rw [State.setEq_eqAt_other t i j q' (Ne.symm hj), hat j]
    exact (ho j hj).trans (hs j)

/-! ### Transitions -/

/-- A transition panics, or keeps the panic bit and the stalled list. -/
def PanicsOrKeeps (s t : State) : Prop := t = takePanic s ∨ KeepsStalled s t

theorem runQe_keeps {s t : State} {body : State → Res (State × Ret)} (h : runQe s body = .next t)
    (hb : ∀ u r, body s.begin = .ok (u, r) → KeepsStalled s.begin u) : PanicsOrKeeps s t := by
  obtain ⟨_, ⟨u, r, hu, rfl⟩ | ⟨e, _, rfl⟩ | ⟨_, rfl⟩⟩ := runQe_next h
  · exact .inr (hb u r hu)
  · exact .inr (SameEgress.keeps ⟨rfl, rfl, rfl⟩)
  · exact .inl rfl

theorem runDevice_keeps {s t : State} {body : State → Res (Option (State × Ret))} (h : runDevice s body = .next t)
    (hb : ∀ u r, body s.begin = .ok (some (u, r)) → KeepsStalled s.begin u) : PanicsOrKeeps s t := by
  obtain ⟨u, r, hu, rfl⟩ | ⟨_, rfl⟩ | ⟨e, _, rfl⟩ | ⟨_, rfl⟩ := runDevice_next h
  · exact .inr (hb u r hu)
  · exact .inr (SameEgress.keeps ⟨rfl, rfl, rfl⟩)
  · exact .inr (SameEgress.keeps ⟨rfl, rfl, rfl⟩)
  · exact .inl rfl

theorem onIq_keeps {s u : State} {i : Nat} {r : Ret} {f : IngressQueue → Res (IngressQueue × State × Ret)}
    (h : onIq s i f = .ok (u, r)) (hf : ∀ q q' t, f q = .ok (q', t, r) → KeepsStalled s t) : KeepsStalled s u := by
  obtain ⟨q, q', t, _, hq, rfl⟩ := onIq_ok h
  exact hf q q' t hq

theorem onFl_keeps {s u : State} {i : Nat} {r : Ret} {f : FreeList → Res (FreeList × State × Ret)}
    (h : onFl s i f = .ok (u, r)) (hf : ∀ fl fl' t, f fl = .ok (fl', t, r) → SameEgress s t) : KeepsStalled s u := by
  obtain ⟨q, fl, fl', t, _, _, hq, rfl⟩ := onFl_ok h
  exact (hf fl fl' t hq).keeps

theorem onEq_keeps {s u : State} {i : Nat} {r : Ret} {f : EgressQueue → Res (EgressQueue × State × Ret)}
    (h : onEq s i f = .ok (u, r)) (hf : ∀ q q' t, f q = .ok (q', t, r) → QueueKeeps i q q' s t) : KeepsStalled s u := by
  obtain ⟨q, q', t, hat, hq, rfl⟩ := onEq_ok h
  exact (hf q q' t hq).setEq hat

end Sys2Proof.Machine
end

section
/-! PROOFS. What the operations on egress queues and the ingress service keep of the stalled list. -/

namespace Sys2Proof.Machine

/-! ## Egress operations -/

theorem mmioWrite_same (s : State) (w : MmioWrite) : SameEgress s (mmioWrite s w) := by
  obtain ⟨df, di, de, h⟩ := mmioWrite_state s w
  exact .of_mmio ⟨_, df, di, de, h⟩

theorem resumeCheck_keeps (i : Nat) (hw : BitVec 16) (q : EgressQueue) (s : State) :
    QueueKeeps i q (resumeCheck i hw q s).1 s (resumeCheck i hw q s).2 := by
  rw [resumeCheck_eq]
  split
  · exact .of_erase rfl rfl rfl (by simp)
  · exact .of_same (.refl s) .rfl

/-- Only a Stalled queue is resumed. -/
theorem resumeCheck_state {i : Nat} {hw : BitVec 16} {q : EgressQueue} {s : State} (hq : q.state ≠ .stalled) :
    (resumeCheck i hw q s).1.state = q.state := by
  simp [resumeCheck_eq, resumes, hq]

theorem reclaim_keeps {i b : Nat} {q q' : EgressQueue} {s t : State} {d c : Nat}
    (h : reclaim i b q s = .ok (q', t, d, c)) :
    QueueKeeps i q q' s t ∧ (q.state ≠ .stalled → q'.state = q.state) := by
  obtain ⟨_, hw, x, sd, _, _, _, _, _, _, _, he⟩ := reclaim_ok h
  have hk := resumeCheck_keeps i hw
    { q with
      cidx := x, avail := q.avail + BitVec.ofNat 16 d, maps := q.maps.drop c
      mapsFree := q.mapsFree + BitVec.ofNat 16 c, sdesc := sd }
    { s with out := s.out ++ releaseEvents (q.maps.take c) }
  rw [← he] at hk
  refine ⟨hk, fun hq => ?_⟩
  rw [show q' = (q', t).1 from rfl, he]
  exact resumeCheck_state hq

theorem notifyEq_keeps {i : Nat} {q q' : EgressQueue} {s t : State} (h : notifyEq q s = .ok (q', t)) :
    QueueKeeps i q q' s t := by
  obtain ⟨_, rfl, hs⟩ := notifyEq_ok h
  exact .of_same (.of_mmio hs) .rfl

theorem flushIfOpen_keeps {i : Nat} {q q' : EgressQueue} {s t : State} (h : flushIfOpen q s = .ok (q', t)) :
    QueueKeeps i q q' s t := by
  obtain ⟨_, hf, hl, hq, _⟩ := flushIfOpen_ok h
  exact .of_frame hf hl hq

theorem txpktsFlushCommand_keeps {i : Nat} {q q' : EgressQueue} {s t : State}
    (h : txpktsFlushCommand q s = .ok (q', t)) : QueueKeeps i q q' s t := by
  unfold txpktsFlushCommand at h
  split at h
  · simp at h
  · exact flushIfOpen_keeps h

theorem commit_keeps {i nd cr np : Nat} {q q' : EgressQueue} {s t : State} (h : commit nd cr np q s = .ok (q', t)) :
    QueueKeeps i q q' s t := by
  obtain ⟨_, hf, hl, hq⟩ := commit_same h
  exact .of_frame hf hl hq

theorem txpktsAdd_keeps {i : Nat} {p : Packet} {q q' : EgressQueue} {s t : State}
    (h : txpktsAdd p q s = .ok (q', t)) : QueueKeeps i q q' s t := by
  obtain ⟨_, hf, hl, hq⟩ := txpktsAdd_ok h
  exact .of_frame hf hl hq

/-- A submission leaves the queue's state, or stalls an Active queue. -/
theorem SubmitEnd.keeps {i : Nat} {q q' : EgressQueue} {s t : State} (h : SubmitEnd i q q' s t) :
    QueueKeeps i q q' s t := by
  obtain ⟨_, hf, ⟨hq, hl⟩ | ⟨ha, hq, hl⟩⟩ := h
  · exact .of_frame hf hl hq
  · obtain ⟨⟨_, _, _, _, _, _, _, _, ht⟩, _, _⟩ := hf
    exact .of_append (by rw [ht]) (by rw [ht]) hl (by simp [ha]) hq

theorem takeMaps_keeps (i : Nat) (ps : List Nat) (q : EgressQueue) (s : State) :
    QueueKeeps i q (takeMaps ps q s).1 s (takeMaps ps q s).2 := by
  induction ps generalizing q s with
  | nil => exact .of_same (.refl s) .rfl
  | cons p ps ih => exact (QueueKeeps.of_same ⟨rfl, rfl, rfl⟩ .rfl).trans (ih _ _)

theorem placeRequest_keeps {i : Nat} {fs : List Flit} {cr np : Nat} {q q' : EgressQueue} {s t : State} {r : Ret}
    (h : placeRequest fs cr np q s = .ok (q', t, r)) : QueueKeeps i q q' s t := by
  obtain ⟨s1, h1, h2⟩ := Res.bind_eq_ok.mp h
  obtain ⟨⟨q2, s2⟩, h3, h4⟩ := Res.bind_eq_ok.mp h2
  cases h4
  exact (QueueKeeps.of_same (.of_ring (writeWr_ok h1)) .rfl).trans (commit_keeps h3)

/-- The teardown's start leaves a queue that is not Stalled, and off the list. -/
theorem beginTeardownEq_keeps {i : Nat} {q q' : EgressQueue} {s t : State}
    (h : beginTeardownEq i q s = .ok (q', t)) : QueueKeeps i q q' s t ∧ q'.state ≠ .stalled := by
  unfold beginTeardownEq at h
  split at h
  · obtain ⟨⟨q1, s1⟩, h1, h2⟩ := Res.bind_eq_ok.mp h
    obtain ⟨⟨q2, s2⟩, h3, h4⟩ := Res.bind_eq_ok.mp h2
    have hk := (flushIfOpen_keeps h1).trans (notifyEq_keeps (i := i) h3)
    dsimp only at h4
    split at h4
    · cases h4
      exact ⟨hk.trans (.of_erase rfl rfl rfl (by simp)), by simp⟩
    · rename_i hq
      cases h4
      exact ⟨hk.trans (.of_same (.refl _) (by simp [hq])), by simp⟩
  · rename_i hq
    cases h
    exact ⟨.of_same (.refl _) .rfl, fun hs => hq (.inr hs)⟩

theorem teardownEq_keeps {i : Nat} {q q' : EgressQueue} {s t : State} {r : Ret}
    (h : teardownEq i q s = .ok (q', t, r)) : QueueKeeps i q q' s t := by
  unfold teardownEq at h
  split at h
  · simp at h
  · obtain ⟨⟨q1, s1⟩, h1, h2⟩ := Res.bind_eq_ok.mp h
    obtain ⟨⟨q2, s2, d, c⟩, h3, h4⟩ := Res.bind_eq_ok.mp h2
    obtain ⟨hk1, hq1⟩ := beginTeardownEq_keeps h1
    obtain ⟨hk2, hq2⟩ := reclaim_keeps h3
    dsimp only at h4
    split at h4
    · cases h4
      have hq : q2.state ≠ .stalled := by rw [hq2 hq1]; exact hq1
      exact (hk1.trans hk2).trans (.of_same (.refl _) (by simp [hq]))
    · cases h4
      exact hk1.trans hk2

/-! ### A write standing alone -/

theorem tell_keeps (s : State) (r : QRef) (n : Nat) : KeepsStalled s (tell s r n) := by
  cases r with
  | fl i =>
    unfold tell
    dsimp only
    split
    · exact SameEgress.keeps ⟨rfl, rfl, rfl⟩
    · exact .refl s
  | eq i =>
    unfold tell
    dsimp only
    split
    · rename_i q hq
      exact QueueKeeps.setEq hq (.of_same (.refl s) .rfl)
    · exact .refl s

theorem writeAlone_keeps {s t : State} {w : MmioWrite} (h : writeAlone s w = .ok (some t)) : KeepsStalled s t := by
  obtain rfl | ⟨r, n, _, _, rfl⟩ := writeAlone_ok h
  · exact (mmioWrite_same s w).keeps
  · exact (mmioWrite_same s w).keeps.trans (tell_keeps _ r n)

/-! ## Ingress operations -/

theorem refill_same {n : Nat} {fl fl' : FreeList} {s t : State} {p : Nat} {st : Bool}
    (h : refill n fl s = .ok (fl', t, p, st)) : SameEgress s t := by
  obtain ⟨_, _, _, _, _, _, _, _, _, _, _, _, _, rfl, _⟩ := refill_ok h
  exact ⟨rfl, rfl, rfl⟩

theorem registerStarving_same (i : Nat) (b : Bool) (fl : FreeList) (s : State) :
    SameEgress s (registerStarving i b fl s).2 := by
  rw [registerStarving_eq]
  exact ⟨rfl, rfl, rfl⟩

theorem consumeFrame_same {fl fl' : FreeList} {n : Nat} {nb : Bool} {s t : State} {r : Option LogicalFrame}
    (h : consumeFrame fl n nb s = .ok (r, fl', t)) : SameEgress s t := by
  obtain ⟨_, _, _, _, _, rfl⟩ := consumeFrame_ok h
  exact ⟨rfl, rfl, rfl⟩

theorem releaseAll_same {gs : List Segment} {s t : State} (h : releaseAll s gs = .ok t) : SameEgress s t := by
  obtain ⟨_, _, rfl⟩ := releaseAll_ok h
  exact ⟨rfl, rfl, rfl⟩

theorem violation_same (q : IngressQueue) (s : State) (f0 f1 : Flit) : SameEgress s (violation q s f0 f1).2 :=
  ⟨rfl, rfl, rfl⟩

theorem deliver_same (q : IngressQueue) (f : LogicalFrame) (s : State) : SameEgress s (deliver q f s).2 := by
  unfold deliver
  dsimp only
  split <;> exact ⟨rfl, rfl, rfl⟩

theorem judgeFrame_same {e : RxEntry} {f0 f1 : Flit} {f : LogicalFrame} {q q' : IngressQueue} {s t : State}
    (h : judgeFrame e f0 f1 f q s = .ok (q', t)) : SameEgress s t := by
  unfold judgeFrame at h
  split at h
  · obtain ⟨s1, h1, h2⟩ := Res.bind_eq_ok.mp h
    cases h2
    exact (releaseAll_same h1).trans (violation_same q s1 f0 f1)
  · split at h
    · obtain ⟨s1, h1, h2⟩ := Res.bind_eq_ok.mp h
      cases h2
      exact (releaseAll_same h1).trans ⟨rfl, rfl, rfl⟩
    · have hd := deliver_same q (f.withMeta (frameMeta e)) s
      rw [Except.ok.inj h] at hd
      exact hd

theorem dispatchRx_same {e : RxEntry} {f0 f1 : Flit} {q q' : IngressQueue} {s t : State} {b : Bool}
    (h : dispatchRx e f0 f1 q s = .ok (b, q', t)) : SameEgress s t := by
  unfold dispatchRx at h
  split at h
  · cases h; exact violation_same q s f0 f1
  · split at h
    · cases h; exact violation_same q s f0 f1
    · obtain ⟨⟨r, fl, s1⟩, h1, h2⟩ := Res.bind_eq_ok.mp h
      dsimp only at h2
      split at h2
      · cases h2; exact consumeFrame_same h1
      · obtain ⟨⟨q2, s2⟩, h3, h4⟩ := Res.bind_eq_ok.mp h2
        cases h4
        exact (consumeFrame_same h1).trans (judgeFrame_same h3)

/-- An egress update is the one entry that touches an egress queue: it reclaims it (42_ingress_service R264). -/
theorem egrUpdate_keeps {eqid : BitVec 16} {f0 f1 : Flit} {q q' : IngressQueue} {s t : State}
    (h : egrUpdate eqid f0 f1 q s = .ok (q', t)) : KeepsStalled s t := by
  unfold egrUpdate at h
  split at h
  · cases h; exact (violation_same q s f0 f1).keeps
  · split at h
    · cases h; exact (violation_same q s f0 f1).keeps
    · rename_i e he
      obtain ⟨⟨e1, s1, d, c⟩, h1, h2⟩ := Res.bind_eq_ok.mp h
      cases h2
      exact (reclaim_keeps h1).1.setEq he

theorem dispatchOob_same (op : BitVec 8) (f0 f1 : Flit) (q : IngressQueue) (s : State) :
    SameEgress s (dispatchOob op f0 f1 q s).2 := by
  unfold dispatchOob
  split <;> exact ⟨rfl, rfl, rfl⟩

/-! ### The dispatch and the service call -/

/-- An arm of the dispatch that keeps the stalled list. -/
def ArmKeeps (arm : IngressQueue → State → Res (Bool × IngressQueue × State)) : Prop :=
  ∀ q q' s t b, arm q s = .ok (b, q', t) → KeepsStalled s t

/-- A forwarded-interrupt arm that keeps the stalled list. -/
def FwdKeeps (fwd : FwdArm) : Prop := ∀ n f0 f1 q q' s t, fwd n f0 f1 q s = .ok (q', t) → KeepsStalled s t

theorem afterGenCheck_keeps {f0 f1 : Flit} {arm : IngressQueue → State → Res (Bool × IngressQueue × State)}
    (ha : ArmKeeps arm) : ArmKeeps (afterGenCheck f0 f1 arm) := by
  intro q q' s t b h
  unfold afterGenCheck at h
  split at h
  · cases h; exact SameEgress.keeps ⟨rfl, rfl, rfl⟩
  · exact ha q q' s t b h

theorem dispatchTyped_keeps {fwd : FwdArm} (hf : FwdKeeps fwd) (f0 f1 : Flit) : ArmKeeps (dispatchTyped fwd f0 f1) := by
  intro q q' s t b h
  unfold dispatchTyped at h
  split at h
  · exact (dispatchRx_same h).keeps
  · obtain ⟨⟨q1, s1⟩, h1, h2⟩ := Res.bind_eq_ok.mp h
    cases h2; exact egrUpdate_keeps h1
  · cases h; exact (dispatchOob_same _ f0 f1 q s).keeps
  · obtain ⟨⟨q1, s1⟩, h1, h2⟩ := Res.bind_eq_ok.mp h
    cases h2; exact hf _ _ _ _ _ _ _ h1
  · cases h; exact (violation_same q s f0 f1).keeps

theorem lroFlush_same (q : IngressQueue) (s : State) : SameEgress s (lroFlush q s).2 := by
  unfold lroFlush
  split <;> exact ⟨rfl, rfl, rfl⟩

theorem refillIfLow_same {i : Nat} {q q' : IngressQueue} {s t : State} (h : refillIfLow i q s = .ok (q', t)) :
    SameEgress s t := by
  unfold refillIfLow at h
  split at h
  · cases h; exact .refl s
  · split at h
    · obtain ⟨⟨fl, s1, p, st⟩, h1, h2⟩ := Res.bind_eq_ok.mp h
      cases h2
      exact (refill_same h1).trans (registerStarving_same i st fl s1)
    · cases h; exact .refl s

theorem endService_same {i : Nat} {b r : Bool} {q q' : IngressQueue} {s t : State}
    (h : endService i b q s = .ok (q', t, r)) : SameEgress s t := by
  obtain ⟨⟨q1, s1⟩, h1, h2⟩ := Res.bind_eq_ok.mp h
  cases h2
  exact (lroFlush_same q s).trans (refillIfLow_same h1)

theorem writeCredit_same (s : State) (qid : BitVec 12) (ti : BitVec 3) (cnt : Bool) (n : Nat) :
    SameEgress s (writeCredit s qid ti cnt n) := mmioWrite_same s _

theorem serviceLoop_keeps {fwd : FwdArm} (hf : FwdKeeps fwd) {i left nd : Nat} {q q' : IngressQueue} {s t : State}
    {r : Bool} (h : serviceLoop fwd i left nd q s = .ok (q', t, r)) : KeepsStalled s t := by
  induction left generalizing nd q s with
  | zero => exact ((writeCredit_same s _ _ _ _).trans (endService_same h)).keeps
  | succ left ih =>
    obtain ⟨f1, _, h2⟩ := Res.bind_eq_ok.mp h
    split at h2
    · obtain ⟨f0, _, h4⟩ := Res.bind_eq_ok.mp h2
      obtain ⟨⟨adv, q1, s1⟩, h5, h6⟩ := Res.bind_eq_ok.mp h4
      have hd : KeepsStalled s s1 := afterGenCheck_keeps (dispatchTyped_keeps hf f0 f1) _ _ _ _ _ h5
      dsimp only at h6
      split at h6
      · exact hd.trans (ih h6)
      · have he := endService_same h6
        split at he
        · exact hd.trans ((writeCredit_same s1 _ _ _ _).trans he).keeps
        · exact hd.trans he.keeps
    · exact ((writeCredit_same s _ _ _ _).trans (endService_same h2)).keeps

theorem fwdNested_keeps : FwdKeeps fwdNested := by
  intro n f0 f1 q q' s t h
  cases h
  exact (violation_same q s f0 f1).keeps

theorem finishService_same (s : State) (i : Nat) (q : IngressQueue) (b : Bool) :
    SameEgress s (finishService s i q b).2 := by
  rw [finishService_eq]
  exact ⟨rfl, rfl, rfl⟩

theorem dispatchFwd_keeps (budget : Nat) : FwdKeeps (dispatchFwd budget) := by
  intro n f0 f1 q q' s t h
  unfold dispatchFwd at h
  split at h
  · cases h; exact (violation_same q s f0 f1).keeps
  · split at h
    · cases h; exact (violation_same q s f0 f1).keeps
    · split at h
      · cases h; exact .refl s
      · obtain ⟨⟨t1, s1, r⟩, h1, h2⟩ := Res.bind_eq_ok.mp h
        cases h2
        exact (serviceLoop_keeps fwdNested_keeps h1).trans (SameEgress.keeps (finishService_same s1 _ t1 r))

theorem service_keeps {i b : Nat} {q q' : IngressQueue} {s t : State} {r : Bool} (h : service i b q s = .ok (q', t, r)) :
    KeepsStalled s t := serviceLoop_keeps (dispatchFwd_keeps b) h

theorem serviceAndFinish_keeps {i : Nat} {q q' : IngressQueue} {s t : State} {r : Ret}
    (h : serviceAndFinish i q s = .ok (q', t, r)) : KeepsStalled s t := by
  obtain ⟨⟨q1, s1, b⟩, h1, h2⟩ := Res.bind_eq_ok.mp h
  cases h2
  exact (service_keeps h1).trans (finishService_same s1 i q1 b).keeps

theorem dispatchAlone_keeps {i : Nat} {f : Flit × Flit} {arm : IngressQueue → State → Res (Bool × IngressQueue × State)}
    {s u : State} {r : Ret} (ha : ArmKeeps arm) (h : dispatchAlone i f arm s = .ok (u, r)) : KeepsStalled s u := by
  refine onIq_keeps h fun q q' t hq => ?_
  split at hq
  · simp at hq
  · split at hq
    · simp at hq
    · split at hq
      · obtain ⟨⟨b, q1, s1⟩, h1, h2⟩ := Res.bind_eq_ok.mp hq
        cases h2
        exact afterGenCheck_keeps ha _ _ _ _ _ h1
      · cases hq; exact .refl s

end Sys2Proof.Machine
end

section
/-! PROOFS. What the other operations, every instruction and the step keep; the panic latch and the stalled list. -/

namespace Sys2Proof.Machine

/-! ## Creation, teardown, the timer -/

theorem zeroFlits_same {s t : State} {a n : Nat} (h : zeroFlits s a n = .ok t) : SameEgress s t :=
  .of_ring (ringWriteAll_ok h)

theorem createIq_keeps {i : Nat} {a : CreateIqArgs} {s u : State} {r : Ret} (h : createIq i a s = .ok (u, r)) :
    KeepsStalled s u := by
  unfold createIq at h
  split at h
  · simp at h
  · obtain ⟨s1, h1, h2⟩ := Res.bind_eq_ok.mp h
    cases h2
    have hz : SameEgress s s1 := zeroFlits_same (s := s.setIq i (newIq a)) h1
    have hd : SameEgress s1
      (s1.setDevIq i { pidx := 0, gen := true, credits := BitVec.ofNat 16 (a.cap - 1), armed := false }) := ⟨rfl, rfl, rfl⟩
    exact ((hz.trans hd).trans (writeCredit_same _ _ _ _ _)).keeps

theorem createFl_keeps {i : Nat} {a : CreateFlArgs} {s u : State} {r : Ret} (h : createFl i a s = .ok (u, r)) :
    KeepsStalled s u := by
  unfold createFl at h
  split at h
  · simp at h
  · split at h
    · simp at h
    · split at h
      · simp at h
      · refine onIq_keeps h fun q q' t hq => ?_
        obtain ⟨s1, h1, h2⟩ := Res.bind_eq_ok.mp hq
        cases h2
        exact ((zeroFlits_same h1).trans ⟨rfl, rfl, rfl⟩).keeps

/-- An egress queue is created in place of none or of a Dead one (47_system R432). -/
theorem not_stalled_of_createEq {s : State} {i : Nat} {a : CreateEqArgs} (h : badCreateEq s i a = false)
    {q : EgressQueue} (hq : s.eqAt i = some q) : q.state ≠ .stalled := by
  intro hs
  simp [badCreateEq, hq, EgressQueue.live, hs] at h

/-- A queue that is created is Active, and its place was that of no Stalled queue. -/
theorem setEq_newEq_keeps {s : State} {i : Nat} {a : CreateEqArgs} (h : badCreateEq s i a = false) :
    KeepsStalled s (s.setEq i (newEq a)) := by
  refine ⟨rfl, fun ⟨hn, hs⟩ => ⟨hn, fun j => (hs j).trans ?_⟩⟩
  rw [State.setEq_eqAt]
  split
  · rename_i hj
    obtain ⟨rfl, _⟩ := hj
    exact iff_of_false (fun ⟨q, hq, hst⟩ => not_stalled_of_createEq h hq hst) (by simp [newEq])
  · exact .rfl

theorem createEq_keeps {i : Nat} {a : CreateEqArgs} {s u : State} {r : Ret} (h : createEq i a s = .ok (u, r)) :
    KeepsStalled s u := by
  unfold createEq at h
  split at h
  · simp at h
  · rename_i hb
    obtain ⟨s1, h1, h2⟩ := Res.bind_eq_ok.mp h
    cases h2
    exact (setEq_newEq_keeps (by simpa using hb)).trans ((zeroFlits_same h1).trans ⟨rfl, rfl, rfl⟩).keeps

theorem dropResume_same {fl fl' : FreeList} {s t : State} (h : dropResume fl s = .ok (fl', t)) : SameEgress s t := by
  unfold dropResume at h
  split at h
  · obtain ⟨s1, h1, h2⟩ := Res.bind_eq_ok.mp h
    cases h2
    exact releaseAll_same h1
  · cases h; exact .refl _

theorem dropRef_same {s t : State} {b : Buffer} (h : dropRef s b = .ok t) : SameEgress s t := by
  obtain ⟨_, rfl⟩ := dropRef_arena h
  exact ⟨rfl, rfl, rfl⟩

theorem dropSlots_same {sds sds' : List FreeListSlot} {s t : State} (h : dropSlots sds s = .ok (sds', t)) :
    SameEgress s t := by
  induction sds generalizing sds' s with
  | nil => cases h; exact .refl _
  | cons sd rest ih =>
    obtain ⟨⟨sd1, s1⟩, h1, h2⟩ := Res.bind_eq_ok.mp h
    obtain ⟨⟨rest1, s2⟩, h3, h4⟩ := Res.bind_eq_ok.mp h2
    cases h4
    refine SameEgress.trans ?_ (ih h3)
    split at h1
    · cases h1; exact .refl s
    · split at h1
      · simp at h1
      · dsimp only at h1
        split at h1
        · obtain ⟨s3, h5, h6⟩ := Res.bind_eq_ok.mp h1
          cases h6
          exact dropRef_same h5
        · cases h1; exact ⟨rfl, rfl, rfl⟩

theorem doomFl_same {i : Nat} {fl fl' : FreeList} {s t : State} (h : doomFl i fl s = .ok (fl', t)) : SameEgress s t := by
  obtain ⟨⟨fl1, s1⟩, h1, h2⟩ := Res.bind_eq_ok.mp h
  obtain ⟨⟨sds, s2⟩, h3, h4⟩ := Res.bind_eq_ok.mp h2
  cases h4
  refine SameEgress.trans ?_ ((dropResume_same h1).trans (dropSlots_same h3))
  split <;> exact ⟨rfl, rfl, rfl⟩

theorem teardownIq_same {i : Nat} {q q' : IngressQueue} {s t : State} {r : Ret}
    (h : teardownIq i q s = .ok (q', t, r)) : SameEgress s t := by
  unfold teardownIq at h
  split at h
  · simp at h
  · split at h
    · simp at h
    · split at h
      · cases h; exact ⟨rfl, rfl, rfl⟩
      · split at h
        · cases h; exact .refl s
        · obtain ⟨⟨fl, s1⟩, h1, h2⟩ := Res.bind_eq_ok.mp h
          cases h2
          exact doomFl_same h1

/-- A refused part of the tick leaves the state; any other is its operation. -/
theorem orElseSame_keeps {s t : State} {x : Res State} (h : orElseSame s x = .ok t)
    (hx : x = .ok t → KeepsStalled s t) : KeepsStalled s t := by
  unfold orElseSame at h
  split at h
  · cases h; exact .refl _
  · exact hx h

theorem tickFl_keeps {i : Nat} {s t : State} (h : tickFl i s = .ok t) : KeepsStalled s t := by
  unfold tickFl at h
  split at h
  · refine orElseSame_keeps h fun h => ?_
    obtain ⟨⟨fl, s1, p, st⟩, h1, h2⟩ := Res.bind_eq_ok.mp h
    refine ((refill_same h1).trans ?_).keeps
    dsimp only at h2
    split at h2 <;> (cases h2; exact ⟨rfl, rfl, rfl⟩)
  · cases h; exact .refl _

theorem tickEq_keeps {i : Nat} {s t : State} (h : tickEq i s = .ok t) : KeepsStalled s t := by
  unfold tickEq at h
  split at h
  · rename_i q hq
    refine orElseSame_keeps h fun h => ?_
    obtain ⟨⟨q1, s1, d, c⟩, h1, h2⟩ := Res.bind_eq_ok.mp h
    cases h2
    exact (reclaim_keeps h1).1.setEq hq
  · cases h; exact .refl s

theorem forEach_keeps {f : Nat → State → Res State} (hf : ∀ i s t, f i s = .ok t → KeepsStalled s t) {is : List Nat}
    {s t : State} (h : forEach f is s = .ok t) : KeepsStalled s t := by
  induction is generalizing s with
  | nil => cases h; exact .refl _
  | cons i is ih =>
    obtain ⟨s1, h1, h2⟩ := Res.bind_eq_ok.mp h
    exact (hf i s s1 h1).trans (ih h2)

theorem timerTick_keeps {s u : State} {r : Ret} (h : timerTick s = .ok (u, r)) : KeepsStalled s u := by
  obtain ⟨s1, h1, h2⟩ := Res.bind_eq_ok.mp h
  obtain ⟨s2, h3, h4⟩ := Res.bind_eq_ok.mp h2
  cases h4
  exact (forEach_keeps (fun _ _ _ => tickFl_keeps) h1).trans (forEach_keeps (fun _ _ _ => tickEq_keeps) h3)

/-! ## Device operations -/

theorem ringWrite_same {s t : State} {a : Nat} {v : Flit} (h : ringWrite s a v = .ok t) : SameEgress s t := by
  obtain ⟨_, rfl⟩ := ringWrite_ok h
  exact ⟨rfl, rfl, rfl⟩

theorem bufWrite_same {s t : State} {a : Nat} {bs : List Byte} (h : bufWrite s a bs = .ok t) : SameEgress s t := by
  obtain ⟨_, rfl⟩ := bufWrite_ok h
  exact ⟨rfl, rfl, rfl⟩

theorem devPlace_same {fl : FreeList} {n : Nat} {bs : List Byte} {d d' : DevFl} {s t : State}
    (h : devPlace fl n bs d s = .ok (some (d', t))) : SameEgress s t := by
  induction n generalizing bs d s with
  | zero =>
    simp only [devPlace, Except.ok.injEq, Option.ite_none_right_eq_some, Option.some.injEq, Prod.mk.injEq] at h
    obtain ⟨_, _, rfl⟩ := h
    exact .refl s
  | succ n ih =>
    unfold devPlace at h
    split at h
    · cases h; exact .refl _
    · split at h
      · cases h
      · obtain ⟨w, _, h2⟩ := Res.bind_eq_ok.mp h
        dsimp only at h2
        split at h2
        · cases h2
        · obtain ⟨s1, h3, h4⟩ := Res.bind_eq_ok.mp h2
          exact (bufWrite_same h3).trans (ih h4)

theorem devPost_same {i : Nat} {q : IngressQueue} {d : DevIq} {f : Flit × Flit} {s t : State}
    (h : devPost i q d f s = .ok t) : SameEgress s t := by
  obtain ⟨s1, h1, h2⟩ := Res.bind_eq_ok.mp h
  obtain ⟨s2, h3, h4⟩ := Res.bind_eq_ok.mp h2
  cases h4
  exact ((ringWrite_same h1).trans (ringWrite_same h3)).trans ⟨rfl, rfl, rfl⟩

theorem writeStatus_same {s t : State} {q : QRef} {r : Sp} {x : Ret} (h : writeStatus s q r = .ok (some (t, x))) :
    SameEgress s t := by
  obtain ⟨_, _, rfl⟩ := writeStatus_ok h
  exact ⟨rfl, rfl, rfl⟩

theorem releaseSegment_same {s t : State} {g : Segment} (h : releaseSegment s g = .ok t) : SameEgress s t := by
  obtain ⟨_, _, rfl⟩ := releaseSegment_ok h
  exact ⟨rfl, rfl, rfl⟩

/-! ## Instructions -/

section
variable {s t : State}

/-! ### Teardown -/

theorem execTeardownIq_keeps {i : Nat} (h : execTeardownIq i s = .next t) : PanicsOrKeeps s t :=
  runQe_keeps h fun _ _ hu => onIq_keeps hu fun _ _ _ hq => (teardownIq_same hq).keeps

theorem execTeardownEq_keeps {i : Nat} (h : execTeardownEq i s = .next t) : PanicsOrKeeps s t :=
  runQe_keeps h fun _ _ hu => onEq_keeps hu fun _ _ _ hq => teardownEq_keeps hq

/-! ### Free lists and frames -/

theorem execFindBestRefillSource_keeps {n : BitVec 32} {b : Bool} (h : execFindBestRefillSource n b s = .next t) :
    PanicsOrKeeps s t :=
  runQe_keeps h fun _ _ hu => by cases hu; exact .refl _

theorem execFindSafeRefillSource_keeps {b : Bool} (h : execFindSafeRefillSource b s = .next t) : PanicsOrKeeps s t :=
  runQe_keeps h fun _ _ hu => by cases hu; exact .refl _

theorem execRefill_keeps {i n : Nat} (h : execRefill i n s = .next t) : PanicsOrKeeps s t :=
  runQe_keeps h fun _ _ hu => onFl_keeps hu fun fl fl' u hf => by
    split at hf
    · simp at hf
    · split at hf
      · simp at hf
      · obtain ⟨⟨fl1, s1, p, st⟩, h1, h2⟩ := Res.bind_eq_ok.mp hf
        cases h2
        exact (refill_same h1).trans (registerStarving_same i st fl1 s1)

theorem execConsumeFrame_keeps {i : Nat} {n : BitVec 31} {nb : Bool} (h : execConsumeFrame i n nb s = .next t) :
    PanicsOrKeeps s t :=
  runQe_keeps h fun _ _ hu => onFl_keeps hu fun fl fl' u hf => by
    split at hf
    · simp at hf
    · split at hf
      · simp at hf
      · obtain ⟨⟨f, fl1, s1⟩, h1, h2⟩ := Res.bind_eq_ok.mp hf
        dsimp only at h2
        split at h2
        · cases h2; exact (consumeFrame_same h1).trans ⟨rfl, rfl, rfl⟩
        · cases h2; exact consumeFrame_same h1

theorem execFrameRelease_keeps {g : Segment} (h : execFrameRelease g s = .next t) : PanicsOrKeeps s t :=
  runQe_keeps h fun u _ hu => by
    split at hu
    · obtain ⟨s1, h1, h2⟩ := Res.bind_eq_ok.mp hu
      cases h2
      exact (SameEgress.trans ⟨rfl, rfl, rfl⟩ (releaseSegment_same h1)).keeps
    · split at hu <;> simp at hu

theorem execFle_keeps {i : Nat} {e : Fle} (h : execFle i e s = .next t) : PanicsOrKeeps s t :=
  runQe_keeps h fun _ _ hu => onFl_keeps hu fun fl fl' u hf => by
    split at hf
    · simp at hf
    · split at hf
      · simp at hf
      · obtain ⟨s1, h1, h2⟩ := Res.bind_eq_ok.mp hf
        cases h2
        exact ringWrite_same h1

/-! ### Ingress service -/

theorem execInterrupt_keeps {i : Nat} (h : execInterrupt i s = .next t) : PanicsOrKeeps s t :=
  runQe_keeps h fun _ _ hu => onIq_keeps hu fun q q' u hq => by
    split at hq
    · simp at hq
    · split at hq
      · simp at hq
      · split at hq
        · cases hq; exact SameEgress.keeps ⟨rfl, rfl, rfl⟩
        · exact serviceAndFinish_keeps hq

theorem execService_keeps {i : Nat} {b : BitVec 16} (h : execService i b s = .next t) : PanicsOrKeeps s t :=
  runQe_keeps h fun _ _ hu => onIq_keeps hu fun q q' u hq => by
    split at hq
    · simp at hq
    · split at hq
      · simp at hq
      · obtain ⟨⟨q1, s1, d⟩, h1, h2⟩ := Res.bind_eq_ok.mp hq
        cases h2
        exact service_keeps h1

theorem execDeferredRun_keeps (h : execDeferredRun s = .next t) : PanicsOrKeeps s t :=
  runQe_keeps h fun u _ hu => by
    split at hu
    · cases hu; exact .refl _
    · rename_i i rest _
      have hw : KeepsStalled s.begin (s.begin.setWorklist rest) := SameEgress.keeps ⟨rfl, rfl, rfl⟩
      exact hw.trans (onIq_keeps hu fun q q' v hq => serviceAndFinish_keeps hq)

theorem execIqeRx_keeps {i : Nat} {e : RxEntry} (h : execIqeRx i e s = .next t) : PanicsOrKeeps s t :=
  runQe_keeps h fun _ _ hu => dispatchAlone_keeps (fun _ _ _ _ _ ha => (dispatchRx_same ha).keeps) hu

theorem execIqeEgrUpdate_keeps {i : Nat} {e : EgrUpdateEntry} (h : execIqeEgrUpdate i e s = .next t) :
    PanicsOrKeeps s t :=
  runQe_keeps h fun _ _ hu => dispatchAlone_keeps (fun q q' u v b ha => by
    obtain ⟨⟨q1, s1⟩, h1, h2⟩ := Res.bind_eq_ok.mp ha
    cases h2
    exact egrUpdate_keeps h1) hu

theorem execIqeOob_keeps {i : Nat} {e : OobEntry} (h : execIqeOob i e s = .next t) : PanicsOrKeeps s t :=
  runQe_keeps h fun _ _ hu => dispatchAlone_keeps (fun q q' u v b ha => by
    cases ha
    exact (dispatchOob_same _ _ _ q u).keeps) hu

theorem execIqeFwd_keeps {i : Nat} {e : FwdEntry} (h : execIqeFwd i e s = .next t) : PanicsOrKeeps s t :=
  runQe_keeps h fun _ _ hu => dispatchAlone_keeps (fun q q' u v b ha => by
    obtain ⟨⟨q1, s1⟩, h1, h2⟩ := Res.bind_eq_ok.mp ha
    cases h2
    exact dispatchFwd_keeps _ _ _ _ _ _ _ _ h1) hu

theorem execIqeReserved_keeps {i : Nat} {e : ReservedEntry} (h : execIqeReserved i e s = .next t) :
    PanicsOrKeeps s t :=
  runQe_keeps h fun _ _ hu => dispatchAlone_keeps (fun q q' u v b ha => by
    cases ha
    exact (violation_same q u _ _).keeps) hu

/-! ### Egress queues -/

theorem execSubmit_keeps {i : Nat} {p : Packet} (h : execSubmit i p s = .next t) : PanicsOrKeeps s t :=
  runQe_keeps h fun _ _ hu => onEq_keeps hu fun _ _ _ hq => (submit_ok hq).keeps

theorem execSubmitWr_keeps {i : Nat} {fs : List Flit} (h : execSubmitWr i fs s = .next t) : PanicsOrKeeps s t :=
  runQe_keeps h fun _ _ hu => onEq_keeps hu fun _ _ _ hq => (submitWr_ok hq).keeps

theorem execTxpktsFlush_keeps {i : Nat} (h : execTxpktsFlush i s = .next t) : PanicsOrKeeps s t :=
  runQe_keeps h fun _ _ hu => onEq_keeps hu fun q q' u hq => by
    obtain ⟨⟨q1, s1⟩, h1, h2⟩ := Res.bind_eq_ok.mp hq
    cases h2
    exact txpktsFlushCommand_keeps h1

theorem execReclaim_keeps {i : Nat} {n : BitVec 16} (h : execReclaim i n s = .next t) : PanicsOrKeeps s t :=
  runQe_keeps h fun _ _ hu => onEq_keeps hu fun q q' u hq => by
    obtain ⟨⟨q1, s1, d, c⟩, h1, h2⟩ := Res.bind_eq_ok.mp hq
    cases h2
    exact (reclaim_keeps h1).1

theorem execNotify_keeps {q : QRef} (h : execNotify q s = .next t) : PanicsOrKeeps s t :=
  runQe_keeps h fun _ _ hu => by
    cases q with
    | fl i =>
      refine onFl_keeps hu fun fl fl' u hf => ?_
      obtain ⟨⟨fl1, s1⟩, h1, h2⟩ := Res.bind_eq_ok.mp hf
      cases h2
      obtain ⟨_, _, hs⟩ := notifyFl_ok h1
      exact .of_mmio hs
    | eq i =>
      refine onEq_keeps hu fun q q' u hq => ?_
      obtain ⟨⟨q1, s1⟩, h1, h2⟩ := Res.bind_eq_ok.mp hq
      cases h2
      exact notifyEq_keeps h1

theorem execTxDone_keeps {i : Nat} (h : execTxDone i s = .next t) : PanicsOrKeeps s t :=
  runQe_keeps h fun _ _ hu => onEq_keeps hu fun q q' u hq => by
    split at hq
    · obtain ⟨⟨q1, s1⟩, h1, h2⟩ := Res.bind_eq_ok.mp hq
      cases h2
      have hraise : QueueKeeps i q q s.begin (s.begin.raise .doomed) := .of_same ⟨rfl, rfl, rfl⟩ .rfl
      exact hraise.trans (notifyEq_keeps h1)
    · obtain ⟨⟨q1, s1⟩, h1, h2⟩ := Res.bind_eq_ok.mp hq
      obtain ⟨⟨q2, s2⟩, h3, h4⟩ := Res.bind_eq_ok.mp h2
      cases h4
      exact (txpktsFlushCommand_keeps h1).trans (notifyEq_keeps h3)

theorem execTxpktsOpen_keeps {i : Nat} (h : execTxpktsOpen i s = .next t) : PanicsOrKeeps s t :=
  runQe_keeps h fun _ _ hu => onEq_keeps hu fun q q' u hq => by
    split at hq
    · simp at hq
    · split at hq
      · simp at hq
      · cases hq; exact .of_same (.refl _) .rfl

theorem execTxpktsAdd_keeps {i : Nat} {p : Packet} (h : execTxpktsAdd i p s = .next t) : PanicsOrKeeps s t :=
  runQe_keeps h fun _ _ hu => onEq_keeps hu fun q q' u hq => by
    split at hq
    · simp at hq
    · split at hq
      · simp at hq
      · obtain ⟨⟨q1, s1⟩, h1, h2⟩ := Res.bind_eq_ok.mp hq
        cases h2
        exact txpktsAdd_keeps h1

theorem execResumeCheck_keeps {i : Nat} {hw : BitVec 16} (h : execResumeCheck i hw s = .next t) : PanicsOrKeeps s t :=
  runQe_keeps h fun _ _ hu => onEq_keeps hu fun q q' u hq => by
    split at hq
    · simp at hq
    · split at hq
      · simp at hq
      · cases hq; exact resumeCheck_keeps i hw q _

/-! ### Requests and their parts -/

theorem execEthTxPkt_keeps {i pkt : Nat} {w : WrHeader} {body : List Flit} (h : execEthTxPkt i pkt w body s = .next t) :
    PanicsOrKeeps s t :=
  runQe_keeps h fun _ _ hu => onEq_keeps hu fun q q' u hq => by
    split at hq
    · simp at hq
    · split at hq
      · simp at hq
      · split at hq
        · simp at hq
        · split at hq
          · have hemit : QueueKeeps i q q s.begin (s.begin.emit (.freePkt pkt)) := .of_same ⟨rfl, rfl, rfl⟩ .rfl
            exact hemit.trans (placeRequest_keeps hq)
          · split at hq
            · simp at hq
            · exact (takeMaps_keeps i [pkt] q _).trans (placeRequest_keeps hq)

theorem execEthTxPkts_keeps {i : Nat} {pkts : List Nat} {w : WrHeader} {body : List Flit}
    (h : execEthTxPkts i pkts w body s = .next t) : PanicsOrKeeps s t :=
  runQe_keeps h fun _ _ hu => onEq_keeps hu fun q q' u hq => by
    split at hq
    · simp at hq
    · split at hq
      · simp at hq
      · split at hq
        · simp at hq
        · split at hq
          · simp at hq
          · exact (takeMaps_keeps i pkts q _).trans (placeRequest_keeps hq)

theorem execWrOpaque_keeps {i : Nat} {fs : List Flit} (h : execWrOpaque i fs s = .next t) : PanicsOrKeeps s t :=
  runQe_keeps h fun _ _ hu => onEq_keeps hu fun q q' u hq => by
    split at hq
    · simp at hq
    · split at hq
      · simp at hq
      · exact placeRequest_keeps hq

theorem execWrReserved00_keeps {i : Nat} {fs : List Flit} (h : execWrReserved00 i fs s = .next t) :
    PanicsOrKeeps s t :=
  runQe_keeps h fun _ _ hu => onEq_keeps hu fun q q' u hq => by
    split at hq <;> simp at hq

theorem writePart_keeps {i k : Nat} {legal : Bool} {fs : List Flit} {u : State} {r : Ret}
    (h : writePart i k legal fs s = .ok (u, r)) : KeepsStalled s u := by
  refine onEq_keeps h fun q q' u hq => ?_
  split at hq
  · simp at hq
  · split at hq
    · simp at hq
    · obtain ⟨s1, h1, h2⟩ := Res.bind_eq_ok.mp hq
      cases h2
      exact .of_same (.of_ring (writeFlits_ok h1)) .rfl

theorem execWrite_keeps {w : MmioWrite} (h : execWrite w s = .next t) : PanicsOrKeeps s t :=
  runQe_keeps h fun _ _ hu => by
    obtain ⟨x, h1, h2⟩ := Res.bind_eq_ok.mp hu
    split at h2
    · cases h2; exact writeAlone_keeps h1
    · simp at h2

/-! ### The device -/

theorem execSp_keeps {q : QRef} {r : Sp} (h : execSp q r s = .next t) : PanicsOrKeeps s t :=
  runDevice_keeps h fun _ _ hu => by
    split at hu
    · exact (writeStatus_same hu).keeps
    · cases hu

theorem execDevDb_keeps {w : MmioWrite} (h : execDevDb w s = .next t) : PanicsOrKeeps s t :=
  runDevice_keeps h fun _ _ hu => by
    split at hu
    · cases hu
    · obtain ⟨x, h1, h2⟩ := Res.bind_eq_ok.mp hu
      cases x with
      | none => cases h2
      | some v => cases h2; exact writeAlone_keeps h1

theorem execDevFl_keeps {i k : Nat} (h : execDevFl i k s = .next t) : PanicsOrKeeps s t :=
  runDevice_keeps h fun _ _ hu => by
    split at hu
    · split at hu
      · obtain ⟨w, _, h2⟩ := Res.bind_eq_ok.mp hu
        cases h2; exact .refl _
      · cases hu
    · cases hu

theorem execDevRx_keeps {i : Nat} {bs : List Byte} {fm : FrameMeta} {skip : Bool}
    (h : execDevRx i bs fm skip s = .next t) : PanicsOrKeeps s t :=
  runDevice_keeps h fun _ _ hu => by
    split at hu
    · split at hu
      · cases hu
      · obtain ⟨x, h1, h2⟩ := Res.bind_eq_ok.mp hu
        split at h2
        · cases h2
        · obtain ⟨s2, h3, h4⟩ := Res.bind_eq_ok.mp h2
          cases h4
          exact (((devPlace_same h1).trans (devPost_same h3)).trans ⟨rfl, rfl, rfl⟩).keeps
    · cases hu

theorem execDevOob_keeps {i : Nat} {f : Flit} (h : execDevOob i f s = .next t) : PanicsOrKeeps s t :=
  runDevice_keeps h fun _ _ hu => by
    split at hu
    · split at hu
      · cases hu
      · obtain ⟨s1, h1, h2⟩ := Res.bind_eq_ok.mp hu
        cases h2
        exact (devPost_same h1).keeps
    · cases hu

theorem execDevFwd_keeps {p k : Nat} (h : execDevFwd p k s = .next t) : PanicsOrKeeps s t :=
  runDevice_keeps h fun _ _ hu => by
    split at hu
    · dsimp only at hu
      split at hu
      · split at hu
        · obtain ⟨s1, h1, h2⟩ := Res.bind_eq_ok.mp hu
          cases h2
          exact (SameEgress.trans ⟨rfl, rfl, rfl⟩ (devPost_same h1)).keeps
        · cases hu
      · cases hu
    · cases hu

theorem execDevTx_keeps {i : Nat} (h : execDevTx i s = .next t) : PanicsOrKeeps s t :=
  runDevice_keeps h fun _ _ hu => by
    split at hu
    · split at hu
      · cases hu
      · obtain ⟨f0, _, h2⟩ := Res.bind_eq_ok.mp hu
        split at h2
        · cases h2
        · obtain ⟨fs, _, h4⟩ := Res.bind_eq_ok.mp h2
          cases h4
          exact SameEgress.keeps ⟨rfl, rfl, rfl⟩
    · cases hu

theorem execDevStatus_keeps {q : QRef} (h : execDevStatus q s = .next t) : PanicsOrKeeps s t :=
  runDevice_keeps h fun _ _ hu => by
    split at hu
    · exact (writeStatus_same hu).keeps
    · cases hu

theorem execDevIntr_keeps {i : Nat} (h : execDevIntr i s = .next t) : PanicsOrKeeps s t :=
  runDevice_keeps h fun _ _ hu => by
    split at hu
    · split at hu
      · cases hu; exact SameEgress.keeps ⟨rfl, rfl, rfl⟩
      · cases hu
    · cases hu

/-! ### Every instruction, and the step -/

theorem exec_keeps {i : Instr} (h : exec i s = .next t) : PanicsOrKeeps s t := by
  cases i with
  | createIq => exact runQe_keeps h fun _ _ => createIq_keeps
  | createFl => exact runQe_keeps h fun _ _ => createFl_keeps
  | createEq => exact runQe_keeps h fun _ _ => createEq_keeps
  | teardownIq => exact execTeardownIq_keeps h
  | teardownEq => exact execTeardownEq_keeps h
  | timerTick => exact runQe_keeps h fun _ _ => timerTick_keeps
  | refill => exact execRefill_keeps h
  | frameRelease => exact execFrameRelease_keeps h
  | interrupt => exact execInterrupt_keeps h
  | service => exact execService_keeps h
  | deferredRun => exact execDeferredRun_keeps h
  | submit => exact execSubmit_keeps h
  | submitWr => exact execSubmitWr_keeps h
  | txpktsFlush => exact execTxpktsFlush_keeps h
  | reclaim => exact execReclaim_keeps h
  | notify => exact execNotify_keeps h
  | txDone => exact execTxDone_keeps h
  | findBestRefillSource => exact execFindBestRefillSource_keeps h
  | findSafeRefillSource => exact execFindSafeRefillSource_keeps h
  | consumeFrame => exact execConsumeFrame_keeps h
  | txpktsOpen => exact execTxpktsOpen_keeps h
  | txpktsAdd => exact execTxpktsAdd_keeps h
  | resumeCheck => exact execResumeCheck_keeps h
  | iqeRx => exact execIqeRx_keeps h
  | iqeEgrUpdate => exact execIqeEgrUpdate_keeps h
  | iqeOob => exact execIqeOob_keeps h
  | iqeFwd => exact execIqeFwd_keeps h
  | iqeReserved => exact execIqeReserved_keeps h
  | ethTxPkt => exact execEthTxPkt_keeps h
  | ethTxPkts => exact execEthTxPkts_keeps h
  | wrOpaque => exact execWrOpaque_keeps h
  | wrReserved00 _ fs => exact execWrReserved00_keeps (fs := fs) h
  | lso | txpkt | sgl | immediateData => exact runQe_keeps h fun _ _ => writePart_keeps
  | fle => exact execFle_keeps h
  | dbw | icw | wcBurst => exact execWrite_keeps h
  | sp => exact execSp_keeps h
  | devDb => exact execDevDb_keeps h
  | devFl => exact execDevFl_keeps h
  | devRx => exact execDevRx_keeps h
  | devOob => exact execDevOob_keeps h
  | devFwd => exact execDevFwd_keeps h
  | devTx => exact execDevTx_keeps h
  | devStatus => exact execDevStatus_keeps h
  | devIntr => exact execDevIntr_keeps h

theorem refuseWords_keeps (h : refuseWords s = .next t) : PanicsOrKeeps s t :=
  runQe_keeps h fun _ _ hu => by simp at hu

/-- A step panics, with the panic bit set, or keeps the panic bit and the stalled list. -/
theorem step_keeps (h : step s = .next t) : t.panic = true ∨ KeepsStalled s t := by
  have lift : ∀ ws, PanicsOrKeeps (s.setPort ws) t → t.panic = true ∨ KeepsStalled s t := by
    rintro ws (rfl | hk)
    · exact .inl rfl
    · exact .inr hk
  unfold step at h
  split at h
  · cases h; exact .inr (.refl s)
  · split at h
    · split at h
      · exact lift _ (exec_keeps h)
      · exact lift _ (refuseWords_keeps h)
    · exact lift _ (refuseWords_keeps h)

end

/-! ## The panic bit -/

theorem runQe_panicked {s : State} {body : State → Res (State × Ret)} (hp : s.panic = true) :
    runQe s body = .fault .panicked := by simp [runQe, hp]

theorem execWrite_panicked {s : State} {w : MmioWrite} (hp : s.panic = true) : execWrite w s = .fault .panicked :=
  runQe_panicked hp

/-- Every instruction but the device's steps, and the status page the device writes, is a transition of the QE. -/
theorem exec_panicked {i : Instr} {s : State} (hp : s.panic = true) (hd : i.space ≠ .device) (hs : ∀ q r, i ≠ .sp q r) :
    exec i s = .fault .panicked := by
  cases i with
  | sp q r => exact absurd rfl (hs q r)
  | devDb | devFl | devRx | devOob | devFwd | devTx | devStatus | devIntr => exact absurd rfl hd
  | dbw | icw | wcBurst => exact execWrite_panicked hp
  | _ => unfold exec; exact runQe_panicked hp

/-- Settles O8: what completes or is refused keeps the bit, and what panics sets it. -/
theorem panicLatch : Obligations.PanicLatch := by
  refine ⟨fun _ => rfl, fun i s t h hs ht => ?_, fun s t hs h => ?_, fun i s hs hd hsp => ?_⟩
  · obtain hpanic | ⟨hkeep, _⟩ := exec_keeps h
    · exact hpanic
    · rw [hkeep, hs] at ht
      cases ht
  · obtain hpanic | ⟨hkeep, _⟩ := step_keeps h
    · exact hpanic
    · exact hkeep.trans hs
  · exact exec_panicked hs hd hsp

/-! ## The stalled list -/

theorem resetWith_eqAt (c : Cfg) (i : Nat) : (State.resetWith c).eqAt i = none := by
  simp only [State.eqAt, State.resetWith, List.getElem?_replicate]
  split <;> rfl

theorem resetWith_stalledExact (c : Cfg) : StalledExact (State.resetWith c) :=
  ⟨List.nodup_nil, fun i => iff_of_false List.not_mem_nil (by simp [resetWith_eqAt])⟩

/-- Settles O15: the list is exact after reset, and a step that does not panic keeps it exact. -/
theorem stalledListExact : Obligations.StalledListExact := by
  refine ⟨fun c => ⟨rfl, resetWith_stalledExact c⟩, fun s t hs h => ?_⟩
  obtain hpanic | ⟨hkeep, hexact⟩ := step_keeps h
  · exact .inl hpanic
  · exact hs.imp hkeep.trans hexact

end Sys2Proof.Machine
end

section
/-! PROOFS. The flits of a scatter-gather list: their count, the place of each part, and the list read back
(30_encoding R134, R135). -/

namespace Sys2Proof

/-! ## Fields of a flit put together -/

theorem field_append_low (a b : BitVec 32) : field (a ++ b) 0 32 = b :=
  BitVec.extractLsb'_append_eq_right

theorem field_append_high (a b : BitVec 32) : field (a ++ b) 32 32 = a :=
  BitVec.extractLsb'_append_eq_left

/-- The fields of a list's first flit, whose bits from the top are `SUB_OP`, the reserved byte, `NSGE` and `LEN0`. -/
theorem field_sglHead (op rsvd : BitVec 8) (nsge : BitVec 16) (len : BitVec 32) :
    let f : Flit := op ++ rsvd ++ nsge ++ len
    topByte f = op ∧ field f 32 16 = nsge ∧ field f 0 32 = len := by
  refine ⟨?_, ?_, field_append_low _ _⟩
  · calc
      topByte (op ++ rsvd ++ nsge ++ len) = (op ++ rsvd ++ nsge).extractLsb' 24 8 :=
        BitVec.extractLsb'_append_eq_of_le (by decide)
      _ = (op ++ rsvd).extractLsb' 8 8 := BitVec.extractLsb'_append_eq_of_le (by decide)
      _ = op := BitVec.extractLsb'_append_eq_left
  · calc
      field (op ++ rsvd ++ nsge ++ len) 32 16 = (op ++ rsvd ++ nsge).extractLsb' 0 16 :=
        BitVec.extractLsb'_append_eq_of_le (by decide)
      _ = nsge := BitVec.extractLsb'_append_eq_right

/-! ## The segments after the first -/

theorem encodePairs_length (segs : List PktSeg) :
    (encodePairs segs).length = 3 * (segs.length / 2) + 2 * (segs.length % 2) := by
  induction segs using encodePairs.induct with
  | case1 => rfl
  | case2 s => simp [encodePairs]
  | case3 s t rest ih => simp only [encodePairs, List.length_cons, ih]; omega

/-- Two segments stand in three flits, so that a walk by whole pairs ends at the encoding of what is left. -/
theorem encodePairs_drop (segs : List PktSeg) (t : Nat) :
    (encodePairs segs).drop (3 * t) = encodePairs (segs.drop (2 * t)) := by
  induction segs using encodePairs.induct generalizing t with
  | case1 => simp [encodePairs]
  | case2 s => cases t <;> simp [encodePairs, Nat.mul_succ]
  | case3 s t' rest ih =>
    cases t with
    | zero => rfl
    | succ t => simp [encodePairs, Nat.mul_succ, ih]

theorem decodePairs_encodePairs (segs : List PktSeg) (tail : List Flit) :
    decodePairs segs.length (encodePairs segs ++ tail) = some (segs, tail) := by
  induction segs using encodePairs.induct with
  | case1 => rfl
  | case2 s => simp [encodePairs, decodePairs, field_append_high]
  | case3 s t rest ih => simp [encodePairs, decodePairs, field_append_high, field_append_low, ih]

/-- Where the `t`-th pair stands: a segment and, if the list goes on, the next one. -/
theorem encodePairs_getElem? {segs : List PktSeg} {t : Nat} {a : PktSeg} (ha : segs[2 * t]? = some a) :
    (encodePairs segs)[3 * t]? = some (a.len ++ (segs[2 * t + 1]?.map PktSeg.len).getD 0) ∧
    (encodePairs segs)[3 * t + 1]? = some a.addr ∧
    ∀ b, segs[2 * t + 1]? = some b → (encodePairs segs)[3 * t + 2]? = some b.addr := by
  have hflit (j : Nat) : (encodePairs segs)[3 * t + j]? = (encodePairs (segs.drop (2 * t)))[j]? := by
    rw [← encodePairs_drop, List.getElem?_drop]
  have hseg (j : Nat) : segs[2 * t + j]? = (segs.drop (2 * t))[j]? := List.getElem?_drop.symm
  have hlens : (encodePairs segs)[3 * t]? = (encodePairs (segs.drop (2 * t)))[0]? := hflit 0
  replace ha : (segs.drop (2 * t))[0]? = some a := (hseg 0).symm.trans ha
  rw [hlens, hflit, hflit, hseg]
  match segs.drop (2 * t), ha with
  | [_], rfl => simp [encodePairs]
  | _ :: b :: rest, rfl => simp [encodePairs]

/-! ## The list -/

theorem encodeSgl_length (s : PktSeg) (rest : List PktSeg) :
    (encodeSgl (s :: rest)).length = sglFlits (rest.length + 1) := by
  simp only [encodeSgl, List.length_cons, encodePairs_length, sglFlits, Nat.add_sub_cancel]
  omega

/-- `NSGE` tells the segments apart from what follows them, as long as their number fits its 16 bits. -/
theorem decodeSgl_encodeSgl (s : PktSeg) {rest : List PktSeg} (tail : List Flit) (hn : rest.length + 1 ≤ 65535) :
    decodeSgl (encodeSgl (s :: rest) ++ tail) = some (s :: rest, tail) := by
  obtain ⟨hop, hnsge, hlen⟩ := field_sglHead 0x12 0 (BitVec.ofNat 16 (rest.length + 1)) s.len
  have hcount : (BitVec.ofNat 16 (rest.length + 1)).toNat = rest.length + 1 := by
    rw [BitVec.toNat_ofNat]; omega
  have hpos : BitVec.ofNat 16 (rest.length + 1) ≠ 0 := fun h => by simp [h] at hcount
  simp only [encodeSgl, List.cons_append, decodeSgl, hop, hnsge, hlen, hcount, Nat.add_sub_cancel,
    decodePairs_encodePairs, Option.map_some]
  exact if_pos ⟨trivial, hpos⟩

/-- Settles O2, from the count of the flits, the place of every pair, and the walk back. -/
theorem sglLayout : Obligations.SglLayout := by
  intro s rest tail hn
  refine ⟨encodeSgl_length s rest, rfl, rfl, fun t a ha => ?_, decodeSgl_encodeSgl s tail hn⟩
  obtain ⟨hlens, hfirst, hsecond⟩ := encodePairs_getElem? ha
  have hflit (j : Nat) : (encodeSgl (s :: rest))[j + 2]? = (encodePairs rest)[j]? := rfl
  refine ⟨?_, ?_, fun b hb => ?_⟩
  · rw [Nat.add_comm 2, hflit, hlens]
    cases rest[2 * t + 1]? <;> rfl
  · rw [show 3 + 3 * t = 3 * t + 1 + 2 by omega, hflit, hfirst]
  · rw [show 4 + 3 * t = 3 * t + 2 + 2 by omega, hflit, hsecond b hb]

end Sys2Proof
end

section
/-! PROOFS. What the instruction REFILL leaves when it completes: the slot it keeps unused (40_free_list R181), the starving
indicator and the registration (40_free_list R185, R191). -/

namespace Sys2Proof.Machine

/-- The instruction, when it answers with what was posted: neither refused nor panicked, it ran `refill`, and what it adds is
the registration, in the list and in its flag (40_free_list R191). -/
theorem exec_refill_refilled {s t : State} {i n p : Nat} {q : IngressQueue} {fl : FreeList} {st : Bool}
    (hq : s.iqAt i = some q) (hfl : q.fl = some fl) (h : exec (.refill i n) s = .next t) (hr : t.ret = .refilled p st) :
    ∃ fl' u, refill n fl s.begin = .ok (fl', u, p, st) ∧
      t.iqAt i = some { q with fl := some { fl' with starving := fl.starving || st } } ∧
      t.starving = s.starving ++ (if st then [i] else []) ∧ t.raised = u.raised := by
  replace h : execRefill i n s = .next t := h
  obtain ⟨_, ⟨u, r, hu, rfl⟩ | ⟨e, _, rfl⟩ | ⟨_, rfl⟩⟩ := runQe_next h
  · obtain ⟨q₀, fl₀, fl₁, u₁, hq₀, hfl₀, hrun, rfl⟩ := onFl_ok hu
    obtain rfl : q = q₀ := Option.some.inj (hq.symm.trans hq₀)
    obtain rfl : fl = fl₀ := Option.some.inj (hfl.symm.trans hfl₀)
    replace hr : r = .refilled p st := hr
    subst hr
    split at hrun
    · simp at hrun
    · split at hrun
      · simp at hrun
      · obtain ⟨⟨fl', v, p', st'⟩, hrefill, hreg⟩ := Res.bind_eq_ok.mp hrun
        simp only [registerStarving_eq] at hreg
        cases hreg
        obtain ⟨_, _, _, ⟨_, _, _, rfl, _⟩, _, _, _, _, _, _, _, _, _, rfl, _⟩ := refill_ok hrefill
        exact ⟨_, _, hrefill, State.setIq_iqAt_same _ i _ q hq, rfl, rfl⟩
  · cases hr
  · cases hr

/-- Settles O30: the loop posts a slot only while another one stays free, and says why it ends. -/
theorem refillKeepsOneSlot : Obligations.RefillKeepsOneSlot := by
  intro s t i n q fl p st hq hfl hin h hr
  obtain ⟨fl', u, hrefill, hat, _, hraised⟩ := exec_refill_refilled hq hfl h hr
  obtain ⟨_, hpn, _, ⟨x, g, sd, rfl, _⟩, hidx, a, e, m, ws, df, di, de, es, rfl, _, hend⟩ := refill_ok hrefill
  obtain ⟨⟨hp, hc⟩, _⟩ : (fl.pidx < fl.cap ∧ fl.cidx < fl.cap) ∧ fl.sdesc.length = fl.cap.toNat := by
    simpa [FreeList.inRange] using hin
  obtain ⟨hpidx, hocc, hlt⟩ := hidx hp hc
  have hx : x < fl.cap := by
    rw [show x = addTo fl.pidx fl.cap p from hpidx]
    exact addTo_lt p (Nat.zero_lt_of_lt hc)
  have hposted : 0 < p → x ≠ fl.cidx := fun h0 heq => by
    have hempty : distOf fl.cidx x fl.cap = 0 := (distOf_eq_zero hc hx).mpr heq.symm
    have hsome : distOf fl.cidx x fl.cap = occ fl + p := hocc
    omega
  refine ⟨_, hat, rfl, rfl, hpidx, hpn, hocc, Nat.le_sub_one_of_lt hlt, hposted, ?_⟩
  obtain ⟨rfl, hall | hfull⟩ | rfl := hend
  · exact .inl hall
  · exact .inr (.inl hfull)
  · exact .inr (.inr hraised)

theorem starvingIndicator_of_lowat_zero {fl : FreeList} (h : fl.lowat = 0) : starvingIndicator fl = false := by
  simp [starvingIndicator, h]

end Sys2Proof.Machine

namespace Sys2Proof
open Machine

/-- Settles O31: every exit of REFILL passes the one place where the indicator is computed. -/
theorem starvingIndicator : Obligations.StarvingIndicator := by
  intro s t i n q fl p st hq hfl h hr
  obtain ⟨fl', u, hrefill, hat, hlist, _⟩ := exec_refill_refilled hq hfl h hr
  obtain ⟨_, _, hst, ⟨x, g, sd, rfl, _⟩, _⟩ := refill_ok hrefill
  exact ⟨_, hat, hst, rfl, hlist, fun hlow => hst.trans (starvingIndicator_of_lowat_zero hlow)⟩

end Sys2Proof
end

section
/-! PROOFS. Submissions on a torn-down egress queue, and the commands that stay legal on a Doomed one (43_egress_submit
R311). -/

namespace Sys2Proof.Machine

/-! ## Operations that refuse -/

theorem refusesSubmit_iff {q : EgressQueue} : refusesSubmit q = true ↔ q.state = .doomed ∨ q.state = .dead := by
  simp [refusesSubmit]

theorem onEq_refuse {s : State} {i : Nat} {q : EgressQueue} {e : Exc}
    {f : EgressQueue → Res (EgressQueue × State × Ret)} (hq : s.eqAt i = some q) (hf : f q = .error (.refuse e)) :
    onEq s i f = .error (.refuse e) := by
  rw [onEq_eq hq, hf, Res.bind_error]

/-- A command on egress queue `i` whose operation refuses has no other effect. -/
theorem runQe_onEq_refuse {s : State} {i : Nat} {q : EgressQueue} {e : Exc}
    {f : State → EgressQueue → Res (EgressQueue × State × Ret)} (hp : s.panic = false) (hq : s.eqAt i = some q)
    (hf : f s.begin q = .error (.refuse e)) : runQe s (fun u => onEq u i (f u)) = .next (takeRefusal s e) :=
  runQe_refuse hp (onEq_refuse (s := s.begin) hq hf)

theorem execSubmit_doomed {i : Nat} {p : Packet} {q : EgressQueue} {s : State} (hp : s.panic = false)
    (hq : s.eqAt i = some q) (hr : refusesSubmit q = true) : execSubmit i p s = .next (takeRefusal s .doomed) := by
  have href : submit i p q s.begin = refuseDoomed := if_pos hr
  exact runQe_onEq_refuse (f := fun u q => submit i p q u) hp hq href

theorem execSubmitWr_doomed {i : Nat} {fs : List Flit} {q : EgressQueue} {s : State} (hp : s.panic = false)
    (hq : s.eqAt i = some q) (hr : refusesSubmit q = true) : execSubmitWr i fs s = .next (takeRefusal s .doomed) := by
  have href : submitWr i fs q s.begin = refuseDoomed := if_pos hr
  exact runQe_onEq_refuse (f := fun u q => submitWr i fs q u) hp hq href

theorem execTxpktsFlush_doomed {i : Nat} {q : EgressQueue} {s : State} (hp : s.panic = false)
    (hq : s.eqAt i = some q) (hr : refusesSubmit q = true) : execTxpktsFlush i s = .next (takeRefusal s .doomed) := by
  have href : txpktsFlushCommand q s.begin = refuseDoomed := if_pos hr
  refine runQe_onEq_refuse (f := fun u q => txpktsFlushCommand q u >>= fun r => pure (r.1, r.2, .ok)) hp hq ?_
  rw [href, refuseDoomed, Res.bind_error]

/-! ## Operations that never refuse -/

/-- The operation completes, panics or faults. -/
def Unrefused {α : Type} (x : Res α) : Prop := ∀ e, x ≠ .error (.refuse e)

theorem Unrefused.ok {α : Type} (a : α) : Unrefused (.ok a : Res α) := fun _ h => nomatch h

theorem Unrefused.fault {α : Type} (f : Fault) : Unrefused (.error (.fault f) : Res α) := fun _ h => nomatch h

theorem Unrefused.ringInvariant {α : Type} : Unrefused (ringInvariant : Res α) := fun _ h => nomatch h

theorem Unrefused.bind {α β : Type} {x : Res α} {f : α → Res β} (hx : Unrefused x) (hf : ∀ a, Unrefused (f a)) :
    Unrefused (x >>= f) := by
  cases x with
  | ok a => exact hf a
  | error e => exact fun e' h => hx e' (by cases h; rfl)

theorem ringRead_unrefused (s : State) (a : Nat) : Unrefused (ringRead s a) := by
  unfold ringRead
  split
  · exact Unrefused.ok _
  · exact Unrefused.fault _

theorem ringReadAll_unrefused (s : State) (a n : Nat) : Unrefused (ringReadAll s a n) := by
  induction n generalizing a with
  | zero => exact Unrefused.ok _
  | succ n ih => exact (ringRead_unrefused s a).bind fun _ => (ih _).bind fun _ => Unrefused.ok _

/-! ### RECLAIM and NOTIFY -/

theorem releaseMaps_unrefused (n : Nat) (q : EgressQueue) (s : State) : Unrefused (releaseMaps n q s) := by
  induction n generalizing q s with
  | zero => exact Unrefused.ok _
  | succ n ih =>
    unfold releaseMaps
    split
    · exact Unrefused.ringInvariant
    · exact ih _ _

theorem reclaimLoop_unrefused (b fuel left : Nat) (q : EgressQueue) (s : State) (d c : Nat) :
    Unrefused (reclaimLoop b fuel left q s d c) := by
  induction fuel generalizing left q s d c with
  | zero => exact Unrefused.ok _
  | succ fuel ih =>
    unfold reclaimLoop
    split
    · exact Unrefused.ok _
    · dsimp only
      split
      · exact Unrefused.ringInvariant
      · split
        · exact Unrefused.ok _
        · exact (releaseMaps_unrefused _ _ _).bind fun _ => ih _ _ _ _ _

theorem reclaim_unrefused {i b : Nat} {q : EgressQueue} {s : State} (h : q.state ≠ .dead) :
    Unrefused (reclaim i b q s) := by
  unfold reclaim
  rw [if_neg h]
  refine (ringRead_unrefused _ _).bind fun sp => ?_
  dsimp only
  split
  · exact Unrefused.ringInvariant
  · split
    · exact Unrefused.ringInvariant
    · exact (reclaimLoop_unrefused _ _ _ _ _ _ _).bind fun _ => Unrefused.ok _

theorem notifyEq_unrefused {q : EgressQueue} {s : State} (h : q.state ≠ .dead) : Unrefused (notifyEq q s) := by
  unfold notifyEq
  rw [if_neg h]
  split
  · exact Unrefused.ok _
  · split
    · exact (ringReadAll_unrefused _ _ _).bind fun _ => Unrefused.ok _
    · exact Unrefused.ok _

/-- A command on egress queue `i` is not refused when its operation never refuses and answers with no refusal. -/
theorem runQe_onEq_unrefused {s t : State} {i : Nat} {q : EgressQueue} {e : Exc}
    {f : State → EgressQueue → Res (EgressQueue × State × Ret)} (hq : s.eqAt i = some q) (hf : Unrefused (f s.begin q))
    (hret : ∀ q' u r, f s.begin q = .ok (q', u, r) → r ≠ .refused e)
    (h : runQe s (fun u => onEq u i (f u)) = .next t) : t.ret ≠ .refused e := by
  obtain ⟨_, ⟨u, r, hok, rfl⟩ | ⟨e', herr, _⟩ | ⟨_, rfl⟩⟩ := runQe_next h
  · obtain ⟨q₀, q', u', hq₀, hrun, rfl⟩ := onEq_ok hok
    obtain rfl : q = q₀ := Option.some.inj (hq.symm.trans hq₀)
    exact hret q' u' r hrun
  · rw [onEq_eq (s := s.begin) hq] at herr
    exact absurd herr (hf.bind (fun _ => Unrefused.ok _) e')
  · exact fun hpanic => nomatch hpanic

/-- A RECLAIM that completes answers with its counts. -/
theorem execReclaim_unrefused {s t : State} {i : Nat} {q : EgressQueue} {n : BitVec 16} {e : Exc} (hq : s.eqAt i = some q)
    (hlive : q.state ≠ .dead) (h : execReclaim i n s = .next t) : t.ret ≠ .refused e := by
  refine runQe_onEq_unrefused hq ((reclaim_unrefused hlive).bind fun _ => Unrefused.ok _) (fun q' u r hrun => ?_) h
  obtain ⟨_, _, hret⟩ := Res.bind_eq_ok.mp hrun
  cases hret
  exact fun hrefused => nomatch hrefused

/-- A NOTIFY that completes answers that it did. -/
theorem execNotify_eq_unrefused {s t : State} {i : Nat} {q : EgressQueue} {e : Exc} (hq : s.eqAt i = some q)
    (hlive : q.state ≠ .dead) (h : execNotify (.eq i) s = .next t) : t.ret ≠ .refused e := by
  refine runQe_onEq_unrefused hq ((notifyEq_unrefused hlive).bind fun _ => Unrefused.ok _) (fun q' u r hrun => ?_) h
  obtain ⟨_, _, hret⟩ := Res.bind_eq_ok.mp hrun
  cases hret
  exact fun hrefused => nomatch hrefused

end Sys2Proof.Machine

namespace Sys2Proof
open Machine

/-- Settles O20: the three submissions test the queue's state before anything else, and the other two refuse a Dead
queue only. -/
theorem doomedQueueRefuses : Obligations.DoomedQueueRefuses := by
  intro s i q p fs hp hq
  refine ⟨fun hstate k hk => ?_, fun hdoomed n t e => ?_⟩
  · have hr : refusesSubmit q = true := refusesSubmit_iff.mpr hstate
    simp only [List.mem_cons, List.not_mem_nil, or_false] at hk
    obtain rfl | rfl | rfl := hk
    · exact execSubmit_doomed hp hq hr
    · exact execSubmitWr_doomed hp hq hr
    · exact execTxpktsFlush_doomed hp hq hr
  · have hlive : q.state ≠ .dead := by rw [hdoomed]; decide
    exact ⟨execReclaim_unrefused hq hlive, execNotify_eq_unrefused hq hlive⟩

end Sys2Proof
end

section
/-! PROOFS. The doorbell words for a number of slots, and what NOTIFY writes: the words by the queue's register, one burst, or
nothing (45_reclaim_doorbell R373, R374). -/

namespace Sys2Proof.Machine

/-! ## Increments -/

/-- The increments add up to the slots told of. -/
theorem doorbellIncs_sum (limit n : Nat) : (doorbellIncs limit n).sum = n := by
  have hdiv := Nat.div_add_mod' n limit
  unfold doorbellIncs
  split
  · simp; omega
  · simpa using hdiv

/-- There are as many increments as the slots need, each of at most the limit. -/
theorem doorbellIncs_length {limit : Nat} (hl : 0 < limit) (n : Nat) :
    (doorbellIncs limit n).length = (n + limit - 1) / limit := by
  rw [show n + limit - 1 = n + (limit - 1) by omega, Nat.add_div hl, Nat.div_eq_of_lt (by omega : limit - 1 < limit),
    Nat.mod_eq_of_lt (by omega : limit - 1 < limit)]
  unfold doorbellIncs
  have := Nat.mod_lt n hl
  split
  · rw [if_neg (by omega)]; simp
  · rw [if_pos (by omega)]; simp

/-- No increment is 0, none is above the limit, and none tells of more than there is. -/
theorem doorbellIncs_mem {limit n k : Nat} (hl : 0 < limit) (hk : k ∈ doorbellIncs limit n) :
    1 ≤ k ∧ k ≤ limit ∧ k ≤ n := by
  obtain hfull | hrest := List.mem_append.mp hk
  · obtain ⟨hne, rfl⟩ := List.mem_replicate.mp hfull
    exact ⟨hl, le_rfl, Nat.le_of_not_lt fun hlt => hne (Nat.div_eq_of_lt hlt)⟩
  · split at hrest
    · cases hrest
    · obtain rfl := List.mem_singleton.mp hrest
      exact ⟨by omega, (Nat.mod_lt n hl).le, Nat.mod_le n limit⟩

theorem dbIncLimit_eq {c : Cfg} (h : 1 ≤ c.dbIncMax) : dbIncLimit c = c.dbIncMax := Nat.max_eq_right h

/-! ## Words -/

/-- The doorbell words for `n` slots of the queue `qid` in one register, in order. -/
def doorbellWords (c : Cfg) (reg : MmioReg) (qid : BitVec 16) (n : Nat) : List MmioWrite :=
  (doorbellIncs (dbIncLimit c) n).map fun k => .word reg (encodeDbw ⟨qid, BitVec.ofNat 16 k⟩)

theorem ringDoorbell_eq (s : State) (reg : MmioReg) (qid : BitVec 16) (n : Nat) :
    ringDoorbell s reg qid n = (doorbellWords s.cfg reg qid n).foldl mmioWrite s := by
  rw [ringDoorbell, doorbellWords, List.foldl_map]

/-- What a doorbell word tells is its low half, in either register. -/
theorem toldBy_doorbell {reg : MmioReg} (hr : reg ≠ .icw) (qid k : BitVec 16) (ws : List MmioWrite) :
    toldBy (.word reg (encodeDbw ⟨qid, k⟩) :: ws) = k.toNat + toldBy ws := by
  have hlow : (encodeDbw ⟨qid, k⟩).extractLsb' 0 16 = k := BitVec.extractLsb'_append_eq_right
  cases reg with
  | icw => exact absurd rfl hr
  | db | udb => simp only [toldBy, List.map_cons, List.sum_cons, hlow]

theorem toldBy_map_doorbell {reg : MmioReg} (hr : reg ≠ .icw) (qid : BitVec 16) {ks : List Nat}
    (hk : ∀ k ∈ ks, k < 65536) :
    toldBy (ks.map fun k => .word reg (encodeDbw ⟨qid, BitVec.ofNat 16 k⟩)) = ks.sum := by
  induction ks with
  | nil => rfl
  | cons k ks ih =>
    obtain ⟨hlt, hrest⟩ := List.forall_mem_cons.mp hk
    rw [List.map_cons, toldBy_doorbell hr, ofNat16_toNat hlt, ih hrest, List.sum_cons]

theorem doorbellReg_ne_icw (mech : DbMech) (udb : Addr) : doorbellReg mech udb ≠ .icw := by cases mech <;> nofun

theorem doorbellReg_eq (mech : DbMech) (udb : Addr) : doorbellReg mech udb = if mech = .reg then .db else .udb udb := by
  cases mech <;> rfl

/-- The writes `ws` tell of `n` slots of the queue `qid` through the register `reg`. A word tells of 1 to `DB_INC_MAX` slots
(30_encoding R140), so the fewest words are `n` divided by that, rounded up (45_reclaim_doorbell R373). -/
def FewestWords (c : Cfg) (reg : MmioReg) (qid : BitVec 16) (n : Nat) (ws : List MmioWrite) : Prop :=
  ws.length = (n + c.dbIncMax - 1) / c.dbIncMax ∧ toldBy ws = n ∧
    ∀ w ∈ ws, ∃ k : BitVec 16, 1 ≤ k.toNat ∧ k.toNat ≤ c.dbIncMax ∧ w = .word reg (qid ++ k)

theorem doorbellWords_fewest {c : Cfg} {reg : MmioReg} {n : Nat} (hc : 1 ≤ c.dbIncMax) (hr : reg ≠ .icw) (hn : n < 65536)
    (qid : BitVec 16) : FewestWords c reg qid n (doorbellWords c reg qid n) := by
  have hinc := fun k (hk : k ∈ doorbellIncs c.dbIncMax n) => doorbellIncs_mem hc hk
  unfold doorbellWords
  rw [dbIncLimit_eq hc]
  refine ⟨?_, ?_, fun w hw => ?_⟩
  · rw [List.length_map, doorbellIncs_length hc]
  · rw [toldBy_map_doorbell hr qid fun k hk => (hinc k hk).2.2.trans_lt hn, doorbellIncs_sum]
  · obtain ⟨k, hk, rfl⟩ := List.mem_map.mp hw
    obtain ⟨hpos, hmax, hle⟩ := hinc k hk
    have hk16 : (BitVec.ofNat 16 k).toNat = k := ofNat16_toNat (hle.trans_lt hn)
    exact ⟨BitVec.ofNat 16 k, hk16.symm ▸ hpos, hk16.symm ▸ hmax, rfl⟩

/-! ## Writes in a transition -/

@[simp] theorem mmioWrite_eq (s : State) (w : MmioWrite) : (mmioWrite s w).eq = s.eq := by
  obtain ⟨_, _, _, hs⟩ := mmioWrite_state s w
  rw [hs]

@[simp] theorem mmioWrites_iq (ws : List MmioWrite) (s : State) : (ws.foldl mmioWrite s).iq = s.iq := by
  obtain ⟨_, _, _, hs⟩ := mmioWrites_state id ws s
  exact (congrArg State.iq hs :)

@[simp] theorem mmioWrites_eq (ws : List MmioWrite) (s : State) : (ws.foldl mmioWrite s).eq = s.eq := by
  obtain ⟨_, _, _, hs⟩ := mmioWrites_state id ws s
  exact (congrArg State.eq hs :)

/-- Several MMIO writes do not look at what was returned and raised. -/
theorem mmioWrites_answered (ws : List MmioWrite) (s : State) (r : Ret) (es : List Exc) :
    ws.foldl mmioWrite { s with ret := r, raised := es } = { ws.foldl mmioWrite s with ret := r, raised := es } := by
  induction ws generalizing s with
  | nil => rfl
  | cons w ws ih => rw [List.foldl_cons, mmioWrite_answered, ih, List.foldl_cons]

/-! ## Descriptors read back -/

/-- Consecutive flits read inside the address space. -/
theorem ringReadAll_eq {s : State} {a n : Nat} (h : inSpace a (8 * n) = true) :
    ringReadAll s a n = .ok ((List.range n).map fun k => s.ring.flit (a + 8 * k)) := by
  induction n generalizing a with
  | zero => rfl
  | succ n ih =>
    have hspace : a + 8 * (n + 1) ≤ addressLimit := of_decide_eq_true h
    rw [ringReadAll, ringRead_eq (decide_eq_true (by omega)), Res.bind_ok, ih (decide_eq_true (by omega)), Res.bind_ok,
      List.range_succ_eq_map, List.map_cons, List.map_map]
    have hnext : ∀ k, a + 8 + 8 * k = a + 8 * (k + 1) := fun k => by omega
    simp only [hnext]
    rfl

/-- A descriptor of the ring lies in the address space. -/
theorem descAddr_inSpace {q : EgressQueue} {d : Nat} (hm : q.mapped = true) (hd : d < q.cap.toNat) :
    inSpace (descAddr q d) 64 = true := by
  have hring : q.base.toNat + (64 * q.cap.toNat + 64) ≤ addressLimit := of_decide_eq_true hm
  exact decide_eq_true (show q.base.toNat + 64 * d + 64 ≤ addressLimit by omega)

theorem EgressQueue.cap_pos {q : EgressQueue} (h : q.inRange = true) : 0 < q.cap.toNat := by
  simp only [EgressQueue.inRange, Bool.and_eq_true, decide_eq_true_eq] at h
  obtain ⟨⟨hpidx, -⟩, -⟩ := h
  exact Nat.zero_lt_of_lt hpidx

theorem lastDesc_lt {q : EgressQueue} (h : 0 < q.cap.toNat) : lastDesc q < q.cap.toNat := Nat.mod_lt _ h

/-! ## NOTIFY of a free list -/

section
variable {s : State} {i : Nat} {q : IngressQueue} {fl : FreeList}

theorem notifyFl_doomed (h : fl.doomed = true) : notifyFl fl s = refuseDoomed := if_pos h

theorem notifyFl_nothing (hlive : fl.doomed = false) (h : fl.pending = 0) : notifyFl fl s = .ok (fl, s) := by
  rw [notifyFl, hlive, if_neg nofun, if_pos h]

theorem notifyFl_words (hlive : fl.doomed = false) (h : fl.pending ≠ 0) :
    notifyFl fl s = .ok ({ fl with pending := 0, dbGroups := 0 },
      (doorbellWords s.cfg (doorbellReg fl.dbMech fl.udbAddr) fl.qid fl.pending.toNat).foldl mmioWrite s) := by
  rw [notifyFl, hlive, if_neg nofun, if_neg h, ringDoorbell_eq]

theorem execNotify_fl_doomed (hp : s.panic = false) (hq : s.flAt i = some fl) (hd : fl.doomed = true) :
    execNotify (.fl i) s = .next (takeRefusal s .doomed) := by
  obtain ⟨q, hiq, hfl⟩ := Option.bind_eq_some_iff.mp hq
  refine runQe_refuse hp ((onFl_eq (s := s.begin) hiq hfl).trans ?_)
  rw [notifyFl_doomed hd]
  rfl

/-- A NOTIFY of a free list that completes writes the list's context back. -/
theorem execNotify_fl_ok {fl' : FreeList} {u : State} (hp : s.panic = false) (hq : s.iqAt i = some q) (hfl : q.fl = some fl)
    (h : notifyFl fl s.begin = .ok (fl', u)) :
    execNotify (.fl i) s = .next ((u.setIq i { q with fl := some fl' }).answer .ok) := by
  refine runQe_ok hp ((onFl_eq (s := s.begin) hq hfl).trans ?_)
  rw [h]
  rfl

theorem execNotify_fl_nothing (hp : s.panic = false) (hq : s.iqAt i = some q) (hfl : q.fl = some fl)
    (hlive : fl.doomed = false) (h : fl.pending = 0) :
    execNotify (.fl i) s = .next { s with ret := .ok, raised := [] } := by
  rw [execNotify_fl_ok hp hq hfl (notifyFl_nothing hlive h), ← hfl]
  simp only [State.setIq, State.answer, State.begin, set_self hq]

theorem execNotify_fl_words (hp : s.panic = false) (hq : s.iqAt i = some q) (hfl : q.fl = some fl)
    (hlive : fl.doomed = false) (h : fl.pending ≠ 0) :
    execNotify (.fl i) s = .next
      { (doorbellWords s.cfg (doorbellReg fl.dbMech fl.udbAddr) fl.qid fl.pending.toNat).foldl mmioWrite s with
        iq := s.iq.set i (some { q with fl := some { fl with pending := 0, dbGroups := 0 } })
        ret := .ok, raised := [] } := by
  rw [execNotify_fl_ok hp hq hfl (notifyFl_words hlive h)]
  simp only [State.setIq, State.answer, State.begin, mmioWrites_answered, mmioWrites_iq]

end

/-! ## NOTIFY of an egress queue -/

section
variable {s : State} {i : Nat} {q : EgressQueue}

theorem notifyEq_dead (h : q.state = .dead) : notifyEq q s = refuseDoomed := if_pos h

theorem notifyEq_nothing (hlive : q.state ≠ .dead) (h : q.pending = 0) : notifyEq q s = .ok (q, s) := by
  rw [notifyEq, if_neg hlive, if_pos h]

theorem notifyEq_words (hlive : q.state ≠ .dead) (h : q.pending ≠ 0) (hw : ¬ (q.dbMech = .wcCopy ∧ q.pending = 1)) :
    notifyEq q s = .ok ({ q with pending := 0 },
      (doorbellWords s.cfg (doorbellReg q.dbMech q.udbAddr) q.qid q.pending.toNat).foldl mmioWrite s) := by
  rw [notifyEq, if_neg hlive, if_neg h, if_neg hw, ringDoorbell_eq]

/-- One descriptor pending behind a window goes out whole, in one burst (45_reclaim_doorbell R374). -/
theorem notifyEq_burst (hlive : q.state ≠ .dead) (hw : q.dbMech = .wcCopy) (h : q.pending = 1) (hr : q.inRange = true)
    (hm : q.mapped = true) :
    notifyEq q s = .ok ({ q with pending := 0 }, mmioWrite s (.burst q.wcAddr ((List.range 8).map fun k =>
      s.ring.flit (descAddr q (lastDesc q) + 8 * k)))) := by
  have hspace := descAddr_inSpace hm (lastDesc_lt (EgressQueue.cap_pos hr))
  have hne : q.pending ≠ 0 := by rw [h]; decide
  rw [notifyEq, if_neg hlive, if_neg hne, if_pos ⟨hw, h⟩, ringReadAll_eq (n := 8) hspace]
  rfl

theorem execNotify_eq_dead (hp : s.panic = false) (hq : s.eqAt i = some q) (hd : q.state = .dead) :
    execNotify (.eq i) s = .next (takeRefusal s .doomed) := by
  refine runQe_refuse hp (onEq_refuse (s := s.begin) hq ?_)
  rw [notifyEq_dead hd]
  rfl

/-- A NOTIFY of an egress queue that completes writes the queue's context back. -/
theorem execNotify_eq_ok {q' : EgressQueue} {u : State} (hp : s.panic = false) (hq : s.eqAt i = some q)
    (h : notifyEq q s.begin = .ok (q', u)) : execNotify (.eq i) s = .next ((u.setEq i q').answer .ok) := by
  refine runQe_ok hp ((onEq_eq (s := s.begin) hq).trans ?_)
  rw [h]
  rfl

theorem execNotify_eq_nothing (hp : s.panic = false) (hq : s.eqAt i = some q) (hlive : q.state ≠ .dead)
    (h : q.pending = 0) : execNotify (.eq i) s = .next { s with ret := .ok, raised := [] } := by
  rw [execNotify_eq_ok hp hq (notifyEq_nothing hlive h)]
  simp only [State.setEq, State.answer, State.begin, set_self hq]

theorem execNotify_eq_words (hp : s.panic = false) (hq : s.eqAt i = some q) (hlive : q.state ≠ .dead)
    (h : q.pending ≠ 0) (hw : ¬ (q.dbMech = .wcCopy ∧ q.pending = 1)) :
    execNotify (.eq i) s = .next
      { (doorbellWords s.cfg (doorbellReg q.dbMech q.udbAddr) q.qid q.pending.toNat).foldl mmioWrite s with
        eq := s.eq.set i (some { q with pending := 0 }), ret := .ok, raised := [] } := by
  rw [execNotify_eq_ok hp hq (notifyEq_words hlive h hw)]
  simp only [State.setEq, State.answer, State.begin, mmioWrites_answered, mmioWrites_eq]

theorem execNotify_eq_burst (hp : s.panic = false) (hq : s.eqAt i = some q) (hlive : q.state ≠ .dead)
    (hw : q.dbMech = .wcCopy) (h : q.pending = 1) (hr : q.inRange = true) (hm : q.mapped = true) :
    execNotify (.eq i) s = .next { mmioWrite s (.burst q.wcAddr ((List.range 8).map fun k =>
        s.ring.flit (descAddr q (lastDesc q) + 8 * k))) with
      eq := s.eq.set i (some { q with pending := 0 }), ret := .ok, raised := [] } := by
  rw [execNotify_eq_ok hp hq (notifyEq_burst hlive hw h hr hm)]
  simp only [State.setEq, State.answer, State.begin, mmioWrite_answered, mmioWrite_eq]

end

end Sys2Proof.Machine

namespace Sys2Proof
open Machine

/-- Settles O56: the cases of NOTIFY of a free list and of an egress queue; the words are those of `doorbellWords`. -/
theorem notifyFewestWrites : Obligations.NotifyFewestWrites := by
  refine ⟨fun s i fl hp hfl hd => execNotify_fl_doomed hp hfl hd, fun s i q hp hq hd => execNotify_eq_dead hp hq hd,
    fun s i q fl hp hq hfl hlive hc => ⟨execNotify_fl_nothing hp hq hfl hlive, fun hne => ?_⟩,
    fun s i q hp hq hlive hc => ⟨execNotify_eq_nothing hp hq hlive, fun hne hnw => ?_,
      execNotify_eq_burst hp hq hlive⟩⟩
  · rw [← doorbellReg_eq]
    exact ⟨_, doorbellWords_fewest hc (doorbellReg_ne_icw _ _) fl.pending.isLt fl.qid,
      execNotify_fl_words hp hq hfl hlive hne⟩
  · rw [← doorbellReg_eq]
    exact ⟨_, doorbellWords_fewest hc (doorbellReg_ne_icw _ _) q.pending.isLt q.qid,
      execNotify_eq_words hp hq hlive hne hnw⟩

end Sys2Proof
end

section
/-! PROOFS. A word put together from its fields is read back field by field, and a word cut into its fields is put together
again (30_encoding R122 to R142). -/

namespace Sys2Proof

/-! ## Fields of a word -/

/-- A field above the last part of a word is a field of the parts before it. -/
theorem extractLsb'_append_high {m n : Nat} (a : BitVec m) (b : BitVec n) {lo w : Nat} (h : n ≤ lo) :
    (no_index (a ++ b)).extractLsb' lo w = a.extractLsb' (lo - n) w := BitVec.extractLsb'_append_eq_of_le h

/-- A field inside the last part of a word is a field of that part. -/
theorem extractLsb'_append_low {m n : Nat} (a : BitVec m) (b : BitVec n) {lo w : Nat} (h : lo + w ≤ n) :
    (no_index (a ++ b)).extractLsb' lo w = b.extractLsb' lo w := by
  apply BitVec.eq_of_getLsbD_eq
  intro i hi
  simp only [BitVec.getLsbD_extractLsb', BitVec.getLsbD_append]
  simp [show lo + i < n by omega]

theorem getLsbD_append_high {m n : Nat} (a : BitVec m) (b : BitVec n) {i : Nat} (h : n ≤ i) :
    (no_index (a ++ b)).getLsbD i = a.getLsbD (i - n) := by
  rw [BitVec.getLsbD_append, if_neg (by omega)]

theorem getLsbD_append_low {m n : Nat} (a : BitVec m) (b : BitVec n) {i : Nat} (h : i < n) :
    (no_index (a ++ b)).getLsbD i = b.getLsbD i := by
  rw [BitVec.getLsbD_append, if_pos h]

@[simp] theorem getLsbD_bit (b : Bool) : (bit b).getLsbD 0 = b := by cases b <;> rfl

/-- Two fields that stand side by side are one field. -/
theorem append_extractLsb' {k : Nat} (x : BitVec k) {hi lo w v : Nat} (h : hi = lo + v) :
    no_index (x.extractLsb' hi w ++ x.extractLsb' lo v) = x.extractLsb' lo (w + v) :=
  BitVec.extractLsb'_append_extractLsb'_eq_extractLsb' h

theorem bit_getLsbD {k : Nat} (x : BitVec k) (i : Nat) : bit (x.getLsbD i) = x.extractLsb' i 1 := by
  apply BitVec.eq_of_getLsbD_eq
  intro j hj
  obtain rfl : j = 0 := by omega
  simp [bit]

/-! ## Records read back -/

section
variable (op : BitVec 8)

theorem topByte_encodeHeader (h : WrHeader) :
    topByte (op ++ h.npkt ++ h.immdlen ++ h.flowid ++ h.len16) = op := by
  simp [topByte, field, extractLsb'_append_high]

theorem decodeHeader_encodeHeader (h : WrHeader) :
    decodeHeader (op ++ h.npkt ++ h.immdlen ++ h.flowid ++ h.len16) (h.plen ++ h.rsvd) = h := by
  simp [decodeHeader, field, extractLsb'_append_high, extractLsb'_append_low]

end

theorem topByte_encodeLso (r : Lso) :
    topByte ((0x10 : BitVec 8) ++ r.rsvdA ++ r.l2len ++ r.l3len ++ r.l4len ++ r.rsvdB) = 0x10 := by
  simp [topByte, field, extractLsb'_append_high]

theorem decodeLso_encodeLso (r : Lso) :
    decodeLso ((0x10 : BitVec 8) ++ r.rsvdA ++ r.l2len ++ r.l3len ++ r.l4len ++ r.rsvdB)
      (r.mss ++ r.rsvdC ++ r.totalLen) = r := by
  simp [decodeLso, field, extractLsb'_append_high, extractLsb'_append_low]

theorem topByte_encodeTxpkt (r : Txpkt) : topByte (encodeTxpkt r) = 0x11 := by
  simp [topByte, encodeTxpkt, field, extractLsb'_append_high]

theorem decodeTxpkt_encodeTxpkt (r : Txpkt) : decodeTxpkt (encodeTxpkt r) = r := by
  simp [-BitVec.getLsbD_eq_getElem, decodeTxpkt, encodeTxpkt, field, extractLsb'_append_high, extractLsb'_append_low, getLsbD_append_high,
    getLsbD_append_low]

theorem decodeFle_encodeFle (r : Fle) : decodeFle (encodeFle r) = r := by
  simp [decodeFle, encodeFle, field, extractLsb'_append_high, extractLsb'_append_low]

theorem decodeDbw_encodeDbw (r : Dbw) : decodeDbw (encodeDbw r) = r := by
  simp [decodeDbw, encodeDbw, extractLsb'_append_high, extractLsb'_append_low]

theorem decodeIcw_encodeIcw (r : Icw) : decodeIcw (encodeIcw r) = r := by
  simp [-BitVec.getLsbD_eq_getElem, decodeIcw, encodeIcw, extractLsb'_append_high, extractLsb'_append_low, getLsbD_append_high, getLsbD_append_low]

theorem decodeSp_encodeSp (r : Sp) : decodeSp (encodeSp r) = r := by
  simp [decodeSp, encodeSp, field, extractLsb'_append_high, extractLsb'_append_low]

/-! ### Ingress entries -/

section
variable (info : BitVec 32) (type : BitVec 2) (f : Footer)

theorem type_encodeFooter : field (encodeFooter info type f) 4 2 = type := by
  simp [field, encodeFooter, extractLsb'_append_high, extractLsb'_append_low]

theorem info_encodeFooter (lo w : Nat) : field (encodeFooter info type f) (32 + lo) w = info.extractLsb' lo w := by
  simp only [field, encodeFooter]
  rw [extractLsb'_append_high _ _ (by omega), extractLsb'_append_high _ _ (by omega), extractLsb'_append_high _ _ (by omega),
    extractLsb'_append_high _ _ (by omega), extractLsb'_append_high _ _ (by omega)]
  congr 1
  omega

theorem newbuf_encodeFooter : (encodeFooter info type f).getLsbD 63 = info.getLsbD 31 := by
  simp [-BitVec.getLsbD_eq_getElem, encodeFooter, getLsbD_append_high]

theorem decodeFooter_encodeFooter : decodeFooter (encodeFooter info type f) = f := by
  simp [-BitVec.getLsbD_eq_getElem, decodeFooter, footerGen, field, encodeFooter, extractLsb'_append_high, extractLsb'_append_low, getLsbD_append_high,
    getLsbD_append_low]

theorem footerGen_encodeFooter : footerGen (encodeFooter info type f) = f.gen :=
  congrArg Footer.gen (decodeFooter_encodeFooter info type f)

end

theorem decodeEntry_encodeRx (e : RxEntry) : decodeEntry (encodeRx e).1 (encodeRx e).2 = .rx e := by
  have hlen := info_encodeFooter (bit e.newbuf ++ e.len) 0 e.footer 0 31
  simp only [decodeEntry, encodeRx, type_encodeFooter, if_true, decodeFooter_encodeFooter, newbuf_encodeFooter, hlen]
  simp [-BitVec.getLsbD_eq_getElem, topByte, field, extractLsb'_append_high, extractLsb'_append_low, getLsbD_append_high,
    getLsbD_append_low]

/-- An entry of `TYPE` = 1 is told apart by its opcode (30_encoding R127, R128). -/
theorem decodeEntry_oobType {f0 f1 : Flit} (h : field f1 4 2 = 1) : decodeEntry f0 f1 =
    if topByte f0 = 0x21 then
      .egrUpdate { rsvdM := field f0 48 8, eqid := field f0 32 16, cidx := field f0 16 16, rsvdN := field f0 0 16,
                   info := field f1 32 32, footer := decodeFooter f1 }
    else
      .oob { opcode := topByte f0, data := field f0 0 56, info := field f1 32 32, footer := decodeFooter f1 } := by
  simp [decodeEntry, h]

theorem decodeEntry_encodeEgrUpdate (e : EgrUpdateEntry) :
    decodeEntry (encodeEgrUpdate e).1 (encodeEgrUpdate e).2 = .egrUpdate e := by
  have htype : field (encodeEgrUpdate e).2 4 2 = 1 := type_encodeFooter _ _ _
  have hinfo := info_encodeFooter e.info 1 e.footer 0 32
  rw [decodeEntry_oobType htype]
  simp only [encodeEgrUpdate, decodeFooter_encodeFooter, hinfo]
  simp [topByte, field, extractLsb'_append_high, extractLsb'_append_low]

/-- The opcode of the egress update makes another entry of the same two flits (30_encoding R127). -/
theorem decodeEntry_encodeOob {e : OobEntry} (h : e.opcode ≠ 0x21) :
    decodeEntry (encodeOob e).1 (encodeOob e).2 = .oob e := by
  have hinfo := info_encodeFooter e.info 1 e.footer 0 32
  have hop : topByte (encodeOob e).1 = e.opcode := by simp [encodeOob, topByte, field, extractLsb'_append_high]
  have htype : field (encodeOob e).2 4 2 = 1 := type_encodeFooter _ _ _
  rw [decodeEntry_oobType htype, if_neg (hop ▸ h)]
  simp only [encodeOob, decodeFooter_encodeFooter, hinfo]
  simp [topByte, field, extractLsb'_append_high, extractLsb'_append_low]

theorem decodeEntry_encodeFwd (e : FwdEntry) : decodeEntry (encodeFwd e).1 (encodeFwd e).2 = .fwd e := by
  have htype : field (encodeFwd e).2 4 2 = 2 := type_encodeFooter _ _ _
  have hhigh := info_encodeFooter (e.rsvdI ++ e.targetQid) 2 e.footer 12 20
  have hlow := info_encodeFooter (e.rsvdI ++ e.targetQid) 2 e.footer 0 12
  rw [decodeEntry, htype, if_neg (by decide), if_neg (by decide), if_pos rfl]
  simp only [encodeFwd, decodeFooter_encodeFooter, hhigh, hlow]
  simp [extractLsb'_append_high, extractLsb'_append_low]

theorem decodeEntry_encodeReserved (e : ReservedEntry) :
    decodeEntry (encodeReserved e).1 (encodeReserved e).2 = .reserved e := by
  have htype : field (encodeReserved e).2 4 2 = 3 := type_encodeFooter _ _ _
  have hinfo := info_encodeFooter e.info 3 e.footer 0 32
  rw [decodeEntry, htype, if_neg (by decide), if_neg (by decide), if_neg (by decide)]
  simp only [encodeReserved, decodeFooter_encodeFooter, hinfo, BitVec.extractLsb'_eq_self]

/-! ## Words put together again -/

/-- A footer put together from its own fields and its `TYPE`. -/
theorem encodeFooter_decodeFooter (f1 : Flit) : encodeFooter (field f1 32 32) (field f1 4 2) (decodeFooter f1) = f1 := by
  simp [-BitVec.getLsbD_eq_getElem, encodeFooter, decodeFooter, footerGen, field, bit_getLsbD, append_extractLsb']

theorem encodeEntry_decodeEntry (f0 f1 : Flit) : encodeEntry (decodeEntry f0 f1) = (f0, f1) := by
  have hf := encodeFooter_decodeFooter f1
  unfold decodeEntry
  split
  · rename_i ht
    have hinfo : bit (f1.getLsbD 63) ++ field f1 32 31 = field f1 32 32 := by
      simp [-BitVec.getLsbD_eq_getElem, field, bit_getLsbD, append_extractLsb']
    rw [ht] at hf
    simp only [encodeEntry, encodeRx, hinfo, hf]
    simp [-BitVec.getLsbD_eq_getElem, topByte, field, bit_getLsbD, append_extractLsb']
  · split
    · rename_i ht
      rw [ht] at hf
      split
      · rename_i hop
        simp only [encodeEntry, encodeEgrUpdate, hf, ← hop]
        simp [topByte, field, append_extractLsb']
      · simp only [encodeEntry, encodeOob, hf]
        simp [topByte, field, append_extractLsb']
    · split
      · rename_i ht
        have hinfo : field f1 44 20 ++ field f1 32 12 = field f1 32 32 := by simp [field, append_extractLsb']
        rw [ht] at hf
        simp only [encodeEntry, encodeFwd, hinfo, hf]
      · rename_i h0 h1 h2
        have ht : field f1 4 2 = 3 := by
          generalize field f1 4 2 = t at h0 h1 h2
          clear hf
          decide +revert
        rw [ht] at hf
        simp only [encodeEntry, encodeReserved, hf]

/-- Settles O3: the entries by their types, the other records by putting their fields side by side. -/
theorem recordsKeepEveryBit : Obligations.RecordsKeepEveryBit := by
  refine ⟨encodeEntry_decodeEntry, fun f0 f1 => ?_, fun f0 f1 h => ?_, fun f h => ?_, fun f => ?_, fun w => ?_, fun w => ?_,
    fun f => ?_⟩
  · simp [encodeHeader, decodeHeader, topByte, field, append_extractLsb']
  · rw [encodeLso, ← h]
    simp [decodeLso, topByte, field, append_extractLsb']
  · rw [encodeTxpkt, ← h]
    simp [-BitVec.getLsbD_eq_getElem, decodeTxpkt, topByte, field, bit_getLsbD, append_extractLsb']
  · simp [encodeFle, decodeFle, field, append_extractLsb']
  · simp [encodeDbw, decodeDbw, append_extractLsb']
  · simp [-BitVec.getLsbD_eq_getElem, encodeIcw, decodeIcw, bit_getLsbD, append_extractLsb']
  · simp [encodeSp, decodeSp, field, append_extractLsb']

/-- Settles O5. -/
theorem decodeWords : Obligations.DecodeWords := by
  refine ⟨?_, ?_, ?_, ?_, ?_, ?_, ?_, ?_, ?_, ?_, ?_⟩ <;> decide

end Sys2Proof
end

section
/-! PROOFS. The words of an instruction decode to it: flits and bytes, the parts of work requests, and every instruction
(30_encoding). -/

namespace Sys2Proof

/-! ## Bytes and flits -/

theorem flitBytes_flitOf (b0 b1 b2 b3 b4 b5 b6 b7 : Byte) :
    flitBytes (flitOf b0 b1 b2 b3 b4 b5 b6 b7) = [b0, b1, b2, b3, b4, b5, b6, b7] := by
  simp [flitBytes, flitOf, field, extractLsb'_append_high, extractLsb'_append_low]

/-- Bytes of whole flits are read as those flits (30_encoding R121). -/
theorem flitsOfBytes_bytesOfFlits (fs : List Flit) : flitsOfBytes (bytesOfFlits fs) = some fs := by
  induction fs with
  | nil => rfl
  | cons f fs ih =>
    rw [show bytesOfFlits (f :: fs) = flitBytes f ++ bytesOfFlits fs from rfl]
    simp [flitBytes, flitsOfBytes, ih, show flitOf _ _ _ _ _ _ _ _ = f from Machine.flitOf_flitBytes f]

theorem flitsOfBytes_flitBytes (f : Flit) : flitsOfBytes (flitBytes f) = some [f] := by
  rw [← flitsOfBytes_bytesOfFlits [f]]
  simp [bytesOfFlits]

theorem ceilDiv_eight_succ (n : Nat) : ceilDiv (n + 8) 8 = ceilDiv n 8 + 1 := by
  simp only [ceilDiv]; omega

/-- Packed bytes are whole flits (43_egress_submit R312). -/
theorem packBytes_length (bs : List Byte) : (packBytes bs).length = ceilDiv bs.length 8 := by
  induction bs using packBytes.induct with
  | case2 b0 b1 b2 b3 b4 b5 b6 b7 rest ih =>
    simp only [packBytes, List.length_cons, ih]
    exact (ceilDiv_eight_succ rest.length).symm
  | _ => simp [packBytes, ceilDiv]

/-- Packed bytes are the bytes and zeros up to a whole flit (30_encoding R136). -/
theorem bytesOfFlits_packBytes (bs : List Byte) :
    bytesOfFlits (packBytes bs) = bs ++ List.replicate (8 * ceilDiv bs.length 8 - bs.length) 0 := by
  induction bs using packBytes.induct with
  | case2 b0 b1 b2 b3 b4 b5 b6 b7 rest ih =>
    have hlen : 8 * ceilDiv (b0 :: b1 :: b2 :: b3 :: b4 :: b5 :: b6 :: b7 :: rest).length 8 -
        (b0 :: b1 :: b2 :: b3 :: b4 :: b5 :: b6 :: b7 :: rest).length = 8 * ceilDiv rest.length 8 - rest.length := by
      simp only [List.length_cons, ceilDiv]; omega
    rw [hlen, packBytes, show ∀ f fs, bytesOfFlits (f :: fs) = flitBytes f ++ bytesOfFlits fs from fun _ _ => rfl,
      flitBytes_flitOf, ih]
    rfl
  | case1 => rfl
  | _ => simp [packBytes, bytesOfFlits, flitBytes_flitOf, ceilDiv, List.replicate]

/-! ## Parts of work requests -/

theorem onlyPadding_iff {fs : List Flit} : onlyPadding fs = true ↔ fs = [] ∨ fs = [0] := by
  simp [onlyPadding]

/-- Immediate data is read back, whatever pad flit follows it (30_encoding R136). -/
theorem decodePayload_imm {data : List Byte} {hb : Nat} {pad : List Flit} (hp : pad = [] ∨ pad = [0])
    (hd : 1 ≤ data.length) : decodePayload (hb + data.length) hb (packBytes data ++ pad) = some (.imm data) := by
  have htake : (bytesOfFlits (packBytes data ++ pad)).take data.length = data := by
    rw [bytesOfFlits, List.flatMap_append, show (packBytes data).flatMap flitBytes = bytesOfFlits (packBytes data) from rfl,
      bytesOfFlits_packBytes, List.append_assoc, List.take_left]
  have hflits : (packBytes data ++ pad).take (ceilDiv data.length 8) = packBytes data := by
    rw [← packBytes_length, List.take_left]
  have hrest : (packBytes data ++ pad).drop (ceilDiv data.length 8) = pad := by
    rw [← packBytes_length, List.drop_left]
  rw [decodePayload, if_neg (by omega), if_neg (by omega)]
  simp only [Nat.add_sub_cancel_left, htake, hflits, hrest]
  simp [onlyPadding_iff.mpr hp]

/-- A list of 1 to 65535 segments is read back, whatever pad flit follows it (30_encoding R134). -/
theorem decodeSgl_encode {segs : List PktSeg} (h1 : 1 ≤ segs.length) (h2 : segs.length ≤ 65535) (tail : List Flit) :
    decodeSgl (encodeSgl segs ++ tail) = some (segs, tail) := by
  cases segs with
  | nil => simp at h1
  | cons s rest => exact decodeSgl_encodeSgl s tail h2

theorem decodePayload_sgl {segs : List PktSeg} {hb : Nat} {pad : List Flit} (hp : pad = [] ∨ pad = [0])
    (h1 : 1 ≤ segs.length) (h2 : segs.length ≤ 65535) :
    decodePayload hb hb (encodeSgl segs ++ pad) = some (.sgl segs) := by
  rw [decodePayload, if_neg (Nat.lt_irrefl _), if_pos rfl, decodeSgl_encode h1 h2]
  simp [onlyPadding_iff.mpr hp]

/-- How many header bytes `IMMDLEN` counts (30_encoding R136). -/
def headerBytes (b : PktBody) : Nat := if b.lso.isSome then 24 else 8

/-- The flits of a payload (30_encoding R136). -/
def payloadFlits : Payload → List Flit
  | .imm data => packBytes data
  | .sgl segs => encodeSgl segs

theorem encodePktBody_eq (b : PktBody) : encodePktBody b =
    (match b.lso with | some r => encodeLso r | none => []) ++ encodeTxpkt b.txpkt :: payloadFlits b.payload := by
  unfold encodePktBody payloadFlits
  cases b.payload <;> rfl

/-- The parts of a request are read back once its payload is, by `IMMDLEN` (30_encoding R136). -/
theorem decodePktBody_encode {b : PktBody} {h : WrHeader} {pad : List Flit}
    (hp : decodePayload h.immdlen.toNat (headerBytes b) (payloadFlits b.payload ++ pad) = some b.payload) :
    decodePktBody h (encodePktBody b ++ pad) = some b := by
  obtain ⟨lso, t, p⟩ := b
  rw [encodePktBody_eq]
  cases lso with
  | none =>
    simp only [List.nil_append, List.cons_append, decodePktBody, topByte_encodeTxpkt]
    rw [if_neg (by decide), if_pos trivial, show decodePayload h.immdlen.toNat 8 _ = some p from hp, decodeTxpkt_encodeTxpkt]
    rfl
  | some r =>
    simp only [encodeLso, List.cons_append, List.nil_append, decodePktBody, topByte_encodeTxpkt, topByte_encodeLso, if_true]
    rw [show decodePayload h.immdlen.toNat 24 _ = some p from hp, decodeTxpkt_encodeTxpkt, decodeLso_encodeLso]
    rfl

theorem immdlen_pktHeader_imm {flowid : BitVec 24} {b : PktBody} {data : List Byte} (hb : b.payload = .imm data)
    (hd : data.length + 24 < 65536) : (pktHeader flowid b).immdlen.toNat = headerBytes b + data.length := by
  have hle : headerBytes b ≤ 24 := by unfold headerBytes; split <;> omega
  simp only [pktHeader, hb]
  change (BitVec.ofNat 16 (headerBytes b + data.length)).toNat = _
  rw [BitVec.toNat_ofNat]
  omega

theorem immdlen_pktHeader_sgl {flowid : BitVec 24} {b : PktBody} {segs : List PktSeg} (hb : b.payload = .sgl segs) :
    (pktHeader flowid b).immdlen.toNat = headerBytes b := by
  have hle : headerBytes b ≤ 24 := by unfold headerBytes; split <;> omega
  simp only [pktHeader, hb]
  change (BitVec.ofNat 16 (headerBytes b)).toNat = _
  rw [BitVec.toNat_ofNat]
  omega

/-- The records of a coalesced request are read back one by one (30_encoding R138). -/
theorem decodeRecords_encode {rs : List PktRecord} {pad : List Flit} (hp : pad = [] ∨ pad = [0])
    (h : ∀ r ∈ rs, 1 ≤ r.segs.length ∧ r.segs.length ≤ 65535) :
    decodeRecords rs.length (rs.flatMap encodeRecord ++ pad) = some rs := by
  induction rs with
  | nil => simp [decodeRecords, onlyPadding_iff.mpr hp]
  | cons r rs ih =>
    obtain ⟨h1, h2⟩ := h r (by simp)
    have ih := ih fun x hx => h x (by simp [hx])
    simp only [List.flatMap_cons, encodeRecord, List.cons_append, List.length_cons, decodeRecords, topByte_encodeTxpkt, if_true]
    rw [List.append_assoc, decodeSgl_encode h1 h2]
    simp only [ih, decodeTxpkt_encodeTxpkt]
    rfl

/-- Settles O4: by the payload for one packet, by induction on the records for several. -/
theorem packetRequestsReadBack : Obligations.PacketRequestsReadBack := by
  refine ⟨fun flowid b pad hp hb => decodePktBody_encode ?_, fun rs pad hp h => decodeRecords_encode hp h⟩
  cases hpay : b.payload with
  | imm data =>
    rw [hpay] at hb
    rw [immdlen_pktHeader_imm hpay hb.2]
    exact decodePayload_imm hp hb.1
  | sgl segs =>
    rw [hpay] at hb
    rw [immdlen_pktHeader_sgl hpay]
    exact decodePayload_sgl hp hb.1 hb.2

/-! ## Instructions -/

/-- The instruction that an entry is, in ingress queue `i` (30_encoding R125). -/
def entryInstr (i : Nat) : Entry → Instr
  | .rx e => .iqeRx i e
  | .egrUpdate e => .iqeEgrUpdate i e
  | .oob e => .iqeOob i e
  | .fwd e => .iqeFwd i e
  | .reserved e => .iqeReserved i e

theorem decodeEntryBytes_entryBytes (i : Nat) (p : Flit × Flit) :
    decodeEntryBytes i (entryBytes p) = .ok (entryInstr i (decodeEntry p.1 p.2)) := by
  simp only [decodeEntryBytes, entryBytes, flitsOfBytes_bytesOfFlits]
  cases decodeEntry p.1 p.2 <;> rfl

theorem decodeRequest_ethTxPkt (i pkt : Nat) (h : WrHeader) (body : List Flit) :
    decodeRequest i [pkt] (bytesOfFlits (encodeHeader 0x01 h ++ body)) = .ok (.ethTxPkt i pkt h body) := by
  simp only [decodeRequest, flitsOfBytes_bytesOfFlits, encodeHeader, List.cons_append, List.nil_append, topByte_encodeHeader,
    decodeHeader_encodeHeader]
  rw [if_neg (by decide), if_pos trivial]

theorem decodeRequest_ethTxPkts (i : Nat) (pkts : List Nat) (h : WrHeader) (body : List Flit) :
    decodeRequest i pkts (bytesOfFlits (encodeHeader 0x02 h ++ body)) = .ok (.ethTxPkts i pkts h body) := by
  simp only [decodeRequest, flitsOfBytes_bytesOfFlits, encodeHeader, List.cons_append, List.nil_append, topByte_encodeHeader,
    decodeHeader_encodeHeader]
  rw [if_neg (by decide), if_neg (by decide), if_pos trivial]

theorem decodeRequest_wrOpaque (i : Nat) {fs : List Flit} (h : wellFormedOpaque fs = true) :
    decodeRequest i [] (bytesOfFlits fs) = .ok (.wrOpaque i fs) := by
  cases fs with
  | nil => simp [wellFormedOpaque] at h
  | cons f0 fs =>
    simp only [wellFormedOpaque, isOpaqueOp, Bool.and_eq_true, decide_eq_true_eq] at h
    obtain ⟨⟨⟨⟨h0, h1⟩, h2⟩, _⟩, _⟩ := h
    simp only [decodeRequest, flitsOfBytes_bytesOfFlits]
    rw [if_neg h0, if_neg h1, if_neg h2, if_pos trivial]

theorem decodeRequest_wrReserved00 (i : Nat) {fs : List Flit} (h : wellFormedZeroOp fs = true) :
    decodeRequest i [] (bytesOfFlits fs) = .ok (.wrReserved00 i fs) := by
  cases fs with
  | nil => simp [wellFormedZeroOp] at h
  | cons f0 fs =>
    simp only [wellFormedZeroOp, decide_eq_true_eq] at h
    simp only [decodeRequest, flitsOfBytes_bytesOfFlits]
    rw [if_pos h, if_pos trivial]

theorem decodePart_lso (i k : Nat) (r : Lso) : decodePart i k (bytesOfFlits (encodeLso r)) = .ok (.lso i k r) := by
  simp only [decodePart, flitsOfBytes_bytesOfFlits, encodeLso, topByte_encodeLso, decodeLso_encodeLso, if_true]

theorem decodePart_txpkt (i k : Nat) (r : Txpkt) : decodePart i k (bytesOfFlits [encodeTxpkt r]) = .ok (.txpkt i k r) := by
  simp only [decodePart, flitsOfBytes_bytesOfFlits, topByte_encodeTxpkt, decodeTxpkt_encodeTxpkt]
  rw [if_neg (by decide), if_pos trivial]

theorem decodePart_sgl (i k : Nat) {segs : List PktSeg} (h1 : 1 ≤ segs.length) (h2 : segs.length ≤ 65535) :
    decodePart i k (bytesOfFlits (encodeSgl segs)) = .ok (.sgl i k segs) := by
  have hd := decodeSgl_encode h1 h2 []
  rw [List.append_nil] at hd
  cases segs with
  | nil => simp at h1
  | cons s rest =>
    have hop := (field_sglHead 0x12 0 (BitVec.ofNat 16 (rest.length + 1)) s.len).1
    simp only [decodePart, flitsOfBytes_bytesOfFlits]
    rw [encodeSgl] at hd ⊢
    simp only [hop, hd]
    rw [if_neg (by decide), if_neg (by decide), if_pos trivial]

theorem decodeImmediate_packBytes (i k : Nat) (data : List Byte) :
    decodeImmediate i k data.length (bytesOfFlits (packBytes data)) = .ok (.immediateData i k data) := by
  have hlen : data.length ≤ 8 * ceilDiv data.length 8 := by simp only [ceilDiv]; omega
  rw [decodeImmediate, bytesOfFlits_packBytes, if_pos (by simp; omega), if_pos (by simp), List.take_left]

/-- Settles O1: a command decodes by its code, every other instruction by the lemma on its record. -/
theorem decodeEncode : Obligations.DecodeEncode := by
  intro i hi
  cases i with
  | iqeRx i e => simp only [encode, decode, decodeEntryBytes_entryBytes, decodeEntry_encodeRx, entryInstr]
  | iqeEgrUpdate i e => simp only [encode, decode, decodeEntryBytes_entryBytes, decodeEntry_encodeEgrUpdate, entryInstr]
  | iqeOob i e =>
    have hop : e.opcode ≠ 0x21 := by simpa [Instr.wellFormed] using hi
    simp only [encode, decode, decodeEntryBytes_entryBytes, decodeEntry_encodeOob hop, entryInstr]
  | iqeFwd i e => simp only [encode, decode, decodeEntryBytes_entryBytes, decodeEntry_encodeFwd, entryInstr]
  | iqeReserved i e => simp only [encode, decode, decodeEntryBytes_entryBytes, decodeEntry_encodeReserved, entryInstr]
  | ethTxPkt i pkt h body => exact decodeRequest_ethTxPkt i pkt h body
  | ethTxPkts i pkts h body => exact decodeRequest_ethTxPkts i pkts h body
  | wrOpaque i fs => exact decodeRequest_wrOpaque i hi
  | wrReserved00 i fs => exact decodeRequest_wrReserved00 i hi
  | lso i k r => exact decodePart_lso i k r
  | txpkt i k r => exact decodePart_txpkt i k r
  | sgl i k segs =>
    simp only [Instr.wellFormed, Bool.and_eq_true, decide_eq_true_eq] at hi
    exact decodePart_sgl i k hi.1 hi.2
  | immediateData i k data => exact decodeImmediate_packBytes i k data
  | fle i r => simp only [encode, decode, flitsOfBytes_flitBytes, decodeFle_encodeFle]
  | dbw reg r => cases reg <;> simp only [encode, decode, decodeDbw_encodeDbw]
  | icw r => simp only [encode, decode, decodeIcw_encodeIcw]
  | sp q r => simp only [encode, decode, flitsOfBytes_flitBytes, decodeSp_encodeSp]
  | wcBurst a fs =>
    have hlen : fs.length = 8 := by simpa [Instr.wellFormed] using hi
    simp only [encode, decode, flitsOfBytes_bytesOfFlits, hlen, if_true]
  | _ => rfl

end Sys2Proof
end

section
/-! PROOFS. The small moves of which every step is made (10_state): what an operation changes that no invariant looks at, and
the moves of one egress queue, which every operation on an egress queue is a run of. -/

namespace Sys2Proof.Machine

/-! ## What no invariant looks at -/

/-- Nothing an invariant speaks of has changed: the queues, the arena, the lists and the held segments are as they were, the
events and the MMIO writes have only grown, and the memories are still in their canonical form. -/
structure Aside (s t : State) : Prop where
  cfg : t.cfg = s.cfg
  iq : t.iq = s.iq
  eq : t.eq = s.eq
  arena : t.arena = s.arena
  starving : t.starving = s.starving
  worklist : t.worklist = s.worklist
  panic : t.panic = s.panic
  held : t.held = s.held
  port : t.port = s.port
  nextBuf : t.env.nextBuf = s.env.nextBuf
  out : s.out <+: t.out
  mmio : s.mmio <+: t.mmio
  ring : s.ring.wf → t.ring.wf
  buf : s.buf.wf → t.buf.wf

namespace Aside

variable {s t u : State}

theorem refl (s : State) : Aside s s :=
  ⟨rfl, rfl, rfl, rfl, rfl, rfl, rfl, rfl, rfl, rfl, List.prefix_refl _, List.prefix_refl _, id, id⟩

theorem trans (h : Aside s t) (h' : Aside t u) : Aside s u :=
  ⟨h'.cfg.trans h.cfg, h'.iq.trans h.iq, h'.eq.trans h.eq, h'.arena.trans h.arena, h'.starving.trans h.starving,
    h'.worklist.trans h.worklist, h'.panic.trans h.panic, h'.held.trans h.held, h'.port.trans h.port,
    h'.nextBuf.trans h.nextBuf, h.out.trans h'.out, h.mmio.trans h'.mmio, h'.ring ∘ h.ring, h'.buf ∘ h.buf⟩

theorem of_mmio (h : ∃ ws df di de, t = { s with mmio := s.mmio ++ ws, devFl := df, devIq := di, devEq := de }) :
    Aside s t := by
  obtain ⟨ws, df, di, de, rfl⟩ := h
  exact ⟨rfl, rfl, rfl, rfl, rfl, rfl, rfl, rfl, rfl, rfl, List.prefix_refl _, List.prefix_append _ _, id, id⟩

theorem of_ring (h : ∃ m, t = { s with ring := m } ∧ (s.ring.wf → m.wf)) : Aside s t := by
  obtain ⟨m, rfl, hm⟩ := h
  exact ⟨rfl, rfl, rfl, rfl, rfl, rfl, rfl, rfl, rfl, rfl, List.prefix_refl _, List.prefix_refl _, hm, id⟩

/-- The fields that no invariant looks at at all. -/
theorem of_rest {hp : List HeapObject} {df : List (Option DevFl)} {di : List (Option DevIq)} {de : List (Option DevEq)}
    {st : List Nat} {g : List Segment} {r : Ret} {es : List Exc} :
    Aside s { s with heap := hp, devFl := df, devIq := di, devEq := de, stalled := st, given := g, ret := r, raised := es } :=
  ⟨rfl, rfl, rfl, rfl, rfl, rfl, rfl, rfl, rfl, rfl, List.prefix_refl _, List.prefix_refl _, id, id⟩

theorem of_out (es : List Event) : Aside s { s with out := s.out ++ es } :=
  ⟨rfl, rfl, rfl, rfl, rfl, rfl, rfl, rfl, rfl, rfl, List.prefix_append _ _, List.prefix_refl _, id, id⟩

theorem of_env {e : Oracles} (h : e.nextBuf = s.env.nextBuf) : Aside s (s.setEnv e) :=
  ⟨rfl, rfl, rfl, rfl, rfl, rfl, rfl, rfl, rfl, h, List.prefix_refl _, List.prefix_refl _, id, id⟩

theorem of_buf {m : Memory} (h : s.buf.wf → m.wf) : Aside s (s.setBuf m) :=
  ⟨rfl, rfl, rfl, rfl, rfl, rfl, rfl, rfl, rfl, rfl, List.prefix_refl _, List.prefix_refl _, id, h⟩

theorem emit (s : State) (e : Event) : Aside s (s.emit e) := of_out [e]

theorem raise (s : State) (e : Exc) : Aside s (s.raise e) := of_rest

theorem begin (s : State) : Aside s s.begin := of_rest

theorem answer (s : State) (r : Ret) : Aside s (s.answer r) := of_rest

theorem setStalled (s : State) (l : List Nat) : Aside s (s.setStalled l) := of_rest

theorem setHeap (s : State) (h : List HeapObject) : Aside s (s.setHeap h) := of_rest

theorem setGiven (s : State) (g : List Segment) : Aside s (s.setGiven g) := of_rest

theorem mmioWrite (s : State) (w : MmioWrite) : Aside s (mmioWrite s w) := by
  obtain ⟨f, i, e, h⟩ := mmioWrite_state s w
  exact of_mmio ⟨_, f, i, e, h⟩

theorem writeCredit (s : State) (qid : BitVec 12) (timer : BitVec 3) (cnt : Bool) (n : Nat) :
    Aside s (writeCredit s qid timer cnt n) := mmioWrite s _

theorem writeFlits {fs : List Flit} {q : EgressQueue} {st k : Nat} (h : writeFlits q st s k fs = .ok t) : Aside s t :=
  of_ring (writeFlits_ok h)

theorem writeWr {q : EgressQueue} {st : Nat} {fs : List Flit} (h : writeWr q st fs s = .ok t) : Aside s t :=
  of_ring (writeWr_ok h)

theorem ringWrite {a : Nat} {v : Flit} (h : ringWrite s a v = .ok t) : Aside s t :=
  of_ring ⟨_, (ringWrite_ok h).2, fun hw => Memory.putFlit_wf hw _ _⟩

theorem bufWrite {a : Nat} {bs : List Byte} (h : bufWrite s a bs = .ok t) : Aside s t := by
  obtain ⟨_, rfl⟩ := bufWrite_ok h
  exact of_buf fun hw => Memory.putBytes_wf hw _ _

theorem askMap (s : State) : Aside s (askMap s).2 := of_env rfl

theorem compact (s : State) (gs : List PktSeg) : Aside s (compact s gs).2 := of_env rfl

theorem swChecksum (s : State) (gs : List PktSeg) : Aside s (swChecksum s gs) :=
  (of_env (e := { s.env with
    checksum := (nextAnswer s.env.checksum Config.checksumAnswer s.env.calls).2.1
    calls := (nextAnswer s.env.checksum Config.checksumAnswer s.env.calls).2.2 }) rfl).trans
      (of_buf fun hw => patchChain_wf hw _ _)

theorem csumBits (p : Packet) (s : State) : Aside s (csumBits p s).2 := by
  unfold Machine.csumBits
  dsimp only
  split
  · exact swChecksum s p.segs
  · exact refl s

theorem buildSgl (p : Packet) (s : State) : Aside s (buildSgl p s).2 := by
  unfold Machine.buildSgl
  dsimp only
  split
  · split
    · split
      · exact (compact s _).trans (raise _ _)
      · exact (compact s _).trans (askMap _)
    · exact (compact s _).trans (raise _ _)
  · exact askMap s

end Aside

/-! ## The moves of an egress queue -/

/-- A packet added to the accumulator, with its map (44_coalescing R354). -/
def addedTo (map : Nat) (p : Packet) (q : EgressQueue) : EgressQueue :=
  { takeMap map p.handle q with
    txpkts := { q.txpkts with
      npkt := q.txpkts.npkt + 1, flits := q.txpkts.flits + BitVec.ofNat 16 (recFlits p), plen := q.txpkts.plen + p.len } }

/-- Maps taken, oldest first (10_state R52). -/
def withMaps (ms : List TxMap) (q : EgressQueue) : EgressQueue :=
  { q with maps := q.maps ++ ms, mapsFree := q.mapsFree - BitVec.ofNat 16 ms.length }

/-- The record at the consumer index taken back, with its maps and its descriptors' credits (45_reclaim_doorbell R370). -/
def tookBack (q : EgressQueue) : EgressQueue :=
  let r := recordAt q q.cidx.toNat
  { setRecord q q.cidx.toNat {} with
    cidx := addTo q.cidx q.cap r.descUsed.toNat, avail := q.avail + r.descUsed, maps := q.maps.drop r.credits.toNat
    mapsFree := q.mapsFree + r.credits }

/-- The moves of an egress queue's context, each with what its rule tests before it. -/
inductive EqMove (c : Cfg) : EgressQueue → EgressQueue → Prop
  /-- what is pending, or the state, is written -/
  | plain (q : EgressQueue) (p : BitVec 16) (st : EqState) : EqMove c q { q with pending := p, state := st }
  | opened {q : EgressQueue} (ho : q.txpkts.isOpen = false) : EqMove c q (txpktsOpen q)
  | added {q : EgressQueue} (map : Nat) {p : Packet} (ho : q.txpkts.isOpen = true) (hc : canAdd c q p = true) :
      EqMove c q (addedTo map p q)
  | emptied {q : EgressQueue} (hn : q.txpkts.npkt = 0) : EqMove c q (closed q)
  | flushed {q : EgressQueue} (ho : q.txpkts.isOpen = true) (hn : q.txpkts.npkt ≠ 0)
      (ha : ceilDiv q.txpkts.flits.toNat 8 ≤ q.avail.toNat) :
      EqMove c q (commitRecord (closed q) (ceilDiv q.txpkts.flits.toNat 8) q.txpkts.npkt.toNat q.txpkts.npkt.toNat)
  | placed {q : EgressQueue} {ms : List TxMap} {nd np : Nat} (ho : q.txpkts.isOpen = false) (hn : 1 ≤ nd)
      (ha : nd ≤ q.avail.toNat) (hf : ms.length ≤ q.mapsFree.toNat) : EqMove c q (commitRecord (withMaps ms q) nd ms.length np)
  | tookBack {q : EgressQueue} (hd : (recordAt q q.cidx.toNat).descUsed ≠ 0)
      (ho : q.inRange = true → (recordAt q q.cidx.toNat).descUsed.toNat ≤ occEq q)
      (hc : (recordAt q q.cidx.toNat).credits.toNat ≤ q.maps.length) : EqMove c q (tookBack q)

/-- A run of moves. -/
abbrev EqMoves (c : Cfg) : EgressQueue → EgressQueue → Prop := Relation.ReflTransGen (EqMove c)

/-- What an operation on an egress queue does: moves of the queue, and nothing else that an invariant looks at. -/
def EqDoes (q : EgressQueue) (s : State) (q' : EgressQueue) (t : State) : Prop := EqMoves s.cfg q q' ∧ Aside s t

namespace EqDoes

variable {q r w : EgressQueue} {s t u : State}

theorem refl (q : EgressQueue) (s : State) : EqDoes q s q s := ⟨.refl, .refl s⟩

theorem of_move (h : EqMove s.cfg q r) : EqDoes q s r s := ⟨.single h, .refl s⟩

theorem of_aside (h : Aside s t) : EqDoes q s q t := ⟨.refl, h⟩

theorem trans (h : EqDoes q s r t) (h' : EqDoes r t w u) : EqDoes q s w u := by
  obtain ⟨hm, ha⟩ := h
  obtain ⟨hm', ha'⟩ := h'
  rw [ha.cfg] at hm'
  exact ⟨hm.trans hm', ha.trans ha'⟩

/-- Only what is pending, or the state, of the queue. -/
theorem plain (q : EgressQueue) (s : State) (p : BitVec 16) (st : EqState) : EqDoes q s { q with pending := p, state := st } s :=
  of_move (.plain q p st)

end EqDoes

/-! ## The operations on egress queues -/

section
variable {i : Nat} {q q' : EgressQueue} {s t : State}

theorem notifyEq_does (h : notifyEq q s = .ok (q', t)) : EqDoes q s q' t := by
  obtain ⟨_, rfl, hs⟩ := notifyEq_ok h
  exact (EqDoes.plain q s 0 q.state).trans (.of_aside (.of_mmio hs))

/-- A commit writes its record and may tell the device. -/
theorem commit_does {nd cr np : Nat} (h : commit nd cr np q s = .ok (q', t)) :
    nd ≤ q.avail.toNat ∧ EqDoes (commitRecord q nd cr np) s q' t := by
  obtain ⟨ha, ⟨p, rfl⟩, hs⟩ := commit_ok h
  exact ⟨ha, (EqDoes.plain (commitRecord q nd cr np) s p q.state).trans (.of_aside (.of_mmio hs))⟩

/-- A request placed with its maps, on a queue whose accumulator is closed. -/
theorem commit_placed {nd cr np : Nat} {ms : List TxMap} (hc : cr = ms.length) (ho : q.txpkts.isOpen = false) (hn : 1 ≤ nd)
    (hf : ms.length ≤ q.mapsFree.toNat) (h : commit nd cr np (withMaps ms q) s = .ok (q', t)) : EqDoes q s q' t := by
  subst hc
  obtain ⟨ha, hd⟩ := commit_does h
  exact (EqDoes.of_move (.placed ho hn ha hf)).trans hd

theorem withMaps_nil (q : EgressQueue) : withMaps [] q = q := by simp [withMaps]

theorem withMaps_one (map pkt : Nat) (q : EgressQueue) : withMaps [⟨map, pkt⟩] q = takeMap map pkt q := by
  simp [withMaps, takeMap]

theorem txpktsFlush_does (ho : q.txpkts.isOpen = true) (h : txpktsFlush q s = .ok (q', t)) :
    EqDoes q s q' t ∧ q'.txpkts.isOpen = false ∧ q'.state = q.state := by
  obtain ⟨_, _, _, hst, hc⟩ := txpktsFlush_same h
  refine ⟨?_, hc, hst⟩
  unfold txpktsFlush at h
  split at h
  · rename_i hn
    cases h
    exact .of_move (.emptied hn)
  · rename_i hn
    obtain ⟨s1, h1, h⟩ := Res.bind_eq_ok.mp h
    obtain ⟨s2, h2, h⟩ := Res.bind_eq_ok.mp h
    obtain ⟨ha, hd⟩ := commit_does h
    have has := (Aside.writeFlits h1).trans (Aside.writeFlits h2)
    exact ((EqDoes.of_aside has).trans (.of_move (.flushed ho hn ha))).trans hd

theorem flushIfOpen_does (h : flushIfOpen q s = .ok (q', t)) :
    EqDoes q s q' t ∧ q'.txpkts.isOpen = false ∧ q'.state = q.state := by
  unfold flushIfOpen at h
  split at h
  · exact txpktsFlush_does ‹_› h
  · rename_i hc
    cases h
    exact ⟨.refl q s, by simpa using hc, rfl⟩

theorem txpktsAdd_does {p : Packet} (ho : q.txpkts.isOpen = true) (hc : canAdd s.cfg q p = true)
    (h : txpktsAdd p q s = .ok (q', t)) : EqDoes q s q' t := by
  unfold txpktsAdd at h
  dsimp only at h
  obtain ⟨s1, h1, h⟩ := Res.bind_eq_ok.mp h
  have has := ((Aside.askMap s).trans (.csumBits p _)).trans (.writeFlits h1)
  have hadd : EqDoes q s (addedTo (askMap s).1 p q) s1 := (EqDoes.of_move (.added _ ho hc)).trans (.of_aside has)
  split at h
  · exact hadd.trans (txpktsFlush_does (q := addedTo (askMap s).1 p q) ho h).1
  · cases h
    exact hadd

theorem stall_does {cause : Exc} {r : Ret} (h : stall i cause q s = .ok (q', t, r)) : EqDoes q s q' t := by
  unfold stall at h
  obtain ⟨⟨q1, s1⟩, h1, h⟩ := Res.bind_eq_ok.mp h
  obtain ⟨⟨q2, s2⟩, h2, h⟩ := Res.bind_eq_ok.mp h
  cases h
  have hd := (flushIfOpen_does h1).1.trans (notifyEq_does h2)
  exact (hd.trans (.plain q2 s2 q2.pending .stalled)).trans (.of_aside ((Aside.setStalled _ _).trans (.raise _ _)))

theorem ceilDiv_pos {a b : Nat} (ha : 0 < a) (hb : 0 < b) : 1 ≤ ceilDiv a b :=
  Nat.div_pos (by omega) hb

theorem submitImm_does {p : Packet} {r : Ret} (ho : q.txpkts.isOpen = false) (h : submitImm i p q s = .ok (q', t, r)) :
    EqDoes q s q' t := by
  unfold submitImm at h
  dsimp only at h
  split at h
  · exact stall_does h
  · obtain ⟨bs, _, h⟩ := Res.bind_eq_ok.mp h
    obtain ⟨s2, h2, h⟩ := Res.bind_eq_ok.mp h
    obtain ⟨⟨q3, s3⟩, h3, h⟩ := Res.bind_eq_ok.mp h
    cases h
    have has := ((Aside.csumBits p s).trans (.writeWr h2)).trans (.emit _ (.freePkt p.handle))
    have hpos : 1 ≤ ceilDiv (wrFlits p .imm 0) 8 := ceilDiv_pos (by simp only [wrFlits]; omega) (by decide)
    refine (EqDoes.of_aside has).trans (commit_placed (ms := []) (np := 1) rfl ho hpos (Nat.zero_le _) ?_)
    rw [withMaps_nil]
    exact h3

theorem submitSgl_does {p : Packet} {r : Ret} (ho : q.txpkts.isOpen = false) (h : submitSgl i p q s = .ok (q', t, r)) :
    EqDoes q s q' t := by
  unfold submitSgl at h
  split at h
  · exact stall_does h
  · rename_i hfree
    have hb := Aside.buildSgl p s
    dsimp only at h
    split at h
    · cases h
      exact .of_aside (hb.trans (.emit _ _))
    · split at h
      · exact (EqDoes.of_aside hb).trans (stall_does h)
      · rename_i map segs _ _
        obtain ⟨s2, h2, h⟩ := Res.bind_eq_ok.mp h
        obtain ⟨⟨q3, s3⟩, h3, h⟩ := Res.bind_eq_ok.mp h
        cases h
        have has := (hb.trans (.csumBits _ _)).trans (.writeWr h2)
        rw [← withMaps_one] at h3
        refine (EqDoes.of_aside has).trans (commit_placed rfl ho (ceilDiv_pos ?_ (by decide)) ?_ h3)
        · simp only [wrFlits]; omega
        · have : q.mapsFree.toNat ≠ 0 := fun h => hfree (BitVec.eq_of_toNat_eq h)
          simp only [List.length_singleton]; omega

theorem canAdd_opened {c : Cfg} {p : Packet} (ho : q.txpkts.isOpen = false) (h : canAdd c q p = true) :
    canAdd c (txpktsOpen q) p = true := by
  have hacc : accOrClosed (txpktsOpen q).txpkts = { accOrClosed q.txpkts with isOpen := true, start := q.pidx } := by
    simp [accOrClosed, txpktsOpen, ho]
  simp only [canAdd, hacc] at h ⊢
  exact h

/-- SUBMIT that completes is a run of moves. -/
theorem submit_does {p : Packet} {r : Ret} (h : submit i p q s = .ok (q', t, r)) : EqDoes q s q' t := by
  unfold submit at h
  split at h
  · simp at h
  · split at h
    · simp at h
    · split at h
      · cases h; exact .of_aside (.raise _ _)
      · dsimp only at h
        split at h
        · rename_i hadd
          simp only [Bool.and_eq_true] at hadd
          obtain ⟨⟨q1, s1⟩, h1, h⟩ := Res.bind_eq_ok.mp h
          cases h
          exact txpktsAdd_does hadd.1.1 hadd.2 h1
        · obtain ⟨⟨q1, s1⟩, h1, h⟩ := Res.bind_eq_ok.mp h
          obtain ⟨hd, ho, _⟩ := flushIfOpen_does h1
          refine hd.trans ?_
          dsimp only at h
          split at h
          · split at h
            · rename_i hc
              obtain ⟨⟨q2, s2⟩, h2, h⟩ := Res.bind_eq_ok.mp h
              cases h
              exact (EqDoes.of_move (.opened ho)).trans (txpktsAdd_does rfl (canAdd_opened ho hc) h2)
            · exact stall_does h
          · unfold submitSingle at h
            split at h
            · exact submitImm_does ho h
            · exact submitSgl_does ho h

theorem badRequest_length {c : Cfg} {fs : List Flit} (h : badRequest c fs = false) : 2 ≤ fs.length := by
  simp only [badRequest, Bool.or_eq_false_iff, decide_eq_false_iff_not] at h
  omega

/-- A request placed as it is, with its maps. -/
theorem placeRequest_does {fs : List Flit} {np : Nat} {ms : List TxMap} {r : Ret} (ho : q.txpkts.isOpen = false)
    (hl : 0 < fs.length) (hf : ms.length ≤ q.mapsFree.toNat)
    (h : placeRequest fs ms.length np (withMaps ms q) s = .ok (q', t, r)) : EqDoes q s q' t := by
  unfold placeRequest at h
  obtain ⟨s1, h1, h⟩ := Res.bind_eq_ok.mp h
  obtain ⟨⟨q2, s2⟩, h2, h⟩ := Res.bind_eq_ok.mp h
  cases h
  exact (EqDoes.of_aside (.writeWr h1)).trans (commit_placed rfl ho (ceilDiv_pos hl (by decide)) hf h2)

theorem submitWr_does {fs : List Flit} {r : Ret} (h : submitWr i fs q s = .ok (q', t, r)) : EqDoes q s q' t := by
  unfold submitWr at h
  split at h
  · simp at h
  · split at h
    · simp at h
    · rename_i hbad
      split at h
      · cases h; exact .of_aside (.raise _ _)
      · obtain ⟨⟨q1, s1⟩, h1, h⟩ := Res.bind_eq_ok.mp h
        obtain ⟨hd, ho, _⟩ := flushIfOpen_does h1
        refine hd.trans ?_
        dsimp only at h
        split at h
        · exact stall_does h
        · have hl := badRequest_length (by simpa using hbad)
          refine placeRequest_does (ms := []) (fs := fs) (np := 0) (r := r) ho (by omega) (Nat.zero_le _) ?_
          rw [withMaps_nil]
          exact h

theorem txpktsFlushCommand_does (h : txpktsFlushCommand q s = .ok (q', t)) : EqDoes q s q' t := by
  unfold txpktsFlushCommand at h
  split at h
  · simp at h
  · exact (flushIfOpen_does h).1

/-- Maps taken one after another (10_state R52). -/
theorem takeMaps_eq (ps : List Nat) (q : EgressQueue) (s : State) :
    ∃ ms, ms.length = ps.length ∧ (takeMaps ps q s).1 = withMaps ms q ∧ Aside s (takeMaps ps q s).2 := by
  induction ps generalizing q s with
  | nil => exact ⟨[], rfl, (withMaps_nil q).symm, .refl s⟩
  | cons p ps ih =>
    obtain ⟨ms, hl, hq, ha⟩ := ih (takeMap (askMap s).1 p q) (askMap s).2
    refine ⟨⟨(askMap s).1, p⟩ :: ms, by simp [hl], ?_, (Aside.askMap s).trans ha⟩
    show (takeMaps ps _ _).1 = _
    rw [hq]
    simp only [withMaps, takeMap, List.length_cons, List.append_assoc, List.singleton_append]
    congr 1
    rw [show BitVec.ofNat 16 (ms.length + 1) = BitVec.ofNat 16 ms.length + 1 from BitVec.ofNat_add _ _]
    bv_omega

/-! ### RECLAIM -/

/-- A queue whose record at the consumer index has descriptors has its consumer index in range. -/
theorem cidx_lt_of_record (hp : q.pidx < q.cap) (hl : q.sdesc.length = q.cap.toNat)
    (hd : (recordAt q q.cidx.toNat).descUsed ≠ 0) : q.inRange = true := by
  have hc : q.cidx.toNat < q.sdesc.length := by
    by_contra hc
    exact hd (by simp [recordAt, List.getD, List.getElem?_eq_none (Nat.le_of_not_lt hc)])
  have hc : q.cidx < q.cap := by rw [hl] at hc; exact hc
  simp [EgressQueue.inRange, hp, hc, hl]

theorem occEq_tookBack (h : q.inRange = true) (hle : (recordAt q q.cidx.toNat).descUsed.toNat ≤ occEq q) :
    occEq (tookBack q) = occEq q - (recordAt q q.cidx.toNat).descUsed.toNat := by
  simp only [EgressQueue.inRange, Bool.and_eq_true, decide_eq_true_eq] at h
  exact distOf_addTo_left h.1.2 h.1.1 hle

/-- The walk of RECLAIM takes back one record after another; the descriptors taken so far are credited on the way. -/
theorem reclaimLoop_does {b fuel left d0 c0 d1 c1 : Nat} (c : Cfg)
    (h : reclaimLoop b fuel left q s d0 c0 = .ok (q', t, d1, c1)) (hl : q.inRange = true → left ≤ occEq q) :
    EqMoves c { q with avail := q.avail + BitVec.ofNat 16 d0 } { q' with avail := q'.avail + BitVec.ofNat 16 d1 } ∧
      Aside s t := by
  induction fuel generalizing left q s d0 c0 with
  | zero => cases h; exact ⟨.refl, .refl _⟩
  | succ fuel ih =>
    unfold reclaimLoop at h
    split at h
    · cases h; exact ⟨.refl, .refl _⟩
    · dsimp only at h
      split at h
      · simp at h
      · rename_i hd
        split at h
        · cases h; exact ⟨.refl, .refl _⟩
        · rename_i hle
          obtain ⟨⟨q1, s1⟩, h1, h⟩ := Res.bind_eq_ok.mp h
          obtain ⟨hm, rfl, rfl⟩ := releaseMaps_ok h1
          dsimp only at h
          have hocc : q.inRange = true → (recordAt q q.cidx.toNat).descUsed.toNat ≤ occEq q := fun hr => by
            have := hl hr; omega
          have hmove : EqMove c { q with avail := q.avail + BitVec.ofNat 16 d0 }
              (tookBack { q with avail := q.avail + BitVec.ofNat 16 d0 }) := .tookBack hd hocc hm
          obtain ⟨hs, ha⟩ := ih h fun hr => by
            simp only [EgressQueue.inRange, Bool.and_eq_true, setRecord, List.length_set, decide_eq_true_iff] at hr
            have hin := cidx_lt_of_record (q := q) (of_decide_eq_true hr.1.1) hr.2 hd
            have := occEq_tookBack hin (hocc hin)
            have := hl hin
            show left - _ ≤ occEq (tookBack q)
            omega
          refine ⟨.head hmove ?_, (Aside.of_out _).trans ha⟩
          convert hs using 1
          simp only [tookBack, setRecord, recordAt, BitVec.ofNat_add, BitVec.ofNat_toNat, BitVec.setWidth_eq, BitVec.add_assoc]

theorem resumeCheck_does (i : Nat) (hw : BitVec 16) (q : EgressQueue) (s : State) :
    EqDoes q s (resumeCheck i hw q s).1 (resumeCheck i hw q s).2 := by
  unfold resumeCheck
  split
  · exact (EqDoes.plain q s q.pending .active).trans (.of_aside ((Aside.setStalled s _).trans (.emit _ _)))
  · exact .refl q s

/-- RECLAIM that completes is a run of moves. -/
theorem reclaim_does {b d c : Nat} (h : reclaim i b q s = .ok (q', t, d, c)) : EqDoes q s q' t := by
  unfold reclaim at h
  split at h
  · simp at h
  · obtain ⟨sp, _, h⟩ := Res.bind_eq_ok.mp h
    dsimp only at h
    split at h
    · simp at h
    · split at h
      · simp at h
      · rename_i hocc
        obtain ⟨⟨q1, s1, d1, c1⟩, h1, h⟩ := Res.bind_eq_ok.mp h
        cases h
        obtain ⟨hm, ha⟩ := reclaimLoop_does s.cfg h1 fun _ => by omega
        rw [show q.avail + BitVec.ofNat 16 0 = q.avail from BitVec.add_zero _] at hm
        exact EqDoes.trans ⟨hm, ha⟩ (resumeCheck_does i _ _ _)

/-! ### Teardown -/

theorem beginTeardownEq_does (h : beginTeardownEq i q s = .ok (q', t)) : EqDoes q s q' t := by
  unfold beginTeardownEq at h
  split at h
  · obtain ⟨⟨q1, s1⟩, h1, h⟩ := Res.bind_eq_ok.mp h
    obtain ⟨⟨q2, s2⟩, h2, h⟩ := Res.bind_eq_ok.mp h
    cases h
    have hd := ((flushIfOpen_does h1).1.trans (notifyEq_does h2)).trans (.plain q2 s2 q2.pending .doomed)
    refine hd.trans (.of_aside ?_)
    split
    · exact .setStalled _ _
    · exact .refl _
  · cases h; exact .refl q s

theorem teardownEq_does {r : Ret} (h : teardownEq i q s = .ok (q', t, r)) : EqDoes q s q' t := by
  unfold teardownEq at h
  split at h
  · simp at h
  · obtain ⟨⟨q1, s1⟩, h1, h⟩ := Res.bind_eq_ok.mp h
    obtain ⟨⟨q2, s2, d, c⟩, h2, h⟩ := Res.bind_eq_ok.mp h
    have hd := (beginTeardownEq_does h1).trans (reclaim_does h2)
    dsimp only at h
    split at h
    · cases h; exact hd.trans (.plain q2 _ q2.pending .dead)
    · cases h; exact hd

end

end Sys2Proof.Machine
end

section
/-! PROOFS. What the moves of an egress queue keep: the indices in range (10_state R21), the credits and maps accounted for
(R52, R57), the walk over the slot records (R57), and the accumulator's bounds (44_coalescing R355, R357). -/

namespace Sys2Proof.Machine

/-! ## Indices in range -/

theorem EgressQueue.inRange_iff {q : EgressQueue} :
    q.inRange = true ↔ q.pidx < q.cap ∧ q.cidx < q.cap ∧ q.sdesc.length = q.cap.toNat := by
  simp [EgressQueue.inRange, and_assoc]

theorem commitRecord_inRange {q : EgressQueue} {nd cr np : Nat} (h : q.inRange = true) :
    (commitRecord q nd cr np).inRange = true := by
  obtain ⟨hp, hc, hl⟩ := EgressQueue.inRange_iff.mp h
  exact EgressQueue.inRange_iff.mpr ⟨addTo_lt nd (EgressQueue.cap_pos h), hc, by simpa [commitRecord] using hl⟩

theorem tookBack_inRange {q : EgressQueue} (h : q.inRange = true) : (tookBack q).inRange = true := by
  obtain ⟨hp, hc, hl⟩ := EgressQueue.inRange_iff.mp h
  exact EgressQueue.inRange_iff.mpr ⟨hp, addTo_lt _ (EgressQueue.cap_pos h), by simpa [tookBack, setRecord] using hl⟩

theorem EqMove.inRange {c : Cfg} {q q' : EgressQueue} (h : EqMove c q q') (hr : q.inRange = true) : q'.inRange = true := by
  cases h with
  | plain | opened | added | emptied => exact hr
  | flushed => exact commitRecord_inRange (q := closed q) hr
  | placed => exact commitRecord_inRange (q := withMaps _ q) hr
  | tookBack => exact tookBack_inRange hr

/-! ## Credits and maps -/

theorem EgressQueue.accounted_iff {q : EgressQueue} : q.accounted = true ↔
    q.inRange = true ∧ q.avail.toNat = q.cap.toNat - 1 - occEq q ∧ q.maps.length + q.mapsFree.toNat = q.nmaps.toNat := by
  simp [EgressQueue.accounted, and_assoc]

theorem occEq_lt {q : EgressQueue} (h : q.inRange = true) : occEq q < q.cap.toNat := distOf_lt (EgressQueue.cap_pos h)

/-- A commit makes the occupied part of the ring longer by its descriptors. -/
theorem occEq_commitRecord {q : EgressQueue} {nd cr np : Nat} (h : q.accounted = true) (hn : nd ≤ q.avail.toNat) :
    occEq (commitRecord q nd cr np) = occEq q + nd := by
  obtain ⟨hr, ha, _⟩ := EgressQueue.accounted_iff.mp h
  obtain ⟨hp, hc, _⟩ := EgressQueue.inRange_iff.mp hr
  have hlt := occEq_lt hr
  exact distOf_addTo hc hp (by unfold occEq at *; omega)

theorem commitRecord_accounted {q : EgressQueue} {nd cr np : Nat} (h : q.accounted = true) (hn : nd ≤ q.avail.toNat) :
    (commitRecord q nd cr np).accounted = true := by
  have hocc := occEq_commitRecord (cr := cr) (np := np) h hn
  obtain ⟨hr, ha, hm⟩ := EgressQueue.accounted_iff.mp h
  refine EgressQueue.accounted_iff.mpr ⟨commitRecord_inRange hr, ?_, hm⟩
  rw [hocc]
  show (q.avail - BitVec.ofNat 16 nd).toNat = q.cap.toNat - 1 - (occEq q + nd)
  bv_omega

theorem withMaps_accounted {q : EgressQueue} {ms : List TxMap} (h : q.accounted = true) (hf : ms.length ≤ q.mapsFree.toNat) :
    (withMaps ms q).accounted = true := by
  obtain ⟨hr, ha, hm⟩ := EgressQueue.accounted_iff.mp h
  refine EgressQueue.accounted_iff.mpr ⟨hr, ha, ?_⟩
  simp only [withMaps, List.length_append]
  bv_omega

theorem addedTo_accounted {c : Cfg} {q : EgressQueue} {map : Nat} {p : Packet} (h : q.accounted = true)
    (hc : canAdd c q p = true) : (addedTo map p q).accounted = true := by
  have hf : 1 ≤ q.mapsFree.toNat := by
    simp only [canAdd, Bool.and_eq_true, decide_eq_true_eq] at hc
    exact hc.2
  have hw := withMaps_accounted (ms := [⟨map, p.handle⟩]) h hf
  rw [withMaps_one] at hw
  exact hw

theorem tookBack_accounted {q : EgressQueue} (h : q.accounted = true)
    (ho : (recordAt q q.cidx.toNat).descUsed.toNat ≤ occEq q)
    (hc : (recordAt q q.cidx.toNat).credits.toNat ≤ q.maps.length) : (tookBack q).accounted = true := by
  obtain ⟨hr, ha, hm⟩ := EgressQueue.accounted_iff.mp h
  have hocc := occEq_tookBack hr ho
  have hlt := occEq_lt hr
  refine EgressQueue.accounted_iff.mpr ⟨tookBack_inRange hr, ?_, ?_⟩
  · rw [hocc]
    show (q.avail + (recordAt q q.cidx.toNat).descUsed).toNat = q.cap.toNat - 1 - _
    bv_omega
  · simp only [tookBack, setRecord, List.length_drop]
    bv_omega

theorem EqMove.accounted {c : Cfg} {q q' : EgressQueue} (h : EqMove c q q') (ha : q.accounted = true) :
    q'.accounted = true := by
  cases h with
  | plain | opened | emptied => exact ha
  | added map ho hc => exact addedTo_accounted ha hc
  | flushed ho hn hle => exact commitRecord_accounted (q := closed q) ha hle
  | placed ho hn hle hf => exact commitRecord_accounted (withMaps_accounted ha hf) hle
  | tookBack hd ho hc => exact tookBack_accounted ha (ho (EgressQueue.accounted_iff.mp ha).1) hc

/-! ## The accumulator -/

/-- The accumulator of a queue is within its bounds and at its place. -/
def EgressQueue.bounded (c : Cfg) (q : EgressQueue) : Prop :=
  q.txpkts.isOpen = true →
    q.txpkts.start = q.pidx ∧ q.txpkts.npkt.toNat ≤ c.txpktsMaxPkts ∧ q.txpkts.flits.toNat ≤ max 2 c.wrMaxFlits ∧
      q.txpkts.plen.toNat < 2 ^ c.txpktsLenBits

/-- The limits that the accumulator's registers can hold. -/
def RegistersHold (c : Cfg) : Prop := c.txpktsMaxPkts < 256 ∧ c.wrMaxFlits < 65536 ∧ c.txpktsLenBits ≤ 32

/-- A packet added makes no register of the accumulator wrap (44_coalescing R352, R354). -/
theorem addedTo_txpkts {c : Cfg} {q : EgressQueue} {map : Nat} {p : Packet} (hl : RegistersHold c)
    (ho : q.txpkts.isOpen = true) (hc : canAdd c q p = true) :
    (addedTo map p q).txpkts.npkt.toNat = q.txpkts.npkt.toNat + 1 ∧
      (addedTo map p q).txpkts.flits.toNat = q.txpkts.flits.toNat + recFlits p ∧
      (addedTo map p q).txpkts.plen.toNat = q.txpkts.plen.toNat + p.len.toNat ∧
      q.txpkts.npkt.toNat < c.txpktsMaxPkts ∧ q.txpkts.flits.toNat + recFlits p ≤ c.wrMaxFlits ∧
      q.txpkts.plen.toNat + p.len.toNat < 2 ^ c.txpktsLenBits := by
  obtain ⟨hp, hf, hb⟩ := hl
  simp only [canAdd, accOrClosed, ho, if_true, Bool.and_eq_true, decide_eq_true_eq] at hc
  obtain ⟨⟨⟨⟨h1, h2⟩, h3⟩, _⟩, _⟩ := hc
  have h32 : 2 ^ c.txpktsLenBits ≤ 2 ^ 32 := Nat.pow_le_pow_right (by decide) hb
  have hone : (1 : BitVec 8).toNat = 1 := rfl
  refine ⟨?_, ?_, ?_, h1, h2, h3⟩ <;> simp only [addedTo, takeMap, BitVec.toNat_add, BitVec.toNat_ofNat, hone] <;> omega

theorem EqMove.bounded {c : Cfg} {q q' : EgressQueue} (hl : RegistersHold c) (h : EqMove c q q') (hb : q.bounded c) :
    q'.bounded c := by
  cases h with
  | plain | tookBack => exact hb
  | emptied | flushed => exact fun ho => nomatch ho
  | placed ho => exact fun ho' => absurd (ho.symm.trans ho') (by decide)
  | opened => exact fun _ => ⟨rfl, Nat.zero_le _, Nat.le_max_left _ _, Nat.pow_pos (by decide)⟩
  | added map ho hc =>
    obtain ⟨h1, h2, h3, h4, h5, h6⟩ := addedTo_txpkts (map := map) hl ho hc
    exact fun _ => ⟨(hb ho).1, by omega, by omega, by omega⟩

/-! ## The walk over the slot records -/

section
variable {q q' : EgressQueue}

theorem walkCredits_zero (q : EgressQueue) (fuel : Nat) (i : BitVec 16) : walkCredits q fuel 0 i = some 0 := by
  cases fuel <;> rfl

theorem walkCredits_succ (q : EgressQueue) (fuel left : Nat) (i : BitVec 16) : walkCredits q (fuel + 1) (left + 1) i =
    if (recordAt q i.toNat).descUsed = 0 ∨ left + 1 < (recordAt q i.toNat).descUsed.toNat then none
    else (walkCredits q fuel (left + 1 - (recordAt q i.toNat).descUsed.toNat)
      (addTo i q.cap (recordAt q i.toNat).descUsed.toNat)).map (· + (recordAt q i.toNat).credits.toNat) := rfl

/-- A walk looks at the slot records and the capacity only. -/
theorem walkCredits_congr (hs : q'.sdesc = q.sdesc) (hc : q'.cap = q.cap) (fuel left : Nat) (i : BitVec 16) :
    walkCredits q' fuel left i = walkCredits q fuel left i := by
  induction fuel generalizing left i with
  | zero => cases left <;> rfl
  | succ fuel ih =>
    cases left with
    | zero => rfl
    | succ left =>
      have hr : recordAt q' i.toNat = recordAt q i.toNat := by simp only [recordAt, hs]
      simp only [walkCredits_succ, hr, hc, ih]

/-- Each record has a descriptor, so that more fuel than descriptors makes no difference. -/
theorem walkCredits_fuel {f1 f2 left : Nat} {i : BitVec 16} (h1 : left ≤ f1) (h2 : left ≤ f2) :
    walkCredits q f1 left i = walkCredits q f2 left i := by
  induction f1 generalizing f2 left i with
  | zero => obtain rfl : left = 0 := by omega
            simp [walkCredits_zero]
  | succ f1 ih =>
    cases left with
    | zero => simp [walkCredits_zero]
    | succ left =>
      cases f2 with
      | zero => omega
      | succ f2 =>
        simp only [walkCredits_succ]
        split
        · rfl
        · rename_i hd
          have : (recordAt q i.toNat).descUsed.toNat ≠ 0 := fun h => hd (.inl (BitVec.eq_of_toNat_eq h))
          rw [ih (f2 := f2) (by omega) (by omega)]

/-- The first record of a walk. -/
theorem walkCredits_head {left n : Nat} {i : BitVec 16} (hd : (recordAt q i.toNat).descUsed ≠ 0)
    (hle : (recordAt q i.toNat).descUsed.toNat ≤ left) (h : walkCredits q left left i = some n) :
    ∃ m, walkCredits q (left - (recordAt q i.toNat).descUsed.toNat) (left - (recordAt q i.toNat).descUsed.toNat)
        (addTo i q.cap (recordAt q i.toNat).descUsed.toNat) = some m ∧ n = m + (recordAt q i.toNat).credits.toNat := by
  have hpos : (recordAt q i.toNat).descUsed.toNat ≠ 0 := fun h => hd (BitVec.eq_of_toNat_eq h)
  cases left with
  | zero => omega
  | succ left =>
    rw [walkCredits_succ] at h
    rw [if_neg (not_or.mpr ⟨hd, Nat.not_lt.mpr hle⟩)] at h
    obtain ⟨m, hm, rfl⟩ := Option.map_eq_some_iff.mp h
    exact ⟨m, by rw [← hm]; exact walkCredits_fuel (Nat.le_refl _) (by omega), rfl⟩

/-- A walk from index `i` to `pidx` does not see a record further than `i` from `pidx`. -/
theorem walkCredits_set_other {p k : BitVec 16} {r : EgressSlot} (hp : p < q.cap) (hcap : q'.cap = q.cap)
    (hs : q'.sdesc = q.sdesc.set k.toNat r) {fuel left : Nat} {i : BitVec 16} (hi : i < q.cap)
    (hd : distOf i p q.cap = left) (hk : left < distOf k p q.cap) : walkCredits q' fuel left i = walkCredits q fuel left i := by
  induction fuel generalizing left i with
  | zero => cases left <;> rfl
  | succ fuel ih =>
    cases left with
    | zero => rfl
    | succ left =>
      have hne : k.toNat ≠ i.toNat := fun h => by rw [BitVec.eq_of_toNat_eq h] at hk; omega
      have hrec : recordAt q' i.toNat = recordAt q i.toNat := by
        simp only [recordAt, hs, List.getD, List.getElem?_set_ne hne]
      simp only [walkCredits_succ, hrec, hcap]
      split
      · rfl
      · rename_i hdu
        have hle : (recordAt q i.toNat).descUsed.toNat ≤ distOf i p q.cap := by omega
        have hnext := distOf_addTo_left hi hp hle
        have hpos : 0 < q.cap.toNat := by have : i.toNat < q.cap.toNat := hi; omega
        rw [ih (addTo_lt _ hpos) (by omega) (by omega)]

/-- A record written where a walk ends makes the walk longer by its descriptors and its credits. -/
theorem walkCredits_append {p : BitVec 16} {r : EgressSlot} (hp : p < q.cap) (hcap : q'.cap = q.cap)
    (hl : q.sdesc.length = q.cap.toNat) (hs : q'.sdesc = q.sdesc.set p.toNat r) (hr : r.descUsed.toNat ≠ 0)
    {fuel fuel' left n : Nat} {i : BitVec 16} (hi : i < q.cap) (hd : distOf i p q.cap = left)
    (hf : left + r.descUsed.toNat ≤ fuel') (h : walkCredits q fuel left i = some n) :
    walkCredits q' fuel' (left + r.descUsed.toNat) i = some (n + r.credits.toNat) := by
  induction fuel' generalizing fuel left n i with
  | zero => omega
  | succ fuel' ih =>
    cases left with
    | zero =>
      obtain rfl : i = p := (distOf_eq_zero hi hp).mp hd
      have hrec : recordAt q' i.toNat = r := by
        have : i.toNat < q.sdesc.length := by rw [hl]; exact hi
        simp [recordAt, hs, List.getD, this]
      obtain ⟨k, hk⟩ := Nat.exists_eq_succ_of_ne_zero hr
      have hdu : r.descUsed ≠ 0 := fun h => hr (by rw [h]; rfl)
      rw [walkCredits_zero] at h
      cases h
      simp only [Nat.zero_add, hk, Nat.succ_eq_add_one, walkCredits_succ, hrec]
      rw [if_neg (not_or.mpr ⟨hdu, by omega⟩), Nat.sub_self, walkCredits_zero]
      simp
    | succ left =>
      cases fuel with
      | zero => simp [walkCredits] at h
      | succ fuel =>
        have hne : p.toNat ≠ i.toNat := fun h => by
          rw [BitVec.eq_of_toNat_eq h, (distOf_eq_zero hi hi).mpr rfl] at hd; omega
        have hrec : recordAt q' i.toNat = recordAt q i.toNat := by
          simp only [recordAt, hs, List.getD, List.getElem?_set_ne hne]
        rw [walkCredits_succ] at h
        split at h
        · simp at h
        · rename_i hdu
          obtain ⟨m, hm, rfl⟩ := Option.map_eq_some_iff.mp h
          have hne0 : (recordAt q i.toNat).descUsed.toNat ≠ 0 := fun h => hdu (.inl (BitVec.eq_of_toNat_eq h))
          have hle : (recordAt q i.toNat).descUsed.toNat ≤ distOf i p q.cap := by omega
          have hnext := distOf_addTo_left hi hp hle
          have hpos : 0 < q.cap.toNat := by have : i.toNat < q.cap.toNat := hi; omega
          have hrest := ih (addTo_lt _ hpos) (by omega) (by omega) hm
          rw [show left + 1 + r.descUsed.toNat = left + r.descUsed.toNat + 1 by omega]
          simp only [walkCredits_succ, hrec, hcap]
          rw [if_neg (not_or.mpr ⟨fun h => hdu (.inl h), by omega⟩),
            show left + r.descUsed.toNat + 1 - (recordAt q i.toNat).descUsed.toNat =
              left + 1 - (recordAt q i.toNat).descUsed.toNat + r.descUsed.toNat by omega, hrest]
          simp only [Option.map_some, Option.some.injEq]
          omega

/-- The packets of an open accumulator, whose maps no slot record counts yet. -/
def heldBack (q : EgressQueue) : Nat := if q.txpkts.isOpen then q.txpkts.npkt.toNat else 0

theorem EgressQueue.walked_iff : q.walked = true ↔
    walkCredits q (occEq q) (occEq q) q.cidx = some (q.maps.length - heldBack q) ∧
      (q.txpkts.isOpen = true → q.txpkts.npkt.toNat ≤ q.maps.length ∧ 2 ≤ q.txpkts.flits.toNat) := by
  unfold EgressQueue.walked heldBack
  cases q.txpkts.isOpen <;> simp

/-- The walk of a queue after a commit. -/
theorem walkCredits_commitRecord {nd cr np n : Nat} (h : q.accounted = true) (hn : nd ≤ q.avail.toNat) (h1 : 1 ≤ nd)
    (hcr : cr < 65536) (hw : walkCredits q (occEq q) (occEq q) q.cidx = some n) :
    walkCredits (commitRecord q nd cr np) (occEq (commitRecord q nd cr np)) (occEq (commitRecord q nd cr np)) q.cidx =
      some (n + cr) := by
  obtain ⟨hp, hc, hl⟩ := EgressQueue.inRange_iff.mp (EgressQueue.accounted_iff.mp h).1
  have hnd : (BitVec.ofNat 16 nd).toNat = nd := ofNat16_toNat (by have := q.avail.isLt; omega)
  have happ := walkCredits_append (q' := commitRecord q nd cr np) hp rfl hl rfl (by simp only [hnd]; omega)
    (fuel' := occEq q + nd) hc rfl (by simp only [hnd]; exact Nat.le_refl _) hw
  simp only [hnd, ofNat16_toNat hcr] at happ
  rw [occEq_commitRecord h hn]
  exact happ

theorem commitRecord_walked {nd cr np n : Nat} (h : q.accounted = true) (ho : q.txpkts.isOpen = false)
    (hn : nd ≤ q.avail.toNat) (h1 : 1 ≤ nd) (hcr : cr < 65536)
    (hw : walkCredits q (occEq q) (occEq q) q.cidx = some n) (hm : n + cr = q.maps.length) :
    (commitRecord q nd cr np).walked = true := by
  have hclosed : (commitRecord q nd cr np).txpkts.isOpen = false := ho
  refine EgressQueue.walked_iff.mpr ⟨?_, fun h => absurd (hclosed.symm.trans h) (by decide)⟩
  have hwalk := walkCredits_commitRecord (np := np) h hn h1 hcr hw
  rw [hm] at hwalk
  rw [heldBack, hclosed]
  exact hwalk

theorem tookBack_walked (h : q.accounted = true) (hw : q.walked = true) (hd : (recordAt q q.cidx.toNat).descUsed ≠ 0)
    (ho : (recordAt q q.cidx.toNat).descUsed.toNat ≤ occEq q) : (tookBack q).walked = true := by
  have hr := (EgressQueue.accounted_iff.mp h).1
  obtain ⟨hp, hc, hl⟩ := EgressQueue.inRange_iff.mp hr
  obtain ⟨hwalk, hopen⟩ := EgressQueue.walked_iff.mp hw
  obtain ⟨m, hm, hsum⟩ := walkCredits_head hd ho hwalk
  have hne : (recordAt q q.cidx.toNat).descUsed.toNat ≠ 0 := fun h => hd (BitVec.eq_of_toNat_eq h)
  have hdist := distOf_addTo_left hc hp ho
  have hk : heldBack (tookBack q) = heldBack q := rfl
  have hml : (tookBack q).maps.length = q.maps.length - (recordAt q q.cidx.toNat).credits.toNat := List.length_drop
  refine EgressQueue.walked_iff.mpr ⟨?_, fun ho' => ?_⟩
  · rw [occEq_tookBack hr ho, hk, hml]
    have hset := walkCredits_set_other (q' := tookBack q) (k := q.cidx) (r := {}) hp rfl rfl
      (addTo_lt _ (EgressQueue.cap_pos hr)) hdist (by unfold occEq at ho; omega)
      (fuel := occEq q - (recordAt q q.cidx.toNat).descUsed.toNat)
    refine Eq.trans ?_ (hm.trans (congrArg some (by omega)))
    exact hset
  · have := hopen ho'
    have hb : heldBack q = q.txpkts.npkt.toNat := if_pos ho'
    exact ⟨by rw [hml]; show q.txpkts.npkt.toNat ≤ _; omega, this.2⟩

/-- The walk of a queue, from its consumer index to its producer index. -/
def walkSum (q : EgressQueue) : Option Nat := walkCredits q (occEq q) (occEq q) q.cidx

theorem walkSum_congr (hs : q'.sdesc = q.sdesc) (hc : q'.cap = q.cap) (ho : occEq q' = occEq q) (hi : q'.cidx = q.cidx) :
    walkSum q' = walkSum q := by
  unfold walkSum
  rw [ho, hi, walkCredits_congr hs hc]

/-- A queue whose walk is as it was, and whose maps but for those held back are as many as they were. -/
theorem EgressQueue.walked_of_eq (hw : walkSum q' = walkSum q) (hq : walkSum q = some (q'.maps.length - heldBack q'))
    (ho : q'.txpkts.isOpen = true → q'.txpkts.npkt.toNat ≤ q'.maps.length ∧ 2 ≤ q'.txpkts.flits.toNat) :
    q'.walked = true :=
  EgressQueue.walked_iff.mpr ⟨hw.trans hq, ho⟩

theorem EqMove.walked {c : Cfg} (hl : RegistersHold c) (h : EqMove c q q') (ha : q.accounted = true)
    (hw : q.walked = true) : q'.walked = true := by
  obtain ⟨hwalk, hopen⟩ := EgressQueue.walked_iff.mp hw
  cases h with
  | plain p st => exact EgressQueue.walked_of_eq (q := q) (walkSum_congr rfl rfl rfl rfl) hwalk hopen
  | opened ho =>
    have hb : heldBack q = 0 := by simp [heldBack, ho]
    rw [hb] at hwalk
    exact EgressQueue.walked_of_eq (q := q) (walkSum_congr rfl rfl rfl rfl) hwalk fun _ => ⟨Nat.zero_le _, Nat.le_refl _⟩
  | @added map p ho hc =>
    obtain ⟨h1, h2, _⟩ := addedTo_txpkts (map := map) hl ho hc
    obtain ⟨hle, hfl⟩ := hopen ho
    have hb : heldBack q = q.txpkts.npkt.toNat := if_pos ho
    have hb' : heldBack (addedTo map p q) = (addedTo map p q).txpkts.npkt.toNat := if_pos ho
    have hml : (addedTo map p q).maps.length = q.maps.length + 1 := List.length_append
    refine EgressQueue.walked_of_eq (q := q) (walkSum_congr rfl rfl rfl rfl) ?_ fun _ => ⟨by omega, by omega⟩
    rw [hb', hml, h1, Nat.add_sub_add_right, ← hb]
    exact hwalk
  | emptied hn =>
    have hb : heldBack q = 0 := by simp [heldBack, hn]
    rw [hb] at hwalk
    exact EgressQueue.walked_of_eq (q := q) (walkSum_congr rfl rfl rfl rfl) hwalk fun h => nomatch h
  | flushed ho hn hle =>
    obtain ⟨hnp, hfl⟩ := hopen ho
    have hb : heldBack q = q.txpkts.npkt.toNat := if_pos ho
    have := q.txpkts.npkt.isLt
    have hclosed : walkSum (closed q) = walkSum q := walkSum_congr rfl rfl rfl rfl
    exact commitRecord_walked (q := closed q) ha rfl hle (ceilDiv_pos (by omega) (by decide)) (by omega)
      (hclosed.trans hwalk) (by rw [hb]; show _ = q.maps.length; omega)
  | @placed ms nd np ho hn hle hf =>
    have hb : heldBack q = 0 := by simp [heldBack, ho]
    have := q.mapsFree.isLt
    have hwith : walkSum (withMaps ms q) = walkSum q := walkSum_congr rfl rfl rfl rfl
    exact commitRecord_walked (withMaps_accounted ha hf) ho hle hn (by omega) (hwith.trans hwalk)
      (by simp [withMaps, hb])
  | tookBack hd ho hc => exact tookBack_walked ha hw hd (ho (EgressQueue.accounted_iff.mp ha).1)

end

end Sys2Proof.Machine
end

section
/-! PROOFS. The moves of a free list with the arena and the held segments (10_state R25 to R31), and the operations on free
lists as runs of them. A frame that an operation is building counts as held from its first segment on. -/

namespace Sys2Proof.Machine

/-! ## Moves -/

/-- No buffer of this handle has a reference count. -/
def Uncounted (s : State) (h : Nat) : Prop :=
  (s.arena.map (·.handle)).Nodup → ∀ b ∈ s.arena, b.handle = h → b.hasMeta = false

/-- The moves of the arena and the held segments that leave the lists alone. -/
inductive StockMove : State → State → Prop
  /-- one more counted reference, to the segment that is then held -/
  | share {s : State} {b : Buffer} (off len : BitVec 32) (hb : b ∈ s.arena) :
      StockMove s ((s.addRef b 1).setHeld (s.held ++ [.shared b.handle off len]))
  | hold {s : State} {g : Segment} (hg : sharedHandles [g] = []) : StockMove s (s.setHeld (s.held ++ [g]))
  | free (s : State) (h : Nat) : StockMove s (s.zoneFree h)
  | recount {s : State} {b : Buffer} (hb : b ∈ s.arena) : StockMove s (s.setRefcount b.handle b.refcount)
  /-- a held segment's reference given back, not the last one -/
  | dropHeld {s : State} {b : Buffer} {l l' : List Segment} {g : Segment} (hs : s.held = l ++ g :: l')
      (hg : sharedHandles [g] = [b.handle]) (hb : b ∈ s.arena) (h0 : b.refcount ≠ 0) (h1 : b.refcount ≠ 1) :
      StockMove s ((s.addRef b (-1)).setHeld (l ++ l'))
  | forget {s : State} {l l' : List Segment} {g : Segment} (hs : s.held = l ++ g :: l')
      (hu : ∀ h ∈ sharedHandles [g], Uncounted s h) : StockMove s (s.setHeld (l ++ l'))

/-- The moves of a free list. `D` says that the list is one of a torn-down queue, of which nothing is saved. -/
inductive ListMove (D : Prop) : FreeList × State → FreeList × State → Prop
  /-- indices, doorbell counts and the payload cursor; each slot holds the buffer it held -/
  | plain {fl fl' : FreeList} {s : State}
      (h : fl' = { fl with
        pidx := fl'.pidx, cidx := fl'.cidx, pending := fl'.pending, dbGroups := fl'.dbGroups, rxOffset := fl'.rxOffset
        sdesc := fl'.sdesc })
      (hr : fl.inRange = true → fl'.inRange = true) (hb : fl'.sdesc.map (·.buf) = fl.sdesc.map (·.buf)) :
      ListMove D (fl, s) (fl', s)
  /-- a fresh buffer in the empty slot at the producer index -/
  | fill {fl : FreeList} {s : State} {b : Buffer} {e : Oracles} {sd : FreeListSlot} (hd : fl.doomed = false)
      (hn : (slotAt fl fl.pidx.toNat).buf = none) (hs : sd.buf = some b.handle) (hh : b.handle = s.env.nextBuf)
      (hc : b.hasMeta = true → b.refcount = 1) (he : e.nextBuf = s.env.nextBuf + 1) :
      ListMove D (fl, s) (setSlot fl fl.pidx.toNat sd, { s with arena := s.arena ++ [b], env := e })
  /-- a slot's reference given back, not the last one -/
  | giveUp {fl : FreeList} {s : State} {b : Buffer} {k : Nat} {sd : FreeListSlot} (hk : (slotAt fl k).buf = some b.handle)
      (hb : b ∈ s.arena) (h0 : b.refcount ≠ 0) (h1 : b.refcount ≠ 1) (hs : sd.buf = none) :
      ListMove D (fl, s) (setSlot fl k sd, s.addRef b (-1))
  | clear {fl : FreeList} {s : State} {k h : Nat} {sd : FreeListSlot} (hk : (slotAt fl k).buf = some h)
      (hu : Uncounted s h) (hs : sd.buf = none) : ListMove D (fl, s) (setSlot fl k sd, s)
  /-- the saved frame taken up again -/
  | unsave (fl : FreeList) (s : State) :
      ListMove D (fl, s) ({ fl with bufResume := false, resume := none }, s.setHeld (s.held ++ fl.saved))
  | save {fl : FreeList} {s : State} {l : List Segment} {g : LogicalFrame} (n : BitVec 32) (hs : s.held = l ++ g.segs)
      (hn : fl.saved = []) (hd : D → sharedHandles g.segs = []) :
      ListMove D (fl, s) ({ fl with resume := some ⟨g, n⟩, bufResume := true }, s.setHeld l)

/-- A move of a free list and the state around it. -/
inductive FlStep (D : Prop) : FreeList × State → FreeList × State → Prop
  | aside (fl : FreeList) {s t : State} (h : Aside s t) : FlStep D (fl, s) (fl, t)
  | stock (fl : FreeList) {s t : State} (h : StockMove s t) : FlStep D (fl, s) (fl, t)
  | list {a b : FreeList × State} (h : ListMove D a b) : FlStep D a b

/-- A run of moves. -/
abbrev FlSteps (D : Prop) : FreeList × State → FreeList × State → Prop := Relation.ReflTransGen (FlStep D)

theorem FlSteps.of_aside {D : Prop} (fl : FreeList) {s t : State} (h : Aside s t) : FlSteps D (fl, s) (fl, t) :=
  .single (.aside fl h)

theorem FlSteps.trans {D : Prop} {a b c : FreeList × State} (h : FlSteps D a b) (h' : FlSteps D b c) : FlSteps D a c :=
  Relation.ReflTransGen.trans h h'

theorem FlSteps.tail_aside {D : Prop} {a : FreeList × State} {fl : FreeList} {s t : State} (h : FlSteps D a (fl, s))
    (ha : Aside s t) : FlSteps D a (fl, t) := h.tail (.aside fl ha)

theorem FlSteps.of_stock {D : Prop} (fl : FreeList) {s t : State} (h : StockMove s t) : FlSteps D (fl, s) (fl, t) :=
  .single (.stock fl h)

theorem FlSteps.of_list {D : Prop} {a b : FreeList × State} (h : ListMove D a b) : FlSteps D a b := .single (.list h)

/-! ## Slots -/

section
variable {fl : FreeList}

theorem FreeList.inRange_iff : fl.inRange = true ↔ fl.pidx < fl.cap ∧ fl.cidx < fl.cap ∧ fl.sdesc.length = fl.cap.toNat := by
  simp [FreeList.inRange, and_assoc]

theorem FreeList.cap_pos (h : fl.inRange = true) : 0 < fl.cap.toNat :=
  Nat.lt_of_le_of_lt (Nat.zero_le _) (FreeList.inRange_iff.mp h).1

theorem setSlot_slotAt (fl : FreeList) (k : Nat) : setSlot fl k (slotAt fl k) = fl := by
  have h : fl.sdesc.set k (slotAt fl k) = fl.sdesc := by
    by_cases hk : k < fl.sdesc.length
    · rw [show slotAt fl k = fl.sdesc[k] by simp [slotAt, List.getD, hk]]
      exact List.set_getElem_self hk
    · exact List.set_eq_of_length_le (Nat.le_of_not_lt hk)
  rw [setSlot, h]

theorem setSlot_setSlot (fl : FreeList) (k : Nat) (a b : FreeListSlot) : setSlot (setSlot fl k a) k b = setSlot fl k b := by
  simp [setSlot]

theorem setSlot_inRange {k : Nat} {sd : FreeListSlot} : (setSlot fl k sd).inRange = fl.inRange := by
  exact Bool.eq_iff_iff.mpr (by simp [FreeList.inRange_iff, setSlot])

/-- A slot that holds a buffer is one of the list's. -/
theorem lt_of_slotAt_buf {k h : Nat} (hk : (slotAt fl k).buf = some h) : k < fl.sdesc.length := by
  by_contra hc
  simp [slotAt, List.getD, List.getElem?_eq_none (Nat.le_of_not_lt hc)] at hk

theorem slotAt_eq {k : Nat} (hk : k < fl.sdesc.length) : slotAt fl k = fl.sdesc[k] := by simp [slotAt, List.getD, hk]

theorem mem_buffers_of_slotAt {k h : Nat} (hk : (slotAt fl k).buf = some h) : h ∈ fl.buffers := by
  have hlt := lt_of_slotAt_buf hk
  rw [slotAt_eq hlt] at hk
  exact List.mem_filterMap.mpr ⟨_, List.getElem_mem hlt, hk⟩

/-- A slot record written that holds the buffer the slot held. -/
theorem setSlot_bufs {k : Nat} {sd : FreeListSlot} (h : sd.buf = (slotAt fl k).buf) :
    (setSlot fl k sd).sdesc.map (·.buf) = fl.sdesc.map (·.buf) := by
  simp only [setSlot, List.map_set, h]
  by_cases hk : k < fl.sdesc.length
  · rw [slotAt_eq hk]
    have hk' : k < (fl.sdesc.map (·.buf)).length := by simpa using hk
    rw [show fl.sdesc[k].buf = (fl.sdesc.map (·.buf))[k] by simp]
    exact List.set_getElem_self hk'
  · exact List.set_eq_of_length_le (by simpa using hk)

theorem FlSteps.setSlot {D : Prop} {s : State} {k : Nat} {sd : FreeListSlot} (h : sd.buf = (slotAt fl k).buf) :
    FlSteps D (fl, s) (Machine.setSlot fl k sd, s) :=
  .of_list (.plain rfl (fun hr => by rw [setSlot_inRange]; exact hr) (setSlot_bufs h))

end

theorem bufferOf_some {s : State} {h : Nat} {b : Buffer} (hb : s.bufferOf h = some b) : b ∈ s.arena ∧ b.handle = h :=
  ⟨List.mem_of_find?_eq_some hb, by simpa using List.find?_some hb⟩

/-- The buffer of a handle is the only one, if handles name one buffer each. -/
theorem eq_of_bufferOf {s : State} {h : Nat} {b c : Buffer} (hn : (s.arena.map (·.handle)).Nodup)
    (hb : s.bufferOf h = some b) (hc : c ∈ s.arena) (hh : c.handle = h) : c = b := by
  obtain ⟨hm, hbh⟩ := bufferOf_some hb
  exact List.inj_on_of_nodup_map hn hc hm (hh.trans hbh.symm)

theorem uncounted_of_bufferOf {s : State} {h : Nat} {b : Buffer} (hb : s.bufferOf h = some b) (hm : b.hasMeta = false) :
    Uncounted s h := fun hn c hc hh => by rw [eq_of_bufferOf hn hb hc hh]; exact hm

theorem uncounted_zoneFree (s : State) (h : Nat) : Uncounted (s.zoneFree h) h := by
  intro _ b hb hh
  simp [State.zoneFree, State.setArena, hh] at hb

/-! ## Posting -/

section
variable {D : Prop} {fl fl' : FreeList} {s t : State}

theorem notifyFl_steps (h : notifyFl fl s = .ok (fl', t)) : FlSteps D (fl, s) (fl', t) := by
  obtain ⟨_, ⟨g, rfl⟩, hs⟩ := notifyFl_ok h
  exact FlSteps.tail_aside (.of_list (.plain rfl id rfl)) (.of_mmio hs)

/-- One `ZoneAlloc`: no buffer, or a fresh one whose count is 1 where it has one. -/
theorem zoneAlloc_cases (s : State) (z : Nat) (m : Bool) :
    ((zoneAlloc s z m).1 = none ∧ Aside s (zoneAlloc s z m).2) ∨
      ∃ b e, (zoneAlloc s z m).1 = some b.handle ∧ b.handle = s.env.nextBuf ∧ (b.hasMeta = true → b.refcount = 1) ∧
        e.nextBuf = s.env.nextBuf + 1 ∧ (zoneAlloc s z m).2 = { s with arena := s.arena ++ [b], env := e } := by
  unfold zoneAlloc
  dsimp only
  split
  · split
    · refine .inr ⟨_, _, rfl, rfl, fun hm => ?_, rfl, rfl⟩
      simp only at hm ⊢
      rw [if_pos hm]
    · exact .inl ⟨rfl, .of_env rfl⟩
  · exact .inl ⟨rfl, .of_env rfl⟩

/-- `allocate_into` fills the empty slot at the producer index, or leaves it. -/
theorem allocateInto_steps (hd : fl.doomed = false) (hn : (slotAt fl fl.pidx.toNat).buf = none) :
    FlSteps D (fl, s)
      (setSlot fl fl.pidx.toNat ((allocateInto fl s).1.getD (slotAt fl fl.pidx.toNat)), (allocateInto fl s).2) := by
  have one : ∀ (l : ClusterLayout) (s : State),
      ((allocateFrom l s).1 = none ∧ Aside s (allocateFrom l s).2) ∨
        ∃ sd, (allocateFrom l s).1 = some sd ∧
          FlSteps D (fl, s) (setSlot fl fl.pidx.toNat sd, (allocateFrom l s).2) := by
    intro l s
    rcases zoneAlloc_cases s l.zone (hasMeta s.cfg l) with ⟨h1, h2⟩ | ⟨b, e, h1, hh, hc, he, h2⟩
    · exact .inl ⟨by simp [allocateFrom, h1], h2⟩
    · refine .inr ⟨{ buf := some b.handle, layout := l, nmbuf := 0 }, by simp [allocateFrom, h1], ?_⟩
      rw [show (allocateFrom l s).2 = _ from h2]
      exact .of_list (.fill hd hn rfl hh hc he)
  unfold allocateInto
  dsimp only
  rcases one fl.cllDef s with ⟨h1, ha⟩ | ⟨sd, h1, hs⟩
  · rw [h1]
    cases fl.cllSafe with
    | none =>
      rw [Option.getD_none, setSlot_slotAt]
      exact .of_aside fl ha
    | some l =>
      dsimp only
      rcases one l (allocateFrom fl.cllDef s).2 with ⟨h2, ha'⟩ | ⟨sd, h2, hs⟩
      · rw [h2, Option.getD_none, setSlot_slotAt]
        exact .of_aside fl (ha.trans ha')
      · rw [h2, Option.getD_some]
        exact (FlSteps.of_aside fl ha).trans hs
  · rw [h1]
    exact hs

/-- `try_recycle` of the slot at the producer index. -/
theorem tryRecycle_steps {h : Nat} {sd : FreeListSlot} {r : Bool} (hk : (slotAt fl fl.pidx.toNat).buf = some h)
    (ho : tryRecycle (slotAt fl fl.pidx.toNat) h s = .ok (sd, t, r)) :
    FlSteps D (fl, s) (setSlot fl fl.pidx.toNat sd, t) ∧ (r = false → sd.buf = none) := by
  unfold tryRecycle at ho
  split at ho
  · cases ho
    exact ⟨FlSteps.setSlot rfl, fun h => nomatch h⟩
  · split at ho
    · simp at ho
    · rename_i b hb
      obtain ⟨hm, hh⟩ := bufferOf_some hb
      split at ho
      · simp at ho
      · rename_i h0
        split at ho
        · rename_i h1
          cases ho
          have hset : s.setRefcount h 1 = s.setRefcount b.handle b.refcount := by rw [hh, h1]
          rw [hset]
          exact ⟨(FlSteps.of_stock fl (.recount hm)).trans (FlSteps.setSlot rfl), fun h => nomatch h⟩
        · rename_i h1
          cases ho
          exact ⟨.of_list (.giveUp (hh ▸ hk) hm h0 h1 rfl), fun _ => rfl⟩

/-- A slot readied for posting. -/
theorem readySlot_steps {r : Option FreeListSlot} {sd : FreeListSlot} (hd : fl.doomed = false)
    (h : readySlot fl s = .ok (r, sd, t)) : FlSteps D (fl, s) (setSlot fl fl.pidx.toNat sd, t) := by
  unfold readySlot at h
  dsimp only at h
  split at h
  · rename_i hb
    obtain ⟨⟨sd1, s1, reused⟩, h1, h⟩ := Res.bind_eq_ok.mp h
    obtain ⟨hs, hn⟩ := tryRecycle_steps (D := D) hb h1
    dsimp only at h
    split at h
    · cases h; exact hs
    · rename_i hr
      cases h
      have hn := hn (by simpa using hr)
      have hlt := lt_of_slotAt_buf hb
      have hslot : slotAt (setSlot fl fl.pidx.toNat sd1) fl.pidx.toNat = sd1 := by
        simp [slotAt, setSlot, List.getD, hlt]
      have ha := allocateInto_steps (D := D) (fl := setSlot fl fl.pidx.toNat sd1) (s := s1) hd
        (by rw [show (setSlot fl fl.pidx.toNat sd1).pidx = fl.pidx from rfl, hslot]; exact hn)
      rw [show (setSlot fl fl.pidx.toNat sd1).pidx = fl.pidx from rfl, hslot, setSlot_setSlot] at ha
      exact hs.trans ha
  · rename_i hn
    cases h
    exact allocateInto_steps hd hn

theorem countPost_steps (h : countPost fl s = .ok (fl', t)) : FlSteps D (fl, s) (fl', t) := by
  obtain ⟨⟨p, g, rfl⟩, hs⟩ := countPost_ok h
  refine FlSteps.tail_aside (.of_list (.plain rfl (fun hr => ?_) rfl)) (.of_mmio hs)
  obtain ⟨_, hc, hl⟩ := FreeList.inRange_iff.mp hr
  exact FreeList.inRange_iff.mpr ⟨addTo_lt 1 (FreeList.cap_pos hr), hc, hl⟩

theorem refillLoop_steps {n p p' : Nat} (hd : fl.doomed = false) (h : refillLoop n fl s p = .ok (fl', t, p')) :
    FlSteps D (fl, s) (fl', t) := by
  induction n generalizing fl s p with
  | zero => cases h; exact .refl
  | succ n ih =>
    unfold refillLoop at h
    split at h
    · cases h; exact .refl
    · obtain ⟨⟨r, sd, s1⟩, h1, h⟩ := Res.bind_eq_ok.mp h
      have hs := readySlot_steps (D := D) hd h1
      dsimp only at h
      split at h
      · cases h
        exact hs.tail_aside (.raise _ _)
      · obtain ⟨s2, h2, h⟩ := Res.bind_eq_ok.mp h
        obtain ⟨⟨fl3, s3⟩, h3, h⟩ := Res.bind_eq_ok.mp h
        have hp := hs.tail_aside (.of_ring (postEntry_ok h2))
        obtain ⟨⟨_, _, rfl⟩, _⟩ := countPost_ok h3
        exact (hp.trans (countPost_steps h3)).trans (ih hd h)

/-- REFILL that completes is a run of moves of a list that is not doomed. -/
theorem refill_steps {n p : Nat} {st : Bool} (h : refill n fl s = .ok (fl', t, p, st)) :
    FlSteps D (fl, s) (fl', t) ∧ fl'.doomed = false ∧ (st = true → fl'.starving = false) := by
  obtain ⟨hd, _, hst, ⟨x, g, sd, hfl, _⟩, _⟩ := refill_ok h
  refine ⟨?_, by rw [hfl]; exact hd, fun h => ?_⟩
  · unfold refill at h
    rw [if_neg (by simp [hd])] at h
    obtain ⟨⟨fl1, s1, p1⟩, h1, h⟩ := Res.bind_eq_ok.mp h
    obtain ⟨⟨fl2, s2⟩, h2, h⟩ := Res.bind_eq_ok.mp h
    cases h
    exact (refillLoop_steps hd h1).trans (notifyFl_steps h2)
  · rw [hst, Machine.starvingIndicator, Bool.and_eq_true, Bool.not_eq_true'] at h
    exact h.2

/-! ## Frames -/

/-- Nothing is in the list of a torn-down queue (47_system R433). -/
def FreeList.quiet (fl : FreeList) : Prop := fl.doomed = true ∧ fl.buffers = [] ∧ sharedHandles fl.saved = []

theorem sharedHandles_append (a b : List Segment) : sharedHandles (a ++ b) = sharedHandles a ++ sharedHandles b :=
  List.filterMap_append

/-- What one segment taken leaves: nothing new held, or the segment held and its slot's record written. -/
def SegmentTaken (D : Prop) (fl : FreeList) (k : Nat) (H : List Segment) (s t : State) :
    Option (Segment × FreeListSlot) → Prop
  | none => Aside s t
  | some (seg, sd) => FlSteps D (fl, s.setHeld H) (setSlot fl k sd, t.setHeld (H ++ [seg]))

/-- One segment: its reference is counted, or it has none, and it is held from then on. -/
theorem consumeSegment_steps {k off len : Nat} {r : Option (Segment × FreeListSlot)} (H : List Segment)
    (h : consumeSegment (slotAt fl k) off len s = .ok (r, t)) : t.held = s.held ∧ fl.buffers ≠ [] ∧ SegmentTaken D fl k H s t r := by
  unfold consumeSegment at h
  split at h
  · simp at h
  · rename_i b hb
    obtain ⟨h', hk, hb⟩ := Option.bind_eq_some_iff.mp hb
    obtain ⟨hm, hh⟩ := bufferOf_some hb
    have hne : fl.buffers ≠ [] := List.ne_nil_of_mem (mem_buffers_of_slotAt hk)
    dsimp only at h
    split at h
    · obtain ⟨bs, _, h⟩ := Res.bind_eq_ok.mp h
      have ha : Aside s (heapAlloc s bs).2 := by
        unfold heapAlloc
        dsimp only
        split
        · exact (Aside.setHeap _ _).trans (.of_env rfl)
        · exact .of_env rfl
      have haH : Aside (s.setHeld H) ((heapAlloc s bs).2.setHeld H) :=
        ⟨ha.cfg, ha.iq, ha.eq, ha.arena, ha.starving, ha.worklist, ha.panic, rfl, ha.port, ha.nextBuf, ha.out, ha.mmio, ha.ring,
          ha.buf⟩
      cases h
      refine ⟨ha.held, hne, ?_⟩
      cases (heapAlloc s bs).1 with
      | none => exact ha
      | some x =>
        show FlSteps D _ (setSlot fl k (slotAt fl k), _)
        rw [setSlot_slotAt]
        exact (FlSteps.of_aside fl haH).trans (.of_stock fl (.hold rfl))
    · split at h
      · cases h
        have hshare : FlSteps D (fl, s.setHeld H) (fl, ((s.addRef b 1).setHeld (H ++ [.shared b.handle
            (BitVec.ofNat 32 ((slotAt fl k).layout.payloadOff.toNat + off)) (BitVec.ofNat 32 len)]))) :=
          .of_stock fl (.share (s := s.setHeld H) _ _ hm)
        exact ⟨rfl, hne, hshare.trans (FlSteps.setSlot rfl)⟩
      · rename_i hmeta
        cases h
        have hu : Uncounted s h' := uncounted_of_bufferOf hb (by simpa using hmeta)
        have hclear : FlSteps D (fl, s.setHeld H) (setSlot fl k { slotAt fl k with buf := none }, s.setHeld H) :=
          .of_list (.clear hk hu rfl)
        exact ⟨rfl, hne, hclear.trans (.of_stock _ (.hold rfl))⟩

theorem moveCursor_steps {c : Cfg} {len hs : Nat} (h : moveCursor c fl len hs = .ok fl') : FlSteps D (fl, s) (fl', s) := by
  obtain ⟨x, o, rfl, hx⟩ := moveCursor_ok h
  refine .of_list (.plain rfl (fun hr => ?_) rfl)
  obtain ⟨hp, hc, hl⟩ := FreeList.inRange_iff.mp hr
  refine FreeList.inRange_iff.mpr ⟨hp, ?_, hl⟩
  rcases hx with rfl | rfl
  · exact hc
  · exact addTo_lt 1 (FreeList.cap_pos hr)

/-- The list and the state at the end of CONSUME_FRAME, with the segments of a completed frame held. -/
def consumedTo (H : List Segment) (r : Option LogicalFrame) (fl : FreeList) (t : State) : FreeList × State :=
  match r with
  | some g => (fl, t.setHeld (H ++ g.segs))
  | none => (fl, t)

theorem saveFrame_steps {rem : Nat} {f : LogicalFrame} {H : List Segment} (hs : s.held = H) (ht : Aside s t)
    (hn : fl.saved = []) (hd : D → sharedHandles f.segs = []) :
    FlSteps D (fl, s.setHeld (H ++ f.segs)) (saveFrame fl f rem, t.raise .noresourceBuf) := by
  have ha : Aside s (t.raise .noresourceBuf) := ht.trans (.raise _ _)
  refine FlSteps.tail_aside (.of_list (.save (BitVec.ofNat 32 rem) rfl hn hd)) ?_
  subst hs
  exact ha

theorem consumeLoop_steps {fuel rem : Nat} {f : LogicalFrame} {r : Option LogicalFrame} {H : List Segment}
    (h : consumeLoop fuel rem fl s f = .ok (r, fl', t)) (hs : s.held = H) (hn : fl.saved = [])
    (hd : D → fl.buffers = [] ∧ sharedHandles f.segs = []) :
    t.held = H ∧ FlSteps D (fl, s.setHeld (H ++ f.segs)) (consumedTo H r fl' t) := by
  induction fuel generalizing rem fl s f with
  | zero => cases h; exact ⟨hs, .refl⟩
  | succ fuel ih =>
    unfold consumeLoop at h
    split at h
    · cases h; exact ⟨hs, .refl⟩
    · split at h
      · cases h
        exact ⟨hs, saveFrame_steps hs (.refl s) hn fun d => (hd d).2⟩
      · dsimp only at h
        split at h
        · simp at h
        · obtain ⟨⟨r1, s1⟩, h1, h⟩ := Res.bind_eq_ok.mp h
          obtain ⟨hheld, hne, hseg⟩ := consumeSegment_steps (D := D) (H ++ f.segs) h1
          have hD : ¬ D := fun d => hne (hd d).1
          dsimp only at h
          split at h
          · cases h
            exact ⟨hheld.trans hs, saveFrame_steps hs hseg hn fun d => absurd d hD⟩
          · rename_i seg sd
            obtain ⟨fl2, h2, h⟩ := Res.bind_eq_ok.mp h
            obtain ⟨x, o, rfl, _⟩ := moveCursor_ok h2
            obtain ⟨ht, hloop⟩ := ih h (hheld.trans hs) hn fun d => absurd d hD
            refine ⟨ht, (hseg.trans (moveCursor_steps h2)).trans ?_⟩
            rw [List.append_assoc]
            exact hloop

/-- CONSUME_FRAME that completes or saves its frame is a run of moves. -/
theorem consumeFrame_steps {total : Nat} {nb : Bool} {r : Option LogicalFrame} (hd : D → fl.quiet)
    (h : consumeFrame fl total nb s = .ok (r, fl', t)) :
    t.held = s.held ∧ FlSteps D (fl, s) (consumedTo s.held r fl' t) := by
  unfold consumeFrame at h
  split at h
  · rename_i rec hb hr
    have hsaved : fl.saved = rec.frame.segs := by simp [FreeList.saved, hb, hr]
    obtain ⟨ht, hloop⟩ := consumeLoop_steps (D := D) h rfl rfl fun d => ⟨(hd d).2.1, hsaved ▸ (hd d).2.2⟩
    refine ⟨ht, Relation.ReflTransGen.head (.list (.unsave fl s)) ?_⟩
    rw [hsaved]
    exact hloop
  · rename_i hno
    obtain ⟨fl1, h1, h⟩ := Res.bind_eq_ok.mp h
    have hsaved : fl.saved = [] := by
      unfold FreeList.saved
      split
      · rename_i rec hb hr
        exact absurd hr (hno rec hb)
      · rfl
    have hs1 : FlSteps D (fl, s) (fl1, s) ∧ fl1.saved = [] ∧ fl1.buffers = fl.buffers := by
      unfold startFrame at h1
      split at h1
      · obtain ⟨_, rfl⟩ := advanceSlot_ok h1
        refine ⟨.of_list (.plain rfl (fun hr => ?_) rfl), hsaved, rfl⟩
        obtain ⟨hp, _, hl⟩ := FreeList.inRange_iff.mp hr
        exact FreeList.inRange_iff.mpr ⟨hp, addTo_lt 1 (FreeList.cap_pos hr), hl⟩
      · cases h1
        exact ⟨.refl, hsaved, rfl⟩
    obtain ⟨hstart, hn, hbuf⟩ := hs1
    obtain ⟨ht, hloop⟩ := consumeLoop_steps (D := D) h rfl hn fun d => ⟨hbuf ▸ (hd d).2.1, rfl⟩
    refine ⟨ht, hstart.trans ?_⟩
    have hnil : s.setHeld (s.held ++ ({} : LogicalFrame).segs) = s := by simp [State.setHeld]
    rw [hnil] at hloop
    exact hloop

/-! ## Releases -/

/-- Moves that leave every list alone. -/
inductive PlainStep : State → State → Prop
  | aside {s t : State} (h : Aside s t) : PlainStep s t
  | stock {s t : State} (h : StockMove s t) : PlainStep s t

abbrev PlainSteps : State → State → Prop := Relation.ReflTransGen PlainStep

theorem PlainSteps.of_stock (h : StockMove s t) : PlainSteps s t := .single (.stock h)

theorem PlainSteps.trans {u : State} (h : PlainSteps s t) (h' : PlainSteps t u) : PlainSteps s u :=
  Relation.ReflTransGen.trans h h'

theorem PlainSteps.flSteps (fl : FreeList) (h : PlainSteps s t) : FlSteps D (fl, s) (fl, t) := by
  induction h with
  | refl => exact .refl
  | tail _ h ih =>
    cases h with
    | aside h => exact ih.tail (.aside fl h)
    | stock h => exact ih.tail (.stock fl h)

/-- A held segment released. -/
theorem releaseSegment_steps {l l' : List Segment} {g : Segment} (h : releaseSegment s g = .ok t) :
    PlainSteps (s.setHeld (l ++ g :: l')) (t.setHeld (l ++ l')) := by
  cases g with
  | copy x n =>
    simp only [releaseSegment] at h
    split at h
    · cases h
      exact (PlainSteps.of_stock (.forget (g := .copy x n) rfl fun h hh => nomatch hh)).tail (.aside (.setHeap _ _))
    · simp at h
  | owned x o n =>
    simp only [releaseSegment] at h
    split at h
    · cases h
      exact (PlainSteps.of_stock (.free _ x)).trans (.of_stock (.forget rfl fun h hh => nomatch hh))
    · simp at h
  | shared x o n =>
    simp only [releaseSegment] at h
    split at h
    · rename_i b hb
      obtain ⟨hm, hh⟩ := bufferOf_some hb
      obtain ⟨h0, ⟨h1, rfl⟩ | ⟨h1, rfl⟩⟩ := dropRef_ok h
      · refine (PlainSteps.of_stock (.free _ b.handle)).trans (.of_stock (.forget rfl fun y hy => ?_))
        obtain rfl : y = x := by simpa [sharedHandles] using hy
        rw [← hh]
        exact uncounted_zoneFree _ _
      · exact .of_stock (.dropHeld (s := s.setHeld _) rfl (by simp [sharedHandles, hh]) hm h0 h1)
    · simp at h

/-- The held segments of a frame released by the QE itself. -/
theorem releaseAll_steps {l gs : List Segment} (h : releaseAll s gs = .ok t) :
    PlainSteps (s.setHeld (l ++ gs)) (t.setHeld l) := by
  induction gs generalizing s with
  | nil => cases h; rw [List.append_nil]
  | cons g gs ih =>
    obtain ⟨u, h1, h⟩ := Res.bind_eq_ok.mp h
    have ha : Aside (u.setHeld (l ++ gs)) ((u.setGiven (u.given ++ [g])).setHeld (l ++ gs)) := .of_rest
    exact ((releaseSegment_steps h1).tail (.aside ha)).trans (ih h)

/-! ## Teardown -/

theorem dropResume_steps (h : dropResume fl s = .ok (fl', t)) :
    FlSteps D (fl, s) (fl', t) ∧ fl' = { fl with bufResume := false, resume := none } := by
  unfold dropResume at h
  split at h
  · rename_i rec hb hr
    obtain ⟨u, h1, h⟩ := Res.bind_eq_ok.mp h
    cases h
    have hsaved : fl.saved = rec.frame.segs := by simp [FreeList.saved, hb, hr]
    obtain ⟨a, hp, hu⟩ := releaseAll_ok h1
    refine ⟨Relation.ReflTransGen.head (.list (.unsave fl s)) ?_, rfl⟩
    rw [hsaved]
    have hrel := (releaseAll_steps (l := s.held) h1).flSteps (D := D) { fl with bufResume := false, resume := none }
    rwa [show t.setHeld s.held = t by rw [hu]; rfl] at hrel
  · rename_i hno
    cases h
    have hsaved : fl.saved = [] := by
      unfold FreeList.saved
      split
      · rename_i rec hb hr
        exact absurd hr (hno rec hb)
      · rfl
    have hm : ListMove D (fl, s) _ := .unsave fl s
    rw [hsaved, List.append_nil] at hm
    exact ⟨.of_list hm, rfl⟩

/-- The slots given up one by one; none holds a buffer then. -/
theorem dropSlots_steps {done sds sds' : List FreeListSlot} (h : dropSlots sds s = .ok (sds', t)) :
    FlSteps D ({ fl with sdesc := done ++ sds }, s) ({ fl with sdesc := done ++ sds' }, t) ∧
      ∀ sd ∈ sds', sd.buf = none := by
  induction sds generalizing s sds' done with
  | nil => cases h; exact ⟨.refl, fun _ h => nomatch h⟩
  | cons sd rest ih =>
    unfold dropSlots at h
    obtain ⟨⟨sd1, s1⟩, h1, h⟩ := Res.bind_eq_ok.mp h
    obtain ⟨⟨rest', s2⟩, h2, h⟩ := Res.bind_eq_ok.mp h
    cases h
    obtain ⟨hrest, hnone⟩ := ih (done := done ++ [sd1]) h2
    have hslot : slotAt { fl with sdesc := done ++ sd :: rest } done.length = sd := by simp [slotAt, List.getD]
    have hset : ∀ x, setSlot { fl with sdesc := done ++ sd :: rest } done.length x =
        { fl with sdesc := done ++ [x] ++ rest } := fun x => by simp [setSlot]
    have hhead : FlSteps D ({ fl with sdesc := done ++ sd :: rest }, s) ({ fl with sdesc := done ++ [sd1] ++ rest }, s1) ∧
        sd1.buf = none := by
      split at h1
      · rename_i hb
        cases h1
        rw [List.append_assoc]
        exact ⟨.refl, hb⟩
      · rename_i x hb
        split at h1
        · simp at h1
        · rename_i b hbuf
          obtain ⟨hm, hh⟩ := bufferOf_some hbuf
          dsimp only at h1
          have hk : (slotAt { fl with sdesc := done ++ sd :: rest } done.length).buf = some b.handle := by rw [hslot, hb, hh]
          have hfree : FlSteps D ({ fl with sdesc := done ++ sd :: rest }, s)
              (setSlot { fl with sdesc := done ++ sd :: rest } done.length { sd with buf := none, nmbuf := 0 },
                s.zoneFree b.handle) :=
            (FlSteps.of_stock _ (.free s b.handle)).trans (.of_list (.clear hk (uncounted_zoneFree _ _) rfl))
          split at h1
          · obtain ⟨u, hu, h1⟩ := Res.bind_eq_ok.mp h1
            cases h1
            rw [← hset]
            obtain ⟨h0, ⟨hone, rfl⟩ | ⟨hmore, rfl⟩⟩ := dropRef_ok hu
            · exact ⟨hfree, rfl⟩
            · exact ⟨.of_list (.giveUp hk hm h0 hmore rfl), rfl⟩
          · cases h1
            rw [← hset, ← hh]
            exact ⟨hfree, rfl⟩
    refine ⟨hhead.1.trans ?_, ?_⟩
    · rw [List.append_assoc] at hrest ⊢
      simpa using hrest
    · intro x hx
      rcases List.mem_cons.mp hx with rfl | hx
      · exact hhead.2
      · exact hnone x hx

end

end Sys2Proof.Machine
end

section
/-! PROOFS. The moves of an ingress queue that an operation holds (42_ingress_service), and the service of a queue as a run of
them. -/

namespace Sys2Proof.Machine

/-! ## Moves -/

/-- A relation between an ingress queue with the state around it and what an operation leaves of both. -/
abbrev HeldMove := IngressQueue × State → IngressQueue × State → Prop

/-- A move of ingress queue `i`, held by the operation, and of the state around it. `D` says that the queue's list is one of a
torn-down queue; `F` is what a forwarded-interrupt entry may do beside. -/
inductive QStep (F : HeldMove) (D : Prop) (i : Nat) : HeldMove
  | aside (q : IngressQueue) {s t : State} (h : Aside s t) : QStep F D i (q, s) (q, t)
  | list {q : IngressQueue} {fl fl' : FreeList} {s t : State} (hf : q.fl = some fl) (h : FlStep D (fl, s) (fl', t)) :
      QStep F D i (q, s) ({ q with fl := some fl' }, t)
  | egress {q : IngressQueue} {s : State} {j : Nat} {e e' : EgressQueue} (he : s.eqAt j = some e) (h : EqMove s.cfg e e') :
      QStep F D i (q, s) (q, s.setEq j e')
  /-- the cursor and the counters -/
  | cursor {q q' : IngressQueue} {s : State}
      (h : q' = { q with
        cidx := q'.cidx, gen := q'.gen, lroPending := q'.lroPending, rxErrors := q'.rxErrors, protoErrors := q'.protoErrors })
      (hc : q.cidx < q.cap → q'.cidx < q'.cap) : QStep F D i (q, s) (q', s)
  /-- the list is registered as starving -/
  | starve {q : IngressQueue} {fl : FreeList} {s : State} (hf : q.fl = some fl) (hs : fl.starving = false)
      (hd : fl.doomed = false) :
      QStep F D i (q, s) ({ q with fl := some { fl with starving := true } }, s.setStarving (s.starving ++ [i]))
  | forwarded {a b : IngressQueue × State} (h : F a b) : QStep F D i a b

abbrev QSteps (F : HeldMove) (D : Prop) (i : Nat) : HeldMove := Relation.ReflTransGen (QStep F D i)

section
variable {F : HeldMove} {D : Prop} {i : Nat} {q q' : IngressQueue} {fl fl' : FreeList} {s t : State}

theorem QSteps.trans {a b c : IngressQueue × State} (h : QSteps F D i a b) (h' : QSteps F D i b c) : QSteps F D i a c :=
  Relation.ReflTransGen.trans h h'

theorem QSteps.of_aside (q : IngressQueue) (h : Aside s t) : QSteps F D i (q, s) (q, t) := .single (.aside q h)

theorem QSteps.tail_aside {a : IngressQueue × State} (h : QSteps F D i a (q, s)) (ha : Aside s t) : QSteps F D i a (q, t) :=
  h.tail (.aside q ha)

/-- Only the counters of the queue. -/
theorem QSteps.counters
    (h : q' = { q with lroPending := q'.lroPending, rxErrors := q'.rxErrors, protoErrors := q'.protoErrors }) :
    QSteps F D i (q, s) (q', s) :=
  .single (.cursor (by rw [h]) fun hc => by rw [h]; exact hc)

theorem QSteps.of_list (hf : q.fl = some fl) (h : FlSteps D (fl, s) (fl', t)) :
    QSteps F D i (q, s) ({ q with fl := some fl' }, t) := by
  have aux : ∀ b : FreeList × State, FlSteps D (fl, s) b → QSteps F D i (q, s) ({ q with fl := some b.1 }, b.2) := by
    intro b hb
    induction hb with
    | refl => rw [← hf]
    | @tail c d _ hs ih => exact ih.tail (.list (q := { q with fl := some c.1 }) rfl hs)
  exact aux _ h

theorem Aside.setEq (h : Aside s t) (j : Nat) (e : EgressQueue) : Aside (s.setEq j e) (t.setEq j e) :=
  ⟨h.cfg, h.iq, congrArg (·.set j (some e)) h.eq, h.arena, h.starving, h.worklist, h.panic, h.held, h.port, h.nextBuf, h.out,
    h.mmio, h.ring, h.buf⟩

theorem setEq_eqAt_self {j : Nat} {e : EgressQueue} (he : s.eqAt j = some e) (e' : EgressQueue) :
    (s.setEq j e').eqAt j = some e' := State.setEq_eqAt_same s j e' e he

/-- An operation on an egress queue, and its context written back. -/
theorem QSteps.of_egress {j : Nat} {e e' : EgressQueue} (q : IngressQueue) (he : s.eqAt j = some e) (h : EqDoes e s e' t) :
    QSteps F D i (q, s) (q, t.setEq j e') := by
  obtain ⟨hm, ha⟩ := h
  have hrun : QSteps F D i (q, s) (q, s.setEq j e') := by
    induction hm with
    | refl => rw [show s.setEq j e = s from by rw [State.setEq, set_self he]]
    | @tail b c _ hs ih =>
      have hnext : QStep F D i (q, s.setEq j b) (q, (s.setEq j b).setEq j c) := .egress (setEq_eqAt_self he b) hs
      have hset : (s.setEq j b).setEq j c = s.setEq j c := by simp [State.setEq]
      rw [hset] at hnext
      exact ih.tail hnext
  exact hrun.tail_aside (ha.setEq j e')

end

/-! ## What an operation that holds a queue may rely on -/

/-- Nothing is in the queue's list, if it has one (47_system R433). -/
def IngressQueue.quiet (q : IngressQueue) : Prop := ∀ fl, q.fl = some fl → fl.quiet

/-- The queue that an operation holds: its role is that of its context, and the list of a torn-down one is empty. -/
def Held (D : Prop) (i : Nat) (q : IngressQueue) (s : State) : Prop :=
  (D → q.quiet) ∧ ∃ c, s.iqAt i = some c ∧ c.role = q.role

/-- What a forwarded-interrupt entry does beside leaves the queue and its context as they were. -/
def LeavesQueue (F : HeldMove) (i : Nat) : Prop := ∀ a b, F a b → b.1 = a.1 ∧ b.2.iqAt i = a.2.iqAt i

section
variable {F : HeldMove} {D : Prop} {i : Nat} {q q' : IngressQueue} {fl fl' : FreeList} {s t : State}

theorem buffers_congr (h : fl'.sdesc.map (·.buf) = fl.sdesc.map (·.buf)) : fl'.buffers = fl.buffers := by
  have hb : ∀ f : FreeList, f.buffers = (f.sdesc.map (·.buf)).filterMap id := fun f => by
    simp [FreeList.buffers, List.filterMap_map]
  rw [hb, hb, h]

theorem ListMove.quiet {a b : FreeList × State} (h : ListMove D a b) (hd : D) (hq : a.1.quiet) : b.1.quiet := by
  obtain ⟨hdoom, hbuf, hsh⟩ := hq
  cases h with
  | plain h _ hb =>
    rw [h]
    exact ⟨hdoom, (buffers_congr hb).trans hbuf, hsh⟩
  | fill hn => rw [hn] at hdoom; exact absurd hdoom (by simp)
  | giveUp hk => exact absurd (mem_buffers_of_slotAt hk) (by rw [hbuf]; simp)
  | clear hk => exact absurd (mem_buffers_of_slotAt hk) (by rw [hbuf]; simp)
  | unsave => exact ⟨hdoom, hbuf, rfl⟩
  | save n hs hn hsave => exact ⟨hdoom, hbuf, hsave hd⟩

theorem FlStep.quiet {a b : FreeList × State} (h : FlStep D a b) (hd : D) (hq : a.1.quiet) : b.1.quiet := by
  cases h with
  | aside => exact hq
  | stock => exact hq
  | list h => exact h.quiet hd hq

theorem FlStep.iq {a b : FreeList × State} (h : FlStep D a b) : b.2.iq = a.2.iq := by
  cases h with
  | aside _ h => exact h.iq
  | stock _ h => cases h <;> rfl
  | list h => cases h <;> rfl

theorem QStep.held (hF : LeavesQueue F i) {a b : IngressQueue × State} (h : QStep F D i a b) (ha : Held D i a.1 a.2) :
    Held D i b.1 b.2 := by
  obtain ⟨hq, c, hc, hr⟩ := ha
  cases h with
  | aside q h => exact ⟨hq, c, by rw [State.iqAt, h.iq]; exact hc, hr⟩
  | list hf h =>
    refine ⟨fun d fl1 h1 => ?_, c, ?_, hr⟩
    · obtain rfl : _ = fl1 := Option.some.inj h1
      exact h.quiet d (hq d _ hf)
    · rw [State.iqAt, h.iq]
      exact hc
  | egress => exact ⟨hq, c, hc, hr⟩
  | cursor h =>
    refine ⟨fun d fl1 h1 => hq d fl1 ?_, c, hc, ?_⟩
    · rw [h] at h1; exact h1
    · rw [h]; exact hr
  | starve hf _ hd => exact ⟨fun d => absurd (hq d _ hf).1 (by simp [hd]), c, hc, hr⟩
  | forwarded h =>
    obtain ⟨h1, h2⟩ := hF _ _ h
    rw [h1]
    exact ⟨hq, c, h2.trans hc, hr⟩

theorem QSteps.held (hF : LeavesQueue F i) {a b : IngressQueue × State} (h : QSteps F D i a b) (ha : Held D i a.1 a.2) :
    Held D i b.1 b.2 := by
  induction h with
  | refl => exact ha
  | tail _ hs ih => exact hs.held hF ih

/-! ## The arms of the dispatch -/

theorem violationAs_steps (e : Exc) (q : IngressQueue) (s : State) (f0 f1 : Flit) :
    QSteps F D i (q, s) ((violationAs e q s f0 f1).1, (violationAs e q s f0 f1).2) :=
  QSteps.tail_aside (.counters rfl) ((Aside.raise s e).trans (.emit _ _))

theorem violation_steps (q : IngressQueue) (s : State) (f0 f1 : Flit) :
    QSteps F D i (q, s) ((violation q s f0 f1).1, (violation q s f0 f1).2) := violationAs_steps _ _ _ _ _

theorem deliver_steps (q : IngressQueue) (f : LogicalFrame) (s : State) :
    QSteps F D i (q, s.setHeld (s.held ++ f.segs)) ((deliver q f s).1, (deliver q f s).2) := by
  unfold deliver
  dsimp only
  split
  · exact QSteps.tail_aside (.counters rfl) (.emit _ _)
  · exact .of_aside q (.emit _ _)

theorem releaseAll_queue {g : List Segment} (hf : q.fl = some fl) (h : releaseAll s g = .ok t) :
    QSteps F D i (q, s.setHeld (s.held ++ g)) (q, t) := by
  obtain ⟨a, hp, ht⟩ := releaseAll_ok h
  have hrun := QSteps.of_list (F := F) (D := D) (i := i) hf ((releaseAll_steps (l := s.held) h).flSteps fl)
  rwa [show t.setHeld s.held = t by rw [ht]; rfl, show { q with fl := some fl } = q by rw [← hf]] at hrun

theorem judgeFrame_steps {e : RxEntry} {f0 f1 : Flit} {f : LogicalFrame} (hf : q.fl = some fl)
    (h : judgeFrame e f0 f1 f q s = .ok (q', t)) : QSteps F D i (q, s.setHeld (s.held ++ f.segs)) (q', t) := by
  unfold judgeFrame at h
  split at h
  · obtain ⟨u, h1, h⟩ := Res.bind_eq_ok.mp h
    cases h
    exact (releaseAll_queue hf h1).trans (violation_steps q u f0 f1)
  · split at h
    · obtain ⟨u, h1, h⟩ := Res.bind_eq_ok.mp h
      cases h
      exact ((releaseAll_queue hf h1).trans (.counters rfl)).tail_aside ((Aside.raise _ _).trans (.emit _ _))
    · have hd := deliver_steps (F := F) (D := D) (i := i) q (f.withMeta (frameMeta e)) s
      rw [Except.ok.inj h] at hd
      exact hd

theorem dispatchRx_steps {e : RxEntry} {f0 f1 : Flit} {b : Bool} (hq : D → q.quiet)
    (h : dispatchRx e f0 f1 q s = .ok (b, q', t)) : QSteps F D i (q, s) (q', t) := by
  unfold dispatchRx at h
  split at h
  · cases h; exact violation_steps q s f0 f1
  · rename_i fl hf
    split at h
    · cases h; exact violation_steps q s f0 f1
    · obtain ⟨⟨r, fl1, s1⟩, h1, h⟩ := Res.bind_eq_ok.mp h
      obtain ⟨hheld, hrun⟩ := consumeFrame_steps (D := D) (fun d => hq d fl hf) h1
      dsimp only at h
      split at h
      · cases h
        exact .of_list hf hrun
      · obtain ⟨⟨q2, s2⟩, h2, h⟩ := Res.bind_eq_ok.mp h
        cases h
        have hlist := QSteps.of_list (F := F) (i := i) hf hrun
        rw [← hheld] at hlist
        exact hlist.trans (judgeFrame_steps rfl h2)

theorem egrUpdate_steps {eqid : BitVec 16} {f0 f1 : Flit} (h : egrUpdate eqid f0 f1 q s = .ok (q', t)) :
    QSteps F D i (q, s) (q', t) := by
  unfold egrUpdate at h
  split at h
  · cases h; exact violation_steps q s f0 f1
  · split at h
    · cases h; exact violation_steps q s f0 f1
    · rename_i e he
      obtain ⟨⟨e1, s1, d, c⟩, h1, h⟩ := Res.bind_eq_ok.mp h
      cases h
      exact .of_egress q he (reclaim_does h1)

theorem dispatchOob_steps (op : BitVec 8) (f0 f1 : Flit) (q : IngressQueue) (s : State) :
    QSteps F D i (q, s) ((dispatchOob op f0 f1 q s).1, (dispatchOob op f0 f1 q s).2) := by
  unfold dispatchOob
  split
  · exact violation_steps q s f0 f1
  · exact .of_aside q (.emit _ _)

/-- A forwarded-interrupt arm that is a run of moves. -/
def FwdSteps (F : HeldMove) (D : Prop) (i : Nat) (fwd : FwdArm) : Prop :=
  ∀ n f0 f1 q q' s t, Held D i q s → fwd n f0 f1 q s = .ok (q', t) → QSteps F D i (q, s) (q', t)

/-- An arm of the dispatch that is a run of moves. -/
def ArmSteps (F : HeldMove) (D : Prop) (i : Nat) (arm : IngressQueue → State → Res (Bool × IngressQueue × State)) : Prop :=
  ∀ q q' s t b, Held D i q s → arm q s = .ok (b, q', t) → QSteps F D i (q, s) (q', t)

theorem afterGenCheck_steps {f0 f1 : Flit} {arm : IngressQueue → State → Res (Bool × IngressQueue × State)}
    (ha : ArmSteps F D i arm) : ArmSteps F D i (afterGenCheck f0 f1 arm) := by
  intro q q' s t b hq h
  unfold afterGenCheck at h
  split at h
  · cases h; exact violationAs_steps _ q s f0 f1
  · exact ha q q' s t b hq h

theorem dispatchTyped_steps {fwd : FwdArm} (hf : FwdSteps F D i fwd) (f0 f1 : Flit) :
    ArmSteps F D i (dispatchTyped fwd f0 f1) := by
  intro q q' s t b hq h
  unfold dispatchTyped at h
  split at h
  · exact dispatchRx_steps hq.1 h
  · obtain ⟨⟨q1, s1⟩, h1, h⟩ := Res.bind_eq_ok.mp h
    cases h; exact egrUpdate_steps h1
  · cases h; exact dispatchOob_steps _ f0 f1 q s
  · obtain ⟨⟨q1, s1⟩, h1, h⟩ := Res.bind_eq_ok.mp h
    cases h; exact hf _ _ _ _ _ _ _ hq h1
  · cases h; exact violation_steps q s f0 f1

/-! ## The service call -/

theorem advanceCursor_steps (q : IngressQueue) (s : State) : QSteps F D i (q, s) (advanceCursor q, s) := by
  refine .single (.cursor rfl fun hc => ?_)
  show incIdx q.cidx q.cap < q.cap
  rw [incIdx_eq_addTo]
  exact addTo_lt 1 (Nat.lt_of_le_of_lt (Nat.zero_le _) hc)

theorem lroFlush_steps (q : IngressQueue) (s : State) : QSteps F D i (q, s) ((lroFlush q s).1, (lroFlush q s).2) := by
  unfold lroFlush
  split
  · exact QSteps.tail_aside (.counters rfl) (.emit _ _)
  · exact .refl

/-- Registration of the list that a REFILL found starving (40_free_list R191). -/
theorem registerStarving_steps {st : Bool} (hf : q.fl = some fl) (hd : fl.doomed = false)
    (hs : st = true → fl.starving = false) :
    QSteps F D i (q, s) ({ q with fl := some (registerStarving i st fl s).1 }, (registerStarving i st fl s).2) := by
  unfold registerStarving
  split
  · rename_i h
    exact .single (.starve hf (hs h) hd)
  · rw [show { q with fl := some fl } = q by rw [← hf]]

theorem refillIfLow_steps (h : refillIfLow i q s = .ok (q', t)) : QSteps F D i (q, s) (q', t) := by
  unfold refillIfLow at h
  split at h
  · cases h; exact .refl
  · rename_i fl hf
    split at h
    · obtain ⟨⟨fl1, s1, p, st⟩, h1, h⟩ := Res.bind_eq_ok.mp h
      obtain ⟨hrun, hd, hs⟩ := refill_steps (D := D) h1
      cases h
      exact (QSteps.of_list hf hrun).trans (registerStarving_steps (q := { q with fl := some fl1 }) rfl hd hs)
    · cases h; exact .refl

theorem endService_steps {b r : Bool} (h : endService i b q s = .ok (q', t, r)) : QSteps F D i (q, s) (q', t) := by
  obtain ⟨⟨q1, s1⟩, h1, h⟩ := Res.bind_eq_ok.mp h
  cases h
  exact (lroFlush_steps q s).trans (refillIfLow_steps h1)

theorem serviceLoop_steps {fwd : FwdArm} {left nd : Nat} {r : Bool} (hF : LeavesQueue F i) (hf : FwdSteps F D i fwd)
    (hq : Held D i q s) (h : serviceLoop fwd i left nd q s = .ok (q', t, r)) : QSteps F D i (q, s) (q', t) := by
  induction left generalizing nd q s with
  | zero => exact (QSteps.of_aside q (.writeCredit _ _ _ _ _)).trans (endService_steps h)
  | succ left ih =>
    obtain ⟨f1, _, h⟩ := Res.bind_eq_ok.mp h
    split at h
    · obtain ⟨f0, _, h⟩ := Res.bind_eq_ok.mp h
      obtain ⟨⟨adv, q1, s1⟩, h1, h⟩ := Res.bind_eq_ok.mp h
      have hd : QSteps F D i (q, s) (q1, s1) := afterGenCheck_steps (dispatchTyped_steps hf f0 f1) _ _ _ _ _ hq h1
      dsimp only at h
      split at h
      · have hc := hd.trans (advanceCursor_steps q1 s1)
        exact hc.trans (ih (hc.held hF hq) h)
      · have he := endService_steps (F := F) (D := D) h
        split at he
        · exact (hd.tail_aside (.writeCredit _ _ _ _ _)).trans he
        · exact hd.trans he
    · exact (QSteps.of_aside q (.writeCredit _ _ _ _ _)).trans (endService_steps h)

end

/-! ## A forwarded interrupt -/

/-- No forwarded-interrupt entry does anything beside: in a nested service each is a violation (42_ingress_service R255). -/
def NoForward : HeldMove := fun _ _ => False

/-- A child that was Idle is serviced, one level deep, and finished (42_ingress_service R255). -/
inductive Forwards (i : Nat) : HeldMove
  | child {q : IngressQueue} {s s' : State} {j : Nat} {t t' : IngressQueue} (done : Bool) (hj : j ≠ i)
      (ht : s.iqAt j = some t) (hs : t.state = .idle)
      (h : QSteps NoForward False j ({ t with state := .busy }, s) (t', s')) :
      Forwards i (q, s) (q, (finishService s' j t' done).2.setIq j (finishService s' j t' done).1)

theorem QStep.iqAt {j i : Nat} {D : Prop} {a b : IngressQueue × State} (h : QStep NoForward D j a b) :
    b.2.iqAt i = a.2.iqAt i := by
  cases h with
  | aside _ h => rw [State.iqAt, h.iq]; rfl
  | list _ h => rw [State.iqAt, h.iq]; rfl
  | egress => rfl
  | cursor => rfl
  | starve => rfl
  | forwarded h => exact h.elim

theorem QSteps.iqAt {j i : Nat} {D : Prop} {a b : IngressQueue × State} (h : QSteps NoForward D j a b) :
    b.2.iqAt i = a.2.iqAt i := by
  induction h with
  | refl => rfl
  | tail _ hs ih => exact hs.iqAt.trans ih

theorem forwards_leaves (i : Nat) : LeavesQueue (Forwards i) i := by
  intro a b h
  cases h with
  | @child q s s' j t t' done hj ht hs h =>
    refine ⟨rfl, ?_⟩
    rw [State.setIq_iqAt_other _ _ _ _ hj, finishService_eq]
    exact h.iqAt

theorem fwdNested_steps (D : Prop) (i : Nat) : FwdSteps NoForward D i fwdNested := by
  intro n f0 f1 q q' s t _ h
  cases h
  exact violation_steps q s f0 f1

theorem noForward_leaves (i : Nat) : LeavesQueue NoForward i := fun _ _ h => h.elim

/-- The child that a forwarded-interrupt entry names is a Forwarded queue. -/
theorem childByQid_role {s : State} {p n : BitVec 12} {j : Nat} (h : s.childByQid p n = some j) :
    ∃ t, s.iqAt j = some t ∧ t.role = .forwarded := by
  obtain ⟨t, ht, hp⟩ := (indicesOf_mem _ _ _).mp (List.mem_of_head? h)
  refine ⟨t, ht, ?_⟩
  simp only [Bool.and_eq_true, decide_eq_true_eq] at hp
  exact hp.1.1.2

theorem dispatchFwd_steps (D : Prop) (i budget : Nat) : FwdSteps (Forwards i) D i (dispatchFwd budget) := by
  intro n f0 f1 q q' s t hq h
  unfold dispatchFwd at h
  split at h
  · cases h; exact violation_steps q s f0 f1
  · rename_i hrole
    split at h
    · cases h; exact violation_steps q s f0 f1
    · rename_i j hj
      obtain ⟨x, hx, hxr⟩ := childByQid_role hj
      split at h
      · cases h; exact .refl
      · rename_i y hy
        obtain ⟨⟨t1, s1, done⟩, h1, h⟩ := Res.bind_eq_ok.mp h
        cases h
        have hne : j ≠ i := by
          rintro rfl
          obtain ⟨_, c, hc, hcr⟩ := hq
          rw [hc] at hx
          obtain rfl := Option.some.inj hx
          rw [hcr] at hxr
          exact hrole (by rw [hxr]; simp)
        rw [hx, Option.bind_some] at hy
        unfold enterService casIdle at hy
        split at hy
        · rename_i hidle
          obtain rfl := Option.some.inj hy
          have hrun : QSteps NoForward False j ({ x with state := .busy }, s) (t1, s1) :=
            serviceLoop_steps (noForward_leaves j) (fwdNested_steps False j) ⟨False.elim, x, hx, rfl⟩ h1
          exact .single (.forwarded (.child done hne hx hidle hrun))
        · exact absurd hy (by simp)

/-- A service call that completes is a run of moves (42_ingress_service R251). -/
theorem service_steps {D : Prop} {i b : Nat} {q q' : IngressQueue} {s t : State} {r : Bool} (hq : Held D i q s)
    (h : service i b q s = .ok (q', t, r)) : QSteps (Forwards i) D i (q, s) (q', t) :=
  serviceLoop_steps (forwards_leaves i) (dispatchFwd_steps D i b) hq h

end Sys2Proof.Machine
end

section
/-! PROOFS. The moves of the machine: every transition that does not panic is a run of them. -/

namespace Sys2Proof.Machine

/-! ## Moves -/

/-- A list as CREATE_FL makes it: empty, nothing saved, neither starving nor doomed (47_system R431). -/
def FreeList.fresh (fl : FreeList) : Prop :=
  fl.inRange = true ∧ fl.buffers = [] ∧ fl.saved = [] ∧ fl.starving = false ∧ fl.doomed = false

/-- A move of the machine. `P` says that the lists of the queues that were torn down before are empty; a move of such a list
may rely on it. -/
inductive Move (P : Prop) : State → State → Prop
  | aside {s t : State} (h : Aside s t) : Move P s t
  | stock {s t : State} (h : StockMove s t) : Move P s t
  | egress {s : State} {j : Nat} {q q' : EgressQueue} (hq : s.eqAt j = some q) (h : EqMove s.cfg q q') :
      Move P s (s.setEq j q')
  | newEgress {s : State} {j : Nat} {a : CreateEqArgs} (h : badCreateEq s j a = false) : Move P s (s.setEq j (newEq a))
  | list {s t : State} {i : Nat} {q : IngressQueue} {fl fl' : FreeList} {D : Prop} (hq : s.iqAt i = some q)
      (hf : q.fl = some fl) (hD : P → q.state = .dead → D) (h : ListMove D (fl, s) (fl', t)) :
      Move P s (t.setIq i { q with fl := some fl' })
  | cursor {s : State} {i : Nat} {q q' : IngressQueue} (hq : s.iqAt i = some q)
      (h : q' = { q with
        cidx := q'.cidx, gen := q'.gen, lroPending := q'.lroPending, rxErrors := q'.rxErrors, protoErrors := q'.protoErrors })
      (hc : q.cidx < q.cap → q'.cidx < q'.cap) : Move P s (s.setIq i q')
  /-- a list registered as starving (40_free_list R191) -/
  | starve {s : State} {i : Nat} {q : IngressQueue} {fl : FreeList} (hq : s.iqAt i = some q) (hf : q.fl = some fl)
      (hs : fl.starving = false) (hd : fl.doomed = false) :
      Move P s ((s.setStarving (s.starving ++ [i])).setIq i { q with fl := some { fl with starving := true } })
  /-- a list that starves no more taken off (47_system R435) -/
  | relieve {s : State} {i : Nat} {q : IngressQueue} {fl : FreeList} (hq : s.iqAt i = some q) (hf : q.fl = some fl) :
      Move P s ((s.setStarving (s.starving.erase i)).setIq i { q with fl := some { fl with starving := false } })
  /-- a list is torn down (47_system R433) -/
  | doom {s : State} {i : Nat} {q : IngressQueue} {fl : FreeList} (hq : s.iqAt i = some q) (hf : q.fl = some fl) :
      Move P s ((s.setStarving (if fl.starving then s.starving.erase i else s.starving)).setIq i
        { q with fl := some { fl with doomed := true, starving := false } })
  /-- a queue is torn down, its list empty -/
  | die {s : State} {i : Nat} {q : IngressQueue} (hq : s.iqAt i = some q) (hs : q.state = .idle) (hf : q.quiet) :
      Move P s (s.setIq i { q with state := .dead })
  /-- a queue goes to the back of the worklist (42_ingress_service R250) -/
  | park {s : State} {i : Nat} {q : IngressQueue} (hq : s.iqAt i = some q) (hs : q.state = .idle) :
      Move P s ((s.setWorklist (s.worklist ++ [i])).setIq i { q with state := .busy })
  /-- the queue at the front of the worklist is done (42_ingress_service R262) -/
  | unpark {s : State} {i : Nat} {l : List Nat} {q : IngressQueue} (hl : s.worklist = i :: l) (hq : s.iqAt i = some q) :
      Move P s ((s.setWorklist l).setIq i { q with state := .idle })
  | rotate {s : State} {i : Nat} {l : List Nat} (hl : s.worklist = i :: l) : Move P s (s.setWorklist (l ++ [i]))
  | newIngress {s : State} {i : Nat} {a : CreateIqArgs} (h : badCreateIq s i a = false) : Move P s (s.setIq i (newIq a))
  | newList {s : State} {i : Nat} {q : IngressQueue} {fl : FreeList} (hq : s.iqAt i = some q) (hs : q.state = .idle)
      (hf : q.fl = none) (hl : fl.fresh) : Move P s (s.setIq i { q with fl := some fl })

abbrev Moves (P : Prop) : State → State → Prop := Relation.ReflTransGen (Move P)

section
variable {P : Prop} {s t u : State}

theorem Moves.of_move (h : Move P s t) : Moves P s t := .single h

theorem Moves.trans (h : Moves P s t) (h' : Moves P t u) : Moves P s u := Relation.ReflTransGen.trans h h'

theorem Moves.of_aside (h : Aside s t) : Moves P s t := .single (.aside h)

theorem Moves.tail_aside (h : Moves P s t) (ha : Aside t u) : Moves P s u := h.tail (.aside ha)

theorem PlainSteps.moves (h : PlainSteps s t) : Moves P s t := by
  induction h with
  | refl => exact .refl
  | tail _ h ih =>
    cases h with
    | aside h => exact ih.tail (.aside h)
    | stock h => exact ih.tail (.stock h)

/-- An operation on an egress queue, and its context written back. -/
theorem Moves.of_egress {j : Nat} {q q' : EgressQueue} (hq : s.eqAt j = some q) (h : EqDoes q s q' t) :
    Moves P s (t.setEq j q') := by
  obtain ⟨hm, ha⟩ := h
  have hrun : Moves P s (s.setEq j q') := by
    induction hm with
    | refl => rw [show s.setEq j q = s from by rw [State.setEq, set_self hq]]
    | @tail b c _ hs ih =>
      have hnext : Move P (s.setEq j b) ((s.setEq j b).setEq j c) := .egress (setEq_eqAt_self hq b) hs
      rw [show (s.setEq j b).setEq j c = s.setEq j c by simp [State.setEq]] at hnext
      exact ih.tail hnext
  exact hrun.tail_aside (ha.setEq j q')

end

/-! ## The state with a held queue in its place -/

/-- The state with other ingress contexts and another worklist. -/
def State.withIqs (s : State) (iqs : List (Option IngressQueue)) (wl : List Nat) : State := { s with iq := iqs, worklist := wl }

section
variable {P D : Prop} {s t : State} {iqs : List (Option IngressQueue)} {wl : List Nat} {i : Nat}

theorem setIq_eq_withIqs (s : State) (i : Nat) (q : IngressQueue) :
    s.setIq i q = s.withIqs (s.iq.set i (some q)) s.worklist := rfl

theorem Aside.withIqs (h : Aside s t) (iqs : List (Option IngressQueue)) (wl : List Nat) :
    Aside (s.withIqs iqs wl) (t.withIqs iqs wl) :=
  ⟨h.cfg, rfl, h.eq, h.arena, h.starving, rfl, h.panic, h.held, h.port, h.nextBuf, h.out, h.mmio, h.ring, h.buf⟩

theorem StockMove.withIqs (h : StockMove s t) (iqs : List (Option IngressQueue)) (wl : List Nat) :
    StockMove (s.withIqs iqs wl) (t.withIqs iqs wl) := by
  cases h with
  | share off len hb => exact .share (s := State.withIqs _ iqs wl) off len hb
  | hold hg => exact .hold (s := State.withIqs _ iqs wl) hg
  | free => exact .free (State.withIqs _ iqs wl) _
  | recount hb => exact .recount (s := State.withIqs _ iqs wl) hb
  | dropHeld hs hg hb h0 h1 => exact .dropHeld (s := State.withIqs _ iqs wl) hs hg hb h0 h1
  | forget hs hu => exact .forget (s := State.withIqs _ iqs wl) hs hu

theorem ListMove.withIqs {a b : FreeList × State} (h : ListMove D a b) (iqs : List (Option IngressQueue)) (wl : List Nat) :
    ListMove D (a.1, a.2.withIqs iqs wl) (b.1, b.2.withIqs iqs wl) := by
  cases h with
  | plain h hr hb => exact .plain h hr hb
  | fill hd hn hs hh hc he => exact .fill (s := State.withIqs _ iqs wl) hd hn hs hh hc he
  | giveUp hk hb h0 h1 hs => exact .giveUp (s := State.withIqs _ iqs wl) hk hb h0 h1 hs
  | clear hk hu hs => exact .clear (s := State.withIqs _ iqs wl) hk hu hs
  | unsave => exact .unsave _ (State.withIqs _ iqs wl)
  | save n hs hn hd => exact .save (s := State.withIqs _ iqs wl) n hs hn hd

theorem getElem?_set_join {q c : IngressQueue} (hi : (iqs[i]?).join = some c) :
    ((iqs.set i (some q))[i]?).join = some q := by
  have hlt : i < iqs.length := by
    by_contra hc
    rw [List.getElem?_eq_none (Nat.le_of_not_lt hc)] at hi
    exact absurd hi (by simp)
  simp [hlt]

/-- A move of a list that a queue in its place has. -/
theorem FlStep.move {q : IngressQueue} {a b : FreeList × State} (h : FlStep D a b) (hq : (iqs[i]?).join = some q)
    (hf : q.fl = some a.1) (hD : P → q.state = .dead → D) :
    Move P (a.2.withIqs iqs wl) (b.2.withIqs (iqs.set i (some { q with fl := some b.1 })) wl) := by
  have hself : ∀ fl, q.fl = some fl → iqs.set i (some { q with fl := some fl }) = iqs := fun fl h => by
    rw [show { q with fl := some fl } = q by rw [← h]]
    exact set_self hq
  cases h with
  | aside fl h => rw [hself fl hf]; exact .aside (h.withIqs iqs wl)
  | stock fl h => rw [hself fl hf]; exact .stock (h.withIqs iqs wl)
  | list h => exact .list (s := State.withIqs _ iqs wl) hq hf hD (h.withIqs iqs wl)

theorem FlStep.worklist {a b : FreeList × State} (h : FlStep D a b) : b.2.worklist = a.2.worklist := by
  cases h with
  | aside _ h => exact h.worklist
  | stock _ h => cases h <;> rfl
  | list h => cases h <;> rfl

/-- A run of moves of a list that a queue in its place has. -/
theorem FlSteps.moves {q : IngressQueue} {a b : FreeList × State} (h : FlSteps D a b) (hq : (iqs[i]?).join = some q)
    (hf : q.fl = some a.1) (hD : P → q.state = .dead → D) :
    Moves P (a.2.withIqs iqs wl) (b.2.withIqs (iqs.set i (some { q with fl := some b.1 })) wl) ∧ b.2.iq = a.2.iq ∧
      b.2.worklist = a.2.worklist := by
  induction h with
  | refl =>
    rw [show { q with fl := some a.1 } = q by rw [← hf], set_self hq]
    exact ⟨.refl, rfl, rfl⟩
  | @tail c d _ hs ih =>
    obtain ⟨hm, hiq, hwl⟩ := ih
    have hnext := hs.move (P := P) (wl := wl) (q := { q with fl := some c.1 }) (getElem?_set_join hq) rfl hD
    rw [List.set_set] at hnext
    exact ⟨hm.tail hnext, hs.iq.trans hiq, hs.worklist.trans hwl⟩

/-- A run of moves of a list, with the list then written back. -/
theorem Moves.of_list {q : IngressQueue} {fl fl' : FreeList} (hq : s.iqAt i = some q) (hf : q.fl = some fl)
    (hD : P → q.state = .dead → D) (h : FlSteps D (fl, s) (fl', t)) : Moves P s (t.setIq i { q with fl := some fl' }) := by
  obtain ⟨hm, hiq, hwl⟩ := h.moves (P := P) (wl := s.worklist) hq hf hD
  rw [setIq_eq_withIqs, hiq, hwl]
  exact hm

/-! ## A service call -/

/-- What a queue's own moves leave: the contexts of the ingress queues, the worklist, and the queue's state. -/
theorem QStep.frame {F : HeldMove} {a b : IngressQueue × State} (h : QStep F D i a b) :
    F a b ∨ (b.2.iq = a.2.iq ∧ b.2.worklist = a.2.worklist ∧ b.1.state = a.1.state) := by
  cases h with
  | aside _ h => exact .inr ⟨h.iq, h.worklist, rfl⟩
  | list _ h => exact .inr ⟨h.iq, h.worklist, rfl⟩
  | egress => exact .inr ⟨rfl, rfl, rfl⟩
  | cursor h => exact .inr ⟨rfl, rfl, by rw [h]⟩
  | starve => exact .inr ⟨rfl, rfl, rfl⟩
  | forwarded h => exact .inl h

theorem QSteps.frame {a b : IngressQueue × State} (h : QSteps NoForward D i a b) :
    b.2.iq = a.2.iq ∧ b.2.worklist = a.2.worklist ∧ b.1.state = a.1.state := by
  induction h with
  | refl => exact ⟨rfl, rfl, rfl⟩
  | tail _ hs ih =>
    obtain ⟨h1, h2, h3⟩ := ih
    rcases hs.frame with h | ⟨h1', h2', h3'⟩
    · exact h.elim
    · exact ⟨h1'.trans h1, h2'.trans h2, h3'.trans h3⟩

/-- The queue in its place, in state `x`. -/
def inPlace (iqs : List (Option IngressQueue)) (i : Nat) (x : IqState) (q : IngressQueue) : List (Option IngressQueue) :=
  iqs.set i (some { q with state := x })

/-- A queue's own move, with the queue in its place. -/
theorem QStep.move {F : HeldMove} {x : IqState} {c : IngressQueue} {a b : IngressQueue × State} (hD : P → x = .dead → D)
    (hi : (iqs[i]?).join = some c) (h : QStep F D i a b) :
    F a b ∨ Move P (a.2.withIqs (inPlace iqs i x a.1) wl) (b.2.withIqs (inPlace iqs i x b.1) wl) := by
  have hq : ∀ q : IngressQueue, ((inPlace iqs i x q)[i]?).join = some { q with state := x } := fun q => getElem?_set_join hi
  have hset : ∀ q q' : IngressQueue, (inPlace iqs i x q).set i (some { q' with state := x }) = inPlace iqs i x q' :=
    fun q q' => List.set_set _
  cases h with
  | aside q h => exact .inr (.aside (h.withIqs _ wl))
  | @list q fl fl' s t hf h =>
    have hm : Move P (s.withIqs (inPlace iqs i x q) wl)
        (t.withIqs ((inPlace iqs i x q).set i (some { ({ q with fl := some fl' } : IngressQueue) with state := x })) wl) :=
      h.move (hq q) hf hD
    rw [hset] at hm
    exact .inr hm
  | @egress q s j e e' he h => exact .inr (.egress (s := s.withIqs _ wl) he h)
  | @cursor q q' s h hc =>
    have hm : Move P (s.withIqs (inPlace iqs i x q) wl)
        ((s.withIqs (inPlace iqs i x q) wl).setIq i { q' with state := x }) :=
      .cursor (hq q) (by rw [h]) hc
    rw [setIq_eq_withIqs, show (s.withIqs (inPlace iqs i x q) wl).iq = inPlace iqs i x q from rfl, hset] at hm
    exact .inr hm
  | @starve q fl s hf hs hd =>
    have hm : Move P (s.withIqs (inPlace iqs i x q) wl) ((s.setStarving (s.starving ++ [i])).withIqs ((inPlace iqs i x q).set i
        (some { ({ q with fl := some { fl with starving := true } } : IngressQueue) with state := x })) wl) :=
      .starve (s := s.withIqs (inPlace iqs i x q) wl) (hq q) hf hs hd
    rw [hset] at hm
    exact .inr hm
  | forwarded h => exact .inl h

/-- A run of a queue's own moves, with the queue in its place. -/
theorem QSteps.moves {x : IqState} {c : IngressQueue} {a b : IngressQueue × State} (hD : P → x = .dead → D)
    (hi : (iqs[i]?).join = some c) (h : QSteps NoForward D i a b) :
    Moves P (a.2.withIqs (inPlace iqs i x a.1) wl) (b.2.withIqs (inPlace iqs i x b.1) wl) := by
  induction h with
  | refl => exact .refl
  | tail _ hs ih => exact ih.tail ((hs.move hD hi).resolve_left id)

/-- The end of a service call of a queue that was Idle (42_ingress_service R250). -/
theorem finish_moves {q c : IngressQueue} (done : Bool) (hi : (iqs[i]?).join = some c) :
    Moves P (s.withIqs (inPlace iqs i .idle q) wl)
      (s.withIqs (iqs.set i (some { q with state := if done then .idle else .busy })) (wl ++ if done then [] else [i])) := by
  cases done with
  | true => simp only [if_true, List.append_nil]; exact .refl
  | false =>
    have hm := Move.park (P := P) (s := s.withIqs (inPlace iqs i .idle q) wl) (getElem?_set_join hi) rfl
    rw [setIq_eq_withIqs] at hm
    simp only [State.withIqs, State.setWorklist, inPlace, List.set_set] at hm
    exact .of_move hm

/-- A forwarded interrupt, with the forwarder in its place. -/
theorem Forwards.moves {x : IqState} {pre : List Nat} {a b : IngressQueue × State} (h : Forwards i a b) :
    Moves P (a.2.withIqs (inPlace a.2.iq i x a.1) (pre ++ a.2.worklist))
        (b.2.withIqs (inPlace b.2.iq i x b.1) (pre ++ b.2.worklist)) ∧ b.1.state = a.1.state := by
  cases h with
  | @child q s s' j t t' done hj ht hs h =>
    refine ⟨?_, rfl⟩
    obtain ⟨hiq, hwl, hst⟩ := h.frame
    have hat : ((inPlace s.iq i x q)[j]?).join = some t := by
      rw [inPlace, List.getElem?_set_ne (Ne.symm hj)]
      exact ht
    have hrun := h.moves (P := P) (x := .idle) (wl := pre ++ s.worklist) (fun _ hd => nomatch hd) hat
    have hstart : inPlace (inPlace s.iq i x q) j .idle { t with state := .busy } = inPlace s.iq i x q := by
      rw [inPlace, show ({ ({ t with state := .busy } : IngressQueue) with state := .idle }) = t by rw [← hs]]
      exact set_self hat
    have hend := hrun.trans (finish_moves done hat)
    rw [hstart] at hend
    rw [finishService_eq]
    have hcomm : inPlace (s.iq.set j (some { t' with state := if done then .idle else t'.state })) i x q =
        (inPlace s.iq i x q).set j (some { t' with state := if done then .idle else .busy }) := by
      rw [inPlace, inPlace, List.set_comm _ _ hj, show t'.state = .busy from hst]
    simp only [State.setIq, State.withIqs] at hend ⊢
    rw [hiq, hwl, hcomm, ← List.append_assoc]
    exact hend

/-- A service call, with the queue in its place in state `x` and the worklist after `pre`. -/
theorem QSteps.service_moves {x : IqState} {pre : List Nat} {a b : IngressQueue × State} (hD : P → x = .dead → D)
    (ha : ∃ c, a.2.iqAt i = some c) (h : QSteps (Forwards i) D i a b) :
    Moves P (a.2.withIqs (inPlace a.2.iq i x a.1) (pre ++ a.2.worklist))
        (b.2.withIqs (inPlace b.2.iq i x b.1) (pre ++ b.2.worklist)) ∧ b.1.state = a.1.state ∧ ∃ c, b.2.iqAt i = some c := by
  induction h with
  | refl => exact ⟨.refl, rfl, ha⟩
  | @tail b d _ hs ih =>
    obtain ⟨hm, hst, c, hc⟩ := ih
    rcases hs.frame with hf | ⟨h1, h2, h3⟩
    · obtain ⟨hm', hst'⟩ := hf.moves (P := P) (x := x) (pre := pre)
      exact ⟨hm.trans hm', hst'.trans hst, c, (forwards_leaves i _ _ hf).2.trans hc⟩
    · refine ⟨hm.trans ?_, h3.trans hst, c, by rw [State.iqAt, h1]; exact hc⟩
      rcases hs.move (P := P) (wl := pre ++ b.2.worklist) (iqs := b.2.iq) hD hc with hf | hmv
      · exact (hf.moves (P := P) (x := x) (pre := pre)).1
      · rw [h1, h2]
        exact .of_move hmv

/-- A run of moves of a queue whose context keeps its state, with the context written back. -/
theorem QSteps.setIq_moves {q q' : IngressQueue} (hD : P → q.state = .dead → D) (hq : s.iqAt i = some q)
    (h : QSteps (Forwards i) D i (q, s) (q', t)) : Moves P s (t.setIq i q') := by
  obtain ⟨hm, hst, c, hc⟩ := h.service_moves (P := P) (x := q.state) (pre := []) hD ⟨q, hq⟩
  have hq' : ({ q' with state := q.state } : IngressQueue) = q' := by rw [← show q'.state = q.state from hst]
  rw [inPlace, inPlace, hq', set_self (l := s.iq) hq] at hm
  exact hm

end

end Sys2Proof.Machine
end

section
/-! PROOFS. Every instruction: its transition panics, or is a run of moves. -/

namespace Sys2Proof.Machine

/-! ## Transitions -/

/-- A transition panics, or is a run of moves. -/
def PanicsOrMoves (P : Prop) (s t : State) : Prop := t = takePanic s ∨ Moves P s t

/-- The lists of the queues that are torn down are empty (47_system R433). -/
def QuietDead (s : State) : Prop := ∀ i q, s.iqAt i = some q → q.state = .dead → q.quiet

section
variable {P D : Prop} {s t u : State} {i : Nat} {r : Ret}

theorem runQe_moves {body : State → Res (State × Ret)} (h : runQe s body = .next t)
    (hb : ∀ u r, body s.begin = .ok (u, r) → Moves P s.begin u) : PanicsOrMoves P s t := by
  obtain ⟨_, ⟨u, r, hu, rfl⟩ | ⟨e, _, rfl⟩ | ⟨_, rfl⟩⟩ := runQe_next h
  · exact .inr (((Moves.of_aside (.begin s)).trans (hb u r hu)).tail_aside (.answer u r))
  · exact .inr (.of_aside .of_rest)
  · exact .inl rfl

theorem runDevice_moves {body : State → Res (Option (State × Ret))} (h : runDevice s body = .next t)
    (hb : ∀ u r, body s.begin = .ok (some (u, r)) → Moves P s.begin u) : PanicsOrMoves P s t := by
  obtain ⟨u, r, hu, rfl⟩ | ⟨_, rfl⟩ | ⟨e, _, rfl⟩ | ⟨_, rfl⟩ := runDevice_next h
  · exact .inr (((Moves.of_aside (.begin s)).trans (hb u r hu)).tail_aside (.answer u r))
  · exact .inr (.of_aside .of_rest)
  · exact .inr (.of_aside .of_rest)
  · exact .inl rfl

theorem onEq_moves {f : EgressQueue → Res (EgressQueue × State × Ret)} (h : onEq s i f = .ok (u, r))
    (hf : ∀ q q' t, f q = .ok (q', t, r) → EqDoes q s q' t) : Moves P s u := by
  obtain ⟨q, q', t, hat, hq, rfl⟩ := onEq_ok h
  exact .of_egress hat (hf q q' t hq)

theorem onFl_moves {f : FreeList → Res (FreeList × State × Ret)} (h : onFl s i f = .ok (u, r))
    (hf : ∀ fl fl' t, f fl = .ok (fl', t, r) → FlSteps True (fl, s) (fl', t)) : Moves P s u := by
  obtain ⟨q, fl, fl', t, hat, hfl, hq, rfl⟩ := onFl_ok h
  exact .of_list hat hfl (fun _ _ => trivial) (hf fl fl' t hq)

/-! ## Writes standing alone -/

theorem setIq_list {q : IngressQueue} {fl fl' : FreeList} (hq : s.iqAt i = some q) (hf : q.fl = some fl)
    (h : FlSteps True (fl, s) (fl', s)) : Moves P s (s.setIq i { q with fl := some fl' }) :=
  .of_list hq hf (fun _ _ => trivial) h

theorem tell_moves (s : State) (r : QRef) (n : Nat) : Moves P s (tell s r n) := by
  cases r with
  | fl i =>
    unfold tell
    dsimp only
    split
    · rename_i q fl hq hf
      have hfl : q.fl = some fl := by rw [State.flAt, hq] at hf; exact hf
      exact setIq_list hq hfl (.of_list (.plain rfl id rfl))
    · exact .refl
  | eq i =>
    unfold tell
    dsimp only
    split
    · rename_i q hq
      exact .of_egress hq (.plain q s _ q.state)
    · exact .refl

theorem writeAlone_moves {w : MmioWrite} (h : writeAlone s w = .ok (some t)) : Moves P s t := by
  obtain rfl | ⟨r, n, _, _, rfl⟩ := writeAlone_ok h
  · exact .of_aside (.mmioWrite s w)
  · exact (Moves.of_aside (.mmioWrite s w)).trans (tell_moves _ r n)

theorem execWrite_moves {w : MmioWrite} (h : execWrite w s = .next t) : PanicsOrMoves P s t :=
  runQe_moves h fun _ _ hu => by
    obtain ⟨x, h1, hu⟩ := Res.bind_eq_ok.mp hu
    split at hu
    · cases hu; exact writeAlone_moves h1
    · simp at hu

/-! ## Creation -/

theorem badCreateFl_false {a : CreateFlArgs} (h : badCreateFl s i a = false) {q : IngressQueue} (hq : s.iqAt i = some q) :
    q.state = .idle ∧ q.fl = none ∧ 16 ≤ a.cap ∧ a.cap ≤ 65535 := by
  simp only [badCreateFl, hq, Bool.or_eq_false_iff, decide_eq_false_iff_not, not_lt] at h
  obtain ⟨⟨⟨⟨⟨⟨⟨⟨⟨hs, hf⟩, _⟩, h16⟩, hmax⟩, _⟩, _⟩, _⟩, _⟩, _⟩ := h
  exact ⟨not_not.mp hs, by simpa using hf, h16, hmax⟩

theorem newFl_fresh {a : CreateFlArgs} (d : ClusterLayout) (safe : Option ClusterLayout) (h1 : 16 ≤ a.cap)
    (h2 : a.cap ≤ 65535) : (newFl a d safe).fresh := by
  have hcap : (newFl a d safe).cap.toNat = a.cap := by simp [newFl]; omega
  have hpos : (0 : BitVec 16) < (newFl a d safe).cap := by rw [BitVec.lt_def, hcap]; simp; omega
  refine ⟨FreeList.inRange_iff.mpr ⟨hpos, hpos, ?_⟩, ?_, rfl, rfl, rfl⟩
  · rw [hcap]; simp [newFl]
  · simp [newFl, FreeList.buffers]

theorem createIq_moves {a : CreateIqArgs} (h : createIq i a s = .ok (u, r)) : Moves P s u := by
  unfold createIq at h
  split at h
  · simp at h
  · rename_i hb
    obtain ⟨s1, h1, h⟩ := Res.bind_eq_ok.mp h
    cases h
    have hz : Aside (s.setIq i (newIq a)) s1 := .of_ring (ringWriteAll_ok h1)
    have hd : Aside s1 (s1.setDevIq i { pidx := 0, gen := true, credits := BitVec.ofNat 16 (a.cap - 1), armed := false }) :=
      .of_rest
    exact (Moves.of_move (.newIngress (by simpa using hb))).tail_aside ((hz.trans hd).trans (.writeCredit _ _ _ _ _))

theorem createFl_moves {a : CreateFlArgs} (h : createFl i a s = .ok (u, r)) : Moves P s u := by
  unfold createFl at h
  split at h
  · simp at h
  · split at h
    · simp at h
    · rename_i hb
      split at h
      · simp at h
      · obtain ⟨q, q', s1, hq, hbody, rfl⟩ := onIq_ok h
        obtain ⟨s2, h1, h2⟩ := Res.bind_eq_ok.mp hbody
        cases h2
        obtain ⟨hs, hf, h16, hmax⟩ := badCreateFl_false (by simpa using hb) hq
        have ha : Aside s (s2.setDevFl i {}) := (Aside.of_ring (ringWriteAll_ok h1)).trans .of_rest
        have hq' : (s2.setDevFl i {}).iqAt i = some q := by rw [State.iqAt, ha.iq]; exact hq
        exact (Moves.of_aside ha).trans (.of_move (.newList hq' hs hf (newFl_fresh _ _ h16 hmax)))

theorem createEq_moves {a : CreateEqArgs} (h : createEq i a s = .ok (u, r)) : Moves P s u := by
  unfold createEq at h
  split at h
  · simp at h
  · rename_i hb
    obtain ⟨s1, h1, h⟩ := Res.bind_eq_ok.mp h
    cases h
    have hz : Aside (s.setEq i (newEq a)) s1 := .of_ring (ringWriteAll_ok h1)
    exact (Moves.of_move (.newEgress (by simpa using hb))).tail_aside (hz.trans .of_rest)

/-! ## Teardown -/

/-- A list torn down is empty, and nothing of it is saved. -/
theorem doomFl_moves {q : IngressQueue} {fl fl' : FreeList} (hq : s.iqAt i = some q) (hf : q.fl = some fl)
    (h : doomFl i fl s = .ok (fl', t)) :
    Moves P s (t.setIq i { q with fl := some fl' }) ∧ fl'.quiet ∧ t.iq = s.iq := by
  unfold doomFl at h
  obtain ⟨⟨fl1, s1⟩, h1, h⟩ := Res.bind_eq_ok.mp h
  obtain ⟨⟨sds, s2⟩, h2, h⟩ := Res.bind_eq_ok.mp h
  cases h
  have hdoom := Move.doom (P := P) hq hf
  obtain ⟨hresume, hfl1⟩ := dropResume_steps (D := True) h1
  obtain ⟨hslots, hnone⟩ := dropSlots_steps (D := True) (fl := fl1) (done := []) h2
  have hstart : (if fl.starving = true then s.setStarving (s.starving.erase i) else s) =
      s.setStarving (if fl.starving then s.starving.erase i else s.starving) := by split <;> rfl
  rw [hstart] at hresume
  obtain ⟨hrun, hiq, hwl⟩ := (hresume.trans hslots).moves (P := P) (i := i) (wl := s.worklist)
    (q := { q with fl := some { fl with doomed := true, starving := false } }) (getElem?_set_join hq) rfl
    fun _ _ => trivial
  rw [List.set_set] at hrun
  refine ⟨(Moves.of_move hdoom).trans ?_, ⟨by rw [hfl1], List.filterMap_eq_nil_iff.mpr hnone, by rw [hfl1]; rfl⟩, hiq⟩
  rw [setIq_eq_withIqs t, hiq, hwl]
  exact hrun

theorem teardownIq_moves {q q' : IngressQueue} (hq : s.iqAt i = some q) (h : teardownIq i q s = .ok (q', t, r)) :
    Moves P s (t.setIq i q') := by
  unfold teardownIq at h
  split at h
  · simp at h
  · split at h
    · simp at h
    · split at h
      · cases h
        rw [State.setIq, set_self (l := (s.raise .busyReject).iq) hq]
        exact .of_aside (.raise s _)
      · rename_i q1 hcas
        unfold casIdle at hcas
        split at hcas
        · rename_i hidle
          obtain rfl := Option.some.inj hcas
          split at h
          · rename_i hf
            cases h
            exact .of_move (.die hq hidle fun fl hfl => by rw [hf] at hfl; cases hfl)
          · rename_i fl hf
            obtain ⟨⟨fl1, s1⟩, h1, h⟩ := Res.bind_eq_ok.mp h
            cases h
            obtain ⟨hrun, hquiet, hiq⟩ := doomFl_moves (P := P) hq hf h1
            have hat : (t.setIq i { q with fl := some fl1 }).iqAt i = some { q with fl := some fl1 } := by
              exact State.setIq_iqAt_same _ _ _ _ (show t.iqAt i = some q by rw [State.iqAt, hiq]; exact hq)
            have hdie := Move.die (P := P) hat hidle fun fl2 hfl2 => by
              obtain rfl := Option.some.inj hfl2
              exact hquiet
            have hset : ((t.setIq i { q with fl := some fl1 }).setIq i
                { ({ q with fl := some fl1 } : IngressQueue) with state := .dead }) =
                t.setIq i { ({ q with state := .dead } : IngressQueue) with fl := some fl1 } := by
              simp [State.setIq]
            rw [hset] at hdie
            exact hrun.tail hdie
        · cases hcas

/-! ## The timer -/

theorem orElseSame_moves {x : Res State} (h : orElseSame s x = .ok t) (hx : x = .ok t → Moves P s t) : Moves P s t := by
  unfold orElseSame at h
  split at h
  · cases h; exact .refl
  · exact hx h

theorem tickFl_moves (h : tickFl i s = .ok t) : Moves P s t := by
  unfold tickFl at h
  split at h
  · rename_i q fl hq hf
    have hfl : q.fl = some fl := by rw [State.flAt, hq] at hf; exact hf
    refine orElseSame_moves h fun h => ?_
    obtain ⟨⟨fl1, s1, p, st⟩, h1, h⟩ := Res.bind_eq_ok.mp h
    have hsteps := (refill_steps (D := True) h1).1
    obtain ⟨hrun, hiq, _⟩ := hsteps.moves (P := P) (wl := s.worklist) hq hfl fun _ _ => trivial
    have hmoves : Moves P s (s1.setIq i { q with fl := some fl1 }) := .of_list hq hfl (fun _ _ => trivial) hsteps
    dsimp only at h
    split at h
    · cases h
      have hat : (s1.setIq i { q with fl := some fl1 }).iqAt i = some { q with fl := some fl1 } :=
        State.setIq_iqAt_same _ _ _ _ (show s1.iqAt i = some q by rw [State.iqAt, hiq]; exact hq)
      have hrel := Move.relieve (P := P) hat rfl
      have hset : ((s1.setIq i { q with fl := some fl1 }).setStarving (s1.starving.erase i)).setIq i
          { ({ q with fl := some fl1 } : IngressQueue) with fl := some { fl1 with starving := false } } =
          (s1.setStarving (s1.starving.erase i)).setIq i { q with fl := some { fl1 with starving := false } } := by
        simp [State.setIq, State.setStarving]
      rw [State.setIq_starving, hset] at hrel
      exact hmoves.tail hrel
    · cases h
      exact hmoves
  · cases h; exact .refl

theorem tickEq_moves (h : tickEq i s = .ok t) : Moves P s t := by
  unfold tickEq at h
  split at h
  · rename_i q hq
    refine orElseSame_moves h fun h => ?_
    obtain ⟨⟨q1, s1, d, c⟩, h1, h⟩ := Res.bind_eq_ok.mp h
    cases h
    exact .of_egress hq (reclaim_does h1)
  · cases h; exact .refl

theorem forEach_moves {f : Nat → State → Res State} (hf : ∀ i s t, f i s = .ok t → Moves P s t) {is : List Nat}
    (h : forEach f is s = .ok t) : Moves P s t := by
  induction is generalizing s with
  | nil => cases h; exact .refl
  | cons i is ih =>
    obtain ⟨s1, h1, h⟩ := Res.bind_eq_ok.mp h
    exact (hf i s s1 h1).trans (ih h)

theorem timerTick_moves (h : timerTick s = .ok (u, r)) : Moves P s u := by
  obtain ⟨s1, h1, h⟩ := Res.bind_eq_ok.mp h
  obtain ⟨s2, h2, h⟩ := Res.bind_eq_ok.mp h
  cases h
  exact (forEach_moves (fun _ _ _ => tickFl_moves) h1).trans (forEach_moves (fun _ _ _ => tickEq_moves) h2)

/-! ## Free lists and frames -/

theorem execRefill_moves {n : Nat} (h : execRefill i n s = .next t) : PanicsOrMoves P s t :=
  runQe_moves h fun u r hu => by
    obtain ⟨q, fl, fl', s', hq, hf, hb, rfl⟩ := onFl_ok hu
    split at hb
    · simp at hb
    · split at hb
      · simp at hb
      · obtain ⟨⟨fl1, s1, p, st⟩, h1, hb⟩ := Res.bind_eq_ok.mp hb
        cases hb
        obtain ⟨hrun, hd, hs⟩ := refill_steps (D := True) h1
        exact ((QSteps.of_list hf hrun).trans (registerStarving_steps (q := { q with fl := some fl1 }) rfl hd hs)).setIq_moves
          (D := True) (fun _ _ => trivial) hq

theorem execConsumeFrame_moves {n : BitVec 31} {nb : Bool} (hP : P → QuietDead s)
    (h : execConsumeFrame i n nb s = .next t) : PanicsOrMoves P s t :=
  runQe_moves h fun u r hu => by
    obtain ⟨q, fl, fl', s', hq, hf, hb, rfl⟩ := onFl_ok hu
    split at hb
    · simp at hb
    · split at hb
      · simp at hb
      · obtain ⟨⟨f, fl1, s1⟩, h1, hb⟩ := Res.bind_eq_ok.mp hb
        obtain ⟨hheld, hrun⟩ := consumeFrame_steps (D := P ∧ q.state = .dead) (fun d => hP d.1 i q hq d.2 fl hf) h1
        dsimp only at hb
        split at hb
        · rename_i f
          cases hb
          have hrun : FlSteps (P ∧ q.state = .dead) (fl, s.begin) (_, s1.setHeld (s.begin.held ++ f.segs)) := hrun
          rw [← hheld] at hrun
          exact .of_list hq hf (fun a b => ⟨a, b⟩) (hrun.tail_aside (.setGiven _ _))
        · cases hb
          exact .of_list hq hf (fun a b => ⟨a, b⟩) hrun

theorem execFrameRelease_moves {g : Segment} (h : execFrameRelease g s = .next t) : PanicsOrMoves P s t :=
  runQe_moves h fun u _ hu => by
    split at hu
    · rename_i hg
      obtain ⟨s1, h1, hu⟩ := Res.bind_eq_ok.mp hu
      cases hu
      obtain ⟨l, l', -, hheld, herase⟩ := List.exists_erase_eq hg
      obtain ⟨a, hp, hu⟩ := releaseSegment_ok h1
      have hrel := releaseSegment_steps (l := l) (l' := l') h1
      rw [← hheld, ← herase] at hrel
      rw [show u.setHeld (s.begin.held.erase g) = u by rw [hu]; rfl] at hrel
      exact hrel.moves
    · split at hu <;> simp at hu

theorem execFle_moves {e : Fle} (h : execFle i e s = .next t) : PanicsOrMoves P s t :=
  runQe_moves h fun _ _ hu => onFl_moves hu fun fl fl' u hf => by
    split at hf
    · simp at hf
    · split at hf
      · simp at hf
      · obtain ⟨s1, h1, hf⟩ := Res.bind_eq_ok.mp hf
        cases hf
        exact .of_aside _ (.ringWrite h1)

/-! ## Ingress service -/

/-- A service call and its end, of a queue that was Idle. -/
theorem serviceAndFinish_moves {q q' : IngressQueue} (hq : s.iqAt i = some q) (hs : q.state = .idle)
    (h : serviceAndFinish i { q with state := .busy } s = .ok (q', t, r)) : Moves P s (t.setIq i q') := by
  obtain ⟨⟨q1, s1, b⟩, h1, h⟩ := Res.bind_eq_ok.mp h
  have hheld : Held False i { q with state := .busy } s := ⟨False.elim, q, hq, rfl⟩
  have hrun := service_steps hheld h1
  obtain ⟨hm, hst, c, hc⟩ := hrun.service_moves (P := P) (x := .idle) (pre := []) (fun _ hd => nomatch hd) ⟨q, hq⟩
  have hend := hm.trans (finish_moves b hc)
  rw [show inPlace s.iq i .idle { q with state := .busy } = s.iq by
    rw [inPlace, show ({ ({ q with state := .busy } : IngressQueue) with state := .idle }) = q by rw [← hs]]
    exact set_self hq] at hend
  dsimp only at h
  rw [finishService_eq, show q1.state = .busy from hst] at h
  cases h
  exact hend

theorem serviceAndFinish_deferred {q q' : IngressQueue} {l : List Nat} (hP : P → q.state = .dead → q.quiet)
    (hl : s.worklist = i :: l) (hq : s.iqAt i = some q)
    (h : serviceAndFinish i q (s.setWorklist l) = .ok (q', t, r)) : Moves P s (t.setIq i q') := by
  obtain ⟨⟨q1, s1, b⟩, h1, h⟩ := Res.bind_eq_ok.mp h
  have hheld : Held (P ∧ q.state = .dead) i q (s.setWorklist l) := ⟨fun d => hP d.1 d.2, q, hq, rfl⟩
  have hrun := service_steps hheld h1
  obtain ⟨hm, hst, c, hc⟩ := hrun.service_moves (P := P) (x := q.state) (pre := [i]) (fun a b => ⟨a, b⟩) ⟨q, hq⟩
  have hstart : (s.setWorklist l).withIqs (inPlace (s.setWorklist l).iq i q.state q) ([i] ++ (s.setWorklist l).worklist) = s := by
    rw [inPlace, show (s.setWorklist l).iq = s.iq from rfl, set_self (l := s.iq) hq]
    simp only [State.withIqs, State.setWorklist, List.singleton_append, ← hl]
  have hq1 : ({ q1 with state := q.state } : IngressQueue) = q1 := by rw [← show q1.state = q.state from hst]
  rw [hstart, inPlace, hq1] at hm
  have hat : (s1.withIqs (s1.iq.set i (some q1)) ([i] ++ s1.worklist)).iqAt i = some q1 := getElem?_set_join hc
  dsimp only at h
  rw [finishService_eq] at h
  cases b with
  | true =>
    cases h
    have hend := Move.unpark (P := P) (s := s1.withIqs (s1.iq.set i (some q1)) ([i] ++ s1.worklist)) rfl hat
    rw [setIq_eq_withIqs] at hend
    simp only [State.withIqs, State.setWorklist, List.set_set] at hend
    simp only [if_true, List.append_nil]
    exact hm.tail hend
  | false =>
    cases h
    exact hm.tail (.rotate (s := s1.withIqs (s1.iq.set i (some q1)) ([i] ++ s1.worklist)) rfl)

theorem execInterrupt_moves (h : execInterrupt i s = .next t) : PanicsOrMoves P s t :=
  runQe_moves h fun u r hu => by
    obtain ⟨q, q', s1, hq, hb, rfl⟩ := onIq_ok hu
    split at hb
    · simp at hb
    · split at hb
      · simp at hb
      · unfold enterService casIdle at hb
        by_cases hidle : q.state = .idle
        · rw [if_pos hidle] at hb
          exact serviceAndFinish_moves hq hidle hb
        · rw [if_neg hidle] at hb
          cases hb
          rw [State.setIq, set_self (l := (s.begin.raise .busyReject).iq) hq]
          exact .of_aside (.raise _ _)

theorem execService_moves {b : BitVec 16} (h : execService i b s = .next t) : PanicsOrMoves P s t :=
  runQe_moves h fun u r hu => by
    obtain ⟨q, q', s1, hq, hb, rfl⟩ := onIq_ok hu
    split at hb
    · simp at hb
    · rename_i hdead
      split at hb
      · simp at hb
      · obtain ⟨⟨q1, s1, d⟩, h1, hb⟩ := Res.bind_eq_ok.mp hb
        cases hb
        have hrun := service_steps (D := False) ⟨False.elim, q, hq, rfl⟩ h1
        exact hrun.setIq_moves (fun _ => hdead) hq

theorem execDeferredRun_moves (hP : P → QuietDead s) (h : execDeferredRun s = .next t) : PanicsOrMoves P s t :=
  runQe_moves h fun u r hu => by
    split at hu
    · cases hu; exact .refl
    · rename_i i l hl
      obtain ⟨q, q', s1, hq, hb, rfl⟩ := onIq_ok hu
      exact serviceAndFinish_deferred (s := s.begin) (fun p => hP p i q hq) hl hq hb

theorem dispatchAlone_moves {f : Flit × Flit} {arm : IngressQueue → State → Res (Bool × IngressQueue × State)}
    (ha : ArmSteps (Forwards i) False i arm) (h : dispatchAlone i f arm s = .ok (u, r)) : Moves P s u := by
  obtain ⟨q, q', s1, hq, hb, rfl⟩ := onIq_ok h
  split at hb
  · simp at hb
  · rename_i hdead
    split at hb
    · simp at hb
    · split at hb
      · obtain ⟨⟨b, q1, s1⟩, h1, hb⟩ := Res.bind_eq_ok.mp hb
        cases hb
        have hrun := afterGenCheck_steps ha _ _ _ _ _ ⟨False.elim, q, hq, rfl⟩ h1
        cases b with
        | true => exact (hrun.trans (advanceCursor_steps q1 s1)).setIq_moves (fun _ => hdead) hq
        | false => exact hrun.setIq_moves (fun _ => hdead) hq
      · cases hb
        rw [State.setIq, set_self hq]

theorem execIqeRx_moves {e : RxEntry} (h : execIqeRx i e s = .next t) : PanicsOrMoves P s t :=
  runQe_moves h fun _ _ hu => dispatchAlone_moves (fun _ _ _ _ _ hq ha => dispatchRx_steps hq.1 ha) hu

theorem execIqeEgrUpdate_moves {e : EgrUpdateEntry} (h : execIqeEgrUpdate i e s = .next t) : PanicsOrMoves P s t :=
  runQe_moves h fun _ _ hu => dispatchAlone_moves (fun q q' u v b _ ha => by
    obtain ⟨⟨q1, s1⟩, h1, h2⟩ := Res.bind_eq_ok.mp ha
    cases h2
    exact egrUpdate_steps h1) hu

theorem execIqeOob_moves {e : OobEntry} (h : execIqeOob i e s = .next t) : PanicsOrMoves P s t :=
  runQe_moves h fun _ _ hu => dispatchAlone_moves (fun q q' u v b _ ha => by
    cases ha
    exact dispatchOob_steps _ _ _ q u) hu

theorem execIqeFwd_moves {e : FwdEntry} (h : execIqeFwd i e s = .next t) : PanicsOrMoves P s t :=
  runQe_moves h fun _ _ hu => dispatchAlone_moves (fun q q' u v b hq ha => by
    obtain ⟨⟨q1, s1⟩, h1, h2⟩ := Res.bind_eq_ok.mp ha
    cases h2
    exact dispatchFwd_steps False i _ _ _ _ _ _ _ _ hq h1) hu

theorem execIqeReserved_moves {e : ReservedEntry} (h : execIqeReserved i e s = .next t) : PanicsOrMoves P s t :=
  runQe_moves h fun _ _ hu => dispatchAlone_moves (fun q q' u v b _ ha => by
    cases ha
    exact violation_steps q u _ _) hu

end

end Sys2Proof.Machine
end

section
/-! PROOFS. Every instruction and the step: a panic, or a run of moves. -/

namespace Sys2Proof.Machine

section
variable {P : Prop} {s t : State} {i : Nat}

/-! ## Egress queues -/

theorem execTeardownIq_moves (h : execTeardownIq i s = .next t) : PanicsOrMoves P s t :=
  runQe_moves h fun u r hu => by
    obtain ⟨q, q', s1, hq, hb, rfl⟩ := onIq_ok hu
    exact teardownIq_moves hq hb

theorem execTeardownEq_moves (h : execTeardownEq i s = .next t) : PanicsOrMoves P s t :=
  runQe_moves h fun _ _ hu => onEq_moves hu fun _ _ _ hq => teardownEq_does hq

theorem execSubmit_moves {p : Packet} (h : execSubmit i p s = .next t) : PanicsOrMoves P s t :=
  runQe_moves h fun _ _ hu => onEq_moves hu fun _ _ _ hq => submit_does hq

theorem execSubmitWr_moves {fs : List Flit} (h : execSubmitWr i fs s = .next t) : PanicsOrMoves P s t :=
  runQe_moves h fun _ _ hu => onEq_moves hu fun _ _ _ hq => submitWr_does hq

theorem execTxpktsFlush_moves (h : execTxpktsFlush i s = .next t) : PanicsOrMoves P s t :=
  runQe_moves h fun _ _ hu => onEq_moves hu fun q q' u hq => by
    obtain ⟨⟨q1, s1⟩, h1, hq⟩ := Res.bind_eq_ok.mp hq
    cases hq
    exact txpktsFlushCommand_does h1

theorem execReclaim_moves {n : BitVec 16} (h : execReclaim i n s = .next t) : PanicsOrMoves P s t :=
  runQe_moves h fun _ _ hu => onEq_moves hu fun q q' u hq => by
    obtain ⟨⟨q1, s1, d, c⟩, h1, hq⟩ := Res.bind_eq_ok.mp hq
    cases hq
    exact reclaim_does h1

theorem execNotify_moves {q : QRef} (h : execNotify q s = .next t) : PanicsOrMoves P s t :=
  runQe_moves h fun _ _ hu => by
    cases q with
    | fl i =>
      refine onFl_moves hu fun fl fl' u hf => ?_
      obtain ⟨⟨fl1, s1⟩, h1, hf⟩ := Res.bind_eq_ok.mp hf
      cases hf
      exact notifyFl_steps h1
    | eq i =>
      refine onEq_moves hu fun q q' u hq => ?_
      obtain ⟨⟨q1, s1⟩, h1, hq⟩ := Res.bind_eq_ok.mp hq
      cases hq
      exact notifyEq_does h1

theorem execTxDone_moves (h : execTxDone i s = .next t) : PanicsOrMoves P s t :=
  runQe_moves h fun _ _ hu => onEq_moves hu fun q q' u hq => by
    split at hq
    · obtain ⟨⟨q1, s1⟩, h1, hq⟩ := Res.bind_eq_ok.mp hq
      cases hq
      exact (EqDoes.of_aside (.raise _ _)).trans (notifyEq_does h1)
    · obtain ⟨⟨q1, s1⟩, h1, hq⟩ := Res.bind_eq_ok.mp hq
      obtain ⟨⟨q2, s2⟩, h2, hq⟩ := Res.bind_eq_ok.mp hq
      cases hq
      exact (txpktsFlushCommand_does h1).trans (notifyEq_does h2)

theorem execTxpktsOpen_moves (h : execTxpktsOpen i s = .next t) : PanicsOrMoves P s t :=
  runQe_moves h fun _ _ hu => onEq_moves hu fun q q' u hq => by
    split at hq
    · simp at hq
    · split at hq
      · simp at hq
      · rename_i hno
        cases hq
        simp only [Bool.or_eq_true, not_or, Bool.not_eq_true] at hno
        exact .of_move (.opened hno.1.2)

theorem execTxpktsAdd_moves {p : Packet} (h : execTxpktsAdd i p s = .next t) : PanicsOrMoves P s t :=
  runQe_moves h fun _ _ hu => onEq_moves hu fun q q' u hq => by
    split at hq
    · simp at hq
    · split at hq
      · simp at hq
      · rename_i hno
        obtain ⟨⟨q1, s1⟩, h1, hq⟩ := Res.bind_eq_ok.mp hq
        cases hq
        simp only [Bool.or_eq_true, not_or, Bool.not_eq_true, Bool.not_eq_true'] at hno
        obtain ⟨⟨_, hopen⟩, hadd⟩ := hno
        exact txpktsAdd_does (by simpa using hopen) (by simpa using hadd) h1

theorem execResumeCheck_moves {hw : BitVec 16} (h : execResumeCheck i hw s = .next t) : PanicsOrMoves P s t :=
  runQe_moves h fun _ _ hu => onEq_moves hu fun q q' u hq => by
    split at hq
    · simp at hq
    · split at hq
      · simp at hq
      · cases hq
        exact resumeCheck_does i hw q _

/-! ## Requests and their parts -/

theorem placeable_iff {c : Cfg} {q : EgressQueue} {f : Nat} : placeable c q f = true ↔
    q.state = .active ∧ q.txpkts.isOpen = false ∧ f ≤ c.wrMaxFlits ∧ ceilDiv f 8 ≤ q.avail.toNat := by
  simp [placeable, and_assoc]

/-- A request placed with the maps of its packets. -/
theorem placeRequest_takeMaps_does {ps : List Nat} {fs : List Flit} {np : Nat} {q q' : EgressQueue} {r : Ret}
    (ho : q.txpkts.isOpen = false) (hl : 0 < fs.length) (hf : ps.length ≤ q.mapsFree.toNat)
    (h : placeRequest fs ps.length np (takeMaps ps q s).1 (takeMaps ps q s).2 = .ok (q', t, r)) : EqDoes q s q' t := by
  obtain ⟨ms, hms, hq, ha⟩ := takeMaps_eq ps q s
  rw [hq, ← hms] at h
  exact (EqDoes.of_aside ha).trans (placeRequest_does ho hl (hms ▸ hf) h)

theorem execEthTxPkt_moves {pkt : Nat} {w : WrHeader} {body : List Flit} (h : execEthTxPkt i pkt w body s = .next t) :
    PanicsOrMoves P s t :=
  runQe_moves h fun _ _ hu => onEq_moves hu fun q q' u hq => by
    split at hq
    · simp at hq
    · split at hq
      · simp at hq
      · rename_i hno
        simp only [Bool.or_eq_true, not_or, Bool.not_eq_true, Bool.not_eq_false'] at hno
        obtain ⟨_, hopen, _, _⟩ := placeable_iff.mp hno.1
        split at hq
        · simp at hq
        · split at hq
          · exact (EqDoes.of_aside (.emit _ _)).trans
              (placeRequest_takeMaps_does (ps := []) hopen (by simp [encodeHeader]) (Nat.zero_le _) hq)
          · split at hq
            · simp at hq
            · rename_i hfree
              simp only [Bool.or_eq_true, decide_eq_true_eq, not_or] at hfree
              have hone : 1 ≤ q.mapsFree.toNat := by
                have := hfree.1
                bv_omega
              exact placeRequest_takeMaps_does (ps := [pkt]) hopen (by simp [encodeHeader]) hone hq

theorem execEthTxPkts_moves {pkts : List Nat} {w : WrHeader} {body : List Flit}
    (h : execEthTxPkts i pkts w body s = .next t) : PanicsOrMoves P s t :=
  runQe_moves h fun _ _ hu => onEq_moves hu fun q q' u hq => by
    split at hq
    · simp at hq
    · split at hq
      · simp at hq
      · rename_i hno
        simp only [Bool.or_eq_true, not_or, Bool.not_eq_true, Bool.not_eq_false', decide_eq_true_eq, Nat.not_lt] at hno
        obtain ⟨⟨⟨⟨⟨⟨hplace, _⟩, _⟩, _⟩, _⟩, hfree⟩, _⟩ := hno
        obtain ⟨_, hopen, _, _⟩ := placeable_iff.mp hplace
        split at hq
        · simp at hq
        · split at hq
          · simp at hq
          · exact placeRequest_takeMaps_does hopen (by simp [encodeHeader]) hfree hq

theorem execWrOpaque_moves {fs : List Flit} (h : execWrOpaque i fs s = .next t) : PanicsOrMoves P s t :=
  runQe_moves h fun _ _ hu => onEq_moves hu fun q q' u hq => by
    split at hq
    · simp at hq
    · split at hq
      · simp at hq
      · rename_i hno
        simp only [Bool.or_eq_true, not_or, Bool.not_eq_true, Bool.not_eq_false'] at hno
        obtain ⟨_, hopen, _, _⟩ := placeable_iff.mp hno.2
        have hlen := badRequest_length hno.1
        exact placeRequest_takeMaps_does (ps := []) hopen (by omega) (Nat.zero_le _) hq

theorem execWrReserved00_moves {fs : List Flit} (h : execWrReserved00 i fs s = .next t) : PanicsOrMoves P s t :=
  runQe_moves h fun _ _ hu => onEq_moves hu fun q q' u hq => by
    split at hq <;> simp at hq

theorem writePart_moves {k : Nat} {legal : Bool} {fs : List Flit} {u : State} {r : Ret}
    (h : writePart i k legal fs s = .ok (u, r)) : Moves P s u := by
  refine onEq_moves h fun q q' u hq => ?_
  split at hq
  · simp at hq
  · split at hq
    · simp at hq
    · obtain ⟨s1, h1, hq⟩ := Res.bind_eq_ok.mp hq
      cases hq
      exact .of_aside (.writeFlits h1)

/-! ## The device -/

theorem writeStatus_aside {q : QRef} {r : Sp} {x : Ret} (h : writeStatus s q r = .ok (some (t, x))) : Aside s t := by
  obtain ⟨_, a, rfl⟩ := writeStatus_ok h
  exact .of_ring ⟨_, rfl, fun hw => Memory.putFlit_wf hw _ _⟩

theorem devPlace_aside {fl : FreeList} {n : Nat} {bs : List Byte} {d d' : DevFl}
    (h : devPlace fl n bs d s = .ok (some (d', t))) : Aside s t := by
  induction n generalizing bs d s with
  | zero =>
    simp only [devPlace, Except.ok.injEq, Option.ite_none_right_eq_some, Option.some.injEq, Prod.mk.injEq] at h
    obtain ⟨_, _, rfl⟩ := h
    exact .refl s
  | succ n ih =>
    unfold devPlace at h
    split at h
    · cases h; exact .refl _
    · split at h
      · cases h
      · obtain ⟨w, _, h⟩ := Res.bind_eq_ok.mp h
        dsimp only at h
        split at h
        · cases h
        · obtain ⟨s1, h1, h⟩ := Res.bind_eq_ok.mp h
          exact (Aside.bufWrite h1).trans (ih h)

theorem devPost_aside {q : IngressQueue} {d : DevIq} {f : Flit × Flit} (h : devPost i q d f s = .ok t) : Aside s t := by
  obtain ⟨s1, h1, h⟩ := Res.bind_eq_ok.mp h
  obtain ⟨s2, h2, h⟩ := Res.bind_eq_ok.mp h
  cases h
  exact ((Aside.ringWrite h1).trans (.ringWrite h2)).trans .of_rest

theorem execSp_moves {q : QRef} {r : Sp} (h : execSp q r s = .next t) : PanicsOrMoves P s t :=
  runDevice_moves h fun _ _ hu => by
    split at hu
    · exact .of_aside (writeStatus_aside hu)
    · cases hu

theorem execDevDb_moves {w : MmioWrite} (h : execDevDb w s = .next t) : PanicsOrMoves P s t :=
  runDevice_moves h fun _ _ hu => by
    split at hu
    · cases hu
    · obtain ⟨x, h1, hu⟩ := Res.bind_eq_ok.mp hu
      cases x with
      | none => cases hu
      | some v => cases hu; exact writeAlone_moves h1

theorem execDevFl_moves {k : Nat} (h : execDevFl i k s = .next t) : PanicsOrMoves P s t :=
  runDevice_moves h fun _ _ hu => by
    split at hu
    · split at hu
      · obtain ⟨w, _, hu⟩ := Res.bind_eq_ok.mp hu
        cases hu; exact .refl
      · cases hu
    · cases hu

theorem execDevRx_moves {bs : List Byte} {fm : FrameMeta} {skip : Bool} (h : execDevRx i bs fm skip s = .next t) :
    PanicsOrMoves P s t :=
  runDevice_moves h fun _ _ hu => by
    split at hu
    · split at hu
      · cases hu
      · obtain ⟨x, h1, hu⟩ := Res.bind_eq_ok.mp hu
        split at hu
        · cases hu
        · obtain ⟨s2, h2, hu⟩ := Res.bind_eq_ok.mp hu
          cases hu
          exact .of_aside (((devPlace_aside h1).trans (devPost_aside h2)).trans .of_rest)
    · cases hu

theorem execDevOob_moves {f : Flit} (h : execDevOob i f s = .next t) : PanicsOrMoves P s t :=
  runDevice_moves h fun _ _ hu => by
    split at hu
    · split at hu
      · cases hu
      · obtain ⟨s1, h1, hu⟩ := Res.bind_eq_ok.mp hu
        cases hu
        exact .of_aside (devPost_aside h1)
    · cases hu

theorem execDevFwd_moves {p k : Nat} (h : execDevFwd p k s = .next t) : PanicsOrMoves P s t :=
  runDevice_moves h fun _ _ hu => by
    split at hu
    · dsimp only at hu
      split at hu
      · split at hu
        · obtain ⟨s1, h1, hu⟩ := Res.bind_eq_ok.mp hu
          cases hu
          exact .of_aside (Aside.of_rest.trans (devPost_aside h1))
        · cases hu
      · cases hu
    · cases hu

theorem execDevTx_moves (h : execDevTx i s = .next t) : PanicsOrMoves P s t :=
  runDevice_moves h fun _ _ hu => by
    split at hu
    · split at hu
      · cases hu
      · obtain ⟨f0, _, hu⟩ := Res.bind_eq_ok.mp hu
        split at hu
        · cases hu
        · obtain ⟨fs, _, hu⟩ := Res.bind_eq_ok.mp hu
          cases hu
          exact .of_aside .of_rest
    · cases hu

theorem execDevStatus_moves {q : QRef} (h : execDevStatus q s = .next t) : PanicsOrMoves P s t :=
  runDevice_moves h fun _ _ hu => by
    split at hu
    · exact .of_aside (writeStatus_aside hu)
    · cases hu

theorem execDevIntr_moves (h : execDevIntr i s = .next t) : PanicsOrMoves P s t :=
  runDevice_moves h fun _ _ hu => by
    split at hu
    · split at hu
      · cases hu; exact .of_aside .of_rest
      · cases hu
    · cases hu

/-! ## Every instruction, and the step -/

theorem execFindBestRefillSource_moves {n : BitVec 32} {b : Bool} (h : execFindBestRefillSource n b s = .next t) :
    PanicsOrMoves P s t := runQe_moves h fun _ _ hu => by cases hu; exact .refl

theorem execFindSafeRefillSource_moves {b : Bool} (h : execFindSafeRefillSource b s = .next t) : PanicsOrMoves P s t :=
  runQe_moves h fun _ _ hu => by cases hu; exact .refl

/-- Every instruction's transition panics, or is a run of moves that may rely on the lists of torn-down queues being empty. -/
theorem exec_moves {k : Instr} (hP : P → QuietDead s) (h : exec k s = .next t) : PanicsOrMoves P s t := by
  cases k with
  | createIq => exact runQe_moves h fun _ _ => createIq_moves
  | createFl => exact runQe_moves h fun _ _ => createFl_moves
  | createEq => exact runQe_moves h fun _ _ => createEq_moves
  | teardownIq => exact execTeardownIq_moves h
  | teardownEq => exact execTeardownEq_moves h
  | timerTick => exact runQe_moves h fun _ _ => timerTick_moves
  | refill => exact execRefill_moves h
  | frameRelease => exact execFrameRelease_moves h
  | interrupt => exact execInterrupt_moves h
  | service => exact execService_moves h
  | deferredRun => exact execDeferredRun_moves hP h
  | submit => exact execSubmit_moves h
  | submitWr => exact execSubmitWr_moves h
  | txpktsFlush => exact execTxpktsFlush_moves h
  | reclaim => exact execReclaim_moves h
  | notify => exact execNotify_moves h
  | txDone => exact execTxDone_moves h
  | findBestRefillSource => exact execFindBestRefillSource_moves h
  | findSafeRefillSource => exact execFindSafeRefillSource_moves h
  | consumeFrame => exact execConsumeFrame_moves hP h
  | txpktsOpen => exact execTxpktsOpen_moves h
  | txpktsAdd => exact execTxpktsAdd_moves h
  | resumeCheck => exact execResumeCheck_moves h
  | iqeRx => exact execIqeRx_moves h
  | iqeEgrUpdate => exact execIqeEgrUpdate_moves h
  | iqeOob => exact execIqeOob_moves h
  | iqeFwd => exact execIqeFwd_moves h
  | iqeReserved => exact execIqeReserved_moves h
  | ethTxPkt => exact execEthTxPkt_moves h
  | ethTxPkts => exact execEthTxPkts_moves h
  | wrOpaque => exact execWrOpaque_moves h
  | wrReserved00 _ fs => exact execWrReserved00_moves (fs := fs) h
  | lso | txpkt | sgl | immediateData => exact runQe_moves h fun _ _ => writePart_moves
  | fle => exact execFle_moves h
  | dbw | icw | wcBurst => exact execWrite_moves h
  | sp => exact execSp_moves h
  | devDb => exact execDevDb_moves h
  | devFl => exact execDevFl_moves h
  | devRx => exact execDevRx_moves h
  | devOob => exact execDevOob_moves h
  | devFwd => exact execDevFwd_moves h
  | devTx => exact execDevTx_moves h
  | devStatus => exact execDevStatus_moves h
  | devIntr => exact execDevIntr_moves h

theorem refuseWords_moves (h : refuseWords s = .next t) : PanicsOrMoves P s t :=
  runQe_moves h fun _ _ hu => by simp at hu

/-- A step does nothing, or takes the head off the port and panics, or runs moves from there. -/
theorem step_moves (hP : P → QuietDead s) (h : step s = .next t) :
    (s.port = [] ∧ t = s) ∨ PanicsOrMoves P (s.setPort s.port.tail) t := by
  unfold step at h
  split at h
  · rename_i hport
    cases h
    exact .inl ⟨hport, rfl⟩
  · rename_i w rest hport
    rw [hport, List.tail_cons]
    refine .inr ?_
    split at h
    · split at h
      · exact exec_moves (s := s.setPort rest) hP h
      · exact refuseWords_moves h
    · exact refuseWords_moves h

end

end Sys2Proof.Machine
end

section
/-! PROOFS. What every move keeps, and so every step: the trace, the memories, the indices of the rings, the egress accounting,
the accumulator's bounds and the worklist (10_state R21, R46, R52, R57, 44_coalescing R357). -/

namespace Sys2Proof.Machine

/-! ## From moves to steps -/

/-- An invariant that every move keeps is kept by every step that does not panic. -/
theorem step_keeps_invariant {P : Prop} {I : State → Prop} {s t : State} (hP : P → QuietDead s)
    (hport : ∀ ws, I s → I (s.setPort ws)) (hI : ∀ {u v}, Move P u v → I u → I v) (hs : I s) (h : step s = .next t) :
    t.panic = true ∨ I t := by
  obtain ⟨_, rfl⟩ | rfl | hm := step_moves hP h
  · exact .inr hs
  · exact .inl rfl
  · refine .inr ?_
    have hrun : ∀ {u v}, Moves P u v → I u → I v := by
      intro u v hm hu
      induction hm with
      | refl => exact hu
      | tail _ h ih => exact hI h ih
    exact hrun hm (hport _ hs)

/-- The same for an invariant of the states that have not panicked. -/
theorem step_keeps_unlessPanic {P : Prop} {I : State → Prop} {s t : State} (hP : I s → P → QuietDead s)
    (hport : ∀ ws, I s → I (s.setPort ws)) (hI : ∀ {u v}, Move P u v → I u → I v) (hs : UnlessPanic I s)
    (h : step s = .next t) : UnlessPanic I t := by
  rcases hs with hp | hs
  · obtain hpanic | ⟨hkeep, _⟩ := step_keeps h
    · exact .inl hpanic
    · exact .inl (hkeep.trans hp)
  · exact step_keeps_invariant (hP hs) hport hI hs h

/-! ## The trace and the memories -/

/-- The configuration and the port are as they were, the events and the MMIO writes have only grown, and the memories are still in
their canonical form. -/
def Grows (s t : State) : Prop :=
  t.cfg = s.cfg ∧ t.port = s.port ∧ s.out <+: t.out ∧ s.mmio <+: t.mmio ∧ (s.ring.wf → t.ring.wf) ∧ (s.buf.wf → t.buf.wf)

theorem Grows.of_same {s t : State} (h1 : t.cfg = s.cfg) (h2 : t.port = s.port) (h3 : t.out = s.out) (h4 : t.mmio = s.mmio)
    (h5 : t.ring = s.ring) (h6 : t.buf = s.buf) : Grows s t :=
  ⟨h1, h2, h3 ▸ List.prefix_refl _, h4 ▸ List.prefix_refl _, h5 ▸ id, h6 ▸ id⟩

theorem Grows.trans {s t u : State} (h : Grows s t) (h' : Grows t u) : Grows s u := by
  obtain ⟨h1, h2, h3, h4, h5, h6⟩ := h
  obtain ⟨k1, k2, k3, k4, k5, k6⟩ := h'
  exact ⟨k1.trans h1, k2.trans h2, h3.trans k3, h4.trans k4, k5 ∘ h5, k6 ∘ h6⟩

theorem Move.grows {P : Prop} {s t : State} (h : Move P s t) : Grows s t := by
  cases h with
  | aside h => exact ⟨h.cfg, h.port, h.out, h.mmio, h.ring, h.buf⟩
  | stock h => cases h <;> exact .of_same rfl rfl rfl rfl rfl rfl
  | list _ _ _ h => cases h <;> exact .of_same rfl rfl rfl rfl rfl rfl
  | _ => exact .of_same rfl rfl rfl rfl rfl rfl

theorem Moves.grows {P : Prop} {s t : State} (h : Moves P s t) : Grows s t := by
  induction h with
  | refl => exact .of_same rfl rfl rfl rfl rfl rfl
  | tail _ h ih => exact ih.trans h.grows

theorem takePanic_grows (s : State) : Grows s (takePanic s) :=
  ⟨rfl, rfl, List.prefix_append _ _, List.prefix_append _ _, fun _ => Memory.canon_wf _, fun _ => Memory.canon_wf _⟩

/-- A step does nothing, or takes the head off the port and then only grows the trace. -/
theorem step_grows {s t : State} (h : step s = .next t) : Grows (s.setPort s.port.tail) t := by
  obtain ⟨hport, rfl⟩ | rfl | hm := step_moves (P := False) False.elim h
  · exact .of_same rfl (hport.trans (congrArg List.tail hport).symm) rfl rfl rfl rfl
  · exact takePanic_grows _
  · exact hm.grows

/-- Settles O10: no move takes a memory out of its canonical form, and a panic leaves it so. -/
theorem memoriesStayCanonical : Obligations.MemoriesStayCanonical := by
  intro s t ⟨hr, hb⟩ h
  obtain ⟨_, _, _, _, h5, h6⟩ := step_grows h
  exact ⟨h5 hr, h6 hb⟩

/-- Settles O11: each move, and the panic, leaves the configuration and the port, and only appends to the trace. -/
theorem traceOnlyGrows : Obligations.TraceOnlyGrows := by
  intro s t h
  obtain ⟨h1, h2, h3, h4, _, _⟩ := step_grows h
  exact ⟨h1, h3, h4, h2⟩

/-! ## The contexts of the queues -/

/-- Every ingress queue's context satisfies `p`. -/
def AllIq (p : IngressQueue → Prop) (s : State) : Prop := ∀ i q, s.iqAt i = some q → p q

/-- Every egress queue's context satisfies `p`. -/
def AllEq (p : EgressQueue → Prop) (s : State) : Prop := ∀ i q, s.eqAt i = some q → p q

section
variable {p : IngressQueue → Prop} {pe : EgressQueue → Prop} {s t : State}

theorem AllIq.of_eq (h : t.iq = s.iq) (hs : AllIq p s) : AllIq p t := fun i q hq => hs i q (by rwa [State.iqAt, h] at hq)

theorem AllEq.of_eq (h : t.eq = s.eq) (hs : AllEq pe s) : AllEq pe t := fun i q hq => hs i q (by rwa [State.eqAt, h] at hq)

theorem AllIq.setIq {i : Nat} {q : IngressQueue} (hs : AllIq p s) (hq : p q) : AllIq p (s.setIq i q) := by
  intro j w hw
  rw [State.setIq_iqAt] at hw
  split at hw
  · obtain rfl := Option.some.inj hw; exact hq
  · exact hs j w hw

theorem AllEq.setEq {i : Nat} {q : EgressQueue} (hs : AllEq pe s) (hq : pe q) : AllEq pe (s.setEq i q) := by
  intro j w hw
  rw [State.setEq_eqAt] at hw
  split at hw
  · obtain rfl := Option.some.inj hw; exact hq
  · exact hs j w hw

end

/-- What a move does to the egress queues: a move of one, a new one, or nothing. -/
theorem Move.allEq {P : Prop} {s t : State} {p : EgressQueue → Prop} (h : Move P s t)
    (hmove : ∀ q q', EqMove s.cfg q q' → p q → p q') (hnew : ∀ i a, badCreateEq s i a = false → p (newEq a)) (hs : AllEq p s) :
    AllEq p t := by
  cases h with
  | aside h => exact hs.of_eq h.eq
  | stock h => cases h <;> exact hs
  | egress hq h => exact hs.setEq (hmove _ _ h (hs _ _ hq))
  | newEgress h => exact hs.setEq (hnew _ _ h)
  | list _ _ _ h => cases h <;> exact hs
  | _ => exact hs

/-! ## The indices -/

theorem IngressQueue.inRange_iff {q : IngressQueue} :
    q.inRange = true ↔ q.cidx < q.cap ∧ ∀ fl, q.fl = some fl → fl.inRange = true := by
  unfold IngressQueue.inRange
  cases q.fl <;> simp

theorem ListMove.inRange {D : Prop} {a b : FreeList × State} (h : ListMove D a b) (ha : a.1.inRange = true) :
    b.1.inRange = true := by
  cases h with
  | plain _ hr => exact hr ha
  | fill => rw [setSlot_inRange]; exact ha
  | giveUp => rw [setSlot_inRange]; exact ha
  | clear => rw [setSlot_inRange]; exact ha
  | unsave => exact ha
  | save => exact ha

theorem ListMove.iq {D : Prop} {a b : FreeList × State} (h : ListMove D a b) : b.2.iq = a.2.iq := by cases h <;> rfl

theorem badCreateIq_false {s : State} {i : Nat} {a : CreateIqArgs} (h : badCreateIq s i a = false) :
    2 ≤ a.cap ∧ a.cap ≤ 65535 ∧ i < s.iq.length ∧ ∀ q, s.iqAt i = some q → q.state = .dead := by
  simp only [badCreateIq, Bool.or_eq_false_iff, decide_eq_false_iff_not, Bool.not_eq_false', decide_eq_true_eq, not_lt] at h
  obtain ⟨⟨⟨⟨⟨⟨⟨⟨⟨⟨hlt, hdead⟩, _⟩, _⟩, _⟩, h2⟩, hmax⟩, _⟩, _⟩, _⟩, _⟩ := h
  refine ⟨h2, hmax, hlt, fun q hq => ?_⟩
  rw [hq] at hdead
  simpa [IngressQueue.live] using hdead

theorem newIq_inRange {s : State} {i : Nat} {a : CreateIqArgs} (h : badCreateIq s i a = false) :
    (newIq a).inRange = true := by
  obtain ⟨h2, hmax, _⟩ := badCreateIq_false h
  refine IngressQueue.inRange_iff.mpr ⟨?_, fun fl hf => nomatch hf⟩
  show (0 : BitVec 16) < BitVec.ofNat 16 a.cap
  rw [BitVec.lt_def, BitVec.toNat_ofNat]
  rw [show BitVec.toNat (0 : BitVec 16) = 0 from rfl]
  omega

theorem badCreateEq_false {s : State} {i : Nat} {a : CreateEqArgs} (h : badCreateEq s i a = false) :
    1 ≤ a.cap ∧ a.cap ≤ 65535 ∧ a.nmaps.getD a.cap ≤ 65535 := by
  simp only [badCreateEq, Bool.or_eq_false_iff, decide_eq_false_iff_not, not_lt] at h
  obtain ⟨⟨⟨⟨⟨⟨⟨⟨⟨⟨⟨_, _⟩, _⟩, _⟩, _⟩, h1⟩, h2⟩, _⟩, _⟩, _⟩, h3⟩, _⟩ := h
  omega

theorem newEq_accounted {s : State} {i : Nat} {a : CreateEqArgs} (h : badCreateEq s i a = false) :
    (newEq a).accounted = true := by
  obtain ⟨h1, hmax, hmaps⟩ := badCreateEq_false h
  have hcap : (newEq a).cap.toNat = a.cap := by simp [newEq]; omega
  have hpos : (0 : BitVec 16) < (newEq a).cap := by rw [BitVec.lt_def, hcap]; simp; omega
  have hocc : occEq (newEq a) = 0 := by
    rw [occEq, show (newEq a).cidx = 0 from rfl, show (newEq a).pidx = 0 from rfl]
    simp [distOf, dist, Nat.mod_eq_of_lt]
  refine EgressQueue.accounted_iff.mpr ⟨EgressQueue.inRange_iff.mpr ⟨hpos, hpos, ?_⟩, ?_, ?_⟩
  · rw [hcap]; simp [newEq]
  · rw [hcap, hocc]; simp [newEq]; omega
  · simp [newEq]

theorem inRange_setList {q : IngressQueue} {fl fl' : FreeList} (hq : q.inRange = true) (hf : q.fl = some fl)
    (h : fl.inRange = true → fl'.inRange = true) : ({ q with fl := some fl' } : IngressQueue).inRange = true := by
  obtain ⟨hlt, hl⟩ := IngressQueue.inRange_iff.mp hq
  exact IngressQueue.inRange_iff.mpr ⟨hlt, fun fl2 h2 => by
    obtain rfl := Option.some.inj h2
    exact h (hl _ hf)⟩

theorem inRange_setState {q : IngressQueue} (x : IqState) (hq : q.inRange = true) :
    ({ q with state := x } : IngressQueue).inRange = true := hq

theorem Move.indicesInRange {P : Prop} {s t : State} (h : Move P s t) (hs : IndicesInRange s) : IndicesInRange t := by
  obtain ⟨hi, he⟩ := hs
  refine ⟨?_, h.allEq (p := fun q => q.inRange = true) (fun _ _ hm hr => hm.inRange hr)
    (fun _ _ hb => (EgressQueue.accounted_iff.mp (newEq_accounted hb)).1) he⟩
  have hall : AllIq (fun q => q.inRange = true) s := hi
  show AllIq (fun q => q.inRange = true) t
  cases h with
  | aside h => exact hall.of_eq h.iq
  | stock h => cases h <;> exact hall
  | egress => exact hall
  | newEgress => exact hall
  | list hq hf _ h =>
    exact (hall.of_eq h.iq).setIq (inRange_setList (hi _ _ hq) hf h.inRange)
  | cursor hq h hc =>
    obtain ⟨hlt, hl⟩ := IngressQueue.inRange_iff.mp (hi _ _ hq)
    exact hall.setIq (IngressQueue.inRange_iff.mpr ⟨hc hlt, fun fl hf => hl fl (by rw [h] at hf; exact hf)⟩)
  | starve hq hf => exact (hall.of_eq rfl).setIq (inRange_setList (hi _ _ hq) hf id)
  | relieve hq hf => exact (hall.of_eq rfl).setIq (inRange_setList (hi _ _ hq) hf id)
  | doom hq hf => exact (hall.of_eq rfl).setIq (inRange_setList (hi _ _ hq) hf id)
  | die hq => exact hall.setIq (inRange_setState _ (hi _ _ hq))
  | park hq => exact (hall.of_eq rfl).setIq (inRange_setState _ (hi _ _ hq))
  | unpark _ hq => exact (hall.of_eq rfl).setIq (inRange_setState _ (hi _ _ hq))
  | rotate => exact hall.of_eq rfl
  | newIngress h => exact hall.setIq (newIq_inRange h)
  | newList hq _ _ hl =>
    exact hall.setIq (IngressQueue.inRange_iff.mpr ⟨(IngressQueue.inRange_iff.mp (hi _ _ hq)).1, fun fl hf => by
      obtain rfl := Option.some.inj hf
      exact hl.1⟩)

/-- Settles O12: each move of a ring takes its indices on modulo the ring's capacity. -/
theorem indicesStayInRange : Obligations.IndicesStayInRange := fun _ _ hs h =>
  step_keeps_unlessPanic (P := False) (fun _ => False.elim) (fun _ h => h) Move.indicesInRange hs h

/-! ## The egress accounting -/

theorem Move.egressAccounted {P : Prop} {s t : State} (h : Move P s t) (hs : EgressAccounted s) : EgressAccounted t :=
  h.allEq (p := fun q => q.accounted = true) (fun _ _ hm ha => hm.accounted ha) (fun _ _ hb => newEq_accounted hb) hs

/-- Settles O13: each move of an egress queue accounts for its credits and its maps. -/
theorem egressStaysAccounted : Obligations.EgressStaysAccounted := fun _ _ hs h =>
  step_keeps_unlessPanic (P := False) (fun _ => False.elim) (fun _ h => h) Move.egressAccounted hs h

/-- The configuration is `c`, and every egress queue's accumulator keeps its bounds. -/
def BoundedUnder (c : Cfg) (s : State) : Prop := s.cfg = c ∧ AllEq (EgressQueue.bounded c) s

theorem boundedUnder_iff {s : State} : BoundedUnder s.cfg s ↔ CoalescingBounded s := and_iff_right rfl

theorem Move.boundedUnder {P : Prop} {c : Cfg} {s t : State} (hl : RegistersHold c) (h : Move P s t)
    (hs : BoundedUnder c s) : BoundedUnder c t := by
  obtain ⟨rfl, hb⟩ := hs
  exact ⟨h.grows.1, h.allEq (fun _ _ hm => hm.bounded hl) (fun _ _ _ ho => nomatch ho) hb⟩

/-- Settles O18: each move of an egress queue keeps its accumulator's bounds and its place. -/
theorem coalescingStaysBounded : Obligations.CoalescingStaysBounded := by
  intro s t h1 h2 h3 hs h
  have hrun := step_keeps_unlessPanic (P := False) (I := BoundedUnder s.cfg) (fun _ => False.elim) (fun _ h => h)
    (fun hm => hm.boundedUnder ⟨h1, h2, h3⟩) (hs.imp_right boundedUnder_iff.mpr) h
  exact hrun.imp_right fun ⟨hc, hb⟩ => boundedUnder_iff.mp ⟨rfl, hc ▸ hb⟩

theorem newEq_walked (a : CreateEqArgs) : (newEq a).walked = true := by
  have hocc : occEq (newEq a) = 0 := by
    rw [occEq, show (newEq a).cidx = 0 from rfl, show (newEq a).pidx = 0 from rfl]
    simp [distOf, dist, Nat.mod_self]
  rw [EgressQueue.walked, hocc, walkCredits_zero]
  simp [newEq]

theorem Move.egressWalked {P : Prop} {s t : State} (hl : RegistersHold s.cfg) (h : Move P s t) (ha : EgressAccounted s)
    (hw : EgressWalked s) : EgressWalked t := by
  have hboth : AllEq (fun q => q.accounted = true ∧ q.walked = true) s := fun i q hq => ⟨ha i q hq, hw i q hq⟩
  have h' := h.allEq (fun _ _ hm hq => ⟨hm.accounted hq.1, hm.walked hl hq.1 hq.2⟩)
    (fun _ a hb => ⟨newEq_accounted hb, newEq_walked a⟩) hboth
  exact fun i q hq => (h' i q hq).2

/-- Settles O14: each move of an egress queue writes a whole record at the producer index, or takes one back at the consumer
index, so that the walk over the records accounts for the maps. -/
theorem egressRecordsExact : Obligations.EgressRecordsExact := by
  intro s t h1 h2 h3 hs h
  have hl : RegistersHold s.cfg := ⟨h1, h2, h3⟩
  have hrun := step_keeps_unlessPanic (P := False) (I := fun u => EgressAccounted u ∧ EgressWalked u ∧ BoundedUnder s.cfg u)
    (fun _ => False.elim) (fun _ h => h)
    (fun {u v} hm ⟨ha, hw, hb⟩ => ⟨hm.egressAccounted ha, hm.egressWalked (hb.1.symm ▸ hl) ha hw, hm.boundedUnder hl hb⟩)
    (hs.imp_right fun ⟨ha, hw, hb⟩ => ⟨ha, hw, boundedUnder_iff.mpr hb⟩) h
  exact hrun.imp_right fun ⟨ha, hw, hc, hb⟩ => ⟨ha, hw, boundedUnder_iff.mp ⟨rfl, hc ▸ hb⟩⟩

end Sys2Proof.Machine
end

section
/-! PROOFS. The worklist and the starving list: each is a list of the ingress queues that satisfy a test (10_state R32, R46). -/

namespace Sys2Proof.Machine

/-! ## Lists of the queues that satisfy a test -/

/-- Ingress queue `i` exists and satisfies the test. -/
def FlagAt (f : IngressQueue → Prop) (s : State) (i : Nat) : Prop := ∃ q, s.iqAt i = some q ∧ f q

/-- The list holds exactly the ingress queues that satisfy the test, each once. -/
def Listed (f : IngressQueue → Prop) (l : List Nat) (s : State) : Prop := l.Nodup ∧ ∀ i, i ∈ l ↔ FlagAt f s i

section
variable {f : IngressQueue → Prop} {l : List Nat} {s t : State} {i : Nat} {q q' : IngressQueue}

theorem flagAt_setIq_other {j : Nat} (h : j ≠ i) : FlagAt f (s.setIq i q') j ↔ FlagAt f s j := by
  rw [FlagAt, State.setIq_iqAt_other _ _ _ _ (Ne.symm h)]
  exact .rfl

theorem flagAt_setIq_same (hq : s.iqAt i = some q) : FlagAt f (s.setIq i q') i ↔ f q' := by
  rw [FlagAt, State.setIq_iqAt_same _ _ _ _ hq]
  simp

theorem flagAt_iff (hq : s.iqAt i = some q) : FlagAt f s i ↔ f q := by
  rw [FlagAt, hq]
  simp

theorem Listed.of_iq (h : t.iq = s.iq) (hl : Listed f l s) : Listed f l t := by
  have hat : ∀ i, t.iqAt i = s.iqAt i := fun i => by rw [State.iqAt, h]; rfl
  simpa only [Listed, FlagAt, hat] using hl

/-- The test answers for the new context as for the old. -/
theorem Listed.setIq (hl : Listed f l s) (hq : s.iqAt i = some q) (hf : f q' ↔ f q) : Listed f l (s.setIq i q') := by
  refine ⟨hl.1, fun j => ?_⟩
  by_cases hj : j = i
  · subst hj
    rw [flagAt_setIq_same hq, hf, hl.2, flagAt_iff hq]
  · rw [flagAt_setIq_other hj, hl.2]

theorem Listed.setIq_new (hl : Listed f l s) (hi : i < s.iq.length) (hold : ¬ FlagAt f s i) (hnew : ¬ f q') :
    Listed f l (s.setIq i q') := by
  refine ⟨hl.1, fun j => ?_⟩
  by_cases hj : j = i
  · subst hj
    rw [hl.2]
    refine iff_of_false hold ?_
    rintro ⟨w, hw, hfw⟩
    rw [State.setIq_iqAt, if_pos ⟨rfl, hi⟩] at hw
    exact hnew (Option.some.inj hw ▸ hfw)
  · rw [flagAt_setIq_other hj, hl.2]

theorem Listed.append (hl : Listed f l s) (hq : s.iqAt i = some q) (hold : ¬ f q) (hnew : f q') :
    Listed f (l ++ [i]) (s.setIq i q') := by
  have hi : i ∉ l := fun h => hold ((flagAt_iff hq).mp ((hl.2 i).mp h))
  refine ⟨List.nodup_append_comm.mp (List.nodup_cons.mpr ⟨hi, hl.1⟩), fun j => ?_⟩
  by_cases hj : j = i
  · subst hj
    simp [flagAt_setIq_same hq, hnew]
  · rw [flagAt_setIq_other hj, ← hl.2]
    simp [hj]

theorem Listed.erase (hl : Listed f l s) (hq : s.iqAt i = some q) (hnew : ¬ f q') : Listed f (l.erase i) (s.setIq i q') := by
  refine ⟨hl.1.erase i, fun j => ?_⟩
  by_cases hj : j = i
  · subst hj
    rw [flagAt_setIq_same hq]
    exact iff_of_false hl.1.not_mem_erase hnew
  · rw [flagAt_setIq_other hj, ← hl.2]
    exact List.mem_erase_of_ne hj

theorem Listed.of_perm {l' : List Nat} (hl : Listed f l s) (h : l.Perm l') : Listed f l' s :=
  ⟨h.nodup_iff.mp hl.1, fun j => h.mem_iff.symm.trans (hl.2 j)⟩

end

theorem ListMove.iqAt {D : Prop} {a b : FreeList × State} (h : ListMove D a b) (i : Nat) : b.2.iqAt i = a.2.iqAt i := by
  rw [State.iqAt, h.iq]
  rfl

/-! ## The worklist -/

def Busy (q : IngressQueue) : Prop := q.state = .busy

theorem worklistExact_iff {s : State} : WorklistExact s ↔ Listed Busy s.worklist s := .rfl

theorem Move.worklistExact {P : Prop} {s t : State} (h : Move P s t) (hs : WorklistExact s) : WorklistExact t := by
  rw [worklistExact_iff] at hs ⊢
  cases h with
  | aside h => rw [h.worklist]; exact hs.of_iq h.iq
  | stock h => cases h <;> exact hs
  | egress => exact hs
  | newEgress => exact hs
  | list hq _ _ h =>
    have hwl := FlStep.worklist (.list h)
    rw [State.setIq_worklist, hwl]
    exact (hs.of_iq h.iq).setIq ((h.iqAt _).trans hq) .rfl
  | cursor hq h => exact hs.setIq hq (by rw [h]; exact .rfl)
  | starve hq => exact (hs.of_iq rfl).setIq hq .rfl
  | relieve hq => exact (hs.of_iq rfl).setIq hq .rfl
  | doom hq => exact (hs.of_iq rfl).setIq hq .rfl
  | die hq hidle => exact hs.setIq hq (by simp [Busy, hidle])
  | park hq hidle => exact Listed.append (hs.of_iq rfl) hq (by simp [Busy, hidle]) rfl
  | @unpark i l q hl hq =>
    rw [hl] at hs
    have herase := hs.erase (q' := { q with state := .idle }) hq (by simp [Busy])
    rw [List.erase_cons_head] at herase
    exact herase.of_iq rfl
  | rotate hl =>
    rw [hl] at hs
    exact Listed.of_perm (hs.of_iq rfl) (List.perm_append_singleton _ _).symm
  | newIngress h =>
    obtain ⟨_, _, hi, hdead⟩ := badCreateIq_false h
    refine hs.setIq_new hi ?_ (by simp [Busy, newIq])
    rintro ⟨q, hq, hb⟩
    rw [Busy, hdead q hq] at hb
    cases hb
  | newList hq => exact hs.setIq hq .rfl

/-- Settles O16: a queue becomes Busy as it is appended, and is no more Busy as it is taken off. -/
theorem worklistStaysExact : Obligations.WorklistStaysExact := fun _ _ hs h =>
  step_keeps_unlessPanic (P := False) (fun _ => False.elim) (fun _ h => h) Move.worklistExact hs h

/-! ## The starving list -/

/-- The queue's list has its STARVING flag set. -/
def Starves (q : IngressQueue) : Prop := ∃ fl, q.fl = some fl ∧ fl.starving = true

/-- A torn-down queue's list is doomed, and a doomed list is not starving. -/
def DoomSound (q : IngressQueue) : Prop :=
  ∀ fl, q.fl = some fl → (q.state = .dead → fl.doomed = true) ∧ (fl.doomed = true → fl.starving = false)

theorem starvingExact_iff {s : State} : StarvingExact s ↔ Listed Starves s.starving s ∧ AllIq DoomSound s := by
  have hflag : ∀ i, (∃ fl, s.flAt i = some fl ∧ fl.starving = true) ↔ FlagAt Starves s i := by
    intro i
    unfold State.flAt FlagAt Starves
    cases s.iqAt i <;> simp
  have hall : (∀ i q fl, s.iqAt i = some q → q.fl = some fl →
      (q.state = .dead → fl.doomed = true) ∧ (fl.doomed = true → fl.starving = false)) ↔ AllIq DoomSound s :=
    ⟨fun h i q hq fl hf => h i q fl hq hf, fun h i q fl hq hf => h i q hq fl hf⟩
  rw [StarvingExact, hall, Listed, and_assoc]
  simp only [hflag]

theorem starves_setList {q : IngressQueue} {fl fl' : FreeList} (hf : q.fl = some fl) (h : fl'.starving = fl.starving) :
    Starves { q with fl := some fl' } ↔ Starves q := by
  simp [Starves, hf, h]

theorem doomSound_cursor {q q' : IngressQueue}
    (h : q' = { q with
      cidx := q'.cidx, gen := q'.gen, lroPending := q'.lroPending, rxErrors := q'.rxErrors, protoErrors := q'.protoErrors })
    (hq : DoomSound q) : DoomSound q' := by
  rw [h]
  exact hq

theorem ListMove.flags {D : Prop} {a b : FreeList × State} (h : ListMove D a b) :
    b.1.starving = a.1.starving ∧ b.1.doomed = a.1.doomed ∧ b.2.starving = a.2.starving := by
  cases h with
  | plain h => exact ⟨by rw [h], by rw [h], rfl⟩
  | _ => exact ⟨rfl, rfl, rfl⟩

theorem Move.starvingExact {P : Prop} {s t : State} (h : Move P s t) (hs : StarvingExact s) : StarvingExact t := by
  rw [starvingExact_iff] at hs ⊢
  obtain ⟨hl, ha⟩ := hs
  cases h with
  | aside h => rw [h.starving]; exact ⟨hl.of_iq h.iq, ha.of_eq h.iq⟩
  | stock h => cases h <;> exact ⟨hl, ha⟩
  | egress => exact ⟨hl, ha⟩
  | newEgress => exact ⟨hl, ha⟩
  | list hq hf _ h =>
    obtain ⟨h1, h2, h3⟩ := h.flags
    rw [State.setIq_starving, show _ = s.starving from h3]
    refine ⟨(hl.of_iq h.iq).setIq ((h.iqAt _).trans hq) (starves_setList hf h1),
      (ha.of_eq h.iq).setIq fun fl hfl => ?_⟩
    obtain rfl := Option.some.inj hfl
    obtain ⟨hd, hn⟩ := ha _ _ hq _ hf
    rw [show _ = _ from h1, show _ = _ from h2]
    exact ⟨hd, hn⟩
  | cursor hq h =>
    exact ⟨hl.setIq hq (by rw [h]; exact .rfl), ha.setIq (doomSound_cursor h (ha _ _ hq))⟩
  | starve hq hf hns hd =>
    refine ⟨Listed.append (hl.of_iq rfl) hq (by simp [Starves, hf, hns]) ⟨_, rfl, rfl⟩, (ha.of_eq rfl).setIq fun fl hfl => ?_⟩
    obtain rfl := Option.some.inj hfl
    exact ⟨(ha _ _ hq _ hf).1, fun h => absurd h (by simp [hd])⟩
  | relieve hq hf =>
    refine ⟨Listed.erase (hl.of_iq rfl) hq (by simp [Starves]), (ha.of_eq rfl).setIq fun fl hfl => ?_⟩
    obtain rfl := Option.some.inj hfl
    exact ⟨(ha _ _ hq _ hf).1, fun _ => rfl⟩
  | doom hq hf =>
    refine ⟨?_, (ha.of_eq rfl).setIq fun fl hfl => ?_⟩
    · rw [State.setIq_starving, State.setStarving_starving]
      split
      · exact Listed.erase (hl.of_iq rfl) hq (by simp [Starves])
      · rename_i hns
        exact Listed.setIq (hl.of_iq rfl) hq (by simp [Starves, hf, hns])
    · obtain rfl := Option.some.inj hfl
      exact ⟨fun _ => rfl, fun _ => rfl⟩
  | die hq _ hquiet =>
    exact ⟨hl.setIq hq .rfl, ha.setIq fun fl hfl => ⟨fun _ => (hquiet fl hfl).1, (ha _ _ hq fl hfl).2⟩⟩
  | park hq =>
    exact ⟨Listed.setIq (hl.of_iq rfl) hq .rfl, (ha.of_eq rfl).setIq fun fl hfl => ⟨fun h => (nomatch h), (ha _ _ hq fl hfl).2⟩⟩
  | unpark _ hq =>
    exact ⟨Listed.setIq (hl.of_iq rfl) hq .rfl, (ha.of_eq rfl).setIq fun fl hfl => ⟨fun h => (nomatch h), (ha _ _ hq fl hfl).2⟩⟩
  | rotate => exact ⟨hl.of_iq rfl, ha.of_eq rfl⟩
  | newIngress h =>
    obtain ⟨_, _, hi, hdead⟩ := badCreateIq_false h
    refine ⟨hl.setIq_new hi ?_ (by simp [Starves, newIq]), ha.setIq fun fl hfl => nomatch hfl⟩
    rintro ⟨q, hq, fl, hf, hst⟩
    obtain ⟨hd, hn⟩ := ha _ q hq fl hf
    rw [hn (hd (hdead q hq))] at hst
    cases hst
  | newList hq hidle hf hfresh =>
    obtain ⟨_, _, _, hns, hnd⟩ := hfresh
    refine ⟨hl.setIq hq (by simp [Starves, hf, hns]), ha.setIq fun fl hfl => ?_⟩
    obtain rfl := Option.some.inj hfl
    exact ⟨fun h => absurd (hidle.symm.trans h) (by decide), fun _ => hns⟩

theorem resetWith_iqAt (c : Cfg) (i : Nat) : (State.resetWith c).iqAt i = none := by
  simp only [State.iqAt, State.resetWith, List.getElem?_replicate]
  split <;> rfl

theorem resetWith_starvingExact (c : Cfg) : StarvingExact (State.resetWith c) :=
  starvingExact_iff.mpr ⟨⟨List.nodup_nil, fun i => iff_of_false List.not_mem_nil fun ⟨q, hq, _⟩ => by
    simp [resetWith_iqAt] at hq⟩, fun i q hq => by simp [resetWith_iqAt] at hq⟩

/-- Settles O17: the flag is set as the list is registered, and cleared as it is taken off. -/
theorem starvingListExact : Obligations.StarvingListExact :=
  ⟨fun c => ⟨rfl, resetWith_starvingExact c⟩, fun _ _ hs h =>
    step_keeps_unlessPanic (P := False) (fun _ => False.elim) (fun _ h => h) Move.starvingExact hs h⟩

end Sys2Proof.Machine
end

section
/-! PROOFS. The reference counts (10_state R29): what the moves do to the arena, to the buffers that slots hold, and to those that
live Shared segments name. -/

namespace Sys2Proof.Machine

/-! ## Counts of a multiset of references -/

/-- The counts of an arena agree with the buffers that slots hold and those that Shared segments name; the order of neither
matters. -/
structure Counts (arena : List Buffer) (slots live : List Nat) (next : Nat) : Prop where
  exact : ∀ b ∈ arena, b.hasMeta = true →
    b.refcount = BitVec.ofNat 32 ((if b.handle ∈ slots then 1 else 0) + live.count b.handle) ∧
      (if b.handle ∈ slots then 1 else 0) + live.count b.handle ≠ 0
  handles : (arena.map (·.handle)).Nodup
  once : slots.Nodup
  drawn : ∀ h ∈ arena.map (·.handle) ++ slots ++ live, h < next

theorem countsExact_iff {s : State} :
    CountsExact s ↔ Counts s.arena s.slotBuffers s.liveShared s.env.nextBuf ∧ QuietDead s := by
  constructor
  · rintro ⟨h1, h2, h3, h4, h5⟩
    exact ⟨⟨h1, h2, h3, h4⟩, fun i q hq hd fl hf => h5 i q fl hq hd hf⟩
  · rintro ⟨⟨h1, h2, h3, h4⟩, h5⟩
    exact ⟨h1, h2, h3, h4, fun i q fl hq hd hf => h5 i q hq hd fl hf⟩

/-- Write the reference count of the buffers of a handle. -/
def recounted (arena : List Buffer) (h : Nat) (n : BitVec 32) : List Buffer :=
  arena.map fun b => if b.handle = h then { b with refcount := n } else b

section
variable {arena : List Buffer} {slots slots' live live' : List Nat} {next h : Nat} {b : Buffer}

theorem Counts.perm (hc : Counts arena slots live next) (hs : slots'.Perm slots) (hl : live'.Perm live) :
    Counts arena slots' live' next := by
  refine ⟨fun b hb hm => ?_, hc.handles, hs.nodup_iff.mpr hc.once, fun h hh => hc.drawn h ?_⟩
  · simp only [hs.mem_iff, hl.count_eq]
    exact hc.exact b hb hm
  · exact ((((List.Perm.refl _).append hs).append hl).mem_iff).mp hh

theorem recounted_handles (arena : List Buffer) (h : Nat) (n : BitVec 32) :
    (recounted arena h n).map (·.handle) = arena.map (·.handle) := by
  rw [recounted, List.map_map]
  refine List.map_congr_left fun b _ => ?_
  simp only [Function.comp]
  split <;> rfl

/-- A buffer of the arena with a count written is that buffer, or another. -/
theorem mem_recounted (hn : (arena.map (·.handle)).Nodup) (hb : b ∈ arena) {n : BitVec 32} {c : Buffer}
    (hc : c ∈ recounted arena b.handle n) : c = { b with refcount := n } ∨ (c ∈ arena ∧ c.handle ≠ b.handle) := by
  obtain ⟨d, hd, rfl⟩ := List.mem_map.mp hc
  by_cases hh : d.handle = b.handle
  · obtain rfl : d = b := List.inj_on_of_nodup_map hn hd hb hh
    exact .inl (if_pos rfl)
  · rw [if_neg hh]
    exact .inr ⟨hd, hh⟩

/-- One more reference. -/
theorem Counts.addRef (hc : Counts arena slots live next) (hb : b ∈ arena) :
    Counts (recounted arena b.handle (b.refcount + 1)) slots (b.handle :: live) next := by
  refine ⟨fun c hmem hm => ?_, ?_, hc.once, fun h hh => hc.drawn h ?_⟩
  · rcases mem_recounted hc.handles hb hmem with rfl | ⟨hca, hne⟩
    · obtain ⟨h1, h2⟩ := hc.exact b hb hm
      simp only [List.count_cons_self]
      refine ⟨?_, by omega⟩
      rw [h1, ← Nat.add_assoc, BitVec.ofNat_add _ 1]
      rfl
    · rw [List.count_cons_of_ne (Ne.symm hne)]
      exact hc.exact c hca hm
  · rw [recounted_handles]; exact hc.handles
  · rw [recounted_handles] at hh
    simp only [List.mem_append, List.mem_cons] at hh ⊢
    rcases hh with hh | rfl | hh
    · exact .inl hh
    · exact .inl (.inl (List.mem_map_of_mem hb))
    · exact .inr hh

/-- One reference given back that is not the last: a Shared segment's, or the slot's. -/
theorem Counts.dropRef {slots' live' : List Nat} (hc : Counts arena slots live next) (hb : b ∈ arena) (h1 : b.refcount ≠ 1)
    (hd : (slots = slots' ∧ live = b.handle :: live') ∨ (slots = b.handle :: slots' ∧ live = live')) :
    Counts (recounted arena b.handle (b.refcount + -1)) slots' live' next := by
  have hsub : slots'.Sublist slots ∧ live'.Sublist live := by
    rcases hd with ⟨rfl, rfl⟩ | ⟨rfl, rfl⟩
    · exact ⟨List.Sublist.refl _, List.sublist_cons_self _ _⟩
    · exact ⟨List.sublist_cons_self _ _, List.Sublist.refl _⟩
  refine ⟨fun c hmem hm => ?_, ?_, hc.once.sublist hsub.1, fun h hh => hc.drawn h ?_⟩
  · rcases mem_recounted hc.handles hb hmem with rfl | ⟨hca, hne⟩
    · obtain ⟨hr, hnz⟩ := hc.exact b hb hm
      have hcount : (if b.handle ∈ slots then 1 else 0) + live.count b.handle =
          (if b.handle ∈ slots' then 1 else 0) + live'.count b.handle + 1 := by
        rcases hd with ⟨rfl, rfl⟩ | ⟨rfl, rfl⟩
        · rw [List.count_cons_self]; omega
        · have hno := (List.nodup_cons.mp hc.once).1
          simp only [List.mem_cons, true_or, if_true, hno, if_false]; omega
      rw [hcount] at hr hnz
      refine ⟨?_, fun hz => ?_⟩
      · show b.refcount + -1 = _
        rw [hr, BitVec.ofNat_add _ 1, BitVec.add_assoc]
        exact BitVec.add_zero _
      · rw [show (if b.handle ∈ slots' then 1 else 0) + live'.count b.handle = 0 from hz] at hr
        exact h1 hr
    · have hsame : (c.handle ∈ slots' ↔ c.handle ∈ slots) ∧ live'.count c.handle = live.count c.handle := by
        rcases hd with ⟨rfl, rfl⟩ | ⟨rfl, rfl⟩
        · exact ⟨.rfl, (List.count_cons_of_ne (Ne.symm hne)).symm⟩
        · exact ⟨by simp [hne], rfl⟩
      rw [hsame.2]
      simp only [hsame.1]
      exact hc.exact c hca hm
  · rw [recounted_handles]; exact hc.handles
  · rw [recounted_handles] at hh
    exact ((((List.Sublist.refl _).append hsub.1).append hsub.2).subset) hh

/-- Buffers leave the arena. -/
theorem Counts.free (hc : Counts arena slots live next) (h : Nat) :
    Counts (arena.filter (·.handle ≠ h)) slots live next := by
  have hsub : (arena.filter (·.handle ≠ h)).Sublist arena := List.filter_sublist
  exact ⟨fun b hb => hc.exact b (hsub.subset hb), hc.handles.sublist (hsub.map _), hc.once, fun x hx =>
    hc.drawn x ((((hsub.map _).append (List.Sublist.refl _)).append (List.Sublist.refl _)).subset hx)⟩

/-- References to a handle that no counted buffer has are dropped. -/
theorem Counts.forget (hc : Counts arena slots live next) (hs : slots'.Sublist slots) (hl : live'.Sublist live)
    (hu : ∀ b ∈ arena, b.hasMeta = true →
      (b.handle ∈ slots' ↔ b.handle ∈ slots) ∧ live'.count b.handle = live.count b.handle) :
    Counts arena slots' live' next := by
  refine ⟨fun b hb hm => ?_, hc.handles, hc.once.sublist hs, fun x hx =>
    hc.drawn x ((((List.Sublist.refl _).append hs).append hl).subset hx)⟩
  rw [(hu b hb hm).2]
  simp only [(hu b hb hm).1]
  exact hc.exact b hb hm

/-- A fresh buffer in a slot. -/
theorem Counts.fill (hc : Counts arena slots live next) (hh : b.handle = next)
    (hr : b.hasMeta = true → b.refcount = 1) : Counts (arena ++ [b]) (b.handle :: slots) live (next + 1) := by
  have hfresh : ∀ h ∈ arena.map (·.handle) ++ slots ++ live, h ≠ b.handle := fun h hm heq => by
    have := hc.drawn h hm
    omega
  have hlive : live.count b.handle = 0 := List.count_eq_zero.mpr fun hm => hfresh _ (by simp [hm]) rfl
  refine ⟨fun c hmem hm => ?_, ?_, List.nodup_cons.mpr ⟨fun hm => hfresh _ (by simp [hm]) rfl, hc.once⟩, fun h hm => ?_⟩
  · rcases List.mem_append.mp hmem with hca | hcb
    · have hne : c.handle ≠ b.handle := hfresh _ (by simp only [List.mem_append]; exact .inl (.inl (List.mem_map_of_mem hca)))
      simp only [List.mem_cons, hne, false_or]
      exact hc.exact c hca hm
    · obtain rfl := List.mem_singleton.mp hcb
      simp only [List.mem_cons, true_or, if_true, hlive]
      exact ⟨hr hm, by decide⟩
  · rw [List.map_append, List.map_singleton]
    refine List.nodup_append_comm.mp (List.nodup_cons.mpr ⟨fun hm => ?_, hc.handles⟩)
    exact hfresh _ (by simp only [List.mem_append]; exact .inl (.inl hm)) rfl
  · have hold : h ∈ arena.map (·.handle) ++ slots ++ live ∨ h = b.handle := by
      simp only [List.map_append, List.map_singleton, List.mem_append, List.mem_cons, List.not_mem_nil, or_false] at hm ⊢
      tauto
    rcases hold with hm | rfl
    · exact Nat.lt_succ_of_lt (hc.drawn h hm)
    · omega

end

/-! ## The contributions of the queues -/

/-- The buffers that the slots of a queue's list hold. -/
def IngressQueue.slotted (q : IngressQueue) : List Nat := q.fl.toList.flatMap FreeList.buffers

/-- The buffers that the saved segments of a queue's list name. -/
def IngressQueue.savedHandles (q : IngressQueue) : List Nat := sharedHandles (q.fl.toList.flatMap FreeList.saved)

theorem lists_setIq {s : State} {i : Nat} (hi : i < s.iq.length) :
    ∃ l1 l2, ∀ t : State, t.iq = s.iq → ∀ q, (t.setIq i q).lists = l1 ++ (q.fl.toList ++ l2) := by
  refine ⟨(s.iq.take i).filterMap fun q => q.bind (·.fl), (s.iq.drop (i + 1)).filterMap fun q => q.bind (·.fl), ?_⟩
  intro t ht q
  rw [State.lists, State.setIq_iq, ht, List.set_eq_take_append_cons_drop, if_pos hi, List.filterMap_append,
    List.filterMap_cons]
  cases hf : q.fl <;> simp [hf]

theorem sharedHandles_perm {a b : List Segment} (h : a.Perm b) : (sharedHandles a).Perm (sharedHandles b) := h.filterMap _

/-- What one queue contributes to the references, and the others. -/
theorem contributions {s : State} {i : Nat} (hi : i < s.iq.length) :
    ∃ B R : List Nat, ∀ t : State, t.iq = s.iq → ∀ q,
      (t.setIq i q).slotBuffers.Perm (q.slotted ++ B) ∧
        (t.setIq i q).liveShared.Perm (sharedHandles t.held ++ (q.savedHandles ++ R)) := by
  obtain ⟨l1, l2, hl⟩ := lists_setIq hi
  refine ⟨l1.flatMap FreeList.buffers ++ l2.flatMap FreeList.buffers,
    sharedHandles (l1.flatMap FreeList.saved ++ l2.flatMap FreeList.saved), fun t ht q => ⟨?_, ?_⟩⟩
  · rw [State.slotBuffers, hl t ht q, List.flatMap_append, List.flatMap_append]
    exact List.perm_append_comm_assoc _ _ _
  · rw [State.liveShared, hl t ht q, List.flatMap_append, List.flatMap_append, IngressQueue.savedHandles,
      ← sharedHandles_append, ← sharedHandles_append]
    exact sharedHandles_perm ((List.perm_append_comm_assoc _ _ _).append_left _)

theorem setIq_self {s : State} {i : Nat} {q : IngressQueue} (hq : s.iqAt i = some q) : s.setIq i q = s := by
  rw [State.setIq, set_self hq]

/-- A context written: the counts, by what its list contributes. -/
theorem counts_setIq {s t : State} {i : Nat} {q q' : IngressQueue} (hq : s.iqAt i = some q) (ht : t.iq = s.iq)
    (h : ∀ B R, Counts s.arena (q.slotted ++ B) (sharedHandles s.held ++ (q.savedHandles ++ R)) s.env.nextBuf →
      Counts t.arena (q'.slotted ++ B) (sharedHandles t.held ++ (q'.savedHandles ++ R)) t.env.nextBuf)
    (hs : Counts s.arena s.slotBuffers s.liveShared s.env.nextBuf) :
    Counts (t.setIq i q').arena (t.setIq i q').slotBuffers (t.setIq i q').liveShared (t.setIq i q').env.nextBuf := by
  obtain ⟨B, R, hbr⟩ := contributions (State.iqAt_lt s i q hq)
  obtain ⟨h1, h2⟩ := hbr s rfl q
  obtain ⟨h3, h4⟩ := hbr t ht q'
  rw [setIq_self hq] at h1 h2
  exact (h B R (hs.perm h1.symm h2.symm)).perm h3 h4

/-! ## The moves -/

theorem recounted_eq (s : State) (h : Nat) (n : BitVec 32) : (s.setRefcount h n).arena = recounted s.arena h n := rfl

/-- Writing a buffer's own count changes nothing. -/
theorem recounted_self {arena : List Buffer} {b : Buffer} (hn : (arena.map (·.handle)).Nodup) (hb : b ∈ arena) :
    recounted arena b.handle b.refcount = arena := by
  refine (List.map_congr_left fun c hc => ?_).trans (List.map_id arena)
  by_cases hh : c.handle = b.handle
  · obtain rfl := List.inj_on_of_nodup_map hn hc hb hh
    rw [if_pos rfl]
    rfl
  · rw [if_neg hh]
    rfl

theorem sharedHandles_split {l l' : List Segment} {g : Segment} :
    (sharedHandles (l ++ g :: l')).Perm (sharedHandles [g] ++ sharedHandles (l ++ l')) := by
  rw [← sharedHandles_append]
  exact sharedHandles_perm List.perm_middle

/-- The moves of the arena and the held segments, whatever slots and saved segments refer to it beside. -/
theorem StockMove.counts {s t : State} {slots R : List Nat} (h : StockMove s t)
    (hc : Counts s.arena slots (sharedHandles s.held ++ R) s.env.nextBuf) :
    Counts t.arena slots (sharedHandles t.held ++ R) t.env.nextBuf := by
  cases h with
  | @share b off len hb =>
    refine (hc.addRef hb).perm (.refl _) ?_
    show (sharedHandles (s.held ++ [.shared b.handle off len]) ++ R).Perm _
    rw [sharedHandles_append]
    exact (List.perm_append_comm).append_right R
  | hold hg =>
    show Counts _ _ (sharedHandles (_ ++ [_]) ++ R) _
    rw [sharedHandles_append, hg, List.append_nil]
    exact hc
  | free h => exact hc.free h
  | recount hb =>
    show Counts (recounted _ _ _) _ _ _
    rw [recounted_self hc.handles hb]
    exact hc
  | dropHeld hs hg hb h0 h1 =>
    rw [hs] at hc
    have hp := (hc.perm (.refl _) (sharedHandles_split.append_right R).symm)
    rw [hg] at hp
    exact hp.dropRef hb h1 (.inl ⟨rfl, rfl⟩)
  | @forget l l' g hs hu =>
    rw [hs] at hc
    have hp := (hc.perm (.refl _) (sharedHandles_split.append_right R).symm)
    refine hp.forget (.refl _) (by rw [List.append_assoc]; exact List.sublist_append_right _ _) fun b hb hm => ⟨.rfl, ?_⟩
    have hno : (sharedHandles [g]).count b.handle = 0 :=
      List.count_eq_zero.mpr fun hbg => by simpa [hm] using hu _ hbg hc.handles b hb rfl
    show (sharedHandles (l ++ l') ++ R).count _ = (sharedHandles [g] ++ sharedHandles (l ++ l') ++ R).count _
    rw [List.append_assoc, List.count_append (l₁ := sharedHandles [g]), hno, Nat.zero_add]

theorem buffers_setSlot {fl : FreeList} {k : Nat} (hk : k < fl.sdesc.length) :
    ∃ T : List Nat, ∀ sd, (setSlot fl k sd).buffers.Perm (sd.buf.toList ++ T) := by
  refine ⟨(fl.sdesc.take k).filterMap (·.buf) ++ (fl.sdesc.drop (k + 1)).filterMap (·.buf), fun sd => ?_⟩
  rw [FreeList.buffers, setSlot, List.set_eq_take_append_cons_drop, if_pos hk, List.filterMap_append, List.filterMap_cons]
  cases hb : sd.buf with
  | none => simp
  | some h => exact List.perm_middle

/-- A slot that held a buffer is emptied: the references of the slots are one less. -/
theorem buffers_clear {fl : FreeList} {k h : Nat} {sd : FreeListSlot} (hk : (slotAt fl k).buf = some h) (hs : sd.buf = none) :
    fl.buffers.Perm (h :: (setSlot fl k sd).buffers) := by
  obtain ⟨T, hT⟩ := buffers_setSlot (lt_of_slotAt_buf hk)
  have h1 := hT (slotAt fl k)
  have h2 := hT sd
  rw [setSlot_slotAt, hk] at h1
  rw [hs] at h2
  exact h1.trans (h2.symm.cons h)

/-- An empty slot is filled. -/
theorem buffers_fill {fl : FreeList} {k h : Nat} {sd : FreeListSlot} (hk : k < fl.sdesc.length)
    (hn : (slotAt fl k).buf = none) (hs : sd.buf = some h) : (setSlot fl k sd).buffers.Perm (h :: fl.buffers) := by
  obtain ⟨T, hT⟩ := buffers_setSlot hk
  have h1 := hT (slotAt fl k)
  have h2 := hT sd
  rw [setSlot_slotAt, hn] at h1
  rw [hs] at h2
  exact h2.trans (h1.symm.cons h)

/-- The moves of a list whose indices are in range, whatever other slots and saved segments refer to the arena beside. -/
theorem ListMove.counts {D : Prop} {a b : FreeList × State} {B R : List Nat} (h : ListMove D a b) (hr : a.1.inRange = true)
    (hc : Counts a.2.arena (a.1.buffers ++ B) (sharedHandles a.2.held ++ (sharedHandles a.1.saved ++ R)) a.2.env.nextBuf) :
    Counts b.2.arena (b.1.buffers ++ B) (sharedHandles b.2.held ++ (sharedHandles b.1.saved ++ R)) b.2.env.nextBuf := by
  cases h with
  | @plain fl fl' s h _ hb =>
    have hsaved : fl'.saved = fl.saved := by rw [h]; rfl
    dsimp only
    rw [buffers_congr hb, hsaved]
    exact hc
  | fill _ hn hs hh hone he =>
    obtain ⟨hp, _, hl⟩ := FreeList.inRange_iff.mp hr
    have hfill := hc.fill hh hone
    rw [he]
    exact hfill.perm ((buffers_fill (by rw [hl]; exact hp) hn hs).append_right B) (.refl _)
  | giveUp hk hb h0 h1 hs =>
    exact (hc.perm ((buffers_clear hk hs).append_right B).symm (.refl _)).dropRef hb h1 (.inr ⟨rfl, rfl⟩)
  | clear hk hu hs =>
    refine (hc.perm ((buffers_clear hk hs).append_right B).symm (.refl _)).forget (List.sublist_cons_self _ _) (.refl _)
      fun b hb hm => ⟨?_, rfl⟩
    have hne : b.handle ≠ _ := fun heq => by simpa [hm] using hu hc.handles b hb heq
    simp only [List.cons_append, List.mem_cons, hne, false_or]
  | unsave fl s =>
    show Counts _ _ (sharedHandles (s.held ++ fl.saved) ++ (sharedHandles [] ++ R)) _
    rw [sharedHandles_append, List.append_assoc]
    exact hc
  | @save fl s l g n hs hn _ =>
    show Counts _ _ (sharedHandles l ++ (sharedHandles g.segs ++ R)) _
    rw [hs, hn, sharedHandles_append, List.append_assoc] at hc
    exact hc

theorem slotted_list {q : IngressQueue} {fl : FreeList} (hf : q.fl = some fl) : q.slotted = fl.buffers := by
  simp [IngressQueue.slotted, hf]

theorem savedHandles_list {q : IngressQueue} {fl : FreeList} (hf : q.fl = some fl) :
    q.savedHandles = sharedHandles fl.saved := by
  simp [IngressQueue.savedHandles, hf]

/-- A context written whose list refers to the same buffers. -/
theorem counts_setIq_same {s t : State} {i : Nat} {q q' : IngressQueue} (hq : s.iqAt i = some q) (ht : t.iq = s.iq)
    (ha : t.arena = s.arena) (hh : t.held = s.held) (he : t.env = s.env) (h1 : q'.slotted = q.slotted)
    (h2 : q'.savedHandles = q.savedHandles) (hs : Counts s.arena s.slotBuffers s.liveShared s.env.nextBuf) :
    Counts (t.setIq i q').arena (t.setIq i q').slotBuffers (t.setIq i q').liveShared (t.setIq i q').env.nextBuf :=
  counts_setIq hq ht (fun B R hc => by rw [ha, hh, he, h1, h2]; exact hc) hs

theorem counts_setList_same {s t : State} {i : Nat} {q : IngressQueue} {fl fl' : FreeList} (hq : s.iqAt i = some q)
    (hf : q.fl = some fl) (ht : t.iq = s.iq) (ha : t.arena = s.arena) (hh : t.held = s.held) (he : t.env = s.env)
    (h1 : fl'.buffers = fl.buffers) (h2 : fl'.saved = fl.saved)
    (hs : Counts s.arena s.slotBuffers s.liveShared s.env.nextBuf) :
    Counts (t.setIq i { q with fl := some fl' }).arena (t.setIq i { q with fl := some fl' }).slotBuffers
      (t.setIq i { q with fl := some fl' }).liveShared (t.setIq i { q with fl := some fl' }).env.nextBuf := by
  refine counts_setIq_same hq ht ha hh he ?_ ?_ hs
  · rw [slotted_list hf, slotted_list rfl, h1]
  · rw [savedHandles_list hf, savedHandles_list rfl, h2]

/-- A queue that is created replaces none, or one whose list is empty. -/
theorem counts_newIngress {s : State} {i : Nat} {a : CreateIqArgs} (h : badCreateIq s i a = false) (hd : QuietDead s)
    (hs : Counts s.arena s.slotBuffers s.liveShared s.env.nextBuf) :
    Counts (s.setIq i (newIq a)).arena (s.setIq i (newIq a)).slotBuffers (s.setIq i (newIq a)).liveShared
      (s.setIq i (newIq a)).env.nextBuf := by
  obtain ⟨_, _, hi, hdead⟩ := badCreateIq_false h
  cases hq : s.iqAt i with
  | some q =>
    have hempty : q.slotted = [] ∧ q.savedHandles = [] := by
      cases hf : q.fl with
      | none => simp [IngressQueue.slotted, IngressQueue.savedHandles, hf, sharedHandles]
      | some fl =>
        obtain ⟨_, h1, h2⟩ := hd i q hq (hdead q hq) fl hf
        exact ⟨(slotted_list hf).trans h1, (savedHandles_list hf).trans h2⟩
    exact counts_setIq_same hq rfl rfl rfl rfl hempty.1.symm hempty.2.symm hs
  | none =>
    have hsame : (s.setIq i (newIq a)).lists = s.lists := by
      have hat : s.iq[i] = none := by
        rw [State.iqAt, List.getElem?_eq_getElem hi] at hq
        exact hq
      have hself : s.iq.set i none = s.iq := by rw [← hat]; exact List.set_getElem_self hi
      rw [State.lists, State.lists, State.setIq_iq, List.set_eq_take_append_cons_drop, if_pos hi]
      conv_rhs => rw [← hself, List.set_eq_take_append_cons_drop, if_pos hi]
      simp [newIq]
    rw [State.slotBuffers, State.liveShared, hsame]
    exact hs

theorem Move.counts {P : Prop} {s t : State} (h : Move P s t) (hr : IndicesInRange s) (hd : QuietDead s)
    (hs : Counts s.arena s.slotBuffers s.liveShared s.env.nextBuf) :
    Counts t.arena t.slotBuffers t.liveShared t.env.nextBuf := by
  cases h with
  | aside h =>
    rw [h.arena, h.nextBuf, State.slotBuffers, State.liveShared, State.lists, h.iq, h.held]
    exact hs
  | stock h =>
    have hlists : ∀ {u v : State}, StockMove u v → v.lists = u.lists := fun h => by cases h <;> rfl
    rw [State.liveShared, sharedHandles_append] at hs
    rw [State.liveShared, sharedHandles_append, State.slotBuffers, hlists h]
    exact h.counts hs
  | egress => exact hs
  | newEgress => exact hs
  | list hq hf _ h =>
    refine counts_setIq hq h.iq (fun B R hc => ?_) hs
    rw [slotted_list hf, savedHandles_list hf] at hc
    rw [slotted_list rfl, savedHandles_list rfl]
    exact h.counts ((IngressQueue.inRange_iff.mp (hr.1 _ _ hq)).2 _ hf) hc
  | cursor hq h =>
    refine counts_setIq_same hq rfl rfl rfl rfl ?_ ?_ hs
    · rw [h]; rfl
    · rw [h]; rfl
  | starve hq hf => exact counts_setList_same hq hf rfl rfl rfl rfl rfl rfl hs
  | relieve hq hf => exact counts_setList_same hq hf rfl rfl rfl rfl rfl rfl hs
  | doom hq hf => exact counts_setList_same hq hf rfl rfl rfl rfl rfl rfl hs
  | die hq => exact counts_setIq_same hq rfl rfl rfl rfl rfl rfl hs
  | park hq => exact counts_setIq_same hq rfl rfl rfl rfl rfl rfl hs
  | unpark _ hq => exact counts_setIq_same hq rfl rfl rfl rfl rfl rfl hs
  | rotate => exact hs
  | newIngress h => exact counts_newIngress h hd hs
  | newList hq _ hf hl =>
    obtain ⟨_, hb, hsv, _, _⟩ := hl
    refine counts_setIq_same hq rfl rfl rfl rfl ?_ ?_ hs
    · rw [slotted_list rfl, hb]; simp [IngressQueue.slotted, hf]
    · rw [savedHandles_list rfl, hsv]; simp [IngressQueue.savedHandles, hf]

theorem AllIq.setIq_of {p : IngressQueue → Prop} {s t : State} {i : Nat} {q : IngressQueue} (hs : AllIq p s)
    (ht : t.iq = s.iq) (hq : p q) : AllIq p (t.setIq i q) := (hs.of_eq ht).setIq hq

/-- A torn-down queue's list stays empty. -/
theorem Move.quietDead {P : Prop} {s t : State} (p : P) (h : Move P s t) (hd : QuietDead s) : QuietDead t := by
  have hall : AllIq (fun q => q.state = .dead → q.quiet) s := hd
  show AllIq (fun q => q.state = .dead → q.quiet) t
  cases h with
  | aside h => exact hall.of_eq h.iq
  | stock h => cases h <;> exact hall
  | egress => exact hall
  | newEgress => exact hall
  | list hq hf hD h =>
    refine hall.setIq_of h.iq fun hdead fl hfl => ?_
    obtain rfl := Option.some.inj hfl
    exact h.quiet (hD p hdead) (hd _ _ hq hdead _ hf)
  | cursor hq h =>
    have hold := hd _ _ hq
    refine hall.setIq_of rfl ?_
    rw [h]
    exact hold
  | starve hq hf _ hnd =>
    refine hall.setIq_of rfl fun hdead => ?_
    have hdoom := (hd _ _ hq hdead _ hf).1
    rw [hnd] at hdoom
    cases hdoom
  | relieve hq hf =>
    refine hall.setIq_of rfl fun hdead fl hfl => ?_
    obtain ⟨h0, h1, h2⟩ := hd _ _ hq hdead _ hf
    obtain rfl := Option.some.inj hfl
    exact ⟨h0, h1, h2⟩
  | doom hq hf =>
    refine hall.setIq_of rfl fun hdead fl hfl => ?_
    obtain rfl := Option.some.inj hfl
    obtain ⟨_, h1, h2⟩ := hd _ _ hq hdead _ hf
    exact ⟨rfl, h1, h2⟩
  | die hq _ hquiet => exact hall.setIq_of rfl fun _ => hquiet
  | park => exact hall.setIq_of rfl fun h => nomatch h
  | unpark => exact hall.setIq_of rfl fun h => nomatch h
  | rotate => exact hall
  | newIngress => exact hall.setIq_of rfl fun h => nomatch h
  | newList hq hidle => exact hall.setIq_of rfl fun h => absurd (hidle.symm.trans h) (by decide)

theorem Move.referencesExact {s t : State} (h : Move True s t) (hs : IndicesInRange s ∧ CountsExact s) :
    IndicesInRange t ∧ CountsExact t := by
  obtain ⟨hr, hc⟩ := hs
  obtain ⟨hcounts, hd⟩ := countsExact_iff.mp hc
  exact ⟨h.indicesInRange hr, countsExact_iff.mpr ⟨h.counts hr hd hcounts, h.quietDead trivial hd⟩⟩

/-- Settles O53: a move that adds or drops a reference writes the count with it, and a buffer that a move frees leaves the arena. -/
theorem referencesStayExact : Obligations.ReferencesStayExact := fun _ _ hs h =>
  step_keeps_unlessPanic (P := True) (fun hc _ => (countsExact_iff.mp hc.2).2) (fun _ h => h) Move.referencesExact hs h

end Sys2Proof.Machine
end

section
/-! PROOFS. The state after global reset, and what a step runs (70_reset_and_hazards R500). -/

namespace Sys2Proof.Machine

/-- Settles O6: with an empty port the step is the state; with a head it is the instruction that the head decodes to. -/
theorem stepRunsDecoded : Obligations.StepRunsDecoded := by
  refine ⟨fun s hp => by simp only [step, hp], fun s w rest i hp hd hw => ?_⟩
  simp only [step, hp, hd, hw, if_true]
  rfl

/-! ## After reset -/

theorem resetWith_devAt (c : Cfg) (i : Nat) :
    (State.resetWith c).devFlAt i = none ∧ (State.resetWith c).devIqAt i = none ∧ (State.resetWith c).devEqAt i = none := by
  have hnone : ∀ {α : Type} (n : Nat), ((List.replicate n (none : Option α))[i]?).join = none := fun n => by
    rw [List.getElem?_replicate]
    split <;> rfl
  exact ⟨hnone _, hnone _, hnone _⟩

theorem resetWith_lists (c : Cfg) : (State.resetWith c).lists = [] := by
  simp [State.lists, State.resetWith]

/-- Settles O9: after reset there is no queue, no buffer and no list. -/
theorem invariantsAtReset : Obligations.InvariantsAtReset := by
  intro c
  have hiq : ∀ {p : IngressQueue → Prop}, AllIq p (State.resetWith c) := fun i q hq => by simp [resetWith_iqAt] at hq
  have heq : ∀ {p : EgressQueue → Prop}, AllEq p (State.resetWith c) := fun i q hq => by simp [resetWith_eqAt] at hq
  refine ⟨⟨⟨.nil, nofun⟩, ⟨.nil, nofun⟩⟩, ⟨hiq, heq⟩, heq, heq, resetWith_stalledExact c, ?_, resetWith_starvingExact c, heq, ?_⟩
  · exact ⟨List.nodup_nil, fun i => iff_of_false List.not_mem_nil (by simp [resetWith_iqAt])⟩
  · have hslots : (State.resetWith c).slotBuffers = [] := by simp [State.slotBuffers, resetWith_lists]
    have hlive : (State.resetWith c).liveShared = [] := by rw [State.liveShared, resetWith_lists]; rfl
    refine countsExact_iff.mpr ⟨?_, hiq⟩
    rw [hslots, hlive]
    exact ⟨nofun, List.nodup_nil, List.nodup_nil, nofun⟩

end Sys2Proof.Machine
end

section
/-! PROOFS. What an operation answers when it completes: never a refusal (60_exceptions R460, R461, log 8). -/

namespace Sys2Proof.Machine

/-- What `x` answers when it completes, read off by `ret`, is not a refusal. -/
def Answers {α : Type} (ret : α → Ret) (x : Res α) : Prop := ∀ a, x = .ok a → ∀ e, ret a ≠ .refused e

/-- The answer of an operation on a queue. -/
def answerOf {α : Type} (r : α × State × Ret) : Ret := r.2.2

/-- The answer of a device step. -/
def deviceAnswer (o : Option (State × Ret)) : Ret := (o.map (·.2)).getD .notEnabled

variable {α β : Type} {ret : α → Ret} {s : State} {i : Nat}

theorem Answers.ok {a : α} (h : ∀ e, ret a ≠ .refused e) : Answers ret (.ok a) := fun _ hb => by cases hb; exact h

theorem Answers.error (e : Stop) : Answers ret (.error e) := fun _ hb => nomatch hb

theorem Answers.doomed : Answers ret refuseDoomed := .error _

theorem Answers.badarg : Answers ret refuseBadarg := .error _

theorem Answers.ringInvariant : Answers ret ringInvariant := .error _

theorem Answers.bind {x : Res β} {f : β → Res α} (h : ∀ b, Answers ret (f b)) : Answers ret (x >>= f) := fun a ha => by
  obtain ⟨b, _, hb⟩ := Res.bind_eq_ok.mp ha
  exact h b a hb

/-- Only the last part of an operation answers. -/
theorem Answers.bind_pure {x : Res β} {f : β → α} (h : ∀ b e, ret (f b) ≠ .refused e) :
    Answers ret (x >>= fun b => pure (f b)) := .bind fun b => .ok (h b)

theorem Answers.onIq {f : IngressQueue → Res (IngressQueue × State × Ret)} (h : ∀ q, Answers answerOf (f q)) :
    Answers (·.2) (onIq s i f) := fun ⟨u, r⟩ hu => by
  obtain ⟨q, q', s', _, hf, _⟩ := onIq_ok hu
  exact h q _ hf

theorem Answers.onEq {f : EgressQueue → Res (EgressQueue × State × Ret)} (h : ∀ q, Answers answerOf (f q)) :
    Answers (·.2) (onEq s i f) := fun ⟨u, r⟩ hu => by
  obtain ⟨q, q', s', _, hf, _⟩ := onEq_ok hu
  exact h q _ hf

theorem Answers.onFl {f : FreeList → Res (FreeList × State × Ret)} (h : ∀ fl, Answers answerOf (f fl)) :
    Answers (·.2) (onFl s i f) := fun ⟨u, r⟩ hu => by
  obtain ⟨q, fl, fl', s', _, _, hf, _⟩ := onFl_ok hu
  exact h fl _ hf

/-- A command that returns a refusal has been refused. -/
theorem refused_of_runQe {t : State} {e : Exc} {body : State → Res (State × Ret)} (hb : Answers (·.2) (body s.begin))
    (h : runQe s body = .next t) (hr : t.ret = .refused e) : t = takeRefusal s e := by
  obtain ⟨_, ⟨u, r, hok, rfl⟩ | ⟨e', _, rfl⟩ | ⟨_, rfl⟩⟩ := runQe_next h
  · exact absurd hr (hb _ hok e)
  · cases hr
    rfl
  · cases hr

/-- A device step that returns a refusal has been refused. -/
theorem refused_of_runDevice {t : State} {e : Exc} {body : State → Res (Option (State × Ret))}
    (hb : Answers deviceAnswer (body s.begin)) (h : runDevice s body = .next t) (hr : t.ret = .refused e) :
    t = takeRefusal s e := by
  obtain ⟨u, r, hok, rfl⟩ | ⟨_, rfl⟩ | ⟨e', _, rfl⟩ | ⟨_, rfl⟩ := runDevice_next h
  · exact absurd hr (hb _ hok e)
  · cases hr
  · cases hr
    rfl
  · cases hr

/-! ## The operations -/

theorem execWrite_answers (w : MmioWrite) :
    Answers (·.2) (do match ← writeAlone s w with | some t => return (t, .ok) | none => refuseBadarg : Res (State × Ret)) :=
  .bind fun o => by
    cases o with
    | none => exact .badarg
    | some t => exact .ok (by simp)

theorem stall_answers {c : Exc} {q : EgressQueue} : Answers answerOf (stall i c q s) :=
  .bind fun _ => .bind fun _ => .ok (by simp [answerOf])

theorem submitSingle_answers {p : Packet} {q : EgressQueue} : Answers answerOf (submitSingle i p q s) := by
  unfold submitSingle
  split
  · unfold submitImm
    dsimp only
    split
    · exact stall_answers
    · exact .bind fun _ => .bind fun _ => .bind_pure (by simp [answerOf])
  · unfold submitSgl
    split
    · exact stall_answers
    · dsimp only
      split
      · exact .ok (by simp [answerOf])
      · split
        · exact stall_answers
        · exact .bind fun _ => .bind_pure (by simp [answerOf])

theorem submit_answers {p : Packet} {q : EgressQueue} : Answers answerOf (submit i p q s) := by
  unfold submit
  split
  · exact .doomed
  · split
    · exact .badarg
    · split
      · exact .ok (by simp [answerOf])
      · dsimp only
        split
        · exact .bind_pure (by simp [answerOf])
        · refine .bind fun _ => ?_
          split
          · split
            · exact .bind_pure (by simp [answerOf])
            · exact stall_answers
          · exact submitSingle_answers

theorem submitWr_answers {fs : List Flit} {q : EgressQueue} : Answers answerOf (submitWr i fs q s) := by
  unfold submitWr
  split
  · exact .doomed
  · split
    · exact .badarg
    · split
      · exact .ok (by simp [answerOf])
      · refine .bind fun _ => ?_
        dsimp only
        split
        · exact stall_answers
        · exact .bind fun _ => .bind_pure (by simp [answerOf])

theorem placeRequest_answers {fs : List Flit} {c n : Nat} {q : EgressQueue} : Answers answerOf (placeRequest fs c n q s) :=
  .bind fun _ => .bind_pure (by simp [answerOf])

theorem writePart_answers {k : Nat} {legal : Bool} {fs : List Flit} : Answers (·.2) (writePart i k legal fs s) :=
  .onEq fun q => by
    split
    · exact .doomed
    · split
      · exact .badarg
      · exact .bind_pure (by simp [answerOf])

theorem serviceRet_ne (done : Bool) (e : Exc) : serviceRet done ≠ .refused e := by cases done <;> simp [serviceRet]

theorem serviceAndFinish_answers {q : IngressQueue} : Answers answerOf (serviceAndFinish i q s) :=
  .bind fun _ => .ok (serviceRet_ne _)

theorem dispatchAlone_answers {f : Flit × Flit} {arm : IngressQueue → State → Res (Bool × IngressQueue × State)} :
    Answers (·.2) (dispatchAlone i f arm s) := .onIq fun q => by
  split
  · exact .doomed
  · split
    · exact .badarg
    · split
      · refine .bind fun r => .ok fun e => ?_
        show (if r.1 then Ret.advance else .stay) ≠ _
        split <;> simp
      · exact .ok (by simp [answerOf])

theorem writeStatus_answers {r : QRef} {p : Sp} : Answers deviceAnswer (writeStatus s r p) := by
  unfold writeStatus
  split
  all_goals
    split
    · exact .bind_pure (by simp [deviceAnswer])
    · exact .ok (by simp [deviceAnswer])

theorem createFl_answers {a : CreateFlArgs} : Answers (·.2) (createFl i a s) := by
  unfold createFl
  split
  · exact .doomed
  · split
    · exact .badarg
    · split
      · exact .badarg
      · exact .onIq fun _ => .bind_pure (by simp [answerOf])

theorem teardownIq_answers {q : IngressQueue} : Answers answerOf (teardownIq i q s) := by
  unfold teardownIq
  split
  · exact .doomed
  · split
    · exact .badarg
    · split
      · exact .ok (by simp [answerOf])
      · split
        · exact .ok (by simp [answerOf])
        · exact .bind_pure (by simp [answerOf])

theorem teardownEq_answers {q : EgressQueue} : Answers answerOf (teardownEq i q s) := by
  unfold teardownEq
  split
  · exact .doomed
  · refine .bind fun _ => .bind fun _ => ?_
    dsimp only
    split
    · exact .ok (by simp [answerOf])
    · exact .ok (by simp [answerOf])

theorem timerTick_answers : Answers (·.2) (timerTick s) := .bind fun _ => .bind_pure (by simp)

/-! ## Creation, teardown, and the free list -/

variable {t : State} {e : Exc}

theorem execCreateIq_refused {a : CreateIqArgs} (h : execCreateIq i a s = .next t) (hr : t.ret = .refused e) :
    t = takeRefusal s e := refused_of_runQe (by
  unfold createIq
  split
  · exact .badarg
  · exact .bind_pure (by simp)) h hr

theorem execCreateEq_refused {a : CreateEqArgs} (h : execCreateEq i a s = .next t) (hr : t.ret = .refused e) :
    t = takeRefusal s e := refused_of_runQe (by
  unfold createEq
  split
  · exact .badarg
  · exact .bind_pure (by simp)) h hr

theorem execRefill_refused {n : Nat} (h : execRefill i n s = .next t) (hr : t.ret = .refused e) : t = takeRefusal s e :=
  refused_of_runQe (.onFl fun fl => by
    split
    · exact .doomed
    · split
      · exact .badarg
      · exact .bind_pure (by simp [answerOf])) h hr

theorem execConsumeFrame_refused {total : BitVec 31} {nb : Bool} (h : execConsumeFrame i total nb s = .next t)
    (hr : t.ret = .refused e) : t = takeRefusal s e :=
  refused_of_runQe (.onFl fun fl => by
    split
    · exact .doomed
    · split
      · exact .badarg
      · refine .bind fun r => ?_
        dsimp only
        split
        · exact .ok (by simp [answerOf])
        · exact .ok (by simp [answerOf])) h hr

theorem execFrameRelease_refused {g : Segment} (h : execFrameRelease g s = .next t) (hr : t.ret = .refused e) :
    t = takeRefusal s e :=
  refused_of_runQe (by
    split
    · exact .bind_pure (by simp)
    · split
      · exact .ringInvariant
      · exact .badarg) h hr

theorem execFle_refused {r : Fle} (h : execFle i r s = .next t) (hr : t.ret = .refused e) : t = takeRefusal s e :=
  refused_of_runQe (.onFl fun fl => by
    split
    · exact .doomed
    · split
      · exact .badarg
      · exact .bind_pure (by simp [answerOf])) h hr

/-! ## Ingress service -/

theorem execInterrupt_refused (h : execInterrupt i s = .next t) (hr : t.ret = .refused e) : t = takeRefusal s e :=
  refused_of_runQe (.onIq fun q => by
    split
    · exact .doomed
    · split
      · exact .badarg
      · split
        · exact .ok (by simp [answerOf])
        · exact serviceAndFinish_answers) h hr

theorem execService_refused {b : BitVec 16} (h : execService i b s = .next t) (hr : t.ret = .refused e) :
    t = takeRefusal s e :=
  refused_of_runQe (.onIq fun q => by
    split
    · exact .doomed
    · split
      · exact .badarg
      · exact .bind fun _ => .ok (serviceRet_ne _)) h hr

theorem execDeferredRun_refused (h : execDeferredRun s = .next t) (hr : t.ret = .refused e) : t = takeRefusal s e :=
  refused_of_runQe (by
    split
    · exact .ok (by simp)
    · exact .onIq fun _ => serviceAndFinish_answers) h hr

/-! ## Egress -/

theorem execTxpktsFlush_refused (h : execTxpktsFlush i s = .next t) (hr : t.ret = .refused e) : t = takeRefusal s e :=
  refused_of_runQe (.onEq fun _ => .bind_pure (by simp [answerOf])) h hr

theorem execReclaim_refused {n : BitVec 16} (h : execReclaim i n s = .next t) (hr : t.ret = .refused e) :
    t = takeRefusal s e := refused_of_runQe (.onEq fun _ => .bind_pure (by simp [answerOf])) h hr

theorem execNotify_refused {q : QRef} (h : execNotify q s = .next t) (hr : t.ret = .refused e) : t = takeRefusal s e :=
  refused_of_runQe (by
    split
    · exact .onFl fun _ => .bind_pure (by simp [answerOf])
    · exact .onEq fun _ => .bind_pure (by simp [answerOf])) h hr

theorem execTxDone_refused (h : execTxDone i s = .next t) (hr : t.ret = .refused e) : t = takeRefusal s e :=
  refused_of_runQe (.onEq fun _ => by
    split
    · exact .bind_pure (by simp [answerOf])
    · exact .bind fun _ => .bind_pure (by simp [answerOf])) h hr

theorem execTxpktsOpen_refused (h : execTxpktsOpen i s = .next t) (hr : t.ret = .refused e) : t = takeRefusal s e :=
  refused_of_runQe (.onEq fun _ => by
    split
    · exact .doomed
    · split
      · exact .badarg
      · exact .ok (by simp [answerOf])) h hr

theorem execTxpktsAdd_refused {p : Packet} (h : execTxpktsAdd i p s = .next t) (hr : t.ret = .refused e) :
    t = takeRefusal s e :=
  refused_of_runQe (.onEq fun _ => by
    split
    · exact .doomed
    · split
      · exact .badarg
      · exact .bind_pure (by simp [answerOf])) h hr

theorem execResumeCheck_refused {n : BitVec 16} (h : execResumeCheck i n s = .next t) (hr : t.ret = .refused e) :
    t = takeRefusal s e :=
  refused_of_runQe (.onEq fun _ => by
    split
    · exact .doomed
    · split
      · exact .badarg
      · exact .ok (by simp [answerOf])) h hr

theorem execEthTxPkt_refused {k : Nat} {w : WrHeader} {b : List Flit} (h : execEthTxPkt i k w b s = .next t)
    (hr : t.ret = .refused e) : t = takeRefusal s e :=
  refused_of_runQe (.onEq fun _ => by
    split
    · exact .doomed
    · split
      · exact .badarg
      · split
        · exact .badarg
        · split
          · exact placeRequest_answers
          · split
            · exact .badarg
            · exact placeRequest_answers) h hr

theorem execEthTxPkts_refused {ks : List Nat} {w : WrHeader} {b : List Flit} (h : execEthTxPkts i ks w b s = .next t)
    (hr : t.ret = .refused e) : t = takeRefusal s e :=
  refused_of_runQe (.onEq fun _ => by
    split
    · exact .doomed
    · split
      · exact .badarg
      · split
        · exact .badarg
        · split
          · exact .badarg
          · exact placeRequest_answers) h hr

theorem execWrOpaque_refused {fs : List Flit} (h : execWrOpaque i fs s = .next t) (hr : t.ret = .refused e) :
    t = takeRefusal s e :=
  refused_of_runQe (.onEq fun _ => by
    split
    · exact .doomed
    · split
      · exact .badarg
      · exact placeRequest_answers) h hr

theorem execWrReserved00_refused {fs : List Flit} (h : execWrReserved00 i fs s = .next t) (hr : t.ret = .refused e) :
    t = takeRefusal s e :=
  refused_of_runQe (.onEq fun _ => by
    split
    · exact .doomed
    · exact .badarg) h hr

/-! ## The device's steps -/

theorem execSp_refused {q : QRef} {r : Sp} (h : execSp q r s = .next t) (hr : t.ret = .refused e) : t = takeRefusal s e :=
  refused_of_runDevice (by
    split
    · exact writeStatus_answers
    · exact .ok (by simp [deviceAnswer])) h hr

theorem execDevStatus_refused {q : QRef} (h : execDevStatus q s = .next t) (hr : t.ret = .refused e) :
    t = takeRefusal s e :=
  refused_of_runDevice (by
    split
    · exact writeStatus_answers
    · exact .ok (by simp [deviceAnswer])) h hr

theorem execDevDb_refused {w : MmioWrite} (h : execDevDb w s = .next t) (hr : t.ret = .refused e) : t = takeRefusal s e :=
  refused_of_runDevice (by
    split
    · exact .ok (by simp [deviceAnswer])
    · exact .bind fun o => .ok (by cases o <;> simp [deviceAnswer])) h hr

theorem execDevFl_refused {j : Nat} (h : execDevFl i j s = .next t) (hr : t.ret = .refused e) : t = takeRefusal s e :=
  refused_of_runDevice (by
    split
    · split
      · exact .bind_pure (by simp [deviceAnswer])
      · exact .ok (by simp [deviceAnswer])
    · exact .ok (by simp [deviceAnswer])) h hr

theorem execDevRx_refused {bs : List Byte} {fm : FrameMeta} {skip : Bool} (h : execDevRx i bs fm skip s = .next t)
    (hr : t.ret = .refused e) : t = takeRefusal s e :=
  refused_of_runDevice (by
    split
    · split
      · exact .ok (by simp [deviceAnswer])
      · refine .bind fun o => ?_
        split
        · exact .ok (by simp [deviceAnswer])
        · exact .bind_pure (by simp [deviceAnswer])
    · exact .ok (by simp [deviceAnswer])) h hr

theorem execDevOob_refused {f : Flit} (h : execDevOob i f s = .next t) (hr : t.ret = .refused e) : t = takeRefusal s e :=
  refused_of_runDevice (by
    split
    · split
      · exact .ok (by simp [deviceAnswer])
      · exact .bind_pure (by simp [deviceAnswer])
    · exact .ok (by simp [deviceAnswer])) h hr

theorem execDevFwd_refused {j : Nat} (h : execDevFwd i j s = .next t) (hr : t.ret = .refused e) : t = takeRefusal s e :=
  refused_of_runDevice (by
    split
    · dsimp only
      split
      · split
        · exact .bind_pure (by simp [deviceAnswer])
        · exact .ok (by simp [deviceAnswer])
      · exact .ok (by simp [deviceAnswer])
    · exact .ok (by simp [deviceAnswer])) h hr

theorem execDevTx_refused (h : execDevTx i s = .next t) (hr : t.ret = .refused e) : t = takeRefusal s e :=
  refused_of_runDevice (by
    split
    · split
      · exact .ok (by simp [deviceAnswer])
      · refine .bind fun _ => ?_
        split
        · exact .ok (by simp [deviceAnswer])
        · exact .bind_pure (by simp [deviceAnswer])
    · exact .ok (by simp [deviceAnswer])) h hr

theorem execDevIntr_refused (h : execDevIntr i s = .next t) (hr : t.ret = .refused e) : t = takeRefusal s e :=
  refused_of_runDevice (by
    split
    · split
      · exact .ok (by simp [deviceAnswer])
      · exact .ok (by simp [deviceAnswer])
    · exact .ok (by simp [deviceAnswer])) h hr

/-! ## The other instructions -/

theorem execCreateFl_refused {a : CreateFlArgs} (h : execCreateFl i a s = .next t)
    (hr : t.ret = .refused e) : t = takeRefusal s e := refused_of_runQe createFl_answers h hr

theorem execTeardownIq_refused (h : execTeardownIq i s = .next t) (hr : t.ret = .refused e) : t = takeRefusal s e :=
  refused_of_runQe (.onIq fun _ => teardownIq_answers) h hr

theorem execTeardownEq_refused (h : execTeardownEq i s = .next t) (hr : t.ret = .refused e) : t = takeRefusal s e :=
  refused_of_runQe (.onEq fun _ => teardownEq_answers) h hr

theorem execTimerTick_refused (h : execTimerTick s = .next t) (hr : t.ret = .refused e) : t = takeRefusal s e :=
  refused_of_runQe timerTick_answers h hr

theorem execFindBestRefillSource_refused {m : BitVec 32} {p : Bool} (h : execFindBestRefillSource m p s = .next t)
    (hr : t.ret = .refused e) : t = takeRefusal s e := refused_of_runQe (.ok (by simp)) h hr

theorem execFindSafeRefillSource_refused {p : Bool} (h : execFindSafeRefillSource p s = .next t)
    (hr : t.ret = .refused e) : t = takeRefusal s e := refused_of_runQe (.ok (by simp)) h hr

theorem execIqeRx_refused {x : RxEntry} (h : execIqeRx i x s = .next t)
    (hr : t.ret = .refused e) : t = takeRefusal s e := refused_of_runQe dispatchAlone_answers h hr

theorem execIqeEgrUpdate_refused {x : EgrUpdateEntry} (h : execIqeEgrUpdate i x s = .next t)
    (hr : t.ret = .refused e) : t = takeRefusal s e := refused_of_runQe dispatchAlone_answers h hr

theorem execIqeOob_refused {x : OobEntry} (h : execIqeOob i x s = .next t)
    (hr : t.ret = .refused e) : t = takeRefusal s e := refused_of_runQe dispatchAlone_answers h hr

theorem execIqeFwd_refused {x : FwdEntry} (h : execIqeFwd i x s = .next t)
    (hr : t.ret = .refused e) : t = takeRefusal s e := refused_of_runQe dispatchAlone_answers h hr

theorem execIqeReserved_refused {x : ReservedEntry} (h : execIqeReserved i x s = .next t)
    (hr : t.ret = .refused e) : t = takeRefusal s e := refused_of_runQe dispatchAlone_answers h hr

theorem execSubmit_refused {p : Packet} (h : execSubmit i p s = .next t)
    (hr : t.ret = .refused e) : t = takeRefusal s e := refused_of_runQe (.onEq fun _ => submit_answers) h hr

theorem execSubmitWr_refused {fs : List Flit} (h : execSubmitWr i fs s = .next t)
    (hr : t.ret = .refused e) : t = takeRefusal s e := refused_of_runQe (.onEq fun _ => submitWr_answers) h hr

theorem execLso_refused {k : Nat} {r : Lso} (h : execLso i k r s = .next t)
    (hr : t.ret = .refused e) : t = takeRefusal s e := refused_of_runQe writePart_answers h hr

theorem execTxpkt_refused {k : Nat} {r : Txpkt} (h : execTxpkt i k r s = .next t)
    (hr : t.ret = .refused e) : t = takeRefusal s e := refused_of_runQe writePart_answers h hr

theorem execSgl_refused {k : Nat} {gs : List PktSeg} (h : execSgl i k gs s = .next t)
    (hr : t.ret = .refused e) : t = takeRefusal s e := refused_of_runQe writePart_answers h hr

theorem execImmediateData_refused {k : Nat} {bs : List Byte} (h : execImmediateData i k bs s = .next t)
    (hr : t.ret = .refused e) : t = takeRefusal s e := refused_of_runQe writePart_answers h hr

theorem execWrite_refused {w : MmioWrite} (h : execWrite w s = .next t)
    (hr : t.ret = .refused e) : t = takeRefusal s e := refused_of_runQe (execWrite_answers w) h hr

/-- Settles O19: no operation that completes answers with a refusal. -/
theorem refusalChangesNothing : Obligations.RefusalChangesNothing := by
  intro i s t e h hr
  cases i with
  | createIq j a => exact execCreateIq_refused h hr
  | createFl j a => exact execCreateFl_refused h hr
  | createEq j a => exact execCreateEq_refused h hr
  | teardownIq j => exact execTeardownIq_refused h hr
  | teardownEq j => exact execTeardownEq_refused h hr
  | timerTick => exact execTimerTick_refused h hr
  | refill j n => exact execRefill_refused h hr
  | frameRelease seg => exact execFrameRelease_refused h hr
  | interrupt j => exact execInterrupt_refused h hr
  | service j b => exact execService_refused h hr
  | deferredRun => exact execDeferredRun_refused h hr
  | submit j p => exact execSubmit_refused h hr
  | submitWr j fs => exact execSubmitWr_refused h hr
  | txpktsFlush j => exact execTxpktsFlush_refused h hr
  | reclaim j n => exact execReclaim_refused h hr
  | notify q => exact execNotify_refused h hr
  | txDone j => exact execTxDone_refused h hr
  | findBestRefillSource m p => exact execFindBestRefillSource_refused h hr
  | findSafeRefillSource p => exact execFindSafeRefillSource_refused h hr
  | consumeFrame j n b => exact execConsumeFrame_refused h hr
  | txpktsOpen j => exact execTxpktsOpen_refused h hr
  | txpktsAdd j p => exact execTxpktsAdd_refused h hr
  | resumeCheck j n => exact execResumeCheck_refused h hr
  | iqeRx j x => exact execIqeRx_refused h hr
  | iqeEgrUpdate j x => exact execIqeEgrUpdate_refused h hr
  | iqeOob j x => exact execIqeOob_refused h hr
  | iqeFwd j x => exact execIqeFwd_refused h hr
  | iqeReserved j x => exact execIqeReserved_refused h hr
  | ethTxPkt j k w b => exact execEthTxPkt_refused h hr
  | ethTxPkts j ks w b => exact execEthTxPkts_refused h hr
  | wrOpaque j fs => exact execWrOpaque_refused h hr
  | wrReserved00 j fs => exact execWrReserved00_refused (fs := fs) h hr
  | lso j k r => exact execLso_refused h hr
  | txpkt j k r => exact execTxpkt_refused h hr
  | sgl j k gs => exact execSgl_refused h hr
  | immediateData j k bs => exact execImmediateData_refused h hr
  | fle j r => exact execFle_refused h hr
  | dbw reg r => exact execWrite_refused h hr
  | icw r => exact execWrite_refused h hr
  | sp q r => exact execSp_refused h hr
  | wcBurst a fs => exact execWrite_refused h hr
  | devDb w => exact execDevDb_refused h hr
  | devFl j k => exact execDevFl_refused h hr
  | devRx j bs fm skip => exact execDevRx_refused h hr
  | devOob j f => exact execDevOob_refused h hr
  | devFwd j k => exact execDevFwd_refused h hr
  | devTx j => exact execDevTx_refused h hr
  | devStatus q => exact execDevStatus_refused h hr
  | devIntr j => exact execDevIntr_refused h hr

end Sys2Proof.Machine
end

section
/-! PROOFS. The creation arguments that are refused, in the terms of the statements (47_system R430 to R432). -/

namespace Sys2Proof.Machine

variable {s : State} {i : Nat}

/-! ## The tests -/

theorem layoutStated_iff {c : Cfg} : layoutStated c = true ↔ LayoutStated c := by
  simp [layoutStated, LayoutStated, and_assoc]

theorem isPowerOfTwo_iff {n : Nat} : isPowerOfTwo n = true ↔ ∃ k, n = 2 ^ k := by
  simp only [isPowerOfTwo, decide_eq_true_eq]
  constructor
  · exact fun h => ⟨n.log2, h.symm⟩
  · rintro ⟨k, rfl⟩
    rw [Nat.log2_two_pow]

theorem iqQidTaken_eq_false {qid : Nat} : iqQidTaken s i qid = false ↔
    ∀ j q, j ≠ i → s.iqAt j = some q → q.state ≠ .dead → q.qid.toNat ≠ qid := by
  simp only [iqQidTaken, List.any_eq_false, indicesOf_mem, IngressQueue.live, Bool.and_eq_true, decide_eq_true_eq]
  constructor
  · exact fun h j q hj hq hl he => h j ⟨q, hq, hl, he⟩ hj
  · rintro h j ⟨q, hq, hl, he⟩ hj
    exact h j q hj hq hl he

/-- A test that some queue satisfies. -/
theorem indicesOf_ne_nil {α : Type} {p : α → Bool} {l : List (Option α)} :
    indicesOf p l ≠ [] ↔ ∃ (j : Nat) (q : α), (l[j]?).join = some q ∧ p q = true := by
  simp only [ne_eq, List.eq_nil_iff_forall_not_mem, not_forall, not_not, indicesOf_mem]

theorem isForwarder_iff {qid : Nat} : isForwarder s qid = true ↔
    ∃ j q, s.iqAt j = some q ∧ q.role = .forwarder ∧ q.state ≠ .dead ∧ q.qid.toNat = qid := by
  rw [isForwarder, decide_eq_true_iff, indicesOf_ne_nil]
  refine exists_congr fun j => exists_congr fun q => and_congr_right fun _ => ?_
  simp only [IngressQueue.live, Bool.and_eq_true, decide_eq_true_eq]
  tauto

theorem flAt_eq_some {fl : FreeList} : s.flAt i = some fl ↔ ∃ q, s.iqAt i = some q ∧ q.fl = some fl :=
  Option.bind_eq_some_iff

/-- No live free list and no other live egress queue has the identifier. -/
theorem eqQidTaken_eq_false {qid : BitVec 16} : eqQidTaken s i qid = false ↔
    (∀ j q, j ≠ i → s.eqAt j = some q → q.state ≠ .dead → q.qid ≠ qid) ∧
      ∀ j fl, s.flAt j = some fl → fl.doomed = false → fl.qid ≠ qid := by
  rw [eqQidTaken, Bool.or_eq_false_iff]
  refine and_congr ?_ ?_
  · simp only [List.any_eq_false, indicesOf_mem, EgressQueue.live, Bool.and_eq_true, decide_eq_true_eq]
    constructor
    · exact fun h j q hj hq hl he => h j ⟨q, hq, hl, he⟩ hj
    · rintro h j ⟨q, hq, hl, he⟩ hj
      exact h j q hj hq hl he
  · rw [decide_eq_false_iff_not, indicesOf_ne_nil]
    constructor
    · intro h j fl hfl hd he
      obtain ⟨q, hq, hf⟩ := flAt_eq_some.mp hfl
      exact h ⟨j, q, hq, by simp [hf, FreeList.live, hd, he]⟩
    · rintro h ⟨j, q, hq, hp⟩
      cases hf : q.fl with
      | none => simp [hf] at hp
      | some fl =>
        simp only [hf, FreeList.live, Bool.and_eq_true, Bool.not_eq_true', decide_eq_true_eq] at hp
        exact h j fl (flAt_eq_some.mpr ⟨q, hq, hf⟩) hp.1 hp.2

theorem badCfg_eq_false {c : Cfg} : badCfg c = false ↔ CfgSound c ∧ LayoutStated c := by
  simp only [badCfg, CfgSound, Bool.or_eq_false_iff, Bool.not_eq_false', isPowerOfTwo_iff, layoutStated_iff,
    decide_eq_false_iff_not, List.any_eq_false, Bool.or_eq_true, decide_eq_true_eq, not_or, not_not, not_lt,
    ← List.length_eq_zero_iff, Nat.pos_iff_ne_zero, Nat.one_le_iff_ne_zero]
  tauto

/-! ## The commands -/

theorem notLive_iff {q? : Option IngressQueue} :
    (match q? with | some q => q.live | none => false) = false ↔ ∀ q, q? = some q → q.state = .dead := by
  cases q? with
  | none => simp
  | some q => simp [IngressQueue.live]

theorem notLiveEq_iff {q? : Option EgressQueue} :
    (match q? with | some q => q.live | none => false) = false ↔ ∀ q, q? = some q → q.state = .dead := by
  cases q? with
  | none => simp
  | some q => simp [EgressQueue.live]

theorem badCreateIq_eq_false {a : CreateIqArgs} : badCreateIq s i a = false ↔ LegalIq s i a := by
  have hfwd : (decide (a.role = .forwarded) && !isForwarder s a.parent) = false ↔ (a.role = .forwarded →
      ∃ j q, s.iqAt j = some q ∧ q.role = .forwarder ∧ q.state ≠ .dead ∧ q.qid.toNat = a.parent) := by
    rw [← isForwarder_iff]
    simp
  simp only [badCreateIq, LegalIq, Bool.or_eq_false_iff, hfwd, iqQidTaken_eq_false, Bool.not_eq_false',
    layoutStated_iff, decide_eq_true_eq, decide_eq_false_iff_not, not_lt, not_le, ne_eq, and_assoc, not_not]
  exact and_congr_right fun _ => and_congr notLive_iff Iff.rfl

theorem badCreateEq_eq_false {a : CreateEqArgs} : badCreateEq s i a = false ↔ LegalEq s i a := by
  simp only [badCreateEq, LegalEq, Bool.or_eq_false_iff, eqQidTaken_eq_false, Bool.not_eq_false',
    layoutStated_iff, decide_eq_true_eq, decide_eq_false_iff_not, not_lt, not_not, ne_eq, and_assoc]
  exact and_congr_right fun _ => and_congr notLiveEq_iff Iff.rfl

theorem badCreateFl_eq_false {a : CreateFlArgs} : badCreateFl s i a = false ↔ LegalFl s i a := by
  have hq : (match s.iqAt i with | some q => decide (q.state ≠ .idle) || q.fl.isSome | none => true) = false ↔
      ∃ q, s.iqAt i = some q ∧ q.state = .idle ∧ q.fl = none := by
    cases s.iqAt i with
    | none => simp
    | some q => simp
  have hdb : a.dbMech ≠ .wcCopy ↔ a.dbMech = .reg ∨ a.dbMech = .udbPage := by cases a.dbMech <;> simp
  simp only [badCreateFl, LegalFl, Bool.or_eq_false_iff, badCfg_eq_false, decide_eq_false_iff_not, not_lt, not_not,
    ← hdb, ne_eq, and_assoc]
  exact and_congr hq Iff.rfl

end Sys2Proof.Machine
end

section
/-! PROOFS. What each command refuses (60_exceptions R460, R461), global reset (70_reset_and_hazards R500), and accesses
past the address space (log 23). -/

namespace Sys2Proof.Machine

variable {s : State} {i : Nat} {e : Exc}

/-! ## Operations that refuse -/

theorem onIq_refuse {q : IngressQueue} {f : IngressQueue → Res (IngressQueue × State × Ret)} (hq : s.iqAt i = some q)
    (hf : f q = .error (.refuse e)) : onIq s i f = .error (.refuse e) := by
  rw [onIq_eq hq, hf, Res.bind_error]

theorem onFl_refuse {fl : FreeList} {f : FreeList → Res (FreeList × State × Ret)} (hfl : s.flAt i = some fl)
    (hf : f fl = .error (.refuse e)) : onFl s i f = .error (.refuse e) := by
  obtain ⟨q, hq, hqf⟩ := flAt_eq_some.mp hfl
  rw [onFl_eq hq hqf, hf, Res.bind_error]

theorem onIq_none {f : IngressQueue → Res (IngressQueue × State × Ret)} (h : s.iqAt i = none) :
    onIq s i f = refuseBadarg := by
  rw [onIq, h]

theorem onFl_none {f : FreeList → Res (FreeList × State × Ret)} (h : s.iqAt i = none) : onFl s i f = refuseBadarg := by
  rw [onFl, h]

theorem onEq_none {f : EgressQueue → Res (EgressQueue × State × Ret)} (h : s.eqAt i = none) :
    onEq s i f = refuseBadarg := by
  rw [onEq, h]

/-! ## Operations that fault -/

theorem runQe_fault {f : Fault} {body : State → Res (State × Ret)} (hp : s.panic = false)
    (h : body s.begin = .error (.fault f)) : runQe s body = .fault f := by
  simp [runQe, hp, conclude, h]

theorem ringRead_fault {a : Nat} (h : inSpace a 8 = false) : ringRead s a = .error (.fault .addressOutside) := by
  simp [ringRead, h]

theorem ringWrite_fault {a : Nat} {v : Flit} (h : inSpace a 8 = false) :
    ringWrite s a v = .error (.fault .addressOutside) := by
  simp [ringWrite, h]

theorem ringWriteAll_fault {fs : List Flit} {a : Nat} (hne : fs ≠ []) (h : inSpace a (8 * fs.length) = false) :
    ringWriteAll s a fs = .error (.fault .addressOutside) := by
  induction fs generalizing s a with
  | nil => exact absurd rfl hne
  | cons v vs ih =>
    rw [inSpace, decide_eq_false_iff_not, List.length_cons] at h
    by_cases ha : inSpace a 8 = true
    · have hle : a + 8 ≤ addressLimit := of_decide_eq_true ha
      have hne' : vs ≠ [] := by
        rintro rfl
        exact h (by simpa using hle)
      rw [ringWriteAll, ringWrite_eq ha, Res.bind_ok]
      exact ih hne' (decide_eq_false (by omega))
    · rw [ringWriteAll, ringWrite_fault (by simpa using ha), Res.bind_error]

theorem zeroFlits_fault {a n : Nat} (hn : 0 < n) (h : inSpace a (8 * n) = false) :
    zeroFlits s a n = .error (.fault .addressOutside) :=
  ringWriteAll_fault (by simp; omega) (by simpa using h)

theorem execCreateIq_outside {a : CreateIqArgs} (hp : s.panic = false) (hl : LegalIq s i a)
    (h : inSpace a.base.toNat (16 * a.cap) = false) : execCreateIq i a s = .fault .addressOutside := by
  have hcap : 2 ≤ a.cap := (badCreateIq_false (badCreateIq_eq_false.mpr hl)).1
  refine runQe_fault hp ?_
  rw [createIq, badCreateIq_eq_false.mpr (show LegalIq s.begin i a from hl), if_neg Bool.false_ne_true,
    zeroFlits_fault (by omega) (by rwa [← Nat.mul_assoc]), Res.bind_error]

theorem newFl_statusAddr {a : CreateFlArgs} {d : ClusterLayout} {sf : Option ClusterLayout} (h : a.cap ≤ 65535) :
    flStatusAddr (newFl a d sf) = a.base.toNat + 8 * a.cap := by
  simp only [flStatusAddr, newFl, BitVec.toNat_ofNat]
  omega

theorem newEq_statusAddr {a : CreateEqArgs} (h : a.cap ≤ 65535) :
    eqStatusAddr (newEq a) = a.base.toNat + 64 * a.cap := by
  simp only [eqStatusAddr, newEq, BitVec.toNat_ofNat]
  omega

theorem LegalFl.cap_le {a : CreateFlArgs} (h : LegalFl s i a) : 16 ≤ a.cap ∧ a.cap ≤ 65535 := by
  obtain ⟨_, _, h16, hmax, _⟩ := h
  exact ⟨h16, hmax⟩

theorem LegalFl.not_doomed {a : CreateFlArgs} (h : LegalFl s i a) : doomedCreateFl s i = false := by
  obtain ⟨⟨q, hq, hidle, _⟩, _⟩ := h
  simp [doomedCreateFl, hq, hidle]

theorem LegalEq.cap_le {a : CreateEqArgs} (h : LegalEq s i a) : 1 ≤ a.cap ∧ a.cap ≤ 65535 :=
  have hcap := badCreateEq_false (badCreateEq_eq_false.mpr h)
  ⟨hcap.1, hcap.2.1⟩

theorem execCreateFl_outside {a : CreateFlArgs} {d : ClusterLayout} (hp : s.panic = false) (hl : LegalFl s i a)
    (hd : findBest s.cfg a.maxp.toNat a.packing = some d) (h : inSpace (a.base.toNat + 8 * a.cap) 64 = false) :
    execCreateFl i a s = .fault .addressOutside := by
  obtain ⟨q, hq, _⟩ := hl.1
  refine runQe_fault hp ?_
  have hbad : badCreateFl s.begin i a = false := badCreateFl_eq_false.mpr hl
  have hdoom : doomedCreateFl s.begin i = false := hl.not_doomed
  have hbest : findBest s.begin.cfg a.maxp.toNat a.packing = some d := hd
  simp only [createFl, hdoom, hbad, hbest, Bool.false_eq_true, if_false]
  rw [onIq_eq (s := s.begin) hq, zeroFlits_fault (by omega) (by rwa [newFl_statusAddr hl.cap_le.2]), Res.bind_error,
    Res.bind_error]

theorem execCreateEq_outside {a : CreateEqArgs} (hp : s.panic = false) (hl : LegalEq s i a)
    (h : inSpace (a.base.toNat + 64 * a.cap) 64 = false) : execCreateEq i a s = .fault .addressOutside := by
  refine runQe_fault hp ?_
  rw [createEq, badCreateEq_eq_false.mpr (show LegalEq s.begin i a from hl), if_neg Bool.false_ne_true,
    zeroFlits_fault (by omega) (by rwa [newEq_statusAddr hl.cap_le.2]), Res.bind_error]

theorem execReclaim_outside {q : EgressQueue} {n : BitVec 16} (hp : s.panic = false) (hq : s.eqAt i = some q)
    (hlive : q.state ≠ .dead) (h : inSpace (q.base.toNat + 64 * q.cap.toNat) 8 = false) :
    execReclaim i n s = .fault .addressOutside := by
  have hread : ringRead s.begin (eqStatusAddr q) = .error (.fault .addressOutside) := ringRead_fault h
  refine runQe_fault hp ?_
  rw [onEq_eq (s := s.begin) hq, reclaim, if_neg hlive, hread]
  rfl

/-! ## Torn-down queues and lists (60_exceptions R460) -/

/-- A command on ingress queue `i` whose operation refuses has no other effect. -/
theorem runQe_onIq_refuse {q : IngressQueue} {f : State → IngressQueue → Res (IngressQueue × State × Ret)}
    (hp : s.panic = false) (hq : s.iqAt i = some q) (hf : f s.begin q = .error (.refuse e)) :
    runQe s (fun u => onIq u i (f u)) = .next (takeRefusal s e) := runQe_refuse hp (onIq_refuse (s := s.begin) hq hf)

/-- A command on the free list of ingress queue `i` whose operation refuses has no other effect. -/
theorem runQe_onFl_refuse {fl : FreeList} {f : State → FreeList → Res (FreeList × State × Ret)}
    (hp : s.panic = false) (hfl : s.flAt i = some fl) (hf : f s.begin fl = .error (.refuse e)) :
    runQe s (fun u => onFl u i (f u)) = .next (takeRefusal s e) := runQe_refuse hp (onFl_refuse (s := s.begin) hfl hf)

theorem dead_refused {q : IngressQueue} {b : BitVec 16} (hp : s.panic = false) (hq : s.iqAt i = some q)
    (hd : q.state = .dead) : execInterrupt i s = .next (takeRefusal s .doomed) ∧
      execService i b s = .next (takeRefusal s .doomed) ∧ execTeardownIq i s = .next (takeRefusal s .doomed) :=
  ⟨runQe_onIq_refuse hp hq (if_pos hd), runQe_onIq_refuse hp hq (if_pos hd),
    runQe_onIq_refuse (f := fun u q => teardownIq i q u) hp hq (if_pos hd)⟩

theorem execRefill_doomed {fl : FreeList} {n : Nat} (hp : s.panic = false) (hfl : s.flAt i = some fl)
    (hd : fl.doomed = true) : execRefill i n s = .next (takeRefusal s .doomed) :=
  runQe_onFl_refuse hp hfl (if_pos hd)

theorem deadEq_refused {q : EgressQueue} {b : BitVec 16} (hp : s.panic = false) (hq : s.eqAt i = some q)
    (hd : q.state = .dead) : execReclaim i b s = .next (takeRefusal s .doomed) ∧
      execTeardownEq i s = .next (takeRefusal s .doomed) ∧ execTxDone i s = .next (takeRefusal s .doomed) := by
  have hreclaim : reclaim i b.toNat q s.begin = refuseDoomed := if_pos hd
  refine ⟨runQe_refuse hp (onEq_refuse (s := s.begin) hq ?_),
    runQe_onEq_refuse (f := fun u q => teardownEq i q u) hp hq (if_pos hd),
    runQe_refuse hp (onEq_refuse (s := s.begin) hq ?_)⟩
  · rw [hreclaim]
    rfl
  · rw [refusesSubmit_iff.mpr (.inr hd), if_pos rfl, notifyEq_dead hd]
    rfl

/-! ## What is no command, no queue, or out of range (60_exceptions R461) -/

theorem decodeCommand_unknown {code : BitVec 8} {ops : Operands}
    (h : code.toNat ∉ [0x01, 0x02, 0x03, 0x04, 0x05, 0x06, 0x10, 0x20, 0x30, 0x31, 0x32, 0x40, 0x41, 0x42, 0x50, 0x51]) :
    decodeCommand code ops = .error (.unknownCode code) := by
  simp only [List.mem_cons, List.not_mem_nil, or_false, not_or] at h
  simp only [decodeCommand, ← BitVec.toNat_inj, BitVec.reduceToNat, h, if_false]

theorem noIq_refused {n : Nat} {b : BitVec 16} (hp : s.panic = false) (h : s.iqAt i = none) :
    ∀ k ∈ [Instr.teardownIq i, .refill i n, .interrupt i, .service i b, .notify (.fl i)],
      exec k s = .next (takeRefusal s .badarg) := by
  have hiq : ∀ f : State → IngressQueue → Res (IngressQueue × State × Ret), runQe s (fun u => onIq u i (f u)) =
      .next (takeRefusal s .badarg) := fun f => runQe_refuse hp (onIq_none (s := s.begin) h)
  have hfl : ∀ f : State → FreeList → Res (FreeList × State × Ret), runQe s (fun u => onFl u i (f u)) =
      .next (takeRefusal s .badarg) := fun f => runQe_refuse hp (onFl_none (s := s.begin) h)
  simp only [List.forall_mem_cons, List.not_mem_nil, false_imp_iff, implies_true, and_true, exec]
  exact ⟨hiq _, hfl _, hiq _, hiq _, hfl _⟩

theorem noEq_refused {p : Packet} {fs : List Flit} {b : BitVec 16} (hp : s.panic = false) (h : s.eqAt i = none) :
    ∀ k ∈ [Instr.teardownEq i, .submit i p, .submitWr i fs, .txpktsFlush i, .reclaim i b, .notify (.eq i), .txDone i],
      exec k s = .next (takeRefusal s .badarg) := by
  have heq : ∀ f : State → EgressQueue → Res (EgressQueue × State × Ret), runQe s (fun u => onEq u i (f u)) =
      .next (takeRefusal s .badarg) := fun f => runQe_refuse hp (onEq_none (s := s.begin) h)
  simp only [List.forall_mem_cons, List.not_mem_nil, false_imp_iff, implies_true, and_true, exec]
  exact ⟨heq _, heq _, heq _, heq _, heq _, heq _, heq _⟩

theorem refusesSubmit_eq_false {q : EgressQueue} (h : q.state = .active ∨ q.state = .stalled) :
    refusesSubmit q = false := by
  obtain h | h := h <;> simp [refusesSubmit, h]

theorem malformed_iff {p : Packet} : malformed p = true ↔
    p.len = 0 ∨ p.segs = [] ∨ (∃ g ∈ p.segs, g.len = 0) ∨ (p.segs.map fun g => g.len.toNat).sum ≠ p.len.toNat ∨
      (p.tso = true ∧ (p.mss = 0 ∨ p.len.toNat ≤ p.l2len.toNat + p.l3len.toNat + p.l4len.toNat)) := by
  simp only [malformed, Bool.or_eq_true, Bool.and_eq_true, decide_eq_true_eq, List.any_eq_true, or_assoc]
  rfl

theorem badRequest_iff {c : Cfg} {fs : List Flit} : badRequest c fs = true ↔
    fs.length < 2 ∨ c.wrMaxFlits < fs.length ∨
      (∃ f ∈ fs.head?, (f.extractLsb' 56 8).toNat ∈ [0x00, 0x01, 0x02] ∨
        (f.extractLsb' 0 8).toNat ≠ (fs.length + 1) / 2) := by
  cases fs with
  | nil => simp [badRequest]
  | cons f fs =>
    have hdiv : ceilDiv (f :: fs).length 2 = ((f :: fs).length + 1) / 2 := rfl
    simp only [List.head?_cons, Option.mem_some_iff, exists_eq_left']
    simp only [badRequest, topByte, field, hdiv, Bool.or_eq_true, decide_eq_true_eq, ← BitVec.toNat_inj,
      BitVec.reduceToNat, List.mem_cons, List.not_mem_nil, or_false, or_assoc]

theorem execSubmit_badarg {q : EgressQueue} {p : Packet} (hp : s.panic = false) (hq : s.eqAt i = some q)
    (hs : q.state = .active ∨ q.state = .stalled) (hm : malformed p = true) :
    execSubmit i p s = .next (takeRefusal s .badarg) := by
  refine runQe_refuse hp (onEq_refuse (s := s.begin) hq ?_)
  rw [submit, refusesSubmit_eq_false hs, if_neg Bool.false_ne_true, if_pos hm]
  rfl

theorem execSubmitWr_badarg {q : EgressQueue} {fs : List Flit} (hp : s.panic = false) (hq : s.eqAt i = some q)
    (hs : q.state = .active ∨ q.state = .stalled) (hm : badRequest s.cfg fs = true) :
    execSubmitWr i fs s = .next (takeRefusal s .badarg) := by
  refine runQe_refuse hp (onEq_refuse (s := s.begin) hq ?_)
  rw [submitWr, refusesSubmit_eq_false hs, if_neg Bool.false_ne_true, if_pos (by exact hm)]
  rfl

theorem execRefill_badarg {fl : FreeList} {n : Nat} (hp : s.panic = false) (hfl : s.flAt i = some fl)
    (hd : fl.doomed = false) (hn : 65535 < n) : execRefill i n s = .next (takeRefusal s .badarg) := by
  refine runQe_onFl_refuse hp hfl ?_
  rw [hd, if_neg Bool.false_ne_true, if_pos (by exact hn)]
  rfl

theorem execInterrupt_badarg {q : IngressQueue} (hp : s.panic = false) (hq : s.iqAt i = some q) (hlive : q.state ≠ .dead)
    (hrole : q.role = .forwarded) : execInterrupt i s = .next (takeRefusal s .badarg) := by
  refine runQe_refuse hp (onIq_refuse (s := s.begin) hq ?_)
  rw [if_neg hlive, if_pos hrole]
  rfl

/-- Settles O21: each command tests the state of its queue first, then its operands. -/
theorem commandsRefused : Obligations.CommandsRefused := by
  refine ⟨fun s i q b hp hq hd => ?_, fun s i fl n hp hfl hd => ?_, fun s i q b hp hq hd => ?_, fun s code ops rest hp hcode hport => ?_,
    fun s i n b hp h => noIq_refused hp h, fun s i p fs b hp h => noEq_refused hp h,
    fun s i n fl hp hfl hd hn => ?_,
    fun s i q hp hq hlive hrole => ?_,
    fun s i q p hp hq hs hm => execSubmit_badarg hp hq hs (malformed_iff.mpr hm),
    fun s i q fs hp hq hs hm => execSubmitWr_badarg hp hq hs (badRequest_iff.mpr hm),
    fun s i a hp hl h => execCreateIq_outside hp hl h, fun s i a d hp hl hd h => execCreateFl_outside hp hl hd h,
    fun s i a hp hl h => execCreateEq_outside hp hl h, fun s i q n hp hq hlive h => execReclaim_outside hp hq hlive h⟩
  · obtain ⟨hinterrupt, hservice, hteardown⟩ := dead_refused (b := b) hp hq hd
    simpa using ⟨hinterrupt, hservice, hteardown⟩
  · simpa using ⟨execRefill_doomed hp hfl hd, execNotify_fl_doomed hp hfl hd⟩
  · obtain ⟨hreclaim, hteardown, hdone⟩ := deadEq_refused (b := b) hp hq hd
    simpa using ⟨hreclaim, execNotify_eq_dead hp hq hd, hteardown, hdone⟩
  · simp only [step, hport, decode, decodeCommand_unknown hcode]
    exact runQe_refuse hp rfl
  · exact execRefill_badarg hp hfl hd hn
  · exact execInterrupt_badarg hp hq hlive hrole

/-! ## Global reset -/

/-- Settles O7: after reset no queue exists, so every command that names one is refused. -/
theorem globalReset : Obligations.GlobalReset := by
  intro c i n b p fs a
  have hiq := resetWith_iqAt c i
  have heq := resetWith_eqAt c i
  obtain ⟨hfl, hdi, hde⟩ := resetWith_devAt c i
  refine ⟨rfl, hiq, heq, rfl, rfl, rfl, rfl, rfl, rfl, rfl, hfl, hdi, hde, rfl, fun k hk => ?_⟩
  have hp : (State.resetWith c).panic = false := rfl
  have hfree : exec (.createFl i a) (State.resetWith c) = .next (takeRefusal (State.resetWith c) .badarg) := by
    have hq : (State.resetWith c).begin.iqAt i = none := hiq
    refine runQe_refuse hp ?_
    simp [createFl, doomedCreateFl, badCreateFl, hq, refuseBadarg]
  have hin := noIq_refused (n := n) (b := b) hp hiq
  have hout := noEq_refused (p := p) (fs := fs) (b := b) hp heq
  simp only [List.mem_cons, List.not_mem_nil, or_false] at hk hin hout
  rcases hk with rfl | rfl | rfl | rfl | rfl | rfl | rfl | rfl | rfl | rfl | rfl | rfl | rfl
  · exact hfree
  · exact hin _ (by simp)
  · exact hout _ (by simp)
  · exact hin _ (by simp)
  · exact hin _ (by simp)
  · exact hin _ (by simp)
  · exact hout _ (by simp)
  · exact hout _ (by simp)
  · exact hout _ (by simp)
  · exact hout _ (by simp)
  · exact hin _ (by simp)
  · exact hout _ (by simp)
  · exact hout _ (by simp)

end Sys2Proof.Machine
end

section
/-! PROOFS. The queue that an MMIO word names, what a credit word does (46_device_agent R401), and creation (47_system R430
to R432). -/

namespace Sys2Proof.Machine

variable {s : State} {i : Nat}

/-! ## Credit words -/

theorem creditTarget_only {v : BitVec 32} {q : IngressQueue} (h : OnlyIq s (decodeIcw v).iqid i q) :
    creditTarget s v = some i := by
  obtain ⟨hq, hlive, hid, hone⟩ := h
  have hone' : indicesOf (fun q : IngressQueue => q.live && q.qid = (decodeIcw v).iqid) s.iq = [i] :=
    indicesOf_eq_singleton hq (by simp [IngressQueue.live, hlive, hid]) fun j x hx hp => by
      simp only [IngressQueue.live, Bool.and_eq_true, decide_eq_true_eq] at hp
      exact hone j x hx hp.1 hp.2
  rw [creditTarget, hone', pickShared_one]

/-- The device's copy of an ingress queue after a credit word. -/
def credited (d : DevIq) (r : Icw) : DevIq :=
  { d with credits := d.credits + r.cidxInc, armed := armedAfter d.armed (encodeIcw r) }

/-- A credit word tells the device of the one queue it names. -/
theorem mmioWrite_credit {q : IngressQueue} {d : DevIq} {r : Icw} (h : OnlyIq s r.iqid i q) (hd : s.devIqAt i = some d) :
    mmioWrite s (.word .icw (encodeIcw r)) =
      { s with mmio := s.mmio ++ [.word .icw (encodeIcw r)], devIq := s.devIq.set i (some (credited d r)) } := by
  have htarget : creditTarget (s.logMmio (.word .icw (encodeIcw r))) (encodeIcw r) = some i :=
    creditTarget_only (s := s.logMmio _) (q := q) (by rw [decodeIcw_encodeIcw]; exact h)
  have hdev : (s.logMmio (.word .icw (encodeIcw r))).devIqAt i = some d := hd
  simp only [mmioWrite, devReact, htarget, hdev, Option.map_some, Option.getD_some, decodeIcw_encodeIcw]
  rfl

/-- Without a copy of the queue on the device a credit word is only recorded. -/
theorem mmioWrite_credit_none {q : IngressQueue} {r : Icw} (h : OnlyIq s r.iqid i q) (hd : s.devIqAt i = none) :
    mmioWrite s (.word .icw (encodeIcw r)) = s.logMmio (.word .icw (encodeIcw r)) := by
  have htarget : creditTarget (s.logMmio (.word .icw (encodeIcw r))) (encodeIcw r) = some i :=
    creditTarget_only (s := s.logMmio _) (q := q) (by rw [decodeIcw_encodeIcw]; exact h)
  have hdev : (s.logMmio (.word .icw (encodeIcw r))).devIqAt i = none := hd
  simp only [mmioWrite, devReact, htarget, hdev, Option.map_none, Option.getD_none]

theorem devIqAt_setDevIq (hi : i < s.devIq.length) (d : DevIq) : (s.setDevIq i d).devIqAt i = some d := by
  simp [State.devIqAt, State.setDevIq, hi]

/-- A credit word right after the device's copy was written; where the device has no such queue, neither has an effect. -/
theorem mmioWrite_credit_setDevIq {q : IngressQueue} {d : DevIq} {r : Icw} (h : OnlyIq s r.iqid i q) :
    mmioWrite (s.setDevIq i d) (.word .icw (encodeIcw r)) =
      { s with mmio := s.mmio ++ [.word .icw (encodeIcw r)], devIq := s.devIq.set i (some (credited d r)) } := by
  have honly : OnlyIq (s.setDevIq i d) r.iqid i q := h
  by_cases hi : i < s.devIq.length
  · rw [mmioWrite_credit honly (devIqAt_setDevIq hi d)]
    simp [State.setDevIq]
  · have hset : ∀ x, s.devIq.set i x = s.devIq := fun x => List.set_eq_of_length_le (by omega)
    have hnone : (s.setDevIq i d).devIqAt i = none := by
      rw [State.devIqAt, State.setDevIq_devIq, hset, List.getElem?_eq_none (by omega)]
      rfl
    rw [mmioWrite_credit_none honly hnone, hset]
    simp only [State.logMmio, State.setDevIq, hset]

theorem armedAfter_of_lt {b : Bool} {r : Icw} (h : r.timerIdx.toNat < 6) : armedAfter b (encodeIcw r) = true := by
  rw [armedAfter, decodeIcw_encodeIcw, if_neg, if_neg]
  · rintro h6
    rw [h6] at h
    exact absurd h (by decide)
  · rintro h7
    rw [h7] at h
    exact absurd h (by decide)

/-! ## Creation -/

theorem execCreateIq_refuses {a : CreateIqArgs} (hp : s.panic = false) (h : ¬ LegalIq s i a) :
    execCreateIq i a s = .next (takeRefusal s .badarg) := by
  refine runQe_refuse hp (if_pos ?_)
  rw [← Bool.not_eq_false, badCreateIq_eq_false]
  exact h

/-- The new queue is the one that its first credit word names. -/
theorem newIq_only {a : CreateIqArgs} (h : LegalIq s i a) : OnlyIq (s.setIq i (newIq a)) (newIq a).qid i (newIq a) := by
  obtain ⟨hi, _, hqid, hfree, _⟩ := h
  refine ⟨by rw [State.setIq_iqAt, if_pos ⟨rfl, hi⟩], nofun, rfl, fun j x hx hlive hid => ?_⟩
  by_contra hj
  rw [State.setIq_iqAt_other _ _ _ _ (Ne.symm hj)] at hx
  refine hfree j x hj hx hlive ?_
  rw [hid]
  simp only [newIq, BitVec.toNat_ofNat]
  omega

theorem execCreateIq_creates {a : CreateIqArgs} (hp : s.panic = false) (hl : LegalIq s i a)
    (hs : inSpace a.base.toNat (16 * a.cap) = true) (hw : s.ring.wf) : ∃ m,
    execCreateIq i a s = .next { s with
      iq := s.iq.set i (some (newIq a)), ring := m
      mmio := s.mmio ++ [.word .icw (encodeIcw ⟨(newIq a).qid, (newIq a).timerIdx, a.cntEn, 0⟩)]
      devIq := s.devIq.set i (some { credits := BitVec.ofNat 16 (a.cap - 1), armed := true })
      ret := .ok, raised := [] } ∧
    WritesFlits s.ring m (fun k => a.base.toNat + 8 * k) (List.replicate (2 * a.cap) 0) := by
  have hlegal : LegalIq s.begin i a := hl
  have hspace : inSpace a.base.toNat (8 * (List.replicate (2 * a.cap) (0 : Flit)).length) = true := by
    rwa [List.length_replicate, ← Nat.mul_assoc]
  obtain ⟨m, hz, -, hm⟩ := ringWriteAll_writes (s := s.begin.setIq i (newIq a)) hspace hw
  refine ⟨m, ?_, hm⟩
  have htimer : (newIq a).timerIdx.toNat < 6 := by
    obtain ⟨_, _, _, _, _, _, _, _, ht, _⟩ := hl
    exact lt_of_le_of_lt (Nat.mod_le _ _) (lt_of_lt_of_le ht (min_le_left _ _))
  have honly : OnlyIq { s.begin.setIq i (newIq a) with ring := m } (newIq a).qid i (newIq a) := newIq_only hlegal
  have hword := mmioWrite_credit_setDevIq (d := { pidx := 0, gen := true, credits := BitVec.ofNat 16 (a.cap - 1), armed := false })
    (r := ⟨(newIq a).qid, (newIq a).timerIdx, a.cntEn, 0⟩) honly
  have hcreate : createIq i a s.begin = .ok (writeCredit (({ s.begin.setIq i (newIq a) with ring := m } : State).setDevIq i
      { pidx := 0, gen := true, credits := BitVec.ofNat 16 (a.cap - 1), armed := false }) (newIq a).qid (newIq a).timerIdx
      a.cntEn 0, .ok) := by
    rw [createIq, badCreateIq_eq_false.mpr hlegal, if_neg Bool.false_ne_true, zeroFlits, hz]
    rfl
  rw [show execCreateIq i a s = _ from runQe_ok hp hcreate, writeCredit, show BitVec.ofNat 16 0 = 0 from rfl, hword, credited,
    armedAfter_of_lt htimer]
  simp [State.answer, State.setIq, State.begin]

theorem execCreateFl_doomed {a : CreateFlArgs} (hp : s.panic = false) (h : ∃ q, s.iqAt i = some q ∧ q.state = .dead) :
    execCreateFl i a s = .next (takeRefusal s .doomed) := by
  obtain ⟨q, hq, hd⟩ := h
  have hdoom : doomedCreateFl s.begin i = true := by
    rw [doomedCreateFl, show s.begin.iqAt i = some q from hq]
    exact decide_eq_true hd
  exact runQe_refuse hp (if_pos hdoom)

theorem execCreateFl_refuses {a : CreateFlArgs} (hp : s.panic = false) (hlive : ∀ q, s.iqAt i = some q → q.state ≠ .dead)
    (h : ¬ LegalFl s i a ∨ findBest s.cfg a.maxp.toNat a.packing = none) :
    execCreateFl i a s = .next (takeRefusal s .badarg) := by
  have hdoom : doomedCreateFl s.begin i = false := by
    rw [doomedCreateFl, show s.begin.iqAt i = s.iqAt i from rfl]
    split
    · rename_i q hq
      exact decide_eq_false (hlive q hq)
    · rfl
  refine runQe_refuse hp ?_
  rw [createFl, hdoom, if_neg Bool.false_ne_true]
  split
  · rfl
  · rename_i hgood
    obtain hl | hnone := h
    · exact absurd (badCreateFl_eq_false.mp (Bool.not_eq_true _ ▸ hgood)) hl
    · rw [show findBest s.begin.cfg a.maxp.toNat a.packing = none from hnone]
      rfl

theorem execCreateFl_creates {a : CreateFlArgs} {d : ClusterLayout} {q : IngressQueue} (hp : s.panic = false)
    (hl : LegalFl s i a) (hd : findBest s.cfg a.maxp.toNat a.packing = some d)
    (hs : inSpace (a.base.toNat + 8 * a.cap) 64 = true) (hq : s.iqAt i = some q) (hw : s.ring.wf) : ∃ m,
    execCreateFl i a s = .next { s with
      iq := s.iq.set i (some { q with fl := some (newFl a d (findSafe s.cfg a.packing)) }), ring := m
      devFl := s.devFl.set i (some {}), ret := .ok, raised := [] } ∧
    WritesFlits s.ring m (fun k => a.base.toNat + 8 * a.cap + 8 * k) (List.replicate 8 0) := by
  obtain ⟨m, hz, -, hm⟩ := ringWriteAll_writes (s := s.begin) (fs := List.replicate 8 0) hs hw
  refine ⟨m, ?_, hm⟩
  have hbad : badCreateFl s.begin i a = false := badCreateFl_eq_false.mpr hl
  have hdoom : doomedCreateFl s.begin i = false := hl.not_doomed
  have hbest : findBest s.begin.cfg a.maxp.toNat a.packing = some d := hd
  have hcreate : createFl i a s.begin = .ok ((({ s.begin with ring := m } : State).setDevFl i {}).setIq i
      { q with fl := some (newFl a d (findSafe s.cfg a.packing)) }, .ok) := by
    simp only [createFl, hdoom, hbad, hbest, Bool.false_eq_true, if_false]
    rw [onIq_eq (s := s.begin) hq, newFl_statusAddr hl.cap_le.2, zeroFlits, hz]
    rfl
  exact runQe_ok hp hcreate

theorem execCreateEq_refuses {a : CreateEqArgs} (hp : s.panic = false) (h : ¬ LegalEq s i a) :
    execCreateEq i a s = .next (takeRefusal s .badarg) := by
  refine runQe_refuse hp (if_pos ?_)
  rw [← Bool.not_eq_false, badCreateEq_eq_false]
  exact h

theorem execCreateEq_creates {a : CreateEqArgs} (hp : s.panic = false) (hl : LegalEq s i a)
    (hs : inSpace (a.base.toNat + 64 * a.cap) 64 = true) (hw : s.ring.wf) : ∃ m,
    execCreateEq i a s = .next { s with
      eq := s.eq.set i (some (newEq a)), ring := m, devEq := s.devEq.set i (some {}), ret := .ok, raised := [] } ∧
    WritesFlits s.ring m (fun k => a.base.toNat + 64 * a.cap + 8 * k) (List.replicate 8 0) := by
  obtain ⟨m, hz, -, hm⟩ := ringWriteAll_writes (s := s.begin.setEq i (newEq a)) (fs := List.replicate 8 0) hs hw
  refine ⟨m, ?_, hm⟩
  have hcreate : createEq i a s.begin = .ok (({ s.begin.setEq i (newEq a) with ring := m } : State).setDevEq i {}, .ok) := by
    rw [createEq, badCreateEq_eq_false.mpr (show LegalEq s.begin i a from hl), if_neg Bool.false_ne_true,
      newEq_statusAddr hl.cap_le.2, zeroFlits, hz]
    rfl
  exact runQe_ok hp hcreate

end Sys2Proof.Machine

namespace Sys2Proof
open Machine

/-- Settles O22: `badCreateIq` is the negation of `LegalIq`; the zeroed ring and the first credit word follow. -/
theorem createIq : Obligations.CreateIq := by
  intro s i a hp
  exact ⟨execCreateIq_refuses hp, execCreateIq_creates hp⟩

/-- Settles O23: the Dead queue first, then `badCreateFl`, which is the negation of `LegalFl`, and the layout. -/
theorem createFl : Obligations.CreateFl := by
  intro s i a hp
  exact ⟨execCreateFl_doomed hp, execCreateFl_refuses hp, fun d q => execCreateFl_creates hp⟩

/-- Settles O24: `badCreateEq` is the negation of `LegalEq`. -/
theorem createEq : Obligations.CreateEq := by
  intro s i a hp
  exact ⟨execCreateEq_refuses hp, execCreateEq_creates hp⟩

end Sys2Proof
end

section
/-! PROOFS. The two size-class selections (40_free_list R186, R187, R189). -/

namespace Sys2Proof.Machine

variable {c : Cfg} {packing : Bool}

/-! ## The best of a list -/

/-- What `pickBest` needs of its comparison: it is the strict part of a linear preorder. -/
structure IsBetter (better : Nat → Nat → Bool) : Prop where
  irrefl : ∀ x, better x x = false
  trans : ∀ x y z, better x y = true → better y z = true → better x z = true
  negTrans : ∀ x y z, better x y = false → better y z = false → better x z = false

theorem isBetter_gt : IsBetter (fun a b => b < a) :=
  ⟨by simp, fun x y z => by simpa using fun h1 h2 => Nat.lt_trans h2 h1, fun x y z => by simpa using fun h1 h2 => Nat.le_trans h1 h2⟩

theorem isBetter_lt : IsBetter (fun a b => a < b) :=
  ⟨by simp, fun x y z => by simpa using fun h1 h2 => Nat.lt_trans h1 h2, fun x y z => by simpa using fun h1 h2 => Nat.le_trans h2 h1⟩

variable {better : Nat → Nat → Bool}

theorem pickBest_eq_none {cs : List (Nat × ClusterLayout)} : pickBest better cs = none ↔ cs = [] := by
  cases cs with
  | nil => simp [pickBest]
  | cons c cs =>
    simp only [pickBest, reduceCtorEq, iff_false]
    split
    · split <;> simp
    · simp

/-- The picked candidate beats all before it, and none after it beats it. -/
theorem pickBest_some (hb : IsBetter better) {cs : List (Nat × ClusterLayout)} {d : Nat × ClusterLayout}
    (h : pickBest better cs = some d) : ∃ l r, cs = l ++ d :: r ∧ (∀ x ∈ l, better d.1 x.1 = true) ∧
      ∀ x ∈ r, better x.1 d.1 = false := by
  induction cs generalizing d with
  | nil => cases h
  | cons c cs ih =>
    rw [pickBest] at h
    split at h
    · rename_i e he
      obtain ⟨l, r, rfl, hl, hr⟩ := ih he
      split at h <;> obtain rfl := Option.some.inj h
      · rename_i hbetter
        exact ⟨c :: l, r, rfl, List.forall_mem_cons.mpr ⟨hbetter, hl⟩, hr⟩
      · rename_i hnot
        have hec : better e.1 c.1 = false := by simpa using hnot
        refine ⟨[], l ++ e :: r, rfl, nofun, fun x hx => ?_⟩
        obtain hx | rfl | hx := by simpa using hx
        · by_contra hxc
          exact hnot (hb.trans _ _ _ (hl x hx) (by simpa using hxc))
        · exact hec
        · exact hb.negTrans _ _ _ (hr x hx) hec
    · rename_i he
      obtain rfl := Option.some.inj h
      obtain rfl := pickBest_eq_none.mp he
      exact ⟨[], [], rfl, nofun, nofun⟩

/-- A candidate's size, and its layout. -/
abbrev Candidate : Type := Nat × ClusterLayout

/-- Picked from the candidates of classes: the class is of lowest index among the best. -/
theorem pickBest_classes (hb : IsBetter better) {f : Nat × Nat → Option Candidate} {bs : List Nat} {d : Candidate}
    (hf : ∀ x y, f x = some y → y.1 = x.1) (h : pickBest better (bs.zipIdx.filterMap f) = some d) :
    ∃ i, bs[i]? = some d.1 ∧ f (d.1, i) = some d ∧
      ∀ j x y, bs[j]? = some x → f (x, j) = some y → better d.1 x = true ∨ (better x d.1 = false ∧ i ≤ j) := by
  obtain ⟨l, r, hcs, hl, hr⟩ := pickBest_some hb h
  obtain ⟨l₁, l₂, hz, rfl, h2⟩ := List.filterMap_eq_append_iff.mp hcs
  obtain ⟨l₃, ⟨n, i⟩, l₄, rfl, h3, hfd, rfl⟩ := List.filterMap_eq_cons_iff.mp h2
  obtain rfl : d.1 = n := hf _ _ hfd
  have hsorted : (bs.zipIdx).Pairwise fun x y => x.2 < y.2 := by
    have hp := List.pairwise_lt_range' (s := 0) (n := bs.length) (step := 1)
    rwa [← List.zipIdx_map_snd, List.pairwise_map] at hp
  have hmem₀ : (d.1, i) ∈ bs.zipIdx := by rw [hz]; simp
  refine ⟨i, List.mem_zipIdx_iff_getElem?.mp hmem₀, hfd, fun j x y hx hy => ?_⟩
  have hmem : (x, j) ∈ l₁ ++ (l₃ ++ (d.1, i) :: l₄) := hz ▸ List.mem_zipIdx_iff_getElem?.mpr hx
  simp only [List.mem_append, List.mem_cons] at hmem
  obtain hm | hm | hm | hm := hmem
  · have hy1 : y.1 = x := hf _ _ hy
    exact .inl (hy1 ▸ hl y (List.mem_filterMap.mpr ⟨_, hm, hy⟩))
  · exact absurd (h3 _ hm) (by simp [hy])
  · obtain ⟨rfl, rfl⟩ := Prod.mk.inj hm
    exact .inr ⟨hb.irrefl _, le_rfl⟩
  · rw [hz, List.pairwise_append, List.pairwise_append] at hsorted
    obtain ⟨-, ⟨-, hcons, -⟩, -⟩ := hsorted
    have hy1 : y.1 = x := hf _ _ hy
    exact .inr ⟨hy1 ▸ hr y (List.mem_filterMap.mpr ⟨_, hm, hy⟩), ((List.pairwise_cons.mp hcons).1 _ hm).le⟩

/-! ## Candidates -/

/-- The candidate of class `x.2` of `x.1` bytes in the least zone that holds it (40_free_list R186, R189). -/
def bestCandidate (c : Cfg) (packing : Bool) (x : Nat × Nat) : Option Candidate :=
  if x.1 % sourceAlign c packing = 0 then
    (leastZone c (c.embedBytes + x.1 + metaSize c packing)).map fun z => (x.1, layoutOf c packing x.2 z)
  else none

/-- The candidate of class `x.2` of `x.1` bytes in `SAFE_ZONE` (40_free_list R187). -/
def safeCandidate (c : Cfg) (packing : Bool) (x : Nat × Nat) : Option Candidate :=
  if x.1 % sourceAlign c packing = 0 && c.safeZone < c.zoneSizes.length &&
      c.embedBytes + x.1 + metaSize c packing ≤ c.zoneSizes.getD c.safeZone 0 then
    some (x.1, layoutOf c packing x.2 c.safeZone)
  else none

theorem bestCandidates_eq : bestCandidates c packing = c.bufferSizes.zipIdx.filterMap (bestCandidate c packing) := rfl

theorem safeCandidates_eq : safeCandidates c packing = c.bufferSizes.zipIdx.filterMap (safeCandidate c packing) := rfl

theorem leastZone_iff {need z : Nat} : leastZone c need = some z ↔
    z < c.zoneSizes.length ∧ need ≤ c.zoneSizes.getD z 0 ∧ ∀ y, y < z → c.zoneSizes.getD y 0 < need := by
  rw [leastZone, List.findIdx?_eq_some_iff_getElem]
  constructor
  · rintro ⟨hz, hle, hlt⟩
    refine ⟨hz, by simpa [hz] using hle, fun y hy => ?_⟩
    have hyz : y < c.zoneSizes.length := hy.trans hz
    simpa [hyz] using hlt y hy
  · rintro ⟨hz, hle, hlt⟩
    refine ⟨hz, by simpa [hz] using hle, fun y hy => ?_⟩
    have hyz : y < c.zoneSizes.length := hy.trans hz
    simpa [hyz] using hlt y hy

/-- A class has a candidate exactly when it is one, by the statements' own form. -/
theorem bestCandidate_eq_some {i hs : Nat} {d : Candidate} : c.bufferSizes[i]? = some hs ∧ bestCandidate c packing (hs, i) = some d ↔
    ∃ z, IsCandidate c packing i hs z ∧ d = (hs, layoutFor c packing i z) := by
  simp only [bestCandidate, IsCandidate, Option.ite_none_right_eq_some, Option.map_eq_some_iff, leastZone_iff]
  constructor
  · rintro ⟨hi, hal, z, ⟨hz, hle, hlt⟩, rfl⟩
    exact ⟨z, ⟨hi, hal, hz, hle, hlt⟩, rfl⟩
  · rintro ⟨z, ⟨hi, hal, hz, hle, hlt⟩, rfl⟩
    exact ⟨hi, hal, z, ⟨hz, hle, hlt⟩, rfl⟩

theorem safeCandidate_eq_some {i hs : Nat} {d : Candidate} : c.bufferSizes[i]? = some hs ∧ safeCandidate c packing (hs, i) = some d ↔
    IsSafeCandidate c packing i hs ∧ d = (hs, layoutFor c packing i c.safeZone) := by
  simp only [safeCandidate, IsSafeCandidate, Option.ite_none_right_eq_some, Bool.and_eq_true,
    decide_eq_true_eq, Option.some.injEq]
  constructor
  · rintro ⟨hi, ⟨⟨hal, hz⟩, hle⟩, rfl⟩
    exact ⟨⟨hi, hal, hz, hle⟩, rfl⟩
  · rintro ⟨⟨hi, hal, hz, hle⟩, rfl⟩
    exact ⟨hi, ⟨⟨hal, hz⟩, hle⟩, rfl⟩

/-- The largest of the candidates, ties to the lowest class. -/
theorem largest_classes {f : Nat × Nat → Option Candidate} {bs : List Nat} (hf : ∀ x y, f x = some y → y.1 = x.1) :
    (largest (bs.zipIdx.filterMap f) = none ∧ ∀ i x, bs[i]? = some x → f (x, i) = none) ∨
      ∃ i x l, largest (bs.zipIdx.filterMap f) = some l ∧ bs[i]? = some x ∧ f (x, i) = some (x, l) ∧
        ∀ j y d, bs[j]? = some y → f (y, j) = some d → y < x ∨ (y = x ∧ i ≤ j) := by
  unfold largest
  cases h : pickBest (fun a b => decide (b < a)) (bs.zipIdx.filterMap f) with
  | none =>
    refine .inl ⟨rfl, fun i x hx => ?_⟩
    have hnil := List.filterMap_eq_nil_iff.mp (pickBest_eq_none.mp h)
    exact hnil (x, i) (List.mem_zipIdx_iff_getElem?.mpr hx)
  | some d =>
    obtain ⟨i, hi, hfd, hmax⟩ := pickBest_classes isBetter_gt hf h
    refine .inr ⟨i, d.1, d.2, rfl, hi, hfd, fun j y e hy he => ?_⟩
    obtain hlt | ⟨hle, hij⟩ := hmax j y e hy he
    · exact .inl (of_decide_eq_true hlt)
    · have hle' : y ≤ d.1 := Nat.le_of_not_lt (of_decide_eq_false hle)
      omega

theorem bestCandidate_size {x : Nat × Nat} {y : Candidate} (h : bestCandidate c packing x = some y) : y.1 = x.1 := by
  simp only [bestCandidate, Option.ite_none_right_eq_some, Option.map_eq_some_iff] at h
  obtain ⟨_, z, _, rfl⟩ := h
  rfl

theorem safeCandidate_size {x : Nat × Nat} {y : Candidate} (h : safeCandidate c packing x = some y) : y.1 = x.1 := by
  simp only [safeCandidate, Option.ite_none_right_eq_some, Option.some.injEq] at h
  obtain ⟨_, rfl⟩ := h
  rfl

theorem findSafe_safeSource : SafeSource c packing (findSafe c packing) := by
  rw [findSafe, safeCandidates_eq]
  obtain ⟨hnone, hno⟩ | ⟨i, hs, l, hl, hi, hf, hmax⟩ :=
    largest_classes (bs := c.bufferSizes) (f := safeCandidate c packing) fun x y => safeCandidate_size
  · refine .inl ⟨hnone, fun i hs hcand => ?_⟩
    obtain ⟨hi, hsome⟩ := safeCandidate_eq_some.mpr ⟨hcand, rfl⟩
    exact absurd hsome (by simp [hno i hs hi])
  · obtain ⟨hcand, hd⟩ := safeCandidate_eq_some.mp ⟨hi, hf⟩
    refine .inr ⟨i, hs, hl.trans (congrArg some (congrArg Prod.snd hd)), hcand, fun j h hj => ?_⟩
    obtain ⟨hjb, hjf⟩ := safeCandidate_eq_some.mpr ⟨hj, rfl⟩
    exact hmax j h _ hjb hjf

/-! ## The best source -/

/-- The largest of all the candidates. -/
def LargestSource (c : Cfg) (packing : Bool) (l : Option ClusterLayout) : Prop :=
  (l = none ∧ ∀ i hs z, ¬ IsCandidate c packing i hs z) ∨
    ∃ i hs z, l = some (layoutFor c packing i z) ∧ IsCandidate c packing i hs z ∧
      ∀ j h y, IsCandidate c packing j h y → h < hs ∨ (h = hs ∧ i ≤ j)

theorem largest_largestSource : LargestSource c packing (largest (bestCandidates c packing)) := by
  rw [bestCandidates_eq]
  obtain ⟨hnone, hno⟩ | ⟨i, hs, l, hl, hi, hf, hmax⟩ :=
    largest_classes (bs := c.bufferSizes) (f := bestCandidate c packing) fun x y => bestCandidate_size
  · refine .inl ⟨hnone, fun i hs z hcand => ?_⟩
    obtain ⟨hi, hsome⟩ := bestCandidate_eq_some.mpr ⟨z, hcand, rfl⟩
    exact absurd hsome (by simp [hno i hs hi])
  · obtain ⟨z, hcand, hd⟩ := bestCandidate_eq_some.mp ⟨hi, hf⟩
    refine .inr ⟨i, hs, z, hl.trans (congrArg some (congrArg Prod.snd hd)), hcand, fun j h y hj => ?_⟩
    obtain ⟨hjb, hjf⟩ := bestCandidate_eq_some.mpr ⟨y, hj, rfl⟩
    exact hmax j h _ hjb hjf

/-- The smallest of the candidates that hold `maxp` bytes. -/
theorem smallest_fits {maxp : Nat} (hfits : ((bestCandidates c packing).filter fun x => maxp ≤ x.1) ≠ []) :
    ∃ i hs z, smallest ((bestCandidates c packing).filter fun x => maxp ≤ x.1) = some (layoutFor c packing i z) ∧
      IsCandidate c packing i hs z ∧ maxp ≤ hs ∧
        ∀ j h y, IsCandidate c packing j h y → maxp ≤ h → hs < h ∨ (h = hs ∧ i ≤ j) := by
  rw [bestCandidates_eq, List.filter_filterMap] at *
  unfold smallest
  cases hpick : pickBest (fun a b => decide (a < b)) (c.bufferSizes.zipIdx.filterMap fun x =>
      (bestCandidate c packing x).filter fun x => maxp ≤ x.1) with
  | none => exact absurd (pickBest_eq_none.mp hpick) hfits
  | some d =>
    obtain ⟨i, hi, hfd, hmin⟩ := pickBest_classes isBetter_lt
      (fun x y hy => bestCandidate_size (Option.filter_eq_some_iff.mp hy).1) hpick
    obtain ⟨hcd, hle⟩ := Option.filter_eq_some_iff.mp hfd
    obtain ⟨z, hcand, hd⟩ := bestCandidate_eq_some.mp ⟨hi, hcd⟩
    refine ⟨i, d.1, z, congrArg some (congrArg Prod.snd hd), hcand, of_decide_eq_true hle, fun j h y hj hjle => ?_⟩
    obtain ⟨hjb, hjf⟩ := bestCandidate_eq_some.mpr ⟨y, hj, rfl⟩
    obtain hlt | ⟨hge, hij⟩ := hmin j h _ hjb (Option.filter_eq_some_iff.mpr ⟨hjf, decide_eq_true hjle⟩)
    · exact .inl (of_decide_eq_true hlt)
    · have hge' : d.1 ≤ h := Nat.le_of_not_lt (of_decide_eq_false hge)
      omega

theorem candidate_mem {j x y : Nat} (h : IsCandidate c packing j x y) :
    (x, layoutFor c packing j y) ∈ bestCandidates c packing := by
  obtain ⟨hj, hf⟩ := bestCandidate_eq_some.mpr ⟨y, h, rfl⟩
  rw [bestCandidates_eq, List.mem_filterMap]
  exact ⟨(x, j), List.mem_zipIdx_iff_getElem?.mpr hj, hf⟩

/-- The largest candidate is what is asked for when packing, or when no candidate holds `maxp` bytes. -/
theorem LargestSource.best {maxp : Nat} {l : Option ClusterLayout} (h : LargestSource c packing l)
    (hno : packing = false → ∀ j x y, IsCandidate c packing j x y → x < maxp) : BestSource c maxp packing l := by
  obtain ⟨rfl, hnone⟩ | ⟨i, hs, z, rfl, hcand, hmax⟩ := h
  · exact .inl ⟨rfl, hnone⟩
  · refine .inr ⟨i, hs, z, rfl, hcand, fun _ => hmax, fun hp ⟨j, x, y, hj, hle⟩ => ?_⟩
    exact absurd hle (Nat.not_le_of_lt (hno hp j x y hj))

theorem findBest_bestSource (maxp : Nat) : BestSource c maxp packing (findBest c maxp packing) := by
  unfold findBest
  dsimp only
  split
  · rename_i hp
    exact largest_largestSource.best fun hf => absurd hp (by simp [hf])
  · rename_i hp
    split
    · rename_i hnil
      refine largest_largestSource.best fun _ j x y hj => ?_
      by_contra hle
      exact List.filter_eq_nil_iff.mp hnil _ (candidate_mem hj) (decide_eq_true (Nat.le_of_not_lt hle))
    · rename_i hfits
      obtain ⟨i, hs, z, hl, hcand, hle, hmin⟩ := smallest_fits hfits
      refine .inr ⟨i, hs, z, hl, hcand, fun hall => ?_, fun _ _ => ⟨hle, hmin⟩⟩
      obtain hp' | hall := hall
      · exact absurd hp' hp
      · exact absurd hle (Nat.not_le_of_lt (hall i hs z hcand))

/-- Settles O32: both selections take the first best candidate of a list in the order of the classes. -/
theorem refillSources : Obligations.RefillSources := by
  intro s maxp packing hp
  have hbest : execFindBestRefillSource maxp packing s =
      .next (s.begin.answer (.layout (findBest s.cfg maxp.toNat packing))) := runQe_ok hp rfl
  have hsafe : execFindSafeRefillSource packing s = .next (s.begin.answer (.layout (findSafe s.cfg packing))) :=
    runQe_ok hp rfl
  exact ⟨⟨_, hbest, findBest_bestSource _⟩, ⟨_, hsafe, findSafe_safeSource⟩⟩

end Sys2Proof.Machine
end

section
/-! PROOFS. FRAME_RELEASE by the segment's shape, and releasing twice (41_frame_reassembly R229, R230, 60_exceptions R458). -/

namespace Sys2Proof.Machine

variable {s : State} {g : Segment}

/-! ## A segment the client holds -/

theorem execFrameRelease_held {t : State} (hp : s.panic = false) (hg : g ∈ s.held)
    (h : releaseSegment (s.begin.setHeld (s.held.erase g)) g = .ok t) :
    execFrameRelease g s = .next (t.answer .ok) := by
  refine runQe_ok hp ?_
  rw [if_pos (show g ∈ s.begin.held from hg), show s.begin.held = s.held from rfl, h]
  rfl

theorem execFrameRelease_held_panic (hp : s.panic = false) (hg : g ∈ s.held)
    (h : releaseSegment (s.begin.setHeld (s.held.erase g)) g = ringInvariant) :
    execFrameRelease g s = .next (takePanic s) := by
  refine runQe_panic hp ?_
  rw [if_pos (show g ∈ s.begin.held from hg), show s.begin.held = s.held from rfl, h]
  rfl

theorem releaseSegment_copy {h : Nat} {n : BitVec 32} (ho : (heapObject s.heap h).isSome = true) :
    releaseSegment s (.copy h n) = .ok (s.setHeap (s.heap.eraseP (·.handle = h))) := if_pos ho

theorem releaseSegment_owned {h : Nat} {o n : BitVec 32} {b : Buffer} (hb : s.bufferOf h = some b) :
    releaseSegment s (.owned h o n) = .ok (s.zoneFree h) := if_pos (by rw [hb]; rfl)

/-- The arena after one reference to buffer `b` is given back. -/
def arenaDropped (s : State) (b : Buffer) : List Buffer :=
  if b.refcount = 1 then s.arena.filter (·.handle ≠ b.handle)
  else s.arena.map fun x => if x.handle = b.handle then { x with refcount := b.refcount - 1 } else x

theorem dropRef_eq {b : Buffer} (hr : b.refcount ≠ 0) : dropRef s b = .ok (s.setArena (arenaDropped s b)) := by
  rw [dropRef, if_neg hr, arenaDropped]
  split
  · rfl
  · rw [State.addRef, State.setRefcount, ← sub_eq_add_neg]

theorem releaseSegment_shared {h : Nat} {o n : BitVec 32} {b : Buffer} (hb : s.bufferOf h = some b)
    (hr : b.refcount ≠ 0) : releaseSegment s (.shared h o n) = .ok (s.setArena (arenaDropped s b)) := by
  rw [releaseSegment, hb]
  exact dropRef_eq hr

theorem releaseSegment_shared_zero {h : Nat} {o n : BitVec 32} {b : Buffer} (hb : s.bufferOf h = some b)
    (hr : b.refcount = 0) : releaseSegment s (.shared h o n) = ringInvariant := by
  rw [releaseSegment, hb]
  exact if_pos hr

/-! ## A segment the client does not hold -/

theorem mem_deliveredSegs {iq : BitVec 12} {f : LogicalFrame} {out : List Event} (hg : g ∈ f.segs)
    (h : .deliver iq f ∈ out ∨ .lroEnqueue iq f ∈ out) : g ∈ deliveredSegs out := by
  obtain h | h := h <;> exact List.mem_flatMap.mpr ⟨_, h, hg⟩

/-- What was handed over before and is held no more has been released. -/
theorem execFrameRelease_again (hp : s.panic = false) (hg : g ∉ s.held)
    (h : g ∈ s.given ∨ g ∈ deliveredSegs s.out) : execFrameRelease g s = .next (takePanic s) := by
  refine runQe_panic hp ?_
  rw [if_neg (show g ∉ s.begin.held from hg), if_pos (show g ∈ s.begin.given ∨ g ∈ deliveredSegs s.begin.out from h)]
  rfl

theorem execFrameRelease_never (hp : s.panic = false) (hg : g ∉ s.held) (h1 : g ∉ s.given)
    (h2 : g ∉ deliveredSegs s.out) : execFrameRelease g s = .next (takeRefusal s .badarg) := by
  refine runQe_refuse hp ?_
  rw [if_neg (show g ∉ s.begin.held from hg),
    if_neg (not_or.mpr ⟨show g ∉ s.begin.given from h1, show g ∉ deliveredSegs s.begin.out from h2⟩)]
  rfl

/-- Settles O36: a segment held is released by its shape; one not held was released, or never was of a frame. -/
theorem frameRelease : Obligations.FrameRelease := by
  intro s hp
  refine ⟨fun h n hg ho => ?_, fun h o n b hg hb hr => ?_, fun h o n b hg hb => ?_, fun h o n b hg hb hr => ?_,
    fun g iq f hg hgiven => ?_, fun segs t g hrel hg hheld => ?_, fun g hg h1 h2 => execFrameRelease_never hp hg h1 h2⟩
  · exact execFrameRelease_held hp hg (releaseSegment_copy ho)
  · have hrel := execFrameRelease_held hp hg (releaseSegment_shared (s := s.begin.setHeld _) hb hr)
    rw [arenaDropped, (bufferOf_some hb).2] at hrel
    exact hrel
  · exact execFrameRelease_held hp hg (releaseSegment_owned (s := s.begin.setHeld _) hb)
  · exact execFrameRelease_held_panic hp hg (releaseSegment_shared_zero (s := s.begin.setHeld _) hb hr)
  · refine execFrameRelease_again hp hg (hgiven.imp_right fun ⟨hf, hout⟩ => mem_deliveredSegs hf hout)
  · obtain ⟨a, heap, rfl⟩ := releaseAll_ok hrel
    exact execFrameRelease_again hp hheld (.inl (List.mem_append_right _ hg))

end Sys2Proof.Machine
end

section
/-! PROOFS. An ingress entry issued by itself (log 35), and a service call that finds its ring empty (42_ingress_service R251,
R259). -/

namespace Sys2Proof.Machine

variable {s t : State} {i : Nat} {q q' : IngressQueue}

/-! ## Operations that complete -/

/-- A command on ingress queue `i` whose operation completes writes the queue's context back. -/
theorem runQe_onIq {f : State → IngressQueue → Res (IngressQueue × State × Ret)} {r : Ret} (hp : s.panic = false)
    (hq : s.iqAt i = some q) (h : f s.begin q = .ok (q', t, r)) :
    runQe s (fun u => onIq u i (f u)) = .next ((t.setIq i q').answer r) :=
  runQe_ok hp ((onIq_eq (s := s.begin) hq).trans (by rw [h]; rfl))

/-- A command on egress queue `i` whose operation completes writes the queue's context back. -/
theorem runQe_onEq {f : State → EgressQueue → Res (EgressQueue × State × Ret)} {e e' : EgressQueue} {r : Ret}
    (hp : s.panic = false) (he : s.eqAt i = some e) (h : f s.begin e = .ok (e', t, r)) :
    runQe s (fun u => onEq u i (f u)) = .next ((t.setEq i e').answer r) :=
  runQe_ok hp ((onEq_eq (s := s.begin) he).trans (by rw [h]; rfl))

/-- A command on the free list of ingress queue `i` whose operation completes writes the list's context back. -/
theorem runQe_onFl {f : State → FreeList → Res (FreeList × State × Ret)} {fl fl' : FreeList} {r : Ret}
    (hp : s.panic = false) (hq : s.iqAt i = some q) (hfl : q.fl = some fl) (h : f s.begin fl = .ok (fl', t, r)) :
    runQe s (fun u => onFl u i (f u)) = .next ((t.setIq i { q with fl := some fl' }).answer r) :=
  runQe_ok hp ((onFl_eq (s := s.begin) hq hfl).trans (by rw [h]; rfl))

/-! ## The cursor -/

theorem incIdx_eq {a cap : BitVec 16} : incIdx a cap = BitVec.ofNat 16 ((a.toNat + 1) % cap.toNat) := rfl

theorem incIdx_toNat {a cap : BitVec 16} (h : a < cap) : (incIdx a cap).toNat = (a.toNat + 1) % cap.toNat :=
  addTo_toNat 1 (Nat.lt_of_le_of_lt (Nat.zero_le _) h)

theorem genAfter_incIdx {a cap : BitVec 16} {g : Bool} (h : a < cap) :
    genAfter g (incIdx a cap) = if (a.toNat + 1) % cap.toNat = 0 then !g else g := by
  unfold genAfter
  refine if_congr ?_ rfl rfl
  rw [← incIdx_toNat h, ← BitVec.toNat_inj]
  rfl

theorem advanceCursor_eq (h : q.cidx < q.cap) : advanceCursor q = passed q := by
  rw [advanceCursor, passed, genAfter_incIdx h, incIdx_eq]

/-! ## Dispatch of one entry -/

section
variable {f : Flit × Flit} {arm : IngressQueue → State → Res (Bool × IngressQueue × State)}

theorem genCheck_eq_true : genCheck s.cfg q f.1 f.2 = true ↔ (q.qid, f) ∈ s.cfg.genCheck := by
  rw [genCheck, List.contains_iff_mem]

/-- The dispatch of a new entry of a Busy queue. -/
theorem dispatchAlone_new (hq : s.iqAt i = some q) (hb : q.state = .busy) (hg : footerGen f.2 = q.gen) :
    dispatchAlone i f arm s = (do
      let (advance, q, s) ← afterGenCheck f.1 f.2 arm q s
      return (s.setIq i (if advance then advanceCursor q else q), if advance then .advance else .stay)) := by
  have hlive : q.state ≠ .dead := by rw [hb]; decide
  rw [dispatchAlone, onIq_eq hq, if_neg hlive, if_neg (not_not.mpr hb), if_pos (show isNew q f.2 = true from decide_eq_true hg),
    bind_assoc]
  rfl

theorem runQe_dispatchAlone (hp : s.panic = false) (hq : s.iqAt i = some q) (hb : q.state = .busy)
    (hg : footerGen f.2 = q.gen) (hn : (q.qid, f) ∉ s.cfg.genCheck) (h : arm q s.begin = .ok (true, q', t)) :
    runQe s (fun u => dispatchAlone i f arm u) = .next ((t.setIq i (advanceCursor q')).answer .advance) := by
  refine runQe_ok hp ((dispatchAlone_new (s := s.begin) hq hb hg).trans ?_)
  have hcheck : genCheck s.begin.cfg q f.1 f.2 = false := by
    rw [← Bool.not_eq_true, genCheck_eq_true]
    exact hn
  rw [afterGenCheck_of_not hcheck, h]
  rfl

/-- An entry that its arm does not pass: the cursor stays. -/
theorem runQe_dispatchAlone_stay (hp : s.panic = false) (hq : s.iqAt i = some q) (hb : q.state = .busy)
    (hg : footerGen f.2 = q.gen) (hn : (q.qid, f) ∉ s.cfg.genCheck) (h : arm q s.begin = .ok (false, q', t)) :
    runQe s (fun u => dispatchAlone i f arm u) = .next ((t.setIq i q').answer .stay) := by
  refine runQe_ok hp ((dispatchAlone_new (s := s.begin) hq hb hg).trans ?_)
  have hcheck : genCheck s.begin.cfg q f.1 f.2 = false := by
    rw [← Bool.not_eq_true, genCheck_eq_true]
    exact hn
  rw [afterGenCheck_of_not hcheck, h]
  rfl

/-- The state after a protocol violation of a Busy queue: counted, logged and skipped. -/
def skipped (s : State) (i : Nat) (q : IngressQueue) (x : Exc) (p : Flit × Flit) : State :=
  { s with
    iq := s.iq.set i (some { passed q with protoErrors := q.protoErrors + 1 })
    out := s.out ++ [.log x q.qid q.cidx p.1 p.2], ret := .advance, raised := [x] }

theorem skipped_eq {x : Exc} (hc : q.cidx < q.cap) :
    ((violationAs x q s.begin f.1 f.2).2.setIq i (advanceCursor (violationAs x q s.begin f.1 f.2).1)).answer .advance =
      skipped s i q x f := by
  rw [advanceCursor_eq (q := (violationAs x q s.begin f.1 f.2).1) hc]
  rfl

theorem runQe_dispatchAlone_genCheck (hp : s.panic = false) (hq : s.iqAt i = some q) (hb : q.state = .busy)
    (hc : q.cidx < q.cap) (hg : footerGen f.2 = q.gen) (hm : (q.qid, f) ∈ s.cfg.genCheck) :
    runQe s (fun u => dispatchAlone i f arm u) = .next (skipped s i q .protoGen f) := by
  rw [← skipped_eq hc]
  refine runQe_ok hp ((dispatchAlone_new (s := s.begin) hq hb hg).trans ?_)
  rw [afterGenCheck, if_pos (genCheck_eq_true.mpr (show (q.qid, f) ∈ s.begin.cfg.genCheck from hm))]
  rfl

theorem runQe_dispatchAlone_violation (hp : s.panic = false) (hq : s.iqAt i = some q) (hb : q.state = .busy)
    (hc : q.cidx < q.cap) (hg : footerGen f.2 = q.gen) (hn : (q.qid, f) ∉ s.cfg.genCheck)
    (h : arm q s.begin = .ok (true, violation q s.begin f.1 f.2)) :
    runQe s (fun u => dispatchAlone i f arm u) = .next (skipped s i q .protoOpcode f) := by
  rw [← skipped_eq hc]
  exact runQe_dispatchAlone hp hq hb hg hn h

end

theorem footerGen_encodeRx (e : RxEntry) : footerGen (encodeRx e).2 = e.footer.gen := footerGen_encodeFooter _ _ _

theorem footerGen_encodeOob (e : OobEntry) : footerGen (encodeOob e).2 = e.footer.gen := footerGen_encodeFooter _ _ _

theorem footerGen_encodeFwd (e : FwdEntry) : footerGen (encodeFwd e).2 = e.footer.gen := footerGen_encodeFooter _ _ _

theorem footerGen_encodeReserved (e : ReservedEntry) : footerGen (encodeReserved e).2 = e.footer.gen :=
  footerGen_encodeFooter _ _ _

theorem footerGen_encodeEgrUpdate (e : EgrUpdateEntry) : footerGen (encodeEgrUpdate e).2 = e.footer.gen :=
  footerGen_encodeFooter _ _ _

/-! ## Queues that entries name -/

theorem head?_indicesOf_none {α : Type} {p : α → Bool} {l : List (Option α)}
    (h : ∀ (j : Nat) (x : α), (l[j]?).join = some x → p x = false) : (indicesOf p l).head? = none := by
  rw [indicesOf_eq_nil h]
  rfl

theorem liveEqByQid_none {qid : BitVec 16} (h : ∀ j x, s.eqAt j = some x → x.qid = qid → x.state = .dead) :
    s.liveEqByQid qid = none :=
  head?_indicesOf_none fun j x hx => by
    by_contra hlive
    simp only [EgressQueue.live, Bool.not_eq_false, Bool.and_eq_true, decide_eq_true_eq] at hlive
    exact hlive.1 (h j x hx hlive.2)

theorem liveEqByQid_some {j : Nat} {x : EgressQueue} {qid : BitVec 16} (hx : s.eqAt j = some x) (hl : x.state ≠ .dead)
    (hid : x.qid = qid) (hone : ∀ k y, s.eqAt k = some y → y.state ≠ .dead → y.qid = qid → k = j) :
    s.liveEqByQid qid = some j := by
  rw [State.liveEqByQid, indicesOf_eq_singleton hx (by simp [EgressQueue.live, hl, hid]) fun k y hy hp => by
    simp only [EgressQueue.live, Bool.and_eq_true, decide_eq_true_eq] at hp
    exact hone k y hy hp.1 hp.2]
  rfl

theorem childByQid_none {parent target : BitVec 12} (h : ∀ j x, s.iqAt j = some x → x.qid = target →
    x.role = .forwarded → x.parent = parent → x.state = .dead) : s.childByQid parent target = none :=
  head?_indicesOf_none fun j x hx => by
    by_contra hlive
    simp only [IngressQueue.live, Bool.not_eq_false, Bool.and_eq_true, decide_eq_true_eq] at hlive
    obtain ⟨⟨⟨hid, hrole⟩, hpar⟩, hl⟩ := hlive
    exact hl (h j x hx hid hrole hpar)

theorem childByQid_only {target : BitVec 12} {j : Nat} {t : IngressQueue} (h : OnlyChild s q target j t) :
    s.childByQid q.qid target = some j := by
  obtain ⟨ht, hid, hrole, hpar, hl, hone⟩ := h
  rw [State.childByQid, indicesOf_eq_singleton ht (by simp [IngressQueue.live, hid, hrole, hpar, hl]) fun k x hx hp => by
    simp only [IngressQueue.live, Bool.and_eq_true, decide_eq_true_eq] at hp
    obtain ⟨⟨⟨hxid, hxrole⟩, hxpar⟩, hxl⟩ := hp
    exact hone k x hx hxid hxrole hxpar hxl]
  rfl

/-! ## The end of a service call -/

@[simp] theorem mmioWrite_iq (s : State) (w : MmioWrite) : (mmioWrite s w).iq = s.iq := by
  obtain ⟨_, _, _, hs⟩ := mmioWrite_state s w
  rw [hs]

theorem endService_quiet {done : Bool} (h : quietEnd q = true) : endService i done q s = .ok (q, s, done) := by
  simp only [quietEnd, Bool.and_eq_true, Bool.not_eq_true'] at h
  obtain ⟨hlro, hfl⟩ := h
  have hrefill : refillIfLow i q s = .ok (q, s) := by
    unfold refillIfLow
    split
    · rfl
    · rename_i fl hq
      rw [hq] at hfl
      rw [if_neg (by simpa using hfl)]
  simp only [endService, lroFlush, hlro, Bool.false_eq_true, if_false, hrefill]
  rfl

/-- The footer at the cursor is in the address space. -/
theorem footer_inSpace (hm : q.mapped = true) (hc : q.cidx < q.cap) :
    inSpace (entryAddr q q.cidx.toNat) 8 = true ∧ inSpace (entryAddr q q.cidx.toNat + 8) 8 = true := by
  have hring : q.base.toNat + 16 * q.cap.toNat ≤ addressLimit := of_decide_eq_true hm
  have hlt : q.cidx.toNat < q.cap.toNat := hc
  exact ⟨decide_eq_true (by unfold entryAddr; omega), decide_eq_true (by unfold entryAddr; omega)⟩

theorem serviceLoop_empty {fwd : FwdArm} {b nd : Nat} (hm : q.mapped = true) (hc : q.cidx < q.cap)
    (he : ringEmptyAt s q = true) : serviceLoop fwd i (b + 1) nd q s = ringEmpty i nd q s := by
  have hold : isNew q (s.ring.flit (entryAddr q q.cidx.toNat + 8)) = false := decide_eq_false (of_decide_eq_true he)
  rw [serviceLoop, ringRead_eq (footer_inSpace hm hc).2, Res.bind_ok, hold]
  rfl

/-- The credit word that re-arms the interrupt, of `n` entries (42_ingress_service R259). -/
def rearm (q : IngressQueue) (n : BitVec 16) : MmioWrite :=
  .word .icw (q.qid ++ q.timerIdx ++ BitVec.ofBool q.cntEn ++ n)

/-- A service that finds its ring empty. -/
theorem serviceLoop_quiet {fwd : FwdArm} {b : Nat} (hb : b ≠ 0) (hm : q.mapped = true) (hc : q.cidx < q.cap)
    (he : ringEmptyAt s q = true) (hend : quietEnd q = true) :
    serviceLoop fwd i b 0 q s = .ok (q, mmioWrite s (rearm q 0), true) := by
  obtain ⟨b, rfl⟩ := Nat.exists_eq_succ_of_ne_zero hb
  rw [serviceLoop_empty hm hc he, ringEmpty, endService_quiet hend]
  rfl

theorem serviceAndFinish_quiet (hb : q.budget ≠ 0) (hm : q.mapped = true) (hc : q.cidx < q.cap)
    (he : ringEmptyAt s q = true) (hend : quietEnd q = true) :
    serviceAndFinish i q s = .ok ({ q with state := .idle }, mmioWrite s (rearm q 0), .done) := by
  have hb' : q.budget.toNat ≠ 0 := fun h0 => hb (BitVec.eq_of_toNat_eq h0)
  rw [serviceAndFinish, service, serviceLoop_quiet hb' hm hc he hend]
  rfl

end Sys2Proof.Machine
end

section
/-! PROOFS. Services of an empty ring, refused compare-and-swaps, protocol violations, and the out-of-band and forwarding
entries (42_ingress_service R250 to R264, 60_exceptions R459). -/

namespace Sys2Proof.Machine

variable {s t : State} {i : Nat} {q q' : IngressQueue} {r : Ret}

/-! ## The commands that service a queue -/

theorem enterService_idle (h : q.state = .idle) : enterService q = some { q with state := .busy } := if_pos h

theorem enterService_busy (h : q.state = .busy) : enterService q = none := if_neg (by rw [h]; decide)

/-- INTERRUPT of an Idle queue services it as a Busy one. -/
theorem execInterrupt_idle (hp : s.panic = false) (hq : s.iqAt i = some q) (hidle : q.state = .idle)
    (hrole : q.role ≠ .forwarded) (h : serviceAndFinish i { q with state := .busy } s.begin = .ok (q', t, r)) :
    execInterrupt i s = .next ((t.setIq i q').answer r) := by
  have hlive : q.state ≠ .dead := by rw [hidle]; decide
  refine runQe_ok hp ((onIq_eq (s := s.begin) hq).trans ?_)
  rw [if_neg hlive, if_neg hrole, enterService_idle hidle]
  dsimp only
  rw [h]
  rfl

theorem execInterrupt_busy (hp : s.panic = false) (hq : s.iqAt i = some q) (hb : q.state = .busy)
    (hrole : q.role ≠ .forwarded) : execInterrupt i s = .next { s with ret := .rejected, raised := [.busyReject] } := by
  have hlive : q.state ≠ .dead := by rw [hb]; decide
  have hself : s.begin.setIq i q = s.begin := setIq_self hq
  have hrun : onIq s.begin i (fun q => if q.state = .dead then refuseDoomed else if q.role = .forwarded then refuseBadarg
      else match enterService q with
        | none => .ok (q, s.begin.raise .busyReject, .rejected)
        | some q => serviceAndFinish i q s.begin) = .ok ((s.begin.raise .busyReject).setIq i q, .rejected) := by
    rw [onIq_eq (s := s.begin) hq, if_neg hlive, if_neg hrole, enterService_busy hb]
    rfl
  have hiq : s.iq.set i (some q) = s.iq := set_self hq
  refine (runQe_ok hp hrun).trans ?_
  simp only [State.answer, State.setIq, State.raise, State.begin, hiq, List.nil_append]

/-- SERVICE of a Busy queue. -/
theorem execService_busy {b : BitVec 16} {done : Bool} (hp : s.panic = false) (hq : s.iqAt i = some q)
    (hb : q.state = .busy) (hn : b ≠ 0) (h : service i b.toNat q s.begin = .ok (q', t, done)) :
    execService i b s = .next ((t.setIq i q').answer (serviceRet done)) := by
  have hlive : q.state ≠ .dead := by rw [hb]; decide
  have hok : (decide (q.state ≠ .busy) || decide (b = 0)) = false :=
    Bool.or_eq_false_iff.mpr ⟨decide_eq_false (not_not.mpr hb), decide_eq_false hn⟩
  refine runQe_ok hp ((onIq_eq (s := s.begin) hq).trans ?_)
  rw [if_neg hlive, hok, if_neg Bool.false_ne_true, h]
  rfl

/-- DEFERRED_RUN services the head of the worklist. -/
theorem execDeferredRun_head {rest : List Nat} (hp : s.panic = false) (hw : s.worklist = i :: rest)
    (hq : s.iqAt i = some q) (h : serviceAndFinish i q (s.begin.setWorklist rest) = .ok (q', t, r)) :
    execDeferredRun s = .next ((t.setIq i q').answer r) := by
  refine runQe_ok hp ?_
  rw [show s.begin.worklist = i :: rest from hw]
  dsimp only
  rw [onIq_eq (s := s.begin.setWorklist rest) hq, h]
  rfl

/-! ## A service of an empty ring -/

/-- A context written back as it was, after an MMIO write. -/
theorem answer_mmioWrite (hq : s.iqAt i = some q) (w : MmioWrite) :
    ((mmioWrite s.begin w).setIq i q).answer r = { mmioWrite s w with ret := r, raised := [] } := by
  have hset : (mmioWrite s w).iq.set i (some q) = (mmioWrite s w).iq := by rw [mmioWrite_iq, set_self hq]
  simp only [State.setIq, State.answer, State.begin, mmioWrite_answered, hset]

/-- What an MMIO write does depends on the queues and the device's copies only. -/
structure SameTargets (s s' : State) : Prop where
  iq : s'.iq = s.iq
  eq : s'.eq = s.eq
  devFl : s'.devFl = s.devFl
  devIq : s'.devIq = s.devIq
  devEq : s'.devEq = s.devEq

/-- The device's copies of `t`, with the write `w` recorded in `s`. -/
def State.reacted (s : State) (w : MmioWrite) (t : State) : State :=
  { s with mmio := s.mmio ++ [w], devFl := t.devFl, devIq := t.devIq, devEq := t.devEq }

theorem devAdvance_reacted {s' : State} (h : SameTargets s s') (w : MmioWrite) (q : QRef) (n : Nat) :
    devAdvance (s'.logMmio w) q n = s'.reacted w (devAdvance (s.logMmio w) q n) := by
  obtain ⟨hiq, heq, hfl, hdi, hde⟩ := h
  cases q with
  | fl j =>
    have hf : (s'.logMmio w).flAt j = (s.logMmio w).flAt j := by
      simp only [State.flAt, State.iqAt, State.logMmio, hiq]
    have hd : (s'.logMmio w).devFlAt j = (s.logMmio w).devFlAt j := by simp only [State.devFlAt, State.logMmio, hfl]
    simp only [devAdvance, hf, hd]
    split
    · simp only [State.setDevFl, State.logMmio, State.reacted, hfl, hdi, hde]
    · simp only [State.logMmio, State.reacted, ← hfl, ← hdi, ← hde]
  | eq j =>
    have hf : (s'.logMmio w).eqAt j = (s.logMmio w).eqAt j := by simp only [State.eqAt, State.logMmio, heq]
    have hd : (s'.logMmio w).devEqAt j = (s.logMmio w).devEqAt j := by simp only [State.devEqAt, State.logMmio, hde]
    simp only [devAdvance, hf, hd]
    split
    · simp only [State.setDevEq, State.logMmio, State.reacted, hfl, hdi, hde]
    · simp only [State.logMmio, State.reacted, ← hfl, ← hdi, ← hde]

theorem devReact_reacted {s' : State} (h : SameTargets s s') (w : MmioWrite) :
    devReact (s'.logMmio w) w = (devReact (s.logMmio w) w).map (s'.reacted w) := by
  have hadv := devAdvance_reacted h w
  obtain ⟨hiq, heq, hfl, hdi, hde⟩ := h
  have hdb : ∀ v, doorbellTarget (s'.logMmio w) v = doorbellTarget (s.logMmio w) v := fun v => by
    simp only [doorbellTarget, doorbellTargets, State.logMmio, hiq, heq]
  cases w with
  | word reg v =>
    cases reg with
    | icw =>
      have ht : creditTarget (s'.logMmio (.word .icw v)) v = creditTarget (s.logMmio (.word .icw v)) v := by
        simp only [creditTarget, State.logMmio, hiq]
      have hd : ∀ j, (s'.logMmio (.word .icw v)).devIqAt j = (s.logMmio (.word .icw v)).devIqAt j := fun j => by
        simp only [State.devIqAt, State.logMmio, hdi]
      simp only [devReact, ht, hd]
      split
      · rw [Option.map_map]
        refine congrFun (congrArg Option.map (funext fun d => ?_)) _
        simp only [Function.comp, State.setDevIq, State.logMmio, State.reacted, hfl, hdi, hde]
      · rfl
    | db =>
      simp only [devReact, hdb, hadv, Option.map_map]
      rfl
    | udb a =>
      simp only [devReact, hdb, hadv, Option.map_map]
      rfl
  | burst a fs =>
    have ht : windowTarget (s'.logMmio (.burst a fs)) a = windowTarget (s.logMmio (.burst a fs)) a := by
      simp only [windowTarget, State.logMmio, heq]
    simp only [devReact, ht, hadv, Option.map_map]
    rfl

theorem mmioWrite_reacted {s' : State} (h : SameTargets s s') (w : MmioWrite) :
    mmioWrite s' w = s'.reacted w (mmioWrite s w) := by
  rw [mmioWrite, devReact_reacted h, mmioWrite]
  cases devReact (s.logMmio w) w with
  | some t => rfl
  | none =>
    obtain ⟨_, _, hfl, hdi, hde⟩ := h
    simp only [Option.map_none, Option.getD_none, State.reacted, State.logMmio, hfl, hdi, hde]

/-- An MMIO write and any other change that leaves the queues and the device's copies alone. -/
theorem mmioWrite_aside {s' : State} (h : SameTargets s s') (hm : s'.mmio = s.mmio) (w : MmioWrite) :
    mmioWrite s' w = { s' with
      mmio := (mmioWrite s w).mmio, devFl := (mmioWrite s w).devFl, devIq := (mmioWrite s w).devIq
      devEq := (mmioWrite s w).devEq } := by
  obtain ⟨_, _, _, hs⟩ := mmioWrite_state s w
  rw [mmioWrite_reacted h, State.reacted, hm, hs]

theorem mmioWrite_setWorklist (s : State) (w : MmioWrite) (l : List Nat) :
    mmioWrite (s.setWorklist l) w = (mmioWrite s w).setWorklist l := by
  obtain ⟨_, _, _, hs⟩ := mmioWrite_state s w
  rw [mmioWrite_aside (s := s) (s' := s.setWorklist l) ⟨rfl, rfl, rfl, rfl, rfl⟩ rfl, hs]
  rfl

theorem budget_toNat_ne {b : BitVec 16} (h : b ≠ 0) : b.toNat ≠ 0 := fun h0 => h (BitVec.eq_of_toNat_eq h0)

theorem setState_idle (h : q.state = .idle) : ({ q with state := .idle } : IngressQueue) = q := by rw [← h]

end Sys2Proof.Machine

namespace Sys2Proof
open Machine

/-- Settles O37: a service that finds nothing new writes one credit word; each command then finishes the queue. -/
theorem emptyRingService : Obligations.EmptyRingService := by
  refine ⟨fun s hp hw => ?_, fun s i q b hp hq hm hc he hend => ⟨fun hidle hrole hb => ?_, fun hb hn => ?_,
    fun rest hw hbusy hb => ?_⟩⟩
  · have hrun : execDeferredRun s = .next (s.begin.answer .nothing) := by
      refine runQe_ok hp ?_
      rw [show s.begin.worklist = [] from hw]
    exact hrun
  · have hrun := serviceAndFinish_quiet (s := s.begin) (i := i) (q := { q with state := .busy }) hb hm hc he hend
    refine (execInterrupt_idle hp hq hidle hrole hrun).trans ?_
    rw [show ({ ({ q with state := .busy } : IngressQueue) with state := .idle } : IngressQueue) = q from setState_idle hidle,
      answer_mmioWrite hq]
    rfl
  · have hrun : service i b.toNat q s.begin = .ok (q, mmioWrite s.begin (rearm q 0), true) :=
      serviceLoop_quiet (budget_toNat_ne hn) hm hc he hend
    refine (execService_busy hp hq hb hn hrun).trans ?_
    rw [answer_mmioWrite hq]
    rfl
  · have hrun := serviceAndFinish_quiet (s := s.begin.setWorklist rest) (i := i) (q := q) hb hm hc he hend
    refine (execDeferredRun_head hp hw hq hrun).trans ?_
    rw [mmioWrite_setWorklist]
    simp only [State.setIq, State.answer, State.begin, State.setWorklist, mmioWrite_answered, mmioWrite_iq]
    rfl

end Sys2Proof
end

section
/-! PROOFS. Refused compare-and-swaps, protocol violations, out-of-band entries and forwarded interrupts
(42_ingress_service R254 to R256, R263, R264, 60_exceptions R459). -/

namespace Sys2Proof.Machine

variable {s t : State} {i j : Nat} {q : IngressQueue} {f0 f1 : Flit}

/-! ## The arms -/

theorem dispatchRx_violation {e : RxEntry} (h : q.fl = none ∨ e.len = 0) :
    dispatchRx e f0 f1 q s = .ok (true, violation q s f0 f1) := by
  unfold dispatchRx
  split
  · rfl
  · rename_i fl hfl
    rw [if_pos (h.resolve_left (by simp [hfl]))]

theorem dispatchOob_violation {op : BitVec 8} (h : op = 0x20 ∨ op ∉ s.cfg.handlers) :
    dispatchOob op f0 f1 q s = violation q s f0 f1 := if_pos (by simpa using h)

theorem dispatchOob_handled {op : BitVec 8} (hop : op ≠ 0x20) (h : op ∈ s.cfg.handlers) :
    dispatchOob op f0 f1 q s = (q, s.emit (.oobDeliver q.qid op f0)) := if_neg (by simpa using ⟨hop, h⟩)

theorem egrUpdate_violation {eqid : BitVec 16} (h : ∀ j x, s.eqAt j = some x → x.qid = eqid → x.state = .dead) :
    egrUpdate eqid f0 f1 q s = .ok (violation q s f0 f1) := by
  rw [egrUpdate, liveEqByQid_none h]

/-- An egress update reclaims the queue it names. -/
theorem egrUpdate_reclaims {eqid : BitVec 16} {x x' : EgressQueue} {d c : Nat} (hx : s.eqAt j = some x)
    (hl : x.state ≠ .dead) (hid : x.qid = eqid)
    (hone : ∀ k y, s.eqAt k = some y → y.state ≠ .dead → y.qid = eqid → k = j)
    (h : reclaim j s.cfg.egrReclaimBatch x s = .ok (x', t, d, c)) :
    egrUpdate eqid f0 f1 q s = .ok (q, t.setEq j x') := by
  rw [egrUpdate, liveEqByQid_some hx hl hid hone]
  dsimp only
  rw [hx]
  dsimp only
  rw [h]
  rfl

section
variable {target : BitVec 12} {b : Nat} {u : IngressQueue}

theorem dispatchFwd_violation (h : q.role ≠ .forwarder ∨ ∀ j x, s.iqAt j = some x → x.qid = target →
    x.role = .forwarded → x.parent = q.qid → x.state = .dead) :
    dispatchFwd b target f0 f1 q s = .ok (violation q s f0 f1) := by
  unfold dispatchFwd
  split
  · rfl
  · rename_i hrole
    rw [childByQid_none (h.resolve_left hrole)]

theorem dispatchFwd_busy (hr : q.role = .forwarder) (h : OnlyChild s q target j u) (hb : u.state = .busy) :
    dispatchFwd b target f0 f1 q s = .ok (q, s) := by
  rw [dispatchFwd, if_neg (not_not.mpr hr), childByQid_only h]
  dsimp only
  rw [h.1, Option.bind_some, enterService_busy hb]

/-- A forwarding entry that finds its target Idle services it and finishes it. -/
theorem dispatchFwd_idle {u' : IngressQueue} {done : Bool} (hr : q.role = .forwarder) (h : OnlyChild s q target j u)
    (hidle : u.state = .idle)
    (hrun : serviceNested j (fwdBudget s.cfg b) { u with state := .busy } s = .ok (u', t, done)) :
    dispatchFwd b target f0 f1 q s = .ok (q, (finishService t j u' done).2.setIq j (finishService t j u' done).1) := by
  rw [dispatchFwd, if_neg (not_not.mpr hr), childByQid_only h]
  dsimp only
  rw [h.1, Option.bind_some, enterService_idle hidle]
  dsimp only
  rw [hrun]
  rfl

end

/-! ## RECLAIM of a ring with nothing to take back -/

theorem reclaimable_self {e : EgressQueue} (hr : e.inRange = true) : reclaimable e e.cidx = 0 := by
  have hc : e.cidx < e.cap := (EgressQueue.inRange_iff.mp hr).2.1
  exact (distOf_eq_zero hc hc).mpr rfl

theorem statusPage_inSpace {e : EgressQueue} (hm : e.mapped = true) : inSpace (eqStatusAddr e) 8 = true := by
  have hring : e.base.toNat + (64 * e.cap.toNat + 64) ≤ addressLimit := of_decide_eq_true hm
  exact decide_eq_true (by unfold eqStatusAddr; omega)

theorem reclaim_nothing {e : EgressQueue} {n : Nat} (hl : e.state ≠ .dead) (hs : e.state ≠ .stalled)
    (hm : e.mapped = true) (hr : e.inRange = true) (hw : statusCidx s e = e.cidx) :
    reclaim i n e s = .ok (e, s, 0, 0) := by
  have hc : e.cidx < e.cap := (EgressQueue.inRange_iff.mp hr).2.1
  have hzero := reclaimable_self hr
  have hpage : (decodeSp (s.ring.flit (eqStatusAddr e))).cidx = e.cidx := hw
  have havail : e.avail + BitVec.ofNat 16 0 = e.avail := BitVec.add_zero _
  have hresume : resumes e e.cidx = false := by simp [resumes, hs]
  rw [reclaim, if_neg hl, ringRead_eq (statusPage_inSpace hm), Res.bind_ok]
  dsimp only
  rw [hpage, if_neg (by simpa using hc), hzero, if_neg (Nat.not_lt_zero _), reclaimLoop, Res.bind_ok]
  dsimp only
  rw [havail, resumeCheck, hresume]
  rfl

/-! ## Teardown of a Busy queue -/

theorem hasChild_iff : hasChild s q = true ↔ ∃ j t, s.iqAt j = some t ∧ t.state ≠ .dead ∧ t.parent = q.qid := by
  rw [hasChild, decide_eq_true_iff, indicesOf_ne_nil]
  refine exists_congr fun j => exists_congr fun t => and_congr_right fun _ => ?_
  simp only [IngressQueue.live, Bool.and_eq_true, decide_eq_true_eq]

theorem not_forwarderWithChild
    (hc : ¬ (q.role = .forwarder ∧ ∃ j t, s.iqAt j = some t ∧ t.state ≠ .dead ∧ t.parent = q.qid)) :
    (decide (q.role = .forwarder) && hasChild s.begin q) = false := by
  rw [← Bool.not_eq_true, Bool.and_eq_true, decide_eq_true_eq, hasChild_iff]
  exact hc

/-- A context written back as it was. -/
theorem answer_setIq_self {r : Ret} (hq : s.iqAt i = some q) (es : List Exc) :
    (({ s with ret := .none, raised := es } : State).setIq i q).answer r = { s with ret := r, raised := es } := by
  have hset : s.iq.set i (some q) = s.iq := set_self hq
  simp only [State.setIq, State.answer, hset]

theorem execTeardownIq_busy (hp : s.panic = false) (hq : s.iqAt i = some q) (hb : q.state = .busy)
    (hc : ¬ (q.role = .forwarder ∧ ∃ j t, s.iqAt j = some t ∧ t.state ≠ .dead ∧ t.parent = q.qid)) :
    execTeardownIq i s = .next { s with ret := .rejected, raised := [.busyReject] } := by
  have hlive : q.state ≠ .dead := by rw [hb]; decide
  have hcas : casIdle q .dead = none := if_neg (by rw [hb]; decide)
  have hrun : teardownIq i q s.begin = .ok (q, s.begin.raise .busyReject, .rejected) := by
    rw [teardownIq, if_neg hlive, not_forwarderWithChild hc, if_neg Bool.false_ne_true, hcas]
  refine (runQe_onIq (f := fun u q => teardownIq i q u) hp hq hrun).trans ?_
  exact congrArg _ (answer_setIq_self hq [.busyReject])

/-! ## Entries -/

section
variable {k : Nat}

/-- An entry passed without effect of its arm. -/
theorem answer_passed {r : Ret} (hc : q.cidx < q.cap) (t : State) :
    (t.setIq k (advanceCursor q)).answer r = { t with iq := t.iq.set k (some (passed q)), ret := r } := by
  rw [advanceCursor_eq hc]
  rfl

theorem execIqeOob_handled {e : OobEntry} (hp : s.panic = false) (hq : s.iqAt i = some q) (hb : q.state = .busy)
    (hc : q.cidx < q.cap) (hg : e.footer.gen = q.gen) (hn : (q.qid, encodeOob e) ∉ s.cfg.genCheck) (hop : e.opcode ≠ 0x20)
    (hh : e.opcode ∈ s.cfg.handlers) :
    execIqeOob i e s = .next { s with
      iq := s.iq.set i (some (passed q)), out := s.out ++ [.oobDeliver q.qid e.opcode (e.opcode ++ e.data)]
      ret := .advance, raised := [] } := by
  refine (runQe_dispatchAlone (t := s.begin.emit (.oobDeliver q.qid e.opcode (encodeOob e).1)) hp hq hb
    ((footerGen_encodeOob e).trans hg) hn ?_).trans (congrArg _ (answer_passed hc _))
  rw [dispatchOob_handled (s := s.begin) hop hh]

theorem execIqeEgrUpdate_reclaims {e : EgrUpdateEntry} {x x' : EgressQueue} {d c : Nat} (hp : s.panic = false)
    (hq : s.iqAt i = some q) (hb : q.state = .busy) (hc : q.cidx < q.cap) (hg : e.footer.gen = q.gen)
    (hn : (q.qid, encodeEgrUpdate e) ∉ s.cfg.genCheck) (hx : s.eqAt j = some x) (hl : x.state ≠ .dead)
    (hid : x.qid = e.eqid) (hone : ∀ k y, s.eqAt k = some y → y.state ≠ .dead → y.qid = e.eqid → k = j)
    (h : reclaim j s.cfg.egrReclaimBatch x s.begin = .ok (x', t, d, c)) :
    execIqeEgrUpdate i e s = .next { t with
      eq := t.eq.set j (some x'), iq := t.iq.set i (some (passed q)), ret := .advance } := by
  refine (runQe_dispatchAlone (t := t.setEq j x') hp hq hb ((footerGen_encodeEgrUpdate e).trans hg) hn ?_).trans
    (congrArg _ (answer_passed hc _))
  rw [egrUpdate_reclaims (s := s.begin) hx hl hid hone h]
  rfl

/-- RECLAIM leaves the contexts alone, but for the one it is given. -/
theorem reclaim_contexts {n d c : Nat} {e e' : EgressQueue} (h : reclaim i n e s = .ok (e', t, d, c)) :
    t.iq = s.iq ∧ t.eq = s.eq := by
  obtain ⟨_, hw, x, sd, _, _, _, _, _, _, _, hres⟩ := reclaim_ok h
  rw [resumeCheck] at hres
  split at hres <;> obtain ⟨-, rfl⟩ := Prod.mk.inj hres <;> exact ⟨rfl, rfl⟩

theorem execIqeFwd_idle {e : FwdEntry} {u u' : IngressQueue} {done : Bool} (hp : s.panic = false) (hq : s.iqAt i = some q)
    (hb : q.state = .busy) (hr : q.role = .forwarder) (hc : q.cidx < q.cap) (hg : e.footer.gen = q.gen)
    (hn : (q.qid, encodeFwd e) ∉ s.cfg.genCheck) (hone : OnlyChild s q e.targetQid j u) (hidle : u.state = .idle)
    (hrun : serviceNested j (fwdBudget s.cfg q.budget.toNat) { u with state := .busy } s.begin = .ok (u', t, done)) :
    execIqeFwd i e s = .next { t with
      iq := (t.iq.set j (some { u' with state := if done then .idle else u'.state })).set i (some (passed q))
      worklist := t.worklist ++ (if done then [] else [j]), ret := .advance } := by
  refine (runQe_dispatchAlone (q' := q) (t := (finishService t j u' done).2.setIq j (finishService t j u' done).1) hp hq hb
    ((footerGen_encodeFwd e).trans hg) hn ?_).trans ((congrArg _ (answer_passed hc _)).trans ?_)
  · rw [dispatchFwd_idle hr (show OnlyChild s.begin q e.targetQid j u from hone) hidle hrun]
    rfl
  · rw [finishService_eq]
    rfl

end

end Sys2Proof.Machine

namespace Sys2Proof
open Machine

/-- Settles O38: a failed compare-and-swap changes the context of no queue. -/
theorem busyReject : Obligations.BusyReject := by
  refine ⟨fun s i q hp hq hb => ⟨execInterrupt_busy hp hq hb, fun hchild => ?_⟩,
    fun s i j q t e hp hq hb hr hc hg hn hone ht => ?_⟩
  · exact execTeardownIq_busy hp hq hb fun ⟨hr, j, t, ht, hl, hpar⟩ => hl (hchild hr j t ht hpar)
  · have hrun := runQe_dispatchAlone (f := encodeFwd e) (arm := fun q s => do
        let (q, s) ← dispatchFwd q.budget.toNat e.targetQid (encodeFwd e).1 (encodeFwd e).2 q s
        return (true, q, s)) hp hq hb ((footerGen_encodeFwd e).trans hg) hn
      (by rw [dispatchFwd_busy hr (show OnlyChild s.begin q e.targetQid j t from hone) ht]; rfl)
    rw [advanceCursor_eq hc] at hrun
    exact hrun

/-- Settles O42: each cause of a violation is one branch of its arm; `gen_check` comes before the arm. -/
theorem protocolViolations : Obligations.ProtocolViolations := by
  intro s i q hp hq hb hc
  refine ⟨fun e hg => ?_, fun e hg => ?_, fun e hg => ?_, fun e hg => ?_, fun e hg => ?_⟩
  · have hgen := (footerGen_encodeReserved e).trans hg
    exact ⟨runQe_dispatchAlone_genCheck hp hq hb hc hgen, fun hn _ => runQe_dispatchAlone_violation hp hq hb hc hgen hn rfl⟩
  · have hgen := (footerGen_encodeRx e).trans hg
    exact ⟨runQe_dispatchAlone_genCheck hp hq hb hc hgen, fun hn hw =>
      runQe_dispatchAlone_violation hp hq hb hc hgen hn (dispatchRx_violation hw)⟩
  · have hgen := (footerGen_encodeOob e).trans hg
    refine ⟨runQe_dispatchAlone_genCheck hp hq hb hc hgen, fun hn hw =>
      runQe_dispatchAlone_violation hp hq hb hc hgen hn ?_⟩
    rw [dispatchOob_violation (s := s.begin) hw]
  · have hgen := (footerGen_encodeEgrUpdate e).trans hg
    refine ⟨runQe_dispatchAlone_genCheck hp hq hb hc hgen, fun hn hw =>
      runQe_dispatchAlone_violation hp hq hb hc hgen hn ?_⟩
    rw [egrUpdate_violation (s := s.begin) hw]
    rfl
  · have hgen := (footerGen_encodeFwd e).trans hg
    refine ⟨runQe_dispatchAlone_genCheck hp hq hb hc hgen, fun hn hw =>
      runQe_dispatchAlone_violation hp hq hb hc hgen hn ?_⟩
    rw [dispatchFwd_violation (s := s.begin) hw]
    rfl

/-- Settles O43: one event, or a RECLAIM, and the cursor passes the entry. -/
theorem outOfBandEntries : Obligations.OutOfBandEntries := by
  intro s i q hp hq hb hc
  refine ⟨fun e hg hn hop _ hh => execIqeOob_handled hp hq hb hc hg hn hop hh, fun e j x hg hn hx hl hid hone =>
    ⟨fun hm hr hw hs => ?_, fun x1 s1 d c hrun => ?_⟩⟩
  · have hnothing : reclaim j s.cfg.egrReclaimBatch x s.begin = .ok (x, s.begin, 0, 0) := reclaim_nothing hl hs hm hr hw
    have hself : s.eq.set j (some x) = s.eq := set_self hx
    refine (execIqeEgrUpdate_reclaims hp hq hb hc hg hn hx hl hid hone hnothing).trans ?_
    simp only [State.begin, hself]
  · have hrun' : reclaim j s.cfg.egrReclaimBatch x s.begin = .ok (x1, s1, d, c) := hrun
    obtain ⟨hiq, heq⟩ := reclaim_contexts hrun'
    refine (execIqeEgrUpdate_reclaims hp hq hb hc hg hn hx hl hid hone hrun').trans ?_
    rw [hiq, heq]
    rfl

/-- Settles O44: the target is serviced one level deep and finished; its context is written before the forwarder's. -/
theorem forwardedInterrupt : Obligations.ForwardedInterrupt := by
  intro s i j q t e hp hq hb hr hc hg hn hone hidle
  refine ⟨fun hm hct he hend => ?_, fun t1 s1 done hrun => ?_⟩
  · have hrun : serviceNested j (fwdBudget s.cfg q.budget.toNat) { t with state := .busy } s.begin =
        .ok ({ t with state := .busy }, mmioWrite s.begin (rearm t 0), true) :=
      serviceLoop_quiet (by unfold fwdBudget; omega) hm hct he hend
    have hself : s.iq.set j (some t) = s.iq := set_self hone.1
    refine (execIqeFwd_idle hp hq hb hr hc hg hn hone hidle hrun).trans ?_
    rw [if_pos rfl, if_pos rfl, show ({ ({ t with state := .busy } : IngressQueue) with state := .idle } : IngressQueue) = t
      from setState_idle hidle, mmioWrite_iq, show s.begin.iq = s.iq from rfl, hself]
    simp only [State.begin, mmioWrite_answered, List.append_nil]
    rfl
  · obtain ⟨hsame, -⟩ := serviceLoop_ok fwdNested_ok hrun
    have hstate : t1.state = .busy := by rw [hsame]
    refine (execIqeFwd_idle hp hq hb hr hc hg hn hone hidle hrun).trans ?_
    rw [hstate]

end Sys2Proof
end

section
/-! PROOFS. The walk of RECLAIM over the slot records, its panics, and RESUME_CHECK (45_reclaim_doorbell R370 to R372,
60_exceptions R458). -/

namespace Sys2Proof.Machine

variable {s t : State} {i : Nat} {q q' : EgressQueue}

/-! ## Maps -/

theorem releaseMaps_eq {n : Nat} (h : n ≤ q.maps.length) :
    releaseMaps n q s = .ok ({ q with maps := q.maps.drop n, mapsFree := q.mapsFree + BitVec.ofNat 16 n },
      { s with out := s.out ++ releaseEvents (q.maps.take n) }) := by
  suffices hok : ∃ q' t, releaseMaps n q s = .ok (q', t) by
    obtain ⟨q', t, hrun⟩ := hok
    obtain ⟨-, rfl, rfl⟩ := releaseMaps_ok hrun
    exact hrun
  induction n generalizing q s with
  | zero => exact ⟨q, s, rfl⟩
  | succ n ih =>
    obtain ⟨m, ms, hm⟩ := List.exists_cons_of_length_pos (Nat.lt_of_lt_of_le (Nat.succ_pos n) h)
    rw [releaseMaps, hm]
    exact ih (by rw [hm] at h; exact Nat.le_of_succ_le_succ h)

/-- Maps that run out panic. -/
theorem releaseMaps_panic {n : Nat} (h : q.maps.length < n) : releaseMaps n q s = ringInvariant := by
  induction n generalizing q s with
  | zero => exact absurd h (Nat.not_lt_zero _)
  | succ n ih =>
    rw [releaseMaps]
    split
    · rfl
    · rename_i m ms hm
      exact ih (by rw [hm] at h; exact Nat.lt_of_succ_lt_succ h)

/-! ## The walk -/

/-- The walk of `k` records from index `i` takes `d` of `left` descriptors and `c` credits, after `c0` of a bound `b`: whole
records, none empty, until nothing is left, the bound is reached, or the next record is not whole. -/
structure Walk (b : Nat) (q : EgressQueue) (i : BitVec 16) (left c0 k d c : Nat) : Prop where
  descs : d = ((recordWalk q k i).map fun j => (recordAt q j).descUsed.toNat).sum
  credits : c = ((recordWalk q k i).map fun j => (recordAt q j).credits.toNat).sum
  le : d ≤ left
  used : ∀ j ∈ recordWalk q k i, (recordAt q j).descUsed ≠ 0
  bounded : ∀ k', k' < k → c0 + ((recordWalk q k' i).map fun j => (recordAt q j).credits.toNat).sum < b
  stops : d = left ∨ b ≤ c0 + c ∨ left - d < (recordAt q (addTo i q.cap d).toNat).descUsed.toNat

theorem Walk.nil {b left c0 : Nat} {j : BitVec 16} (hj : j < q.cap)
    (h : left = 0 ∨ b ≤ c0 ∨ left < (recordAt q j.toNat).descUsed.toNat) : Walk b q j left c0 0 0 0 where
  descs := rfl
  credits := rfl
  le := Nat.zero_le _
  used := nofun
  bounded := nofun
  stops := by
    rw [addTo_zero hj, Nat.sub_zero, Nat.add_zero]
    exact h.imp_left Eq.symm

theorem recordWalk_succ (k : Nat) (j : BitVec 16) : recordWalk q (k + 1) j =
    j.toNat :: recordWalk q k (addTo j q.cap (recordAt q j.toNat).descUsed.toNat) := rfl

theorem Walk.cons {b left c0 k d c : Nat} {j : BitVec 16} (hcap : 0 < q.cap.toNat)
    (hu : (recordAt q j.toNat).descUsed ≠ 0) (hle : (recordAt q j.toNat).descUsed.toNat ≤ left) (hb : c0 < b)
    (h : Walk b q (addTo j q.cap (recordAt q j.toNat).descUsed.toNat) (left - (recordAt q j.toNat).descUsed.toNat)
      (c0 + (recordAt q j.toNat).credits.toNat) k d c) :
    Walk b q j left c0 (k + 1) ((recordAt q j.toNat).descUsed.toNat + d) ((recordAt q j.toNat).credits.toNat + c) where
  descs := by rw [recordWalk_succ, List.map_cons, List.sum_cons, ← h.descs]
  credits := by rw [recordWalk_succ, List.map_cons, List.sum_cons, ← h.credits]
  le := by have := h.le; omega
  used := by rw [recordWalk_succ, List.forall_mem_cons]; exact ⟨hu, h.used⟩
  bounded := fun k' hk' => by
    cases k' with
    | zero => exact hb
    | succ k' =>
      rw [recordWalk_succ, List.map_cons, List.sum_cons, ← Nat.add_assoc]
      exact h.bounded k' (Nat.lt_of_succ_lt_succ hk')
  stops := by
    have hstop := h.stops
    have hd := h.le
    rw [addTo_addTo _ _ hcap] at hstop
    omega

/-- Offsets below the capacity reach different indices. -/
theorem addTo_ne {a cap : BitVec 16} {m n : Nat} (hm : m < cap.toNat) (hn : n < cap.toNat) (h : m ≠ n) :
    (addTo a cap m).toNat ≠ (addTo a cap n).toNat := by
  have hcap : 0 < cap.toNat := Nat.lt_of_le_of_lt (Nat.zero_le _) hm
  rw [addTo_toNat m hcap, addTo_toNat n hcap]
  intro heq
  have hmod : m % cap.toNat = n % cap.toNat := Nat.ModEq.add_left_cancel' a.toNat heq
  rw [Nat.mod_eq_of_lt hm, Nat.mod_eq_of_lt hn] at hmod
  exact h hmod

/-- The records of `q` ahead of offset `o` from index `a` are those of `q0`, and the walk stands at that offset. -/
structure Ahead (q0 q : EgressQueue) (a : BitVec 16) (o : Nat) : Prop where
  cap : q.cap = q0.cap
  cidx : q.cidx = addTo a q0.cap o
  records : ∀ x, o ≤ x → x < q0.cap.toNat →
    recordAt q (addTo a q0.cap x).toNat = recordAt q0 (addTo a q0.cap x).toNat

theorem recordAt_setRecord_other {j k : Nat} {r : EgressSlot} (h : j ≠ k) :
    recordAt (setRecord q j r) k = recordAt q k := by
  simp only [recordAt, setRecord, List.getD_eq_getElem?_getD, List.getElem?_set_ne h]

/-- The queue after a walk over the indices `taken`, of `d` descriptors and `c` credits. -/
def walkedOver (q : EgressQueue) (taken : List Nat) (d c : Nat) : EgressQueue :=
  { q with
    cidx := addTo q.cidx q.cap d, maps := q.maps.drop c, mapsFree := q.mapsFree + BitVec.ofNat 16 c
    sdesc := taken.foldl (fun l j => l.set j {}) q.sdesc }

theorem walkedOver_nil (h : q.cidx < q.cap) : walkedOver q [] 0 0 = q := by
  simp [walkedOver, addTo_zero h]

/-- The queue after the record at its cursor was taken back. -/
def tookRecord (q : EgressQueue) : EgressQueue :=
  { q with
    cidx := addTo q.cidx q.cap (recordAt q q.cidx.toNat).descUsed.toNat
    maps := q.maps.drop (recordAt q q.cidx.toNat).credits.toNat
    mapsFree := q.mapsFree + BitVec.ofNat 16 (recordAt q q.cidx.toNat).credits.toNat
    sdesc := q.sdesc.set q.cidx.toNat {} }

/-- The state after the maps of the record at the cursor were released. -/
def releasedRecord (q : EgressQueue) (s : State) : State :=
  { s with out := s.out ++ releaseEvents (q.maps.take (recordAt q q.cidx.toNat).credits.toNat) }

theorem walkedOver_tookRecord {taken : List Nat} {d c : Nat} (hcap : 0 < q.cap.toNat) :
    walkedOver (tookRecord q) taken d c = walkedOver q (q.cidx.toNat :: taken)
      ((recordAt q q.cidx.toNat).descUsed.toNat + d) ((recordAt q q.cidx.toNat).credits.toNat + c) := by
  simp only [walkedOver, tookRecord, List.foldl_cons, addTo_addTo _ _ hcap, List.drop_drop, BitVec.add_assoc,
    ← BitVec.ofNat_add]

section
variable {b fuel left d0 c0 : Nat}

theorem reclaimLoop_stop (h : left = 0 ∨ b ≤ c0 ∨ ((recordAt q q.cidx.toNat).descUsed ≠ 0 ∧
    left < (recordAt q q.cidx.toNat).descUsed.toNat)) : reclaimLoop b fuel left q s d0 c0 = .ok (q, s, d0, c0) := by
  cases fuel with
  | zero => rfl
  | succ fuel =>
    rw [reclaimLoop]
    split
    · rfl
    · rename_i hgo
      obtain ⟨hleft, hb⟩ := not_or.mp hgo
      obtain ⟨hu, hlt⟩ := (h.resolve_left hleft).resolve_left hb
      dsimp only
      rw [if_neg hu, if_pos hlt]

/-- A whole record at the cursor is taken back, or its maps run out. -/
theorem reclaimLoop_step (hleft : left ≠ 0) (hb : ¬ b ≤ c0) (hu : (recordAt q q.cidx.toNat).descUsed ≠ 0)
    (hle : (recordAt q q.cidx.toNat).descUsed.toNat ≤ left) :
    reclaimLoop b (fuel + 1) left q s d0 c0 =
      if (recordAt q q.cidx.toNat).credits.toNat ≤ q.maps.length then
        reclaimLoop b fuel (left - (recordAt q q.cidx.toNat).descUsed.toNat) (tookRecord q) (releasedRecord q s)
          (d0 + (recordAt q q.cidx.toNat).descUsed.toNat) (c0 + (recordAt q q.cidx.toNat).credits.toNat)
      else ringInvariant := by
  rw [reclaimLoop, if_neg (not_or.mpr ⟨hleft, hb⟩)]
  dsimp only
  rw [if_neg hu, if_neg (Nat.not_lt.mpr hle)]
  split
  · rename_i hm
    rw [releaseMaps_eq hm]
    rfl
  · rename_i hm
    rw [releaseMaps_panic (Nat.lt_of_not_le hm)]
    rfl

/-- A record of no descriptor panics. -/
theorem reclaimLoop_empty (hleft : left ≠ 0) (hb : ¬ b ≤ c0) (hu : (recordAt q q.cidx.toNat).descUsed = 0) :
    reclaimLoop b (fuel + 1) left q s d0 c0 = ringInvariant := by
  rw [reclaimLoop, if_neg (not_or.mpr ⟨hleft, hb⟩)]
  dsimp only
  rw [if_pos hu]

end

theorem Ahead.tookRecord {q0 : EgressQueue} {a : BitVec 16} {o : Nat} (ha : Ahead q0 q a o) (ho : o < q0.cap.toNat)
    (hu : (recordAt q q.cidx.toNat).descUsed.toNat ≠ 0) :
    Ahead q0 (tookRecord q) a (o + (recordAt q q.cidx.toNat).descUsed.toNat) where
  cap := ha.cap
  cidx := by
    show addTo q.cidx q.cap _ = _
    rw [ha.cap, ← addTo_addTo _ _ (by omega), ← ha.cidx]
  records := fun x hx hxc => by
    rw [← ha.records x (by omega) hxc]
    refine recordAt_setRecord_other (q := q) ?_
    rw [ha.cidx]
    exact addTo_ne ho hxc (by omega)

/-- What the walk from the queue's cursor has taken when it ends, of the records of `q0`. -/
def WalkEnds (q0 : EgressQueue) (b left : Nat) (q : EgressQueue) (s : State) (d0 c0 : Nat)
    (r : EgressQueue × State × Nat × Nat) : Prop :=
  ∃ k d c, Walk b q0 q.cidx left c0 k d c ∧ c ≤ q.maps.length ∧
    r = (walkedOver q (recordWalk q0 k q.cidx) d c, { s with out := s.out ++ releaseEvents (q.maps.take c) }, d0 + d, c0 + c)

theorem WalkEnds.nil {q0 : EgressQueue} {b left d0 c0 : Nat} (hcap : q.cap = q0.cap) (hci : q.cidx < q0.cap)
    (h : left = 0 ∨ b ≤ c0 ∨ left < (recordAt q0 q.cidx.toNat).descUsed.toNat) :
    WalkEnds q0 b left q s d0 c0 (q, s, d0, c0) := by
  refine ⟨0, 0, 0, .nil hci h, Nat.zero_le _, ?_⟩
  rw [recordWalk, walkedOver_nil (hcap ▸ hci)]
  simp [releaseEvents]

theorem releaseEvents_append (a b : List TxMap) : releaseEvents (a ++ b) = releaseEvents a ++ releaseEvents b :=
  List.flatMap_append

theorem WalkEnds.step {q0 : EgressQueue} {b left d0 c0 : Nat} {r : EgressQueue × State × Nat × Nat}
    (h : WalkEnds q0 b (left - (recordAt q q.cidx.toNat).descUsed.toNat) (tookRecord q) (releasedRecord q s)
      (d0 + (recordAt q q.cidx.toNat).descUsed.toNat) (c0 + (recordAt q q.cidx.toNat).credits.toNat) r)
    (hcap : q.cap = q0.cap) (hpos : 0 < q0.cap.toNat) (hrec : recordAt q q.cidx.toNat = recordAt q0 q.cidx.toNat)
    (hu : (recordAt q q.cidx.toNat).descUsed ≠ 0) (hle : (recordAt q q.cidx.toNat).descUsed.toNat ≤ left) (hb : c0 < b)
    (hm : (recordAt q q.cidx.toNat).credits.toNat ≤ q.maps.length) : WalkEnds q0 b left q s d0 c0 r := by
  obtain ⟨k, d, c, hwalk, hc, rfl⟩ := h
  have hci : (tookRecord q).cidx = addTo q.cidx q0.cap (recordAt q0 q.cidx.toNat).descUsed.toNat := by
    rw [← hcap, ← hrec]
    rfl
  rw [hci, hrec] at hwalk
  have hmaps : (tookRecord q).maps.length = q.maps.length - (recordAt q q.cidx.toNat).credits.toNat := List.length_drop
  refine ⟨k + 1, _, _, .cons hpos (hrec ▸ hu) (hrec ▸ hle) hb hwalk, ?_, ?_⟩
  · rw [← hrec]
    omega
  · rw [recordWalk_succ, ← hci, ← hrec, ← walkedOver_tookRecord (hcap ▸ hpos)]
    simp only [releasedRecord, tookRecord, List.take_add, releaseEvents_append, List.append_assoc, Nat.add_assoc]

/-- The walk of RECLAIM, over a ring that it does not go round. -/
theorem reclaimLoop_walk {b fuel left o d0 c0 : Nat} {q0 : EgressQueue} {a : BitVec 16}
    {r : EgressQueue × State × Nat × Nat} (hfuel : left ≤ fuel) (hlt : o + left < q0.cap.toNat) (ha : Ahead q0 q a o)
    (h : reclaimLoop b fuel left q s d0 c0 = .ok r) : WalkEnds q0 b left q s d0 c0 r := by
  induction fuel generalizing left q s o d0 c0 with
  | zero =>
    cases h
    exact .nil ha.cap (ha.cidx ▸ addTo_lt o (by omega)) (.inl (by omega))
  | succ fuel ih =>
    have hcap : 0 < q0.cap.toNat := by omega
    have hci : q.cidx < q0.cap := ha.cidx ▸ addTo_lt o hcap
    by_cases hgo : left = 0 ∨ b ≤ c0
    · rw [reclaimLoop_stop (hgo.imp_right .inl)] at h
      cases h
      exact .nil ha.cap hci (hgo.imp_right .inl)
    · obtain ⟨hleft, hb⟩ := not_or.mp hgo
      have hrec : recordAt q q.cidx.toNat = recordAt q0 q.cidx.toNat := by
        rw [ha.cidx]
        exact ha.records o le_rfl (by omega)
      by_cases hu : (recordAt q q.cidx.toNat).descUsed = 0
      · rw [reclaimLoop_empty hleft hb hu] at h
        cases h
      have hupos : (recordAt q q.cidx.toNat).descUsed.toNat ≠ 0 := fun h0 => hu (BitVec.eq_of_toNat_eq h0)
      by_cases hle : (recordAt q q.cidx.toNat).descUsed.toNat ≤ left
      · rw [reclaimLoop_step hleft hb hu hle] at h
        split at h
        · rename_i hm
          exact (ih (by omega) (by omega) (ha.tookRecord (by omega) hupos) h).step ha.cap hcap hrec hu hle (by omega) hm
        · cases h
      · rw [reclaimLoop_stop (.inr (.inr ⟨hu, Nat.lt_of_not_le hle⟩))] at h
        cases h
        exact .nil ha.cap hci (.inr (.inr (hrec ▸ Nat.lt_of_not_le hle)))

end Sys2Proof.Machine
end

section
/-! PROOFS. RECLAIM and RESUME_CHECK as commands, and the panics of RECLAIM and CONSUME_FRAME (45_reclaim_doorbell R370 to
R372, R377, 60_exceptions R458). -/

namespace Sys2Proof.Machine

variable {s t : State} {i : Nat} {q q' : EgressQueue}

/-! ## RECLAIM after its tests -/

theorem Ahead.refl (h : q.cidx < q.cap) : Ahead q q q.cidx 0 := ⟨rfl, (addTo_zero h).symm, fun _ _ _ => rfl⟩

/-- The end of RECLAIM: the credits given back, and the resume check. -/
def reclaimEnd (i : Nat) (hw : BitVec 16) (r : EgressQueue × State × Nat × Nat) : EgressQueue × State × Nat × Nat :=
  let e := resumeCheck i hw { r.1 with avail := r.1.avail + BitVec.ofNat 16 r.2.2.1 } r.2.1
  (e.1, e.2, r.2.2)

theorem resumes_eq {hw : BitVec 16} : resumes q hw =
    decide (q.state = .stalled ∧ q.resumeThreshold.toNat ≤ q.avail.toNat + reclaimable q hw) :=
  (Bool.decide_and _ _).symm

/-- The end of RECLAIM, with the queue resumed or not. -/
theorem reclaimEnd_eq {hw : BitVec 16} {d c : Nat} : reclaimEnd i hw (q, s, d, c) =
    let r := decide (q.state = .stalled ∧ q.resumeThreshold.toNat ≤ (q.avail + BitVec.ofNat 16 d).toNat + reclaimable q hw)
    ({ q with avail := q.avail + BitVec.ofNat 16 d, state := if r then .active else q.state },
      { s with
        stalled := if r then s.stalled.erase i else s.stalled, out := s.out ++ if r then [.eqResumed q.qid] else [] },
      d, c) := by
  rw [reclaimEnd, resumeCheck_eq, resumes_eq]
  dsimp only
  by_cases h : q.state = .stalled ∧ q.resumeThreshold.toNat ≤ (q.avail + BitVec.ofNat 16 d).toNat + reclaimable q hw
  · have h' : q.state = .stalled ∧ q.resumeThreshold.toNat ≤ (q.avail + BitVec.ofNat 16 d).toNat +
      reclaimable { q with avail := q.avail + BitVec.ofNat 16 d } hw := h
    simp only [decide_eq_true h, decide_eq_true h', if_true]
  · have h' : ¬ (q.state = .stalled ∧ q.resumeThreshold.toNat ≤ (q.avail + BitVec.ofNat 16 d).toNat +
      reclaimable { q with avail := q.avail + BitVec.ofNat 16 d } hw) := h
    simp only [decide_eq_false h, decide_eq_false h', Bool.false_eq_true, if_false, List.append_nil]

theorem reclaim_eq {b : Nat} (hl : q.state ≠ .dead) (hs : inSpace (eqStatusAddr q) 8 = true)
    (hc : statusCidx s q < q.cap) (ho : reclaimable q (statusCidx s q) ≤ occEq q) :
    reclaim i b q s = (do
      let r ← reclaimLoop b (reclaimable q (statusCidx s q)) (reclaimable q (statusCidx s q)) q s 0 0
      return reclaimEnd i (statusCidx s q) r) := by
  rw [reclaim, if_neg hl, ringRead_eq hs, Res.bind_ok]
  have hcap : ¬ q.cap ≤ (decodeSp (s.ring.flit (eqStatusAddr q))).cidx := BitVec.not_le.mpr hc
  have hocc : ¬ occEq q < reclaimable q (decodeSp (s.ring.flit (eqStatusAddr q))).cidx := Nat.not_lt.mpr ho
  dsimp only
  rw [if_neg hcap, if_neg hocc]
  rfl

/-- A status page outside the ring, or ahead of the producer index, panics. -/
theorem reclaim_unsound {b : Nat} (hl : q.state ≠ .dead) (hs : inSpace (eqStatusAddr q) 8 = true)
    (h : q.cap ≤ statusCidx s q ∨ occEq q < reclaimable q (statusCidx s q)) : reclaim i b q s = ringInvariant := by
  rw [reclaim, if_neg hl, ringRead_eq hs, Res.bind_ok]
  dsimp only
  split
  · rfl
  · rename_i hc
    exact if_pos (h.resolve_left hc)

/-- What a RECLAIM that completes has walked over. -/
theorem reclaim_walk {b d c : Nat} (hr : q.inRange = true) (h : reclaim i b q s = .ok (q', t, d, c)) :
    ∃ k, Walk b q q.cidx (reclaimable q (statusCidx s q)) 0 k d c ∧ c ≤ q.maps.length ∧
      (q', t, d, c) = reclaimEnd i (statusCidx s q)
        (walkedOver q (recordWalk q k q.cidx) d c, { s with out := s.out ++ releaseEvents (q.maps.take c) }, d, c) := by
  obtain ⟨hl, hw, _, _, hcap, rfl, ho, _⟩ := reclaim_ok h
  have hs : inSpace (eqStatusAddr q) 8 = true := by
    rw [reclaim, if_neg hl] at h
    obtain ⟨sp, hsp, _⟩ := Res.bind_eq_ok.mp h
    exact (ringRead_ok hsp).1
  rw [reclaim_eq hl hs hcap ho] at h
  obtain ⟨r, hloop, hend⟩ := Res.bind_eq_ok.mp h
  have hci : q.cidx < q.cap := (EgressQueue.inRange_iff.mp hr).2.1
  have hlt : 0 + reclaimable q (statusCidx s q) < q.cap.toNat := by
    rw [Nat.zero_add]
    exact distOf_lt (EgressQueue.cap_pos hr)
  obtain ⟨k, d', c', hwalk, hc, rfl⟩ := reclaimLoop_walk le_rfl hlt (.refl hci) hloop
  simp only [Nat.zero_add] at hend
  have hret : reclaimEnd i (statusCidx s q) (walkedOver q (recordWalk q k q.cidx) d' c',
      { s with out := s.out ++ releaseEvents (q.maps.take c') }, d', c') = (q', t, d, c) := Except.ok.inj hend
  obtain ⟨rfl, rfl⟩ : d' = d ∧ c' = c := Prod.mk.inj (congrArg (·.2.2) hret)
  exact ⟨k, hwalk, hc, hret.symm⟩

theorem statusSound_iff : statusSound s q = true ↔ statusCidx s q < q.cap ∧ reclaimable q (statusCidx s q) ≤ occEq q := by
  rw [statusSound, Bool.and_eq_true, decide_eq_true_eq, decide_eq_true_eq]

/-- The first record of the walk is all there is: it is taken back whole. -/
theorem reclaim_one {b : Nat} (hl : q.state ≠ .dead) (hst : q.state ≠ .stalled) (hm : q.mapped = true)
    (hs : statusSound s q = true) (hu : (recordAt q q.cidx.toNat).descUsed ≠ 0)
    (hd : (recordAt q q.cidx.toNat).descUsed.toNat = reclaimable q (statusCidx s q)) (hb : 0 < b)
    (hc : (recordAt q q.cidx.toNat).credits.toNat ≤ q.maps.length) :
    reclaim i b q s = .ok ({ tookRecord q with avail := q.avail + (recordAt q q.cidx.toNat).descUsed },
      releasedRecord q s, (recordAt q q.cidx.toNat).descUsed.toNat, (recordAt q q.cidx.toNat).credits.toNat) := by
  obtain ⟨hcap, ho⟩ := statusSound_iff.mp hs
  have hupos : (recordAt q q.cidx.toNat).descUsed.toNat ≠ 0 := fun h0 => hu (BitVec.eq_of_toNat_eq h0)
  obtain ⟨fuel, hfuel⟩ := Nat.exists_eq_succ_of_ne_zero (hd ▸ hupos)
  have hloop : reclaimLoop b (reclaimable q (statusCidx s q)) (reclaimable q (statusCidx s q)) q s 0 0 =
      .ok (tookRecord q, releasedRecord q s, (recordAt q q.cidx.toNat).descUsed.toNat,
        (recordAt q q.cidx.toNat).credits.toNat) := by
    rw [hfuel, reclaimLoop_step (Nat.succ_ne_zero _) (by omega) hu (by omega), if_pos hc,
      reclaimLoop_stop (.inl (by omega)), Nat.zero_add, Nat.zero_add]
  have hresume : ∀ x, resumes { tookRecord q with avail := x } (statusCidx s q) = false := fun x => by
    simp [resumes, tookRecord, hst]
  rw [reclaim_eq hl (statusPage_inSpace hm) hcap ho, hloop]
  simp only [Res.bind_ok, Res.pure_eq, reclaimEnd, resumeCheck, hresume, BitVec.ofNat_toNat, BitVec.setWidth_eq,
    Bool.false_eq_true, if_false]
  rfl

/-- A record that the device has not finished is left whole. -/
theorem reclaim_unfinished {b : Nat} (hl : q.state ≠ .dead) (hst : q.state ≠ .stalled) (hm : q.mapped = true)
    (hs : statusSound s q = true) (hu : (recordAt q q.cidx.toNat).descUsed ≠ 0)
    (hd : reclaimable q (statusCidx s q) < (recordAt q q.cidx.toNat).descUsed.toNat) :
    reclaim i b q s = .ok (q, s, 0, 0) := by
  obtain ⟨hcap, ho⟩ := statusSound_iff.mp hs
  have hresume : resumes q (statusCidx s q) = false := by simp [resumes, hst]
  have havail : q.avail + BitVec.ofNat 16 0 = q.avail := BitVec.add_zero _
  rw [reclaim_eq hl (statusPage_inSpace hm) hcap ho, reclaimLoop_stop (.inr (.inr ⟨hu, hd⟩))]
  simp only [Res.bind_ok, Res.pure_eq, reclaimEnd, havail, resumeCheck, hresume, Bool.false_eq_true, if_false]

/-- A record of no descriptor, and maps that run out, panic. -/
theorem reclaim_badRecord {b : Nat} (hl : q.state ≠ .dead) (hm : q.mapped = true) (hs : statusSound s q = true)
    (hleft : reclaimable q (statusCidx s q) ≠ 0) (hb : 0 < b)
    (h : (recordAt q q.cidx.toNat).descUsed = 0 ∨
      ((recordAt q q.cidx.toNat).descUsed.toNat ≤ reclaimable q (statusCidx s q) ∧
        q.maps.length < (recordAt q q.cidx.toNat).credits.toNat)) :
    reclaim i b q s = ringInvariant := by
  obtain ⟨hcap, ho⟩ := statusSound_iff.mp hs
  obtain ⟨fuel, hfuel⟩ := Nat.exists_eq_succ_of_ne_zero hleft
  have hloop : reclaimLoop b (reclaimable q (statusCidx s q)) (reclaimable q (statusCidx s q)) q s 0 0 =
      ringInvariant := by
    by_cases hu : (recordAt q q.cidx.toNat).descUsed = 0
    · rw [hfuel, reclaimLoop_empty (Nat.succ_ne_zero _) (by omega) hu]
    · obtain ⟨hle, hmaps⟩ := h.resolve_left hu
      rw [hfuel] at hle ⊢
      rw [reclaimLoop_step (Nat.succ_ne_zero _) (by omega) hu hle, if_neg (Nat.not_le.mpr hmaps)]
  rw [reclaim_eq hl (statusPage_inSpace hm) hcap ho, hloop]
  rfl

/-! ## The commands -/

theorem execReclaim_ok {n : BitVec 16} {d c : Nat} (hp : s.panic = false) (hq : s.eqAt i = some q)
    (h : reclaim i n.toNat q s.begin = .ok (q', t, d, c)) :
    execReclaim i n s = .next ((t.setEq i q').answer (.reclaimed d c)) := by
  refine runQe_ok hp ((onEq_eq (s := s.begin) hq).trans ?_)
  rw [h]
  rfl

theorem execReclaim_panic {n : BitVec 16} (hp : s.panic = false) (hq : s.eqAt i = some q)
    (h : reclaim i n.toNat q s.begin = ringInvariant) : execReclaim i n s = .next (takePanic s) := by
  refine runQe_panic hp ((onEq_eq (s := s.begin) hq).trans ?_)
  rw [h]
  rfl

/-- A RECLAIM that returned its counts completed. -/
theorem reclaim_of_execReclaim {n : BitVec 16} {d c : Nat} (hq : s.eqAt i = some q) (h : execReclaim i n s = .next t)
    (hr : t.ret = .reclaimed d c) : ∃ q' u, reclaim i n.toNat q s.begin = .ok (q', u, d, c) ∧
      t = (u.setEq i q').answer (.reclaimed d c) := by
  obtain ⟨_, ⟨u, r, hok, rfl⟩ | ⟨e, _, rfl⟩ | ⟨_, rfl⟩⟩ := runQe_next h
  · obtain ⟨q₀, q', u', hq₀, hrun, rfl⟩ := onEq_ok hok
    obtain rfl : q = q₀ := Option.some.inj (hq.symm.trans hq₀)
    obtain ⟨⟨q₁, u₁, d₁, c₁⟩, hreclaim, hret⟩ := Res.bind_eq_ok.mp hrun
    cases hret
    cases hr
    exact ⟨_, _, hreclaim, rfl⟩
  · cases hr
  · cases hr

theorem execResumeCheck_eq {hw : BitVec 16} (hp : s.panic = false) (hq : s.eqAt i = some q) (hl : q.state ≠ .dead)
    (hc : hw < q.cap) : execResumeCheck i hw s =
      .next (((resumeCheck i hw q s.begin).2.setEq i (resumeCheck i hw q s.begin).1).answer .ok) := by
  refine runQe_ok hp ((onEq_eq (s := s.begin) hq).trans ?_)
  rw [if_neg hl, if_neg (BitVec.not_le.mpr hc)]
  rfl

/-- A context written back as it was. -/
theorem answer_setEq_self {r : Ret} (hq : s.eqAt i = some q) :
    (s.begin.setEq i q).answer r = { s with ret := r, raised := [] } := by
  have hset : s.eq.set i (some q) = s.eq := set_self hq
  simp only [State.setEq, State.answer, State.begin, hset]

theorem consumeFrame_noBuffer {fl : FreeList} {total : Nat} (hr : fl.bufResume = false) (ht : total ≠ 0)
    (hne : fl.cidx ≠ fl.pidx) (hbuf : (slotAt fl fl.cidx.toNat).buf = none) :
    consumeFrame fl total false s = ringInvariant := by
  obtain ⟨n, rfl⟩ := Nat.exists_eq_succ_of_ne_zero ht
  have hseg : ∀ len, consumeSegment (slotAt fl fl.cidx.toNat) fl.rxOffset.toNat len s = ringInvariant := fun len => by
    rw [consumeSegment, hbuf]
    rfl
  have hloop : consumeLoop (n + 1) (n + 1) fl s {} = ringInvariant := by
    rw [consumeLoop, if_neg ht, if_neg hne]
    dsimp only
    split
    · rfl
    · rw [hseg]
      rfl
  rw [consumeFrame, hr]
  exact hloop

theorem execConsumeFrame_noBuffer {q : IngressQueue} {fl : FreeList} {total : BitVec 31} (hp : s.panic = false)
    (hq : s.iqAt i = some q) (hfl : q.fl = some fl) (hd : fl.doomed = false) (hr : fl.bufResume = false) (ht : total ≠ 0)
    (hne : fl.cidx ≠ fl.pidx) (hbuf : (slotAt fl fl.cidx.toNat).buf = none) :
    execConsumeFrame i total false s = .next (takePanic s) := by
  refine runQe_panic hp ((onFl_eq (s := s.begin) hq hfl).trans ?_)
  rw [hd, if_neg Bool.false_ne_true, if_neg ht,
    consumeFrame_noBuffer hr (fun h0 => ht (BitVec.eq_of_toNat_eq h0)) hne hbuf]
  rfl

end Sys2Proof.Machine

namespace Sys2Proof
open Machine

/-- Settles O55: RECLAIM's two tests of the status page, and the first record of its walk; CONSUME_FRAME's slot. -/
theorem panicSites : Obligations.PanicSites := by
  refine ⟨fun s i q n hp hq hl hm => ⟨fun h => ?_, fun hs hne hr hn h => ?_⟩,
    fun s i q fl total hp hq hfl hd hres ht hne hbuf => execConsumeFrame_noBuffer hp hq hfl hd hres ht hne hbuf⟩
  · exact execReclaim_panic hp hq (reclaim_unsound hl (statusPage_inSpace hm) h)
  · have hci : q.cidx < q.cap := (EgressQueue.inRange_iff.mp hr).2.1
    have hleft : reclaimable q (statusCidx s q) ≠ 0 := fun h0 =>
      hne ((distOf_eq_zero hci (statusSound_iff.mp hs).1).mp h0).symm
    have hb : 0 < n.toNat := Nat.pos_of_ne_zero fun h0 => hn (BitVec.eq_of_toNat_eq h0)
    exact execReclaim_panic hp hq (reclaim_badRecord hl hm (s := s.begin) hs hleft hb h)

/-- Settles O54: the walk over the slot records, taken apart by `Walk`; its end is the resume check. -/
theorem reclaimWholeSlots : Obligations.ReclaimWholeSlots := by
  refine ⟨fun s t i q n d c hq hr h hret => ?_, fun s i q n hp hq hl hr => ⟨fun hst hm hs => ⟨fun hu hd hn hc => ?_,
    fun hu hd => ?_⟩, fun hw hlt => ⟨fun hst hth => ?_, fun hno => ?_⟩⟩⟩
  · obtain ⟨q', u, hrun, rfl⟩ := reclaim_of_execReclaim hq h hret
    obtain ⟨k, hwalk, hc, hend⟩ := reclaim_walk hr hrun
    refine ⟨k, hwalk.descs, hwalk.credits, hwalk.le, hc, hwalk.used, ?_, ?_, ?_⟩
    · intro k' hk'
      have hlt := hwalk.bounded k' hk'
      rw [Nat.zero_add] at hlt
      exact hlt
    · have hstop := hwalk.stops
      rw [Nat.zero_add] at hstop
      exact hstop
    · rw [reclaimEnd_eq] at hend
      obtain ⟨rfl, hu⟩ := Prod.mk.inj hend
      obtain ⟨rfl, -⟩ := Prod.mk.inj hu
      rfl
  · have hb : 0 < n.toNat := Nat.pos_of_ne_zero fun h0 => hn (BitVec.eq_of_toNat_eq h0)
    have hrun := execReclaim_ok hp hq (reclaim_one (s := s.begin) hl hst hm hs hu hd hb hc)
    refine hrun.trans ?_
    rw [tookRecord, BitVec.ofNat_toNat, BitVec.setWidth_eq]
    rfl
  · exact (execReclaim_ok hp hq (reclaim_unfinished (s := s.begin) hl hst hm hs hu hd)).trans
      (congrArg _ (answer_setEq_self hq))
  · have hresume : resumes q hw = true := by
      rw [resumes_eq]
      exact decide_eq_true ⟨hst, hth⟩
    have hrun := execResumeCheck_eq hp hq hl hlt
    rw [resumeCheck_eq, if_pos hresume] at hrun
    exact hrun
  · have hresume : resumes q hw = false := by
      rw [resumes_eq]
      exact decide_eq_false hno
    have hrun := execResumeCheck_eq hp hq hl hlt
    rw [resumeCheck_eq, hresume] at hrun
    exact hrun.trans (congrArg _ (answer_setEq_self hq))

end Sys2Proof
end

section
/-! PROOFS. Teardown of an ingress queue (47_system R433). -/

namespace Sys2Proof.Machine

variable {s t : State} {i : Nat} {q : IngressQueue}

/-! ## The arena after references are given back -/

/-- What is left of a buffer after its slot gave it up. -/
def dropped (b : Buffer) : Option Buffer :=
  if b.hasMeta ∧ b.refcount ≠ 1 then some { b with refcount := b.refcount - 1 } else none

theorem dropped_none {b : Buffer} (h : ¬ (b.hasMeta = true ∧ b.refcount ≠ 1)) : dropped b = none := if_neg h

theorem dropped_some {b : Buffer} (h : b.hasMeta = true ∧ b.refcount ≠ 1) :
    dropped b = some { b with refcount := b.refcount - 1 } := if_pos h

theorem find?_removed (a : List Buffer) (h k : Nat) :
    (a.filter (·.handle ≠ h)).find? (·.handle = k) = if k = h then none else a.find? (·.handle = k) := by
  rw [List.find?_filter]
  split
  · rename_i hk
    refine List.find?_eq_none.mpr fun x _ => ?_
    simp [hk]
  · rename_i hk
    refine congrArg (fun p => a.find? p) (funext fun x => ?_)
    by_cases hx : x.handle = k
    · simp [hx, hk]
    · simp [hx]

theorem find?_recounted (a : List Buffer) (h k : Nat) (n : BitVec 32) :
    (a.map fun x => if x.handle = h then { x with refcount := n } else x).find? (·.handle = k) =
      (a.find? (·.handle = k)).map fun x => if k = h then { x with refcount := n } else x := by
  have hhandle : ((fun x : Buffer => decide (x.handle = k)) ∘ fun x => if x.handle = h then { x with refcount := n } else x) =
      fun x => decide (x.handle = k) := funext fun x => by
    simp only [Function.comp]
    split <;> rfl
  rw [List.find?_map, hhandle]
  cases hf : a.find? (·.handle = k) with
  | none => rfl
  | some x =>
    have hx : x.handle = k := by simpa using List.find?_some hf
    rw [Option.map_some, Option.map_some, hx]

theorem arenaDropped_find? {b : Buffer} {h : Nat} (hb : s.bufferOf h = some b) (hm : b.hasMeta = true) (k : Nat) :
    (arenaDropped s b).find? (·.handle = k) = if k = h then dropped b else s.bufferOf k := by
  rw [arenaDropped, (bufferOf_some hb).2]
  by_cases h1 : b.refcount = 1
  · rw [if_pos h1, dropped_none fun hd => hd.2 h1]
    exact find?_removed s.arena h k
  · rw [if_neg h1, dropped_some ⟨hm, h1⟩, find?_recounted]
    split
    · rename_i hk
      subst hk
      rw [show s.arena.find? (·.handle = k) = some b from hb]
      rfl
    · exact Option.map_id'

/-- A slot without its buffer. -/
def emptied (sd : FreeListSlot) : FreeListSlot := if sd.buf.isSome then { sd with buf := none, nmbuf := 0 } else sd

/-- One slot gives up its buffer. -/
theorem dropSlots_cons {sd : FreeListSlot} {rest : List FreeListSlot} {h : Nat} {b : Buffer} (hsd : sd.buf = some h)
    (hb : s.bufferOf h = some b) (hr : b.hasMeta = true → b.refcount ≠ 0) :
    ∃ a, (∀ k, a.find? (·.handle = k) = if k = h then dropped b else s.bufferOf k) ∧
      dropSlots (sd :: rest) s = (do
        let (rest, s) ← dropSlots rest (s.setArena a)
        return (emptied sd :: rest, s)) := by
  have hem : emptied sd = { sd with buf := none, nmbuf := 0 } := if_pos (by rw [hsd]; rfl)
  rw [dropSlots, hsd]
  dsimp only
  rw [hb, hem]
  dsimp only
  by_cases hm : b.hasMeta = true
  · refine ⟨arenaDropped s b, arenaDropped_find? hb hm, ?_⟩
    rw [if_pos hm, dropRef_eq (hr hm)]
    rfl
  · refine ⟨s.arena.filter (·.handle ≠ h), fun k => ?_, ?_⟩
    · rw [find?_removed, dropped_none fun hd => hm hd.1]
      rfl
    · rw [if_neg hm]
      rfl

theorem dropSlots_eq {sds : List FreeListSlot} (hn : (sds.filterMap (·.buf)).Nodup)
    (hb : ∀ h ∈ sds.filterMap (·.buf), ∃ b, s.bufferOf h = some b ∧ (b.hasMeta = true → b.refcount ≠ 0)) :
    ∃ a, dropSlots sds s = .ok (sds.map emptied, s.setArena a) ∧
      ∀ h, a.find? (·.handle = h) =
        if h ∈ sds.filterMap (·.buf) then (s.bufferOf h).bind dropped else s.bufferOf h := by
  induction sds generalizing s with
  | nil => exact ⟨s.arena, rfl, fun h => rfl⟩
  | cons sd rest ih =>
    cases hsd : sd.buf with
    | none =>
      have hf : (sd :: rest).filterMap (·.buf) = rest.filterMap (·.buf) := by rw [List.filterMap_cons, hsd]
      rw [hf] at hn hb ⊢
      obtain ⟨a, hrun, ha⟩ := ih hn hb
      have hem : emptied sd = sd := if_neg (by rw [hsd]; exact Bool.false_ne_true)
      refine ⟨a, ?_, ha⟩
      rw [dropSlots, hsd]
      dsimp only
      rw [Res.bind_ok, hrun, List.map_cons, hem]
      rfl
    | some h =>
      have hf : (sd :: rest).filterMap (·.buf) = h :: rest.filterMap (·.buf) := by rw [List.filterMap_cons, hsd]
      rw [hf] at hn hb ⊢
      obtain ⟨hnot, hn'⟩ := List.nodup_cons.mp hn
      obtain ⟨⟨b, hbuf, hr⟩, hb'⟩ := List.forall_mem_cons.mp hb
      obtain ⟨a, ha, hrun⟩ := dropSlots_cons (rest := rest) hsd hbuf hr
      have hother : ∀ k ∈ rest.filterMap (·.buf), (s.setArena a).bufferOf k = s.bufferOf k := fun k hk => by
        rw [show (s.setArena a).bufferOf k = _ from ha k, if_neg fun hkh : k = h => hnot (hkh ▸ hk)]
      obtain ⟨a', hrest, ha'⟩ := ih (s := s.setArena a) hn' fun k hk => by rw [hother k hk]; exact hb' k hk
      refine ⟨a', ?_, fun k => ?_⟩
      · rw [hrun, hrest]
        rfl
      · rw [ha' k]
        by_cases hk : k ∈ rest.filterMap (·.buf)
        · rw [if_pos hk, if_pos (List.mem_cons_of_mem _ hk), hother k hk]
        · rw [if_neg hk]
          refine (ha k).trans ?_
          by_cases hkh : k = h
          · subst hkh
            rw [if_pos rfl, if_pos List.mem_cons_self, hbuf]
            rfl
          · rw [if_neg hkh, if_neg (List.not_mem_cons_of_ne_of_not_mem hkh hk)]

/-! ## The free list torn down -/

theorem dropResume_eq {fl : FreeList} (h : releaseAll s fl.saved = .ok t) :
    dropResume fl s = .ok ({ fl with bufResume := false, resume := none }, t) := by
  rw [FreeList.saved] at h
  rw [dropResume]
  cases hflag : fl.bufResume with
  | false =>
    rw [hflag] at h
    cases h
    rfl
  | true =>
    rw [hflag] at h
    cases hsaved : fl.resume with
    | none =>
      rw [hsaved] at h
      cases h
      rfl
    | some r =>
      rw [hsaved] at h
      refine (congrArg (· >>= fun s => Except.ok ({ fl with bufResume := false, resume := none }, s))
        (show releaseAll s r.frame.segs = .ok t from h)).trans ?_
      rfl

/-- The state of a list torn down. -/
def tornDown (fl : FreeList) : FreeList :=
  { fl with
    doomed := true, starving := false, bufResume := false, resume := none, sdesc := fl.sdesc.map emptied }

theorem doomFl_eq {fl : FreeList} {a : List Buffer}
    (h : releaseAll { s with starving := if fl.starving then s.starving.erase i else s.starving } fl.saved = .ok t)
    (hd : dropSlots fl.sdesc t = .ok (fl.sdesc.map emptied, t.setArena a)) :
    doomFl i fl s = .ok (tornDown fl, t.setArena a) := by
  have hstart : (if fl.starving then s.setStarving (s.starving.erase i) else s) =
      { s with starving := if fl.starving then s.starving.erase i else s.starving } := by
    split <;> rfl
  have hres := dropResume_eq (fl := { fl with doomed := true, starving := false }) h
  rw [doomFl, hstart, hres, Res.bind_ok]
  dsimp only
  rw [hd]
  rfl

/-! ## The command -/

section
variable (hp : s.panic = false) (hq : s.iqAt i = some q)
  (hc : ¬ (q.role = .forwarder ∧ ∃ j t, s.iqAt j = some t ∧ t.state ≠ .dead ∧ t.parent = q.qid))
include hp hq

theorem execTeardownIq_child (hl : q.state ≠ .dead) (hr : q.role = .forwarder)
    (hc : ∃ j t, s.iqAt j = some t ∧ t.state ≠ .dead ∧ t.parent = q.qid) :
    execTeardownIq i s = .next (takeRefusal s .badarg) := by
  refine runQe_onIq_refuse (f := fun u q => teardownIq i q u) hp hq ?_
  have hchild : hasChild s.begin q = true := hasChild_iff.mpr hc
  rw [teardownIq, if_neg hl, if_pos (by rw [hchild, hr]; rfl)]
  rfl

include hc

theorem execTeardownIq_noList (hidle : q.state = .idle) (hfl : q.fl = none) :
    execTeardownIq i s = .next { s with iq := s.iq.set i (some { q with state := .dead }), ret := .ok, raised := [] } := by
  have hlive : q.state ≠ .dead := by rw [hidle]; decide
  have hcas : casIdle q .dead = some { q with state := .dead } := if_pos hidle
  have hrun : teardownIq i q s.begin = .ok ({ q with state := .dead }, s.begin, .ok) := by
    rw [teardownIq, if_neg hlive, not_forwarderWithChild hc, if_neg Bool.false_ne_true, hcas]
    dsimp only
    rw [hfl]
  exact runQe_onIq (f := fun u q => teardownIq i q u) hp hq hrun

theorem execTeardownIq_list {fl : FreeList} {s1 : State} {a : List Buffer} (hidle : q.state = .idle) (hfl : q.fl = some fl)
    (hd : doomFl i fl s.begin = .ok (tornDown fl, s1.setArena a)) (hiq : s1.iq = s.iq) :
    execTeardownIq i s = .next { s1 with
      iq := s.iq.set i (some { q with state := .dead, fl := some (tornDown fl) }), arena := a, ret := .ok } := by
  have hlive : q.state ≠ .dead := by rw [hidle]; decide
  have hcas : casIdle q .dead = some { q with state := .dead } := if_pos hidle
  have hrun : teardownIq i q s.begin =
      .ok ({ q with state := .dead, fl := some (tornDown fl) }, s1.setArena a, .ok) := by
    rw [teardownIq, if_neg hlive, not_forwarderWithChild hc, if_neg Bool.false_ne_true, hcas]
    dsimp only
    rw [hfl]
    dsimp only
    rw [hd]
    rfl
  refine (runQe_onIq (f := fun u q => teardownIq i q u) hp hq hrun).trans ?_
  simp only [State.setIq, State.answer, State.setArena, hiq]

end

end Sys2Proof.Machine

namespace Sys2Proof
open Machine

/-- Settles O25: the tests in their order; then the half-built frame is released and each slot gives up its buffer. -/
theorem teardownIq : Obligations.TeardownIq := by
  intro s i q hp hq child
  refine ⟨fun hd => (dead_refused (b := 0) hp hq hd).2.2, execTeardownIq_child hp hq, fun hb hc =>
    execTeardownIq_busy hp hq hb hc, fun hidle hc hfl => execTeardownIq_noList hp hq hc hidle hfl,
    fun fl s1 hidle hc hfl hrel hn hb => ?_⟩
  obtain ⟨a, hdrop, ha⟩ := dropSlots_eq hn hb
  have hdoom : doomFl i fl s.begin = .ok (tornDown fl, s1.setArena a) := doomFl_eq hrel hdrop
  have hiq : s1.iq = s.iq := by
    obtain ⟨_, _, rfl⟩ := releaseAll_ok hrel
    rfl
  exact ⟨a, execTeardownIq_list hp hq hc hidle hfl hdoom hiq, ha⟩

end Sys2Proof
end

section
/-! PROOFS. Teardown of an egress queue (47_system R434). -/

namespace Sys2Proof.Machine

variable {s t : State} {i : Nat} {q q1 q2 q3 : EgressQueue}

/-- The queue when the teardown ends: Dead when nothing is left in the ring. -/
def tornDownEq (q : EgressQueue) : EgressQueue := if q.cidx = q.pidx then { q with state := .dead } else q

/-- What TEARDOWN_EQ returns. -/
def teardownRet (q : EgressQueue) : Ret := if q.cidx = q.pidx then .done else .pending

/-- TEARDOWN_EQ from what its beginning and its RECLAIM leave. -/
theorem execTeardownEq_ok {s1 s2 : State} {d c : Nat} (hp : s.panic = false) (hq : s.eqAt i = some q) (hl : q.state ≠ .dead)
    (hb : beginTeardownEq i q s.begin = .ok (q1, s1)) (hr : reclaim i 65535 q1 s1 = .ok (q2, s2, d, c)) :
    execTeardownEq i s = .next { s2 with eq := s2.eq.set i (some (tornDownEq q2)), ret := teardownRet q2 } := by
  have hrun : teardownEq i q s.begin = .ok (tornDownEq q2, s2, teardownRet q2) := by
    rw [teardownEq, if_neg hl, hb, Res.bind_ok]
    dsimp only
    rw [teardownBound, hr, Res.bind_ok, tornDownEq, teardownRet]
    dsimp only
    split <;> rfl
  exact runQe_onEq (f := fun u q => teardownEq i q u) hp hq hrun

theorem beginTeardownEq_doomed (h : q.state = .doomed) : beginTeardownEq i q s = .ok (q, s) :=
  if_neg (by rw [h]; decide)

theorem beginTeardownEq_live {s1 s2 : State} (h : q.state = .active ∨ q.state = .stalled)
    (hf : flushIfOpen q s = .ok (q1, s1)) (hn : notifyEq q1 s1 = .ok (q2, s2)) :
    beginTeardownEq i q s = .ok ({ q2 with state := .doomed },
      { s2 with stalled := if q.state = .stalled then s2.stalled.erase i else s2.stalled }) := by
  obtain ⟨_, _, _, hs1, _⟩ := flushIfOpen_ok hf
  obtain ⟨_, rfl, _⟩ := notifyEq_ok hn
  rw [beginTeardownEq, if_pos h, hf, Res.bind_ok]
  dsimp only
  rw [hn, Res.bind_ok, ← hs1]
  dsimp only
  split <;> rfl

/-- What was accepted is with the device already: nothing is flushed and no doorbell is rung. -/
theorem beginTeardownEq_quiet (hl : q.state ≠ .dead) (h : q.state = .doomed ∨ (q.txpkts.isOpen = false ∧ q.pending = 0)) :
    beginTeardownEq i q s = .ok ({ q with state := .doomed },
      { s with stalled := if q.state = .stalled then s.stalled.erase i else s.stalled }) := by
  obtain hd | ⟨ho, hpend⟩ := h
  · have hns : q.state ≠ .stalled := by rw [hd]; decide
    rw [beginTeardownEq_doomed hd, if_neg hns, ← hd]
  · by_cases hd : q.state = .doomed
    · have hns : q.state ≠ .stalled := by rw [hd]; decide
      rw [beginTeardownEq_doomed hd, if_neg hns, ← hd]
    · have hlive : q.state = .active ∨ q.state = .stalled := by
        cases hs : q.state <;> simp [hs] at hd hl ⊢
      have hflush : flushIfOpen q s = .ok (q, s) := by rw [flushIfOpen, ho]; rfl
      exact beginTeardownEq_live hlive hflush (notifyEq_nothing hl hpend)

end Sys2Proof.Machine

namespace Sys2Proof
open Machine

/-- Settles O26: the beginning, the RECLAIM, and Dead or Doomed by what is left in the ring. -/
theorem teardownEq : Obligations.TeardownEq := by
  intro s i q hp hq hl
  refine ⟨fun h hm hr hw => ?_, fun q1 s1 d c hd hrun => ?_, fun q1 s1 q2 s2 q3 s3 d c hs hf hn hrun => ?_⟩
  · have hnothing := reclaim_nothing (i := i) (n := 65535) (e := { q with state := .doomed })
      (s := { s.begin with stalled := if q.state = .stalled then s.stalled.erase i else s.stalled })
      (by simp) (by simp) hm hr hw
    refine (execTeardownEq_ok hp hq hl (beginTeardownEq_quiet hl h) hnothing).trans ?_
    rw [tornDownEq, teardownRet]
    by_cases hc : q.cidx = q.pidx
    · simp only [hc, if_true]
      rfl
    · simp only [hc, if_false]
      rfl
  · exact execTeardownEq_ok hp hq hl (beginTeardownEq_doomed hd) hrun
  · exact execTeardownEq_ok hp hq hl (beginTeardownEq_live hs hf hn) hrun

end Sys2Proof
end

section
/-! PROOFS. The device's reaction to doorbell words, bursts and credit words, and DEV_DB (46_device_agent R401). -/

namespace Sys2Proof.Machine

variable {s : State} {i : Nat} {fl : FreeList} {q : EgressQueue} {reg : MmioReg} {v : BitVec 32}

/-! ## The one target of a write -/

theorem doorbellTargets_fl {qid : BitVec 16} (h : OnlyFl s qid i fl) : doorbellTargets s qid = [.fl i] := by
  obtain ⟨hfl, hlive, hid, hone, hnone⟩ := h
  obtain ⟨p, hp, hpfl⟩ := Option.bind_eq_some_iff.mp hfl
  have hlists : indicesOf (fun q : IngressQueue =>
      match q.fl with | some fl => fl.live && fl.qid = qid | none => false) s.iq = [i] := by
    refine indicesOf_eq_singleton hp (by simp [hpfl, FreeList.live, hlive, hid]) fun j x hx hm => ?_
    cases hg : x.fl with
    | none => simp [hg] at hm
    | some g =>
      simp only [hg, FreeList.live, Bool.and_eq_true, Bool.not_eq_true', decide_eq_true_eq] at hm
      exact hone j g (Option.bind_eq_some_iff.mpr ⟨x, hx, hg⟩) hm.1 hm.2
  have hqueues : indicesOf (fun q : EgressQueue => q.live && q.qid = qid) s.eq = [] :=
    indicesOf_eq_nil fun j x hx => by
      by_contra hm
      simp only [EgressQueue.live, Bool.not_eq_false, Bool.and_eq_true, decide_eq_true_eq] at hm
      exact hnone j x hx hm.1 hm.2
  rw [doorbellTargets, hqueues]
  exact congrArg (fun l => List.map QRef.fl l ++ []) hlists

theorem doorbellTargets_eq {qid : BitVec 16} (h : OnlyEq s qid i q) : doorbellTargets s qid = [.eq i] := by
  obtain ⟨hq, hlive, hid, hone, hnone⟩ := h
  have hlists : indicesOf (fun q : IngressQueue =>
      match q.fl with | some fl => fl.live && fl.qid = qid | none => false) s.iq = [] := by
    refine indicesOf_eq_nil fun j x hx => ?_
    by_contra hm
    cases hg : x.fl with
    | none => simp [hg] at hm
    | some g =>
      simp only [hg, FreeList.live, Bool.not_eq_false, Bool.and_eq_true, Bool.not_eq_true', decide_eq_true_eq] at hm
      exact hnone j g (Option.bind_eq_some_iff.mpr ⟨x, hx, hg⟩) hm.1 hm.2
  have hqueues : indicesOf (fun q : EgressQueue => q.live && q.qid = qid) s.eq = [i] :=
    indicesOf_eq_singleton hq (by simp [EgressQueue.live, hlive, hid]) fun j x hx hm => by
      simp only [EgressQueue.live, Bool.and_eq_true, decide_eq_true_eq] at hm
      exact hone j x hx hm.1 hm.2
  rw [doorbellTargets, hqueues]
  exact congrArg (fun l => List.map QRef.fl l ++ [QRef.eq i]) hlists

theorem doorbellTarget_fl (h : OnlyFl s (v.extractLsb' 16 16) i fl) : doorbellTarget s v = some (.fl i) := by
  rw [doorbellTarget, show doorbellTargets s (decodeDbw v).qid = [.fl i] from doorbellTargets_fl h, pickShared_one]

theorem doorbellTarget_eq (h : OnlyEq s (v.extractLsb' 16 16) i q) : doorbellTarget s v = some (.eq i) := by
  rw [doorbellTarget, show doorbellTargets s (decodeDbw v).qid = [.eq i] from doorbellTargets_eq h, pickShared_one]

theorem windowTarget_only {a : Addr} (h : OnlyWindow s a i q) : windowTarget s a = some i := by
  obtain ⟨hq, hlive, hmech, hwin, hone⟩ := h
  have hone' : indicesOf (fun q : EgressQueue => q.live && q.dbMech = .wcCopy && q.wcAddr = a) s.eq = [i] :=
    indicesOf_eq_singleton hq (by simp [EgressQueue.live, hlive, hmech, hwin]) fun j x hx hm => by
      simp only [EgressQueue.live, Bool.and_eq_true, decide_eq_true_eq] at hm
      obtain ⟨⟨hl, hw⟩, ha⟩ := hm
      exact hone j x hx hl hw ha
  rw [windowTarget, hone', pickShared_one]

/-! ## The reaction -/

theorem devReact_doorbell (hr : reg ≠ .icw) :
    devReact s (.word reg v) = (doorbellTarget s v).map fun q => devAdvance s q (decodeDbw v).pidxInc.toNat := by
  cases reg with
  | icw => exact absurd rfl hr
  | db | udb => rfl

theorem mmioWrite_doorbell_fl {d : DevFl} (hr : reg ≠ .icw) (h : OnlyFl s (v.extractLsb' 16 16) i fl)
    (hd : s.devFlAt i = some d) :
    mmioWrite s (.word reg v) = { s with
      mmio := s.mmio ++ [.word reg v]
      devFl := s.devFl.set i (some { d with pidx := addTo d.pidx fl.cap (v.extractLsb' 0 16).toNat }) } := by
  have htarget : doorbellTarget (s.logMmio (.word reg v)) v = some (.fl i) :=
    doorbellTarget_fl (s := s.logMmio _) (fl := fl) h
  have hfl : (s.logMmio (.word reg v)).flAt i = some fl := h.1
  have hdev : (s.logMmio (.word reg v)).devFlAt i = some d := hd
  rw [mmioWrite, devReact_doorbell hr, htarget, Option.map_some, Option.getD_some, devAdvance, hfl, hdev]
  rfl

theorem mmioWrite_doorbell_eq {d : DevEq} (hr : reg ≠ .icw) (h : OnlyEq s (v.extractLsb' 16 16) i q)
    (hd : s.devEqAt i = some d) :
    mmioWrite s (.word reg v) = { s with
      mmio := s.mmio ++ [.word reg v]
      devEq := s.devEq.set i (some { d with pidx := addTo d.pidx q.cap (v.extractLsb' 0 16).toNat }) } := by
  have htarget : doorbellTarget (s.logMmio (.word reg v)) v = some (.eq i) :=
    doorbellTarget_eq (s := s.logMmio _) (q := q) h
  have hq : (s.logMmio (.word reg v)).eqAt i = some q := h.1
  have hdev : (s.logMmio (.word reg v)).devEqAt i = some d := hd
  rw [mmioWrite, devReact_doorbell hr, htarget, Option.map_some, Option.getD_some, devAdvance, hq, hdev]
  rfl

theorem mmioWrite_burst {a : Addr} {fs : List Flit} {d : DevEq} (h : OnlyWindow s a i q) (hd : s.devEqAt i = some d) :
    mmioWrite s (.burst a fs) = { s with
      mmio := s.mmio ++ [.burst a fs]
      devEq := s.devEq.set i (some { d with pidx := addTo d.pidx q.cap 1 }) } := by
  have htarget : windowTarget (s.logMmio (.burst a fs)) a = some i := windowTarget_only (s := s.logMmio _) (q := q) h
  have hq : (s.logMmio (.burst a fs)).eqAt i = some q := h.1
  have hdev : (s.logMmio (.burst a fs)).devEqAt i = some d := hd
  rw [mmioWrite, devReact, htarget, Option.map_some, Option.getD_some, devAdvance, hq, hdev]
  rfl

theorem mmioWrite_icw {p : IngressQueue} {d : DevIq} (h : OnlyIq s (v.extractLsb' 20 12) i p)
    (hd : s.devIqAt i = some d) (h6 : v.extractLsb' 17 3 ≠ 6) :
    mmioWrite s (.word .icw v) = { s with
      mmio := s.mmio ++ [.word .icw v]
      devIq := s.devIq.set i (some { d with
        credits := d.credits + v.extractLsb' 0 16, armed := if v.extractLsb' 17 3 = 7 then d.armed else true }) } := by
  have htarget : creditTarget (s.logMmio (.word .icw v)) v = some i := creditTarget_only (s := s.logMmio _) (q := p) h
  have hdev : (s.logMmio (.word .icw v)).devIqAt i = some d := hd
  have harmed : armedAfter d.armed v = if v.extractLsb' 17 3 = 7 then d.armed else true :=
    congrArg (ite _ _) (if_neg h6)
  simp only [mmioWrite, devReact, htarget, hdev, Option.map_some, Option.getD_some, harmed]
  rfl

/-! ## A write standing alone -/

theorem execDevDb_ok {w : MmioWrite} {t : State} (hp : s.panic = false) (h : writeAlone s.begin w = .ok (some t)) :
    execDevDb w s = .next (t.answer .ok) := by
  have hpanic : s.begin.panic = false := hp
  refine runDevice_ok ?_
  simp only [hpanic, h, Bool.false_eq_true, if_false]
  rfl

theorem execDevDb_panicked {w : MmioWrite} (hp : s.panic = true) :
    execDevDb w s = .next { s with ret := .notEnabled, raised := [] } := by
  have hpanic : s.begin.panic = true := hp
  simp only [execDevDb, runDevice, hpanic, if_true]
  rfl

theorem execWrite_ok {w : MmioWrite} {t : State} (hp : s.panic = false) (h : writeAlone s.begin w = .ok (some t)) :
    execWrite w s = .next (t.answer .ok) := by
  refine runQe_ok hp ?_
  rw [h]
  rfl

theorem one_le_toNat {n : BitVec 16} (h : n ≠ 0) : 1 ≤ n.toNat :=
  Nat.one_le_iff_ne_zero.mpr fun h0 => h (BitVec.eq_of_toNat_eq h0)

theorem writeAlone_word (hr : reg ≠ .icw) : writeAlone s (.word reg v) = .ok (doorbellAlone s reg v) := by
  cases reg with
  | icw => exact absurd rfl hr
  | db | udb => rfl

/-- A doorbell word that the rules produce, and what it does. -/
theorem doorbellAlone_eq {r : QRef} (ht : doorbellTarget s v = some r) (h0 : v.extractLsb' 0 16 ≠ 0)
    (hmax : (v.extractLsb' 0 16).toNat ≤ s.cfg.dbIncMax) (hu : (v.extractLsb' 0 16).toNat ≤ untold s r)
    (ho : ownRegister s reg r = true) :
    doorbellAlone s reg v = some (tell (mmioWrite s (.word reg v)) r (v.extractLsb' 0 16).toNat) := by
  have hlimit : (v.extractLsb' 0 16).toNat ≤ dbIncLimit s.cfg := hmax.trans (le_max_right _ _)
  rw [doorbellAlone, ht]
  refine if_pos ?_
  simp only [Bool.and_eq_true, decide_eq_true_eq]
  exact ⟨⟨⟨one_le_toNat h0, hlimit⟩, hu⟩, ho⟩

theorem tell_fl {p : IngressQueue} {n : BitVec 16} (hp : s.iqAt i = some p) (hfl : p.fl = some fl) :
    tell s (.fl i) n.toNat = s.setIq i { p with fl := some { fl with pending := fl.pending - n } } := by
  rw [tell, hp, flAt_eq_some.mpr ⟨p, hp, hfl⟩]
  simp only [BitVec.ofNat_toNat, BitVec.setWidth_eq]

theorem tell_eq {n : BitVec 16} (hq : s.eqAt i = some q) :
    tell s (.eq i) n.toNat = s.setEq i { q with pending := q.pending - n } := by
  rw [tell, hq]
  simp only [BitVec.ofNat_toNat, BitVec.setWidth_eq]

/-- The register of a list's doorbell words is never the credit register. -/
theorem ownReg_ne_icw {mech : DbMech} {udb : Addr} (h : reg = if mech = .reg then .db else .udb udb) : reg ≠ .icw := by
  rw [h, ← doorbellReg_eq]
  exact doorbellReg_ne_icw _ _

/-- A doorbell word for a free list, standing alone. -/
theorem writeAlone_fl {p : IngressQueue} {d : DevFl} (h : OnlyFl s (v.extractLsb' 16 16) i fl)
    (hp : s.iqAt i = some p) (hfl : p.fl = some fl) (hd : s.devFlAt i = some d) (h0 : v.extractLsb' 0 16 ≠ 0)
    (hmax : (v.extractLsb' 0 16).toNat ≤ s.cfg.dbIncMax) (hpend : v.extractLsb' 0 16 ≤ fl.pending)
    (hdist : (v.extractLsb' 0 16).toNat ≤ distOf d.pidx fl.pidx fl.cap)
    (hreg : reg = if fl.dbMech = .reg then .db else .udb fl.udbAddr) :
    writeAlone s.begin (.word reg v) = .ok (some { mmioWrite s (.word reg v) with
      iq := s.iq.set i (some { p with fl := some { fl with pending := fl.pending - v.extractLsb' 0 16 } })
      ret := .none, raised := [] }) := by
  have hflAt : s.begin.flAt i = some fl := h.1
  have hdAt : s.begin.devFlAt i = some d := hd
  have hu : (v.extractLsb' 0 16).toNat ≤ untold s.begin (.fl i) := by
    rw [untold, hflAt, hdAt]
    exact le_min hpend hdist
  have ho : ownRegister s.begin reg (.fl i) = true := by
    rw [ownRegister, hflAt]
    exact decide_eq_true (hreg.trans (doorbellReg_eq _ _).symm)
  have hiq : (mmioWrite s.begin (.word reg v)).iqAt i = some p := by
    rw [State.iqAt, mmioWrite_iq]
    exact hp
  rw [writeAlone_word (ownReg_ne_icw hreg),
    doorbellAlone_eq (s := s.begin) (doorbellTarget_fl (s := s.begin) (fl := fl) h) h0 hmax hu ho,
    tell_fl hiq hfl, State.begin, mmioWrite_answered]
  simp only [State.setIq, mmioWrite_iq]

/-- A doorbell word for an egress queue, standing alone. -/
theorem writeAlone_eq {d : DevEq} (h : OnlyEq s (v.extractLsb' 16 16) i q) (hd : s.devEqAt i = some d)
    (h0 : v.extractLsb' 0 16 ≠ 0) (hmax : (v.extractLsb' 0 16).toNat ≤ s.cfg.dbIncMax)
    (hpend : v.extractLsb' 0 16 ≤ q.pending) (hdist : (v.extractLsb' 0 16).toNat ≤ distOf d.pidx q.pidx q.cap)
    (hreg : reg = if q.dbMech = .reg then .db else .udb q.udbAddr) :
    writeAlone s.begin (.word reg v) = .ok (some { mmioWrite s (.word reg v) with
      eq := s.eq.set i (some { q with pending := q.pending - v.extractLsb' 0 16 }), ret := .none, raised := [] }) := by
  have hqAt : s.begin.eqAt i = some q := h.1
  have hdAt : s.begin.devEqAt i = some d := hd
  have hu : (v.extractLsb' 0 16).toNat ≤ untold s.begin (.eq i) := by
    rw [untold, hqAt, hdAt]
    exact le_min hpend hdist
  have ho : ownRegister s.begin reg (.eq i) = true := by
    rw [ownRegister, hqAt]
    exact decide_eq_true (hreg.trans (doorbellReg_eq _ _).symm)
  have heq : (mmioWrite s.begin (.word reg v)).eqAt i = some q := by
    rw [State.eqAt, mmioWrite_eq]
    exact h.1
  rw [writeAlone_word (ownReg_ne_icw hreg),
    doorbellAlone_eq (s := s.begin) (doorbellTarget_eq (s := s.begin) (q := q) h) h0 hmax hu ho,
    tell_eq heq, State.begin, mmioWrite_answered]
  simp only [State.setEq, mmioWrite_eq]

/-- A burst of the next descriptor that the device does not know of, standing alone. -/
theorem writeAlone_burst {a : Addr} {fs : List Flit} {d : DevEq} (h : OnlyWindow s a i q) (hd : s.devEqAt i = some d)
    (hm : q.mapped = true) (hlt : d.pidx < q.cap) (hdist : distOf d.pidx q.pidx q.cap ≠ 0) (hpend : q.pending ≠ 0)
    (hfs : fs = (List.range 8).map fun k => s.ring.flit (descAddr q d.pidx.toNat + 8 * k)) :
    writeAlone s.begin (.burst a fs) = .ok (some { mmioWrite s (.burst a fs) with
      eq := s.eq.set i (some { q with pending := q.pending - 1 }), ret := .none, raised := [] }) := by
  have hqAt : s.begin.eqAt i = some q := h.1
  have hdAt : s.begin.devEqAt i = some d := hd
  have hu : 1 ≤ untold s.begin (.eq i) := by
    rw [untold, hqAt, hdAt]
    exact le_min (one_le_toNat hpend) (Nat.one_le_iff_ne_zero.mpr hdist)
  have hread : ringReadAll s.begin (descAddr q d.pidx.toNat) 8 = .ok fs := by
    rw [hfs]
    exact ringReadAll_eq (descAddr_inSpace hm hlt)
  have heq : (mmioWrite s.begin (.burst a fs)).eqAt i = some q := by
    rw [State.eqAt, mmioWrite_eq]
    exact h.1
  have hcond : (decide (1 ≤ untold s.begin (.eq i)) && decide (fs = fs)) = true := by
    rw [decide_eq_true hu, decide_eq_true rfl]
    rfl
  have htell := tell_eq (n := 1) heq
  rw [writeAlone, burstAlone, windowTarget_only (s := s.begin) (q := q) h]
  dsimp only
  rw [hqAt, hdAt]
  dsimp only
  rw [hread, Res.bind_ok, hcond, if_pos rfl, show (1 : Nat) = (1 : BitVec 16).toNat from rfl, htell, State.begin,
    mmioWrite_answered]
  simp only [State.setEq, mmioWrite_eq]
  rfl

/-- A credit word of entries that the cursor has passed, standing alone. -/
theorem writeAlone_icw {p : IngressQueue} {d : DevIq} (h : OnlyIq s (v.extractLsb' 20 12) i p)
    (hd : s.devIqAt i = some d) (h6 : v.extractLsb' 17 3 ≠ 6) (h7 : v.extractLsb' 17 3 = 7 → v.getLsbD 16 = false)
    (hn : (v.extractLsb' 0 16).toNat ≤ p.cap.toNat - 1 - (d.credits.toNat + distOf p.cidx d.pidx p.cap)) :
    writeAlone s.begin (.word .icw v) =
      .ok (some { mmioWrite s (.word .icw v) with ret := .none, raised := [] }) := by
  have hqAt : s.begin.iqAt i = some p := h.1
  have hdAt : s.begin.devIqAt i = some d := hd
  have hlegal : ((decodeIcw v).timerIdx = 6 || ((decodeIcw v).timerIdx = 7 && (decodeIcw v).cntEn) ||
      unreturned p d < (decodeIcw v).cidxInc.toNat) = false := by
    simp only [Bool.or_eq_false_iff, decide_eq_false_iff_not, Bool.and_eq_false_iff]
    exact ⟨⟨h6, (Decidable.em ((decodeIcw v).timerIdx = 7)).elim (fun h => .inr (h7 h)) .inl⟩, Nat.not_lt.mpr hn⟩
  rw [writeAlone, creditAlone, creditTarget_only (s := s.begin) (q := p) h]
  dsimp only
  rw [hqAt, hdAt]
  dsimp only
  rw [hlegal, if_neg Bool.false_ne_true, State.begin, mmioWrite_answered]

/-- Settles O57: the one target of each write, the reaction, and the write standing alone. -/
theorem deviceReaction : Obligations.DeviceReaction := by
  refine ⟨fun s v reg i q fl d hr h hq hd => ?_, fun s v reg i q d hr h hd => ?_, fun s a fs i q d h hd => ?_,
    fun s v i q d h hd h6 => ?_, fun s w hp => execDevDb_panicked hp⟩
  · have hfl : q.fl = some fl := by
      obtain ⟨p, hp, hpfl⟩ := flAt_eq_some.mp h.1
      rwa [Option.some.inj (hq.symm.trans hp)]
    refine ⟨mmioWrite_doorbell_fl hr h hd, fun hp h0 hmax hpend hdist hreg => ?_⟩
    have hrun := execDevDb_ok hp (writeAlone_fl h hq hfl hd h0 hmax hpend hdist hreg)
    rw [mmioWrite_doorbell_fl hr h hd] at hrun
    exact hrun
  · refine ⟨mmioWrite_doorbell_eq hr h hd, fun hp h0 hmax hpend hdist hreg => ?_⟩
    have hrun := execDevDb_ok hp (writeAlone_eq h hd h0 hmax hpend hdist hreg)
    rw [mmioWrite_doorbell_eq hr h hd] at hrun
    exact hrun
  · refine ⟨mmioWrite_burst h hd, fun hp hm hlt hdist hpend hfs => ?_⟩
    have hrun := execDevDb_ok hp (writeAlone_burst h hd hm hlt (by simpa using hdist) hpend hfs)
    rw [mmioWrite_burst h hd] at hrun
    exact hrun
  · refine ⟨mmioWrite_icw h hd h6, fun hp h7 hn => ?_⟩
    have hrun := execDevDb_ok hp (writeAlone_icw h hd h6 h7 hn)
    rw [mmioWrite_icw h hd h6] at hrun
    exact hrun

end Sys2Proof.Machine
end

section
/-! PROOFS. What the device posts, reads and shows: DEV_OOB, DEV_FWD, DEV_INTR, DEV_FL, DEV_TX and the status pages
(46_device_agent R402, R404 to R408). -/

namespace Sys2Proof.Machine

variable {s : State} {i j : Nat}

/-! ## Device steps -/

theorem runDevice_none {body : State → Res (Option (State × Ret))} (h : body s.begin = .ok none) :
    runDevice s body = .next { s with ret := .notEnabled, raised := [] } := by
  rw [runDevice, h]
  rfl

/-! ## One flit written -/

theorem ringWrite_writes {a : Nat} (v : Flit) (ha : inSpace a 8 = true) (hw : s.ring.wf) :
    ∃ m, ringWrite s a v = .ok { s with ring := m } ∧ m.wf ∧ WritesFlits s.ring m (fun _ => a) [v] := by
  obtain ⟨m, hrun, hm, hat, hother⟩ := ringWriteAll_writes (fs := [v]) (s := s) (a := a) ha hw
  have haddr : ∀ k, k < [v].length → a + 8 * k = a := fun k hk => by simp at hk; omega
  refine ⟨m, ?_, hm, fun k hk => ?_, fun b hb => hother b fun k hk => ?_⟩
  · rw [ringWrite_eq ha] at *
    rw [ringWriteAll, ringWrite_eq ha] at hrun
    exact hrun
  · rw [← hat k hk]
    dsimp only
    rw [haddr k hk]
  · dsimp only
    rw [haddr k hk]
    exact hb k hk

/-! ## Posting an entry -/

section
variable {q : IngressQueue} {d : DevIq}

theorem devPosted_eq (h : d.pidx < q.cap) : devPosted q d = devPassed q d := by
  rw [devPosted, genAfter_incIdx h]
  rfl

theorem devPost_eq (f : Flit × Flit) : devPost i q d f s =
    ringWriteAll s (entryAddr q d.pidx.toNat) [f.1, f.2] >>= fun s => .ok (s.setDevIq i (devPosted q d)) := by
  simp only [devPost, ringWriteAll]
  cases ringWrite s (entryAddr q d.pidx.toNat) f.1 with
  | error => rfl
  | ok t =>
    simp only [Res.bind_ok]
    cases ringWrite t (entryAddr q d.pidx.toNat + 8) f.2 <;> rfl

theorem entry_inSpace {k : Nat} (hm : q.mapped = true) (hk : k < q.cap.toNat) : inSpace (entryAddr q k) 16 = true := by
  have hring : q.base.toNat + 16 * q.cap.toNat ≤ addressLimit := of_decide_eq_true hm
  exact decide_eq_true (show q.base.toNat + 16 * k + 16 ≤ addressLimit by omega)

/-- An entry posted inside the ring: its two flits, and the device's copy of the queue. -/
theorem devPost_writes (f : Flit × Flit) (hm : q.mapped = true) (hlt : d.pidx < q.cap) (hw : s.ring.wf) :
    ∃ m, devPost i q d f s = .ok { s with ring := m, devIq := s.devIq.set i (some (devPassed q d)) } ∧
      WritesFlits s.ring m (fun k => q.base.toNat + 16 * d.pidx.toNat + 8 * k) [f.1, f.2] := by
  obtain ⟨m, hrun, -, hwrites⟩ := ringWriteAll_writes (fs := [f.1, f.2]) (entry_inSpace hm hlt) hw
  refine ⟨m, ?_, hwrites⟩
  rw [devPost_eq, hrun, devPosted_eq hlt]
  rfl

/-! ## DEV_OOB -/

theorem execDevOob_noCredit {f : Flit} (hq : s.iqAt i = some q) (hd : s.devIqAt i = some d) (h : d.credits = 0) :
    execDevOob i f s = .next { s with ret := .notEnabled, raised := [] } := by
  refine runDevice_none ?_
  rw [show s.begin.iqAt i = some q from hq, show s.begin.devIqAt i = some d from hd]
  exact if_pos h

theorem oobFooter_eq (g : Bool) : oobFooter g =
    (0 : BitVec 56) ++ BitVec.ofBool g ++ (0 : BitVec 1) ++ (1 : BitVec 2) ++ (0 : BitVec 4) := by
  cases g <;> rfl

theorem execDevOob_posts (f : Flit) (hq : s.iqAt i = some q) (hd : s.devIqAt i = some d) (h : d.credits ≠ 0)
    (hlt : d.pidx < q.cap) (hm : q.mapped = true) (hw : s.ring.wf) :
    ∃ m, execDevOob i f s = .next { s with
        ring := m, devIq := s.devIq.set i (some (devPassed q d)), ret := .ok, raised := [] } ∧
      WritesFlits s.ring m (fun k => q.base.toNat + 16 * d.pidx.toNat + 8 * k)
        [f, (0 : BitVec 56) ++ BitVec.ofBool d.gen ++ (0 : BitVec 1) ++ (1 : BitVec 2) ++ (0 : BitVec 4)] := by
  obtain ⟨m, hpost, hwrites⟩ := devPost_writes (s := s.begin) (i := i) (f, oobFooter d.gen) hm hlt hw
  refine ⟨m, runDevice_ok (u := { s.begin with ring := m, devIq := s.devIq.set i (some (devPassed q d)) }) ?_,
    oobFooter_eq d.gen ▸ hwrites⟩
  rw [show s.begin.iqAt i = some q from hq, show s.begin.devIqAt i = some d from hd]
  dsimp only
  rw [if_neg h, hpost]
  rfl

end

/-! ## DEV_FWD -/

section
variable {p t : IngressQueue} {dp dt : DevIq}

theorem mayForward_iff : mayForward p t dt = true ↔
    t.role = .forwarded ∧ t.parent = p.qid ∧ dt.armed = true ∧ dt.credits.toNat < t.cap.toNat - 1 := by
  simp [mayForward, holdsEntry, and_assoc]

theorem fwdFooter_eq (qid : BitVec 12) (g : Bool) : encodeFwd { targetQid := qid, footer := { gen := g } } =
    (0, (0 : BitVec 20) ++ qid ++ (0 : BitVec 24) ++ BitVec.ofBool g ++ (0 : BitVec 1) ++ (2 : BitVec 2) ++
      (0 : BitVec 4)) := rfl

theorem execDevFwd_posts (hij : i ≠ j) (hp : s.iqAt i = some p) (ht : s.iqAt j = some t) (hdp : s.devIqAt i = some dp)
    (hdt : s.devIqAt j = some dt) (hmay : mayForward p t dt = true) (hc : dp.credits ≠ 0) (hlt : dp.pidx < p.cap)
    (hm : p.mapped = true) (hw : s.ring.wf) :
    ∃ m, execDevFwd i j s = .next { s with
        ring := m, devIq := (s.devIq.set j (some { dt with armed := false })).set i (some (devPassed p dp))
        ret := .ok, raised := [] } ∧
      WritesFlits s.ring m (fun k => p.base.toNat + 16 * dp.pidx.toNat + 8 * k)
        [0, (0 : BitVec 20) ++ t.qid ++ (0 : BitVec 24) ++ BitVec.ofBool dp.gen ++ (0 : BitVec 1) ++ (2 : BitVec 2) ++
          (0 : BitVec 4)] := by
  obtain ⟨m, hpost, hwrites⟩ := devPost_writes (s := s.begin.setDevIq j { dt with armed := false }) (i := i)
    (encodeFwd { targetQid := t.qid, footer := { gen := dp.gen } }) hm hlt hw
  refine ⟨m, runDevice_ok (u := { s.begin with
    ring := m, devIq := (s.devIq.set j (some { dt with armed := false })).set i (some (devPassed p dp)) }) ?_,
    by rw [fwdFooter_eq] at hwrites; exact hwrites⟩
  have hother : (s.begin.setDevIq j { dt with armed := false }).devIqAt i = some dp := by
    rw [State.devIqAt, State.setDevIq_devIq, List.getElem?_set_ne hij.symm]
    exact hdp
  have hcond : (mayForward p t dt && decide (dp.credits ≠ 0)) = true := by
    rw [hmay, decide_eq_true hc]
    rfl
  rw [show s.begin.iqAt i = some p from hp, show s.begin.iqAt j = some t from ht,
    show s.begin.devIqAt j = some dt from hdt]
  dsimp only
  rw [hother]
  dsimp only
  rw [if_pos hcond, hpost]
  rfl

/-- The device's copy of a queue after another's, or its own, was disarmed. -/
theorem devIqAt_disarmed (hdp : s.devIqAt i = some dp) (hdt : s.devIqAt j = some dt) :
    ∃ d, (s.setDevIq j { dt with armed := false }).devIqAt i = some d ∧ d.credits = dp.credits := by
  by_cases hij : i = j
  · subst hij
    obtain rfl : dp = dt := Option.some.inj (hdp.symm.trans hdt)
    have hlt : i < s.devIq.length := by
      by_contra hge
      rw [State.devIqAt, List.getElem?_eq_none (by omega)] at hdp
      cases hdp
    exact ⟨_, devIqAt_setDevIq hlt _, rfl⟩
  · refine ⟨dp, ?_, rfl⟩
    rw [State.devIqAt, State.setDevIq_devIq, List.getElem?_set_ne (Ne.symm hij)]
    exact hdp

theorem execDevFwd_notEnabled (hp : s.iqAt i = some p) (ht : s.iqAt j = some t) (hdp : s.devIqAt i = some dp)
    (hdt : s.devIqAt j = some dt) (h : mayForward p t dt = false ∨ dp.credits = 0) :
    execDevFwd i j s = .next { s with ret := .notEnabled, raised := [] } := by
  obtain ⟨d, hd, hcredits⟩ := devIqAt_disarmed (s := s.begin) hdp hdt
  have hcond : (mayForward p t dt && decide (d.credits ≠ 0)) = false := by
    rw [hcredits, Bool.and_eq_false_iff]
    exact h.imp_right fun h0 => decide_eq_false (not_not.mpr h0)
  refine runDevice_none ?_
  rw [show s.begin.iqAt i = some p from hp, show s.begin.iqAt j = some t from ht,
    show s.begin.devIqAt j = some dt from hdt]
  dsimp only
  rw [hd]
  dsimp only
  rw [hcond]
  rfl

theorem execDevFwd_noQueue (h : s.iqAt i = none ∨ s.iqAt j = none) :
    execDevFwd i j s = .next { s with ret := .notEnabled, raised := [] } := by
  refine runDevice_none ?_
  obtain h | h := h
  · rw [show s.begin.iqAt i = none from h]
  · rw [show s.begin.iqAt j = none from h]
    cases s.begin.iqAt i <;> rfl

end

/-! ## DEV_INTR -/

section
variable {q : IngressQueue} {d : DevIq}

theorem execDevIntr_eq (hq : s.iqAt i = some q) (hd : s.devIqAt i = some d) : execDevIntr i s = .next
    (if q.role ≠ .forwarded ∧ d.armed = true ∧ d.credits.toNat < q.cap.toNat - 1 then
      { s with devIq := s.devIq.set i (some { d with armed := false }), ret := .ok, raised := [] }
    else { s with ret := .notEnabled, raised := [] }) := by
  have hiff : (decide (q.role ≠ .forwarded) && d.armed && holdsEntry q d) = true ↔
      q.role ≠ .forwarded ∧ d.armed = true ∧ d.credits.toNat < q.cap.toNat - 1 := by
    simp [holdsEntry, and_assoc]
  split
  · rename_i h
    refine runDevice_ok (u := s.begin.setDevIq i { d with armed := false }) ?_
    rw [show s.begin.iqAt i = some q from hq, show s.begin.devIqAt i = some d from hd]
    exact if_pos (hiff.mpr h)
  · rename_i h
    refine runDevice_none ?_
    rw [show s.begin.iqAt i = some q from hq, show s.begin.devIqAt i = some d from hd]
    exact if_neg (h ∘ hiff.mp)

end

/-- Without the queue none of the device's three steps happens. -/
theorem devStep_noQueue {f : Flit} (h : s.iqAt i = none) :
    ∀ k ∈ [Instr.devOob i f, .devFwd i j, .devFwd j i, .devIntr i],
      exec k s = .next { s with ret := .notEnabled, raised := [] } := by
  simp only [List.forall_mem_cons]
  refine ⟨?_, execDevFwd_noQueue (.inl h), execDevFwd_noQueue (.inr h), ?_, nofun⟩
  · refine (?_ : execDevOob i f s = _)
    exact runDevice_none (by rw [show s.begin.iqAt i = none from h])
  · refine (?_ : execDevIntr i s = _)
    exact runDevice_none (by rw [show s.begin.iqAt i = none from h])

/-! ## DEV_FL -/

theorem flSlot_inSpace {fl : FreeList} {k : Nat} (hm : fl.mapped = true) (hk : k < fl.cap.toNat) :
    inSpace (flSlotAddr fl k) 8 = true := by
  have hring : fl.base.toNat + (8 * fl.cap.toNat + 64) ≤ addressLimit := of_decide_eq_true hm
  exact decide_eq_true (show fl.base.toNat + 8 * k + 8 ≤ addressLimit by omega)

theorem execDevFl_eq {fl : FreeList} {d : DevFl} {idx : Nat} (hfl : s.flAt i = some fl) (hd : s.devFlAt i = some d)
    (hm : fl.mapped = true) (hidx : idx < fl.cap.toNat) :
    execDevFl i idx s = .next { s with
      ret := if dist d.cidx.toNat idx fl.cap.toNat < distOf d.cidx d.pidx fl.cap then
          .fetched (fetchedAddr (decodeFle (s.ring.flit (flSlotAddr fl idx))))
            (fetchedSize s.cfg (decodeFle (s.ring.flit (flSlotAddr fl idx))))
        else .notEnabled
      raised := [] } := by
  have hflAt : s.begin.flAt i = some fl := hfl
  have hdAt : s.begin.devFlAt i = some d := hd
  split
  · rename_i h
    have hcovers : coversSlot fl d idx = true := by
      rw [coversSlot, decide_eq_true hidx, decide_eq_true h]
      rfl
    refine runDevice_ok (u := s.begin) ?_
    rw [hflAt, hdAt]
    dsimp only
    rw [if_pos hcovers, ringRead_eq (flSlot_inSpace hm hidx)]
    rfl
  · rename_i h
    have hcovers : coversSlot fl d idx = false := by
      rw [coversSlot, decide_eq_false h, Bool.and_false]
    refine runDevice_none ?_
    rw [hflAt, hdAt]
    dsimp only
    rw [hcovers]
    rfl

/-! ## DEV_TX -/

section
variable {q : EgressQueue} {d : DevEq}

/-- The flits of a request are read back where they lie in the ring. -/
theorem readFlits_eq (hm : q.mapped = true) (hc : 0 < q.cap.toNat) (st k n : Nat) :
    readFlits q st s k n = .ok ((List.range n).map fun o => s.ring.flit (wrFlitAddr q st (k + o))) := by
  induction n generalizing k with
  | zero => rfl
  | succ n ih =>
    rw [readFlits, ringRead_eq (wrFlitAddr_inSpace hm hc st k), Res.bind_ok, ih, Res.bind_ok, List.range_succ_eq_map,
      List.map_cons, List.map_map]
    have hnext : ∀ o, k + 1 + o = k + (o + 1) := fun o => by omega
    simp only [hnext]
    rfl

theorem execDevTx_nothing (hq : s.eqAt i = some q) (hd : s.devEqAt i = some d) (h : d.cidx = d.pidx) :
    execDevTx i s = .next { s with ret := .notEnabled, raised := [] } := by
  refine runDevice_none ?_
  rw [show s.begin.eqAt i = some q from hq, show s.begin.devEqAt i = some d from hd]
  exact if_pos h

theorem execDevTx_eq (hq : s.eqAt i = some q) (hd : s.devEqAt i = some d) (hne : d.cidx ≠ d.pidx) (hlt : d.cidx < q.cap)
    (hm : q.mapped = true) :
    let f0 := s.ring.flit (wrFlitAddr q d.cidx.toNat 0)
    execDevTx i s = .next
      (if requestDescs f0 = 0 ∨ distOf d.cidx d.pidx q.cap < requestDescs f0 then
        { s with ret := .notEnabled, raised := [] }
      else { s with
        devEq := s.devEq.set i (some { d with cidx := addTo d.cidx q.cap (requestDescs f0) })
        ret := .request ((List.range (2 * (field f0 0 8).toNat)).map fun k =>
          s.ring.flit (wrFlitAddr q d.cidx.toNat k))
        raised := [] }) := by
  intro f0
  have hc : 0 < q.cap.toNat := Nat.lt_of_le_of_lt (Nat.zero_le _) hlt
  have hread : ringRead s.begin (wrFlitAddr q d.cidx.toNat 0) = .ok f0 := ringRead_eq (wrFlitAddr_inSpace hm hc _ 0)
  have hiff : (decide (requestDescs f0 = 0) || decide (distOf d.cidx d.pidx q.cap < requestDescs f0)) = true ↔
      requestDescs f0 = 0 ∨ distOf d.cidx d.pidx q.cap < requestDescs f0 := by
    rw [Bool.or_eq_true, decide_eq_true_iff, decide_eq_true_iff]
  split
  · rename_i h
    refine runDevice_none ?_
    rw [show s.begin.eqAt i = some q from hq, show s.begin.devEqAt i = some d from hd]
    dsimp only
    rw [if_neg hne, hread, Res.bind_ok, if_pos (hiff.mpr h)]
    rfl
  · rename_i h
    refine runDevice_ok (u := s.begin.setDevEq i { d with cidx := addTo d.cidx q.cap (requestDescs f0) }) ?_
    rw [show s.begin.eqAt i = some q from hq, show s.begin.devEqAt i = some d from hd]
    dsimp only
    rw [if_neg hne, hread, Res.bind_ok, if_neg (h ∘ hiff.mp), readFlits_eq hm hc]
    simp only [Nat.zero_add]
    rfl

end

/-! ## Status pages -/

theorem execDevStatus_writes {q : QRef} {r : Sp} {t : State} (hr : statusPage s.begin q = some r)
    (h : writeStatus s.begin q r = .ok (some (t, .ok))) : execDevStatus q s = .next (t.answer .ok) := by
  refine runDevice_ok ?_
  rw [hr]
  exact h

theorem execSp_writes {q : QRef} {r : Sp} {t : State} (hr : statusPage s.begin q = some r)
    (h : writeStatus s.begin q r = .ok (some (t, .ok))) : execSp q r s = .next (t.answer .ok) :=
  runDevice_ok ((if_pos hr).trans h)

theorem execSp_other {q : QRef} {r r' : Sp} (hr : statusPage s.begin q = some r) (hne : r' ≠ r) :
    execSp q r' s = .next { s with ret := .notEnabled, raised := [] } :=
  runDevice_none (if_neg fun h => hne (Option.some.inj (h.symm.trans hr)))

/-- The two instructions that show a status page whose shown flit is `r`. -/
theorem shows_page {q : QRef} {shown : Sp} {a : Nat} (hr : statusPage s.begin q = some shown)
    (ha : inSpace a 8 = true) (hw : s.ring.wf)
    (hrun : writeStatus s.begin q shown = ringWrite s.begin a (encodeSp shown) >>= fun t => .ok (some (t, .ok))) :
    (∃ m, execDevStatus q s = .next { s with ring := m, ret := .ok, raised := [] } ∧
      WritesFlits s.ring m (fun _ => a) [encodeSp shown]) ∧
    ∀ r, (r = shown → ∃ m, execSp q r s = .next { s with ring := m, ret := .ok, raised := [] } ∧
      WritesFlits s.ring m (fun _ => a) [encodeSp shown]) ∧
      (r ≠ shown → execSp q r s = .next { s with ret := .notEnabled, raised := [] }) := by
  obtain ⟨m, hwrite, -, hm⟩ := ringWrite_writes (s := s.begin) (encodeSp shown) ha hw
  rw [hwrite, Res.bind_ok] at hrun
  exact ⟨⟨m, execDevStatus_writes hr hrun, hm⟩,
    fun r => ⟨fun h => ⟨m, h ▸ execSp_writes hr hrun, hm⟩, execSp_other hr⟩⟩

theorem flStatus_inSpace {fl : FreeList} (hm : fl.mapped = true) : inSpace (flStatusAddr fl) 8 = true := by
  have hring : fl.base.toNat + (8 * fl.cap.toNat + 64) ≤ addressLimit := of_decide_eq_true hm
  exact decide_eq_true (show fl.base.toNat + 8 * fl.cap.toNat + 8 ≤ addressLimit by omega)

/-- Settles O59: DEV_OOB, DEV_FWD and DEV_INTR, each by whether its precondition holds. -/
theorem devicePosts : Obligations.DevicePosts := by
  refine ⟨fun s i j f h => devStep_noQueue h, fun s i q d f hq hd => ⟨execDevOob_noCredit hq hd, fun hc hlt hm hw =>
    execDevOob_posts f hq hd hc hlt hm hw⟩, ?_, fun s i j p t dp dt hp ht hdp hdt h => ?_, fun s i q d hq hd => ⟨?_, ?_⟩⟩
  · intro s i j p t dp dt hij hp ht hdp hdt hrole hparent harmed hcr hc hlt hm hw
    exact execDevFwd_posts hij hp ht hdp hdt (mayForward_iff.mpr ⟨hrole, hparent, harmed, hcr⟩) hc hlt hm hw
  · refine execDevFwd_notEnabled hp ht hdp hdt ?_
    rw [← Bool.not_eq_true, mayForward_iff]
    grind
  · intro hrole harmed hcr
    exact (execDevIntr_eq hq hd).trans (congrArg _ (if_pos ⟨hrole, harmed, hcr⟩))
  · intro h
    refine (execDevIntr_eq hq hd).trans (congrArg _ (if_neg ?_))
    rintro ⟨hrole, harmed, hcr⟩
    obtain h | h | h := h
    · exact hrole h
    · rw [h] at harmed
      cases harmed
    · omega

/-- Settles O60: the covered slot, the whole request, and the page that the device has. -/
theorem deviceReads : Obligations.DeviceReads := by
  refine ⟨fun s i idx fl d hfl hd hm hidx => execDevFl_eq hfl hd hm hidx, fun s i q d hq hd =>
    ⟨execDevTx_nothing hq hd, fun hne hlt hm => ⟨fun h0 hn => ?_, fun h => ?_⟩⟩, fun s i fl d r hfl hd hm hw => ?_,
    fun s i q d r hq hd hm hw => ?_⟩
  · exact (execDevTx_eq hq hd hne hlt hm).trans (congrArg _ (if_neg fun h => h.elim h0 fun hlt => absurd hn (Nat.not_le.mpr hlt)))
  · exact (execDevTx_eq hq hd hne hlt hm).trans (congrArg _ (if_pos h))
  · have hr : statusPage s.begin (.fl i) = some { qid := fl.qid, cidx := d.cidx, pidx := d.pidx } := by
      rw [statusPage, show s.begin.flAt i = some fl from hfl, show s.begin.devFlAt i = some d from hd]
    have hrun : ∀ r, writeStatus s.begin (.fl i) r =
        ringWrite s.begin (flStatusAddr fl) (encodeSp r) >>= fun t => .ok (some (t, .ok)) := fun r => by
      rw [writeStatus, show s.begin.flAt i = some fl from hfl]
      rfl
    obtain ⟨hstatus, hsp⟩ := shows_page hr (flStatus_inSpace hm) hw (hrun _)
    exact ⟨hstatus, hsp r⟩
  · have hr : statusPage s.begin (.eq i) = some { qid := q.qid, cidx := d.cidx, pidx := d.pidx } := by
      rw [statusPage, show s.begin.eqAt i = some q from hq, show s.begin.devEqAt i = some d from hd]
    have hrun : ∀ r, writeStatus s.begin (.eq i) r =
        ringWrite s.begin (eqStatusAddr q) (encodeSp r) >>= fun t => .ok (some (t, .ok)) := fun r => by
      rw [writeStatus, show s.begin.eqAt i = some q from hq]
      rfl
    obtain ⟨hstatus, hsp⟩ := shows_page hr (statusPage_inSpace hm) hw (hrun _)
    exact ⟨hstatus, hsp r⟩

end Sys2Proof.Machine
end

section
/-! PROOFS. DEV_RX: the bytes of a frame placed in the buffers the device has fetched, and the receive entry
(46_device_agent R403). -/

namespace Sys2Proof.Machine

variable {s : State} {i : Nat} {q : IngressQueue} {fl : FreeList} {di : DevIq} {df : DevFl} {bytes : List Byte}
  {fm : FrameMeta} {skip : Bool}

/-! ## The rest of the step, from the device's cursor -/

/-- The bytes placed from a cursor, and the entry posted. -/
def received (i : Nat) (bytes : List Byte) (fm : FrameMeta) (q : IngressQueue) (fl : FreeList) (di : DevIq)
    (start : DevFl) (s : State) : Res (Option (State × Ret)) := do
  match ← devPlace fl bytes.length bytes start s with
  | none => return none
  | some (df, s) =>
    let s ← devPost i q di (encodeRx (rxEntry bytes.length fm (start.off = 0) di.gen)) s
    return some (s.setDevFl i df, .ok)

theorem execDevRx_eq (hq : s.iqAt i = some q) (hfl : q.fl = some fl) (hdi : s.devIqAt i = some di)
    (hdf : s.devFlAt i = some df) :
    execDevRx i bytes fm skip s = runDevice s fun s =>
      if di.credits = 0 || bytes = [] || 2 ^ 31 ≤ bytes.length then .ok none
      else received i bytes fm q fl di (devStart fl df skip) s := by
  have hflAt : s.begin.flAt i = some fl := flAt_eq_some.mpr ⟨q, hq, hfl⟩
  simp only [execDevRx, runDevice, show s.begin.iqAt i = some q from hq, hflAt,
    show s.begin.devIqAt i = some di from hdi, show s.begin.devFlAt i = some df from hdf]
  rfl

/-- A device step that ends with `Ok` is one that its operation completed. -/
theorem runDevice_ok_iff {t : State} {body : State → Res (Option (State × Ret))} (hr : t.ret = .ok) :
    runDevice s body = .next t ↔ ∃ u r, body s.begin = .ok (some (u, r)) ∧ t = u.answer r := by
  constructor
  · intro h
    obtain h | ⟨-, rfl⟩ | ⟨e, -, rfl⟩ | ⟨-, rfl⟩ := runDevice_next h
    · exact h
    · cases hr
    · cases hr
    · cases hr
  · rintro ⟨u, r, h, rfl⟩
    exact runDevice_ok h

/-! ## One buffer -/

/-- The entry in a slot of the list, as the device reads it. -/
def slotEntry (s : State) (fl : FreeList) (k : Nat) : Fle := decodeFle (s.ring.flit (flSlotAddr fl k))

/-- The bytes that the buffer at the cursor takes. -/
def placedLen (s : State) (fl : FreeList) (d : DevFl) (bytes : List Byte) : Nat :=
  min bytes.length (fetchedSize s.cfg (slotEntry s fl d.cidx.toNat) - d.off.toNat)

/-- Where it takes them. -/
def placedAddr (s : State) (fl : FreeList) (d : DevFl) : Nat :=
  (fetchedAddr (slotEntry s fl d.cidx.toNat)).toNat + d.off.toNat

/-- The bytes of one buffer placed. -/
def placedOne (s : State) (fl : FreeList) (d : DevFl) (bytes : List Byte) : State :=
  { s with buf := s.buf.putBytes (placedAddr s fl d) (bytes.take (placedLen s fl d bytes)) }

theorem devPlace_succ (fuel : Nat) (d : DevFl) : devPlace fl (fuel + 1) bytes d s =
    if bytes = [] then .ok (some (d, s))
    else if d.cidx = d.pidx then .ok none
    else if inSpace (flSlotAddr fl d.cidx.toNat) 8 then
      if fetchedSize s.cfg (slotEntry s fl d.cidx.toNat) ≤ d.off.toNat then .ok none
      else if inSpace (placedAddr s fl d) (bytes.take (placedLen s fl d bytes)).length then
        devPlace fl fuel (bytes.drop (placedLen s fl d bytes))
          (devMoveCursor s.cfg fl d (placedLen s fl d bytes) (fetchedSize s.cfg (slotEntry s fl d.cidx.toNat)))
          (placedOne s fl d bytes)
      else .error (.fault .addressOutside)
    else .error (.fault .addressOutside) := by
  rw [devPlace, ringRead]
  refine if_congr Iff.rfl rfl (if_congr Iff.rfl rfl ?_)
  split
  · refine if_congr Iff.rfl rfl ?_
    rw [bufWrite, show bytes.take (min bytes.length (fetchedSize s.cfg (decodeFle (s.ring.flit (flSlotAddr fl d.cidx.toNat))) -
      d.off.toNat)) = bytes.take (placedLen s fl d bytes) from rfl]
    show (if inSpace (placedAddr s fl d) _ = true then _ else _) >>= _ = _
    split <;> rfl
  · rfl

/-! ## The device's own copies are not looked at -/

/-- An answer of `devPlace` in the state where the device's copy of a list is another one. -/
def movedIn (i : Nat) (x : DevFl) : Option (DevFl × State) → Option (DevFl × State) :=
  Option.map fun r => (r.1, r.2.setDevFl i x)

theorem slotEntry_setDevFl (x : DevFl) (k : Nat) : slotEntry (s.setDevFl i x) fl k = slotEntry s fl k := rfl

theorem placedAddr_setDevFl (x d : DevFl) : placedAddr (s.setDevFl i x) fl d = placedAddr s fl d := rfl

theorem placedLen_setDevFl (x d : DevFl) : placedLen (s.setDevFl i x) fl d bytes = placedLen s fl d bytes := rfl

theorem placedOne_setDevFl (x d : DevFl) :
    placedOne (s.setDevFl i x) fl d bytes = (placedOne s fl d bytes).setDevFl i x := rfl

theorem devPlace_setDevFl {fuel : Nat} {d x : DevFl} :
    devPlace fl fuel bytes d (s.setDevFl i x) = (devPlace fl fuel bytes d s).map (movedIn i x) := by
  induction fuel generalizing bytes d s with
  | zero =>
    simp only [devPlace]
    split <;> rfl
  | succ n ih =>
    rw [devPlace_succ, devPlace_succ]
    simp only [slotEntry_setDevFl, placedAddr_setDevFl, placedLen_setDevFl, placedOne_setDevFl, State.setDevFl_cfg, ih]
    split
    · rfl
    split
    · rfl
    split
    · split
      · rfl
      split <;> rfl
    · rfl

theorem ringWrite_setDevFl {a : Nat} {v : Flit} {x : DevFl} :
    ringWrite (s.setDevFl i x) a v = (ringWrite s a v).map (·.setDevFl i x) := by
  unfold ringWrite
  split <;> rfl

theorem devPost_setDevFl {f : Flit × Flit} {x : DevFl} :
    devPost i q di f (s.setDevFl i x) = (devPost i q di f s).map (·.setDevFl i x) := by
  rw [devPost, devPost, ringWrite_setDevFl]
  cases ringWrite s (entryAddr q di.pidx.toNat) f.1 with
  | error e => rfl
  | ok t =>
    simp only [Except.map, Res.bind_ok, ringWrite_setDevFl]
    cases ringWrite t (entryAddr q di.pidx.toNat + 8) f.2 <;> rfl

theorem received_setDevFl {start x : DevFl} :
    received i bytes fm q fl di start (s.setDevFl i x) = received i bytes fm q fl di start s := by
  simp only [received, devPlace_setDevFl]
  cases devPlace fl bytes.length bytes start s with
  | error e => rfl
  | ok r =>
    cases r with
    | none => rfl
    | some r =>
      obtain ⟨d, t⟩ := r
      show (devPost _ _ _ _ (t.setDevFl i x) >>= fun s => _) = _
      rw [devPost_setDevFl]
      simp only [Res.bind_ok]
      cases devPost i q di (encodeRx (rxEntry bytes.length fm (start.off = 0) di.gen)) t with
      | error e => rfl
      | ok u =>
        show Except.ok (some (_, _)) = Except.ok (some (_, _))
        simp only [State.setDevFl, List.set_set]

theorem devStart_false : devStart fl df false = df := rfl

theorem devStart_true (hoff : df.off ≠ 0) (hne : df.cidx ≠ df.pidx) : devStart fl df true = devAdvanceSlot fl df :=
  if_pos (by rw [decide_eq_true hoff, decide_eq_true hne]; rfl)

theorem devStart_atStart (hoff : df.off = 0) : devStart fl df skip = df := if_neg (by simp [hoff])

/-- Skipping the rest of a buffer is receiving from the next one. -/
theorem execDevRx_skip {t : State} (hq : s.iqAt i = some q) (hfl : q.fl = some fl) (hdi : s.devIqAt i = some di)
    (hdf : s.devFlAt i = some df) (hoff : df.off ≠ 0) (hne : df.cidx ≠ df.pidx) (hr : t.ret = .ok) :
    execDevRx i bytes fm true s = .next t ↔
      execDevRx i bytes fm false (s.setDevFl i (devAdvanceSlot fl df)) = .next t := by
  have hlt : i < s.devFl.length := by
    by_contra hge
    rw [State.devFlAt, List.getElem?_eq_none (by omega)] at hdf
    cases hdf
  have hmoved : (s.setDevFl i (devAdvanceSlot fl df)).devFlAt i = some (devAdvanceSlot fl df) := by
    simp [State.devFlAt, State.setDevFl, hlt]
  have hbegin : (s.setDevFl i (devAdvanceSlot fl df)).begin = s.begin.setDevFl i (devAdvanceSlot fl df) := rfl
  rw [execDevRx_eq hq hfl hdi hdf, execDevRx_eq (s := s.setDevFl i _) hq hfl hdi hmoved, runDevice_ok_iff hr,
    runDevice_ok_iff hr, hbegin, received_setDevFl, devStart_true hoff hne, devStart_false]

theorem execDevRx_noCredit (hq : s.iqAt i = some q) (hfl : q.fl = some fl) (hdi : s.devIqAt i = some di)
    (hdf : s.devFlAt i = some df) (h : di.credits = 0) :
    execDevRx i bytes fm skip s = .next { s with ret := .notEnabled, raised := [] } := by
  rw [execDevRx_eq hq hfl hdi hdf]
  exact runDevice_none (if_pos (by simp [h]))

/-! ## The entry -/

theorem append_zeros {n : Nat} (x : BitVec n) : x ++ (0 : BitVec 1) ++ (0 : BitVec 2) ++ (0 : BitVec 4) = x ++ (0 : BitVec 7) := by
  apply BitVec.eq_of_toNat_eq
  simp [BitVec.toNat_append, ← Nat.shiftLeft_add]

theorem rxFlits_eq (n : Nat) (newbuf gen : Bool) : encodeRx (rxEntry n fm newbuf gen) =
    ((0x20 : BitVec 8) ++ BitVec.ofBool fm.csumOk ++ BitVec.ofBool fm.vlanValid ++ (0 : BitVec 6) ++ fm.vlanTag ++
        BitVec.ofNat 32 n,
      BitVec.ofBool newbuf ++ BitVec.ofNat 31 n ++ (0 : BitVec 24) ++ BitVec.ofBool gen ++ (0 : BitVec 7)) :=
  congrArg (Prod.mk _) (append_zeros _)

/-- A frame whose bytes are placed is announced by its entry. -/
theorem execDevRx_received {b : Memory} {df' : DevFl} (hq : s.iqAt i = some q) (hfl : q.fl = some fl)
    (hdi : s.devIqAt i = some di) (hdf : s.devFlAt i = some df) (hc : di.credits ≠ 0) (hb : bytes ≠ [])
    (hlen : bytes.length < 2 ^ 31) (hlt : di.pidx < q.cap) (hm : q.mapped = true) (hw : s.ring.wf)
    (hplace : devPlace fl bytes.length bytes df s.begin = .ok (some (df', { s.begin with buf := b }))) :
    ∃ m, execDevRx i bytes fm false s = .next { s with
        ring := m, buf := b, devIq := s.devIq.set i (some (devPassed q di)), devFl := s.devFl.set i (some df')
        ret := .ok, raised := [] } ∧
      WritesFlits s.ring m (fun k => q.base.toNat + 16 * di.pidx.toNat + 8 * k)
        [(0x20 : BitVec 8) ++ BitVec.ofBool fm.csumOk ++ BitVec.ofBool fm.vlanValid ++ (0 : BitVec 6) ++ fm.vlanTag ++
            BitVec.ofNat 32 bytes.length,
          BitVec.ofBool (df.off = 0) ++ BitVec.ofNat 31 bytes.length ++ (0 : BitVec 24) ++ BitVec.ofBool di.gen ++
            (0 : BitVec 7)] := by
  obtain ⟨m, hpost, hwrites⟩ := devPost_writes (s := { s.begin with buf := b }) (i := i)
    (encodeRx (rxEntry bytes.length fm (df.off = 0) di.gen)) hm hlt hw
  rw [rxFlits_eq] at hwrites
  refine ⟨m, ?_, hwrites⟩
  have hcond : (decide (di.credits = 0) || decide (bytes = []) || decide (2 ^ 31 ≤ bytes.length)) = false := by
    rw [decide_eq_false hc, decide_eq_false hb, decide_eq_false (by omega)]
    rfl
  rw [execDevRx_eq hq hfl hdi hdf]
  refine runDevice_ok (u := { s.begin with
    ring := m, buf := b, devIq := s.devIq.set i (some (devPassed q di)), devFl := s.devFl.set i (some df') }) ?_
  rw [hcond, if_neg Bool.false_ne_true, devStart_false, received, hplace, Res.bind_ok]
  dsimp only
  rw [hpost]
  rfl

/-! ## Placing bytes -/

theorem putBytes_writes {m : Memory} (hw : m.wf) (a : Nat) (bs : List Byte) : WritesBytes m (m.putBytes a bs) a bs := by
  refine ⟨fun k hk => ?_, fun b hb => ?_⟩
  · rw [Memory.get_putBytes hw, if_pos (by omega), Nat.add_sub_cancel_left, List.getD_eq_getElem _ _ hk]
  · rw [Memory.get_putBytes hw, if_neg (by omega)]

theorem devPlace_nil (fuel : Nat) (d : DevFl) : devPlace fl fuel [] d s = .ok (some (d, s)) := by
  cases fuel <;> rfl

/-- One step of placing bytes: what the buffer at the cursor takes of them. -/
theorem devPlace_step {fuel : Nat} {d : DevFl} (hm : fl.mapped = true) (hlt : d.cidx < fl.cap) (hb : bytes ≠ [])
    (hne : d.cidx ≠ d.pidx) (hoff : d.off.toNat < fetchedSize s.cfg (slotEntry s fl d.cidx.toNat))
    (hs : inSpace (placedAddr s fl d) (placedLen s fl d bytes) = true) :
    devPlace fl (fuel + 1) bytes d s = devPlace fl fuel (bytes.drop (placedLen s fl d bytes))
      (devMoveCursor s.cfg fl d (placedLen s fl d bytes) (fetchedSize s.cfg (slotEntry s fl d.cidx.toNat)))
      (placedOne s fl d bytes) := by
  have htake : (bytes.take (placedLen s fl d bytes)).length = placedLen s fl d bytes := by
    rw [List.length_take, placedLen]
    omega
  rw [devPlace_succ, if_neg hb, if_neg hne, if_pos (flSlot_inSpace hm hlt), if_neg (Nat.not_le.mpr hoff), htake, if_pos hs]

theorem devMoveCursor_eq (c : Cfg) (d : DevFl) (len hs : Nat) : devMoveCursor c fl d len hs = devConsumed c fl d len hs := by
  by_cases hp : fl.packing = true
  · rw [devMoveCursor, hp, if_pos rfl]
    by_cases h : packedOffset c d.off.toNat len hs = hs
    · exact (if_pos h).trans (if_neg fun hc => hc.2 h).symm
    · exact (if_neg h).trans (if_pos ⟨hp, h⟩).symm
  · rw [devMoveCursor, if_neg hp]
    exact (if_neg fun hc => hp hc.1).symm

/-- A frame that the buffer at the cursor holds. -/
theorem devPlace_one (hm : fl.mapped = true) (hlt : df.cidx < fl.cap) (hb : bytes ≠ []) (hne : df.cidx ≠ df.pidx)
    (hfits : df.off.toNat + bytes.length ≤ fetchedSize s.cfg (slotEntry s fl df.cidx.toNat))
    (hs : inSpace (placedAddr s fl df) bytes.length = true) :
    devPlace fl bytes.length bytes df s =
      .ok (some (devConsumed s.cfg fl df bytes.length (fetchedSize s.cfg (slotEntry s fl df.cidx.toNat)),
        { s with buf := s.buf.putBytes (placedAddr s fl df) bytes })) := by
  have hpos := List.length_pos_iff.mpr hb
  have hlen : placedLen s fl df bytes = bytes.length := Nat.min_eq_left (by omega)
  have hstep := devPlace_step (fuel := bytes.length - 1) hm hlt hb hne (by omega) (hlen.symm ▸ hs)
  rw [placedOne, hlen, List.drop_length, List.take_length, devPlace_nil, devMoveCursor_eq, Nat.sub_add_cancel hpos] at hstep
  exact hstep

/-! ## Several buffers -/

/-- The room of the first `k` of a row of buffers. -/
def roomOf (h : Nat → Nat) (k : Nat) : Nat := ((List.range k).map h).sum

theorem roomOf_succ (h : Nat → Nat) (k : Nat) : roomOf h (k + 1) = h 0 + roomOf (fun j => h (j + 1)) k := by
  rw [roomOf, List.range_succ_eq_map, List.map_cons, List.sum_cons, List.map_map]
  rfl

/-- The bytes that buffer `k` takes of `total` bytes over buffers 0 to `n`. -/
def pieceLen (h : Nat → Nat) (n total k : Nat) : Nat := if k < n then h k else total - roomOf h n

theorem pieceLen_succ (h : Nat → Nat) (n total k : Nat) :
    pieceLen h (n + 1) total (k + 1) = pieceLen (fun j => h (j + 1)) n (total - h 0) k := by
  unfold pieceLen
  rw [roomOf_succ]
  split
  · rw [if_pos (by omega)]
  · rw [if_neg (by omega)]
    omega

theorem pieceLen_zero (h : Nat → Nat) (n total : Nat) : pieceLen h (n + 1) total 0 = h 0 := if_pos (Nat.succ_pos n)

theorem distOf_incIdx_left {a b cap : BitVec 16} {n : Nat} (ha : a < cap) (h : n + 1 ≤ distOf a b cap) :
    n ≤ distOf (incIdx a cap) b cap := by
  have hlt : a.toNat < cap.toNat := ha
  have hinc := incIdx_toNat ha
  obtain ⟨m, hm⟩ := Nat.exists_eq_add_of_le h
  have hdist : (b.toNat + cap.toNat - a.toNat) % cap.toNat = n + 1 + m := by
    rw [← hm, distOf, dist, Nat.mod_eq_of_lt hlt]
  have hdiv := Nat.div_add_mod (b.toNat + cap.toNat - a.toNat) cap.toNat
  have hmod := Nat.mod_lt (b.toNat + cap.toNat - a.toNat) (show 0 < cap.toNat by omega)
  rw [hdist] at hdiv hmod
  have hprev : b.toNat + cap.toNat - a.toNat - 1 = n + m + cap.toNat * ((b.toNat + cap.toNat - a.toNat) / cap.toNat) := by
    omega
  rw [distOf, dist, hinc, Nat.mod_mod]
  by_cases hwrap : a.toNat + 1 = cap.toNat
  · have hb : b.toNat + cap.toNat - a.toNat - 1 = b.toNat := by omega
    rw [hwrap, Nat.mod_self, Nat.sub_zero, Nat.add_mod_right, ← hb, hprev, Nat.add_mul_mod_self_left,
      Nat.mod_eq_of_lt (by omega)]
    omega
  · rw [Nat.mod_eq_of_lt (show a.toNat + 1 < cap.toNat by omega), ← Nat.sub_sub, hprev, Nat.add_mul_mod_self_left,
      Nat.mod_eq_of_lt (by omega)]
    omega

theorem distOf_self {a cap : BitVec 16} (ha : a < cap) : distOf a a cap = 0 := (distOf_eq_zero ha ha).mpr rfl

/-- The slots from the device's cursor have these sizes and addresses. -/
def SlotsAre (s : State) (fl : FreeList) (d : DevFl) (n : Nat) (h a : Nat → Nat) : Prop :=
  ∀ k, k ≤ n → fetchedSize s.cfg (slotEntry s fl ((d.cidx.toNat + k) % fl.cap.toNat)) = h k ∧
    (fetchedAddr (slotEntry s fl ((d.cidx.toNat + k) % fl.cap.toNat))).toNat = a k

theorem SlotsAre.head {n : Nat} {h a : Nat → Nat} (hlt : df.cidx < fl.cap) (hslots : SlotsAre s fl df n h a) :
    fetchedSize s.cfg (slotEntry s fl df.cidx.toNat) = h 0 ∧
      (fetchedAddr (slotEntry s fl df.cidx.toNat)).toNat = a 0 := by
  have h0 := hslots 0 (Nat.zero_le n)
  rwa [Nat.add_zero, Nat.mod_eq_of_lt (show df.cidx.toNat < fl.cap.toNat from hlt)] at h0

theorem SlotsAre.tail {n : Nat} {h a : Nat → Nat} {b : Memory} (hlt : df.cidx < fl.cap)
    (hslots : SlotsAre s fl df (n + 1) h a) :
    SlotsAre { s with buf := b } fl (devAdvanceSlot fl df) n (fun k => h (k + 1)) (fun k => a (k + 1)) := fun k hk => by
  have hnext : ((devAdvanceSlot fl df).cidx.toNat + k) % fl.cap.toNat = (df.cidx.toNat + (k + 1)) % fl.cap.toNat := by
    rw [show (devAdvanceSlot fl df).cidx = incIdx df.cidx fl.cap from rfl, incIdx_toNat hlt, Nat.mod_add_mod,
      Nat.add_assoc, Nat.add_comm 1 k]
  rw [hnext]
  exact hslots (k + 1) (by omega)

/-- The memory holds the bytes in pieces, and is otherwise as it was. -/
def HoldsPieces (m b : Memory) (a : Nat → Nat) (h : Nat → Nat) (n : Nat) (bytes : List Byte) : Prop :=
  (∀ k o, k ≤ n → o < pieceLen h n bytes.length k → b.get (a k + o) = bytes.getD (roomOf h k + o) 0) ∧
    ∀ x, (∀ k, k ≤ n → x < a k ∨ a k + pieceLen h n bytes.length k ≤ x) → b.get x = m.get x

theorem HoldsPieces.of_writes {m b : Memory} {a h : Nat → Nat} (hw : WritesBytes m b (a 0) bytes) :
    HoldsPieces m b a h 0 bytes := by
  obtain ⟨hat, hother⟩ := hw
  have hlen : pieceLen h 0 bytes.length 0 = bytes.length := rfl
  refine ⟨fun k o hk ho => ?_, fun x hx => hother x (hlen ▸ hx 0 le_rfl)⟩
  obtain rfl := Nat.le_zero.mp hk
  rw [hat o ho, show roomOf h 0 + o = o from Nat.zero_add o, List.getD_eq_getElem _ _ ho]

/-- A first piece written, and the others after it at other addresses. -/
theorem HoldsPieces.cons {m b : Memory} {a h : Nat → Nat} {n : Nat} (hw : m.wf) (h0 : h 0 ≤ bytes.length)
    (hrest : HoldsPieces (m.putBytes (a 0) (bytes.take (h 0))) b (fun k => a (k + 1)) (fun k => h (k + 1)) n
      (bytes.drop (h 0)))
    (hapart : ∀ k, k ≤ n → a 0 + h 0 ≤ a (k + 1) ∨ a (k + 1) + pieceLen h (n + 1) bytes.length (k + 1) ≤ a 0) :
    HoldsPieces m b a h (n + 1) bytes := by
  obtain ⟨hat, hother⟩ := hrest
  obtain ⟨hfirst, hkeep⟩ := putBytes_writes hw (a 0) (bytes.take (h 0))
  have htake : (bytes.take (h 0)).length = h 0 := by
    rw [List.length_take]
    omega
  rw [List.length_drop] at hat hother
  refine ⟨fun k o hk ho => ?_, fun x hx => ?_⟩
  · cases k with
    | zero =>
      rw [pieceLen_zero] at ho
      rw [hother _ fun k hk => ?_, hfirst o (by omega), List.getElem_take, show roomOf h 0 + o = o from Nat.zero_add o,
        List.getD_eq_getElem _ _ (by omega)]
      have hk := hapart k hk
      rw [pieceLen_succ] at hk
      dsimp only
      omega
    | succ k =>
      rw [pieceLen_succ] at ho
      rw [hat k o (by omega) ho, roomOf_succ, Nat.add_assoc, List.getD_eq_getElem?_getD, List.getElem?_drop,
        List.getD_eq_getElem?_getD]
  · rw [hother x fun k hk => ?_, hkeep x ?_]
    · have h0 := hx 0 (Nat.zero_le _)
      rw [pieceLen_zero] at h0
      omega
    · have hk := hx (k + 1) (by omega)
      rwa [pieceLen_succ] at hk

theorem roomOf_one (h : Nat → Nat) : roomOf h 1 = h 0 := by
  rw [roomOf_succ]
  rfl

/-- What a row of buffers must be for a frame to be placed in it: room for all of it and not for less, in the address
space, and apart. -/
structure RowFits (h a : Nat → Nat) (n total : Nat) : Prop where
  more : roomOf h n < total
  fits : total ≤ roomOf h (n + 1)
  pos : ∀ k, k ≤ n → 0 < h k
  space : ∀ k, k ≤ n → inSpace (a k) (pieceLen h n total k) = true
  apart : ∀ k j, k < j → j ≤ n → a k + pieceLen h n total k ≤ a j ∨ a j + pieceLen h n total j ≤ a k

theorem RowFits.tail {h a : Nat → Nat} {n total : Nat} (hr : RowFits h a (n + 1) total) :
    RowFits (fun k => h (k + 1)) (fun k => a (k + 1)) n (total - h 0) where
  more := by
    have := hr.more
    rw [roomOf_succ] at this
    omega
  fits := by
    have := hr.fits
    rw [roomOf_succ] at this
    omega
  pos := fun k hk => hr.pos (k + 1) (by omega)
  space := fun k hk => by
    rw [← pieceLen_succ]
    exact hr.space (k + 1) (by omega)
  apart := fun k j hkj hj => by
    rw [← pieceLen_succ, ← pieceLen_succ]
    exact hr.apart (k + 1) (j + 1) (by omega) (by omega)

/-- The first buffer takes its piece, and the cursor moves to the next. -/
theorem devPlace_first {n fuel : Nat} {h a : Nat → Nat} (hm : fl.mapped = true) (hpack : fl.packing = false)
    (hoff : df.off = 0) (hlt : df.cidx < fl.cap) (hdist : n + 1 ≤ distOf df.cidx df.pidx fl.cap)
    (hslots : SlotsAre s fl df n h a) (hr : RowFits h a n bytes.length) (hlen : pieceLen h n bytes.length 0 = min bytes.length (h 0)) :
    devPlace fl (fuel + 1) bytes df s = devPlace fl fuel (bytes.drop (pieceLen h n bytes.length 0)) (devAdvanceSlot fl df)
      { s with buf := s.buf.putBytes (a 0) (bytes.take (pieceLen h n bytes.length 0)) } := by
  obtain ⟨hsize, haddr⟩ := hslots.head hlt
  have hne : df.cidx ≠ df.pidx := fun he => by
    rw [← he, distOf_self hlt] at hdist
    omega
  have hb : bytes ≠ [] := fun he => by
    have := hr.more
    rw [he] at this
    exact absurd this (Nat.not_lt_zero _)
  have hpiece : placedLen s fl df bytes = pieceLen h n bytes.length 0 := by
    rw [placedLen, hsize, hoff, hlen]
    rfl
  have hplace : placedAddr s fl df = a 0 := by
    rw [placedAddr, haddr, hoff]
    rfl
  have hstep := devPlace_step (s := s) (fuel := fuel) hm hlt hb hne (by rw [hoff, hsize]; exact hr.pos 0 (Nat.zero_le n))
    (by rw [hplace, hpiece]; exact hr.space 0 (Nat.zero_le n))
  rw [hstep, placedOne, hplace, hpiece, devMoveCursor, hpack]
  rfl

/-- A frame over several buffers, packing off: each takes its piece. -/
theorem devPlace_several {n fuel : Nat} {h a : Nat → Nat} (hm : fl.mapped = true) (hpack : fl.packing = false)
    (hoff : df.off = 0) (hlt : df.cidx < fl.cap) (hw : s.buf.wf) (hdist : n + 1 ≤ distOf df.cidx df.pidx fl.cap)
    (hslots : SlotsAre s fl df n h a) (hfuel : n < fuel) (hr : RowFits h a n bytes.length) :
    ∃ b, devPlace fl fuel bytes df s =
        .ok (some ({ df with cidx := addTo df.cidx fl.cap (n + 1), off := 0 }, { s with buf := b })) ∧
      HoldsPieces s.buf b a h n bytes := by
  have hcap : 0 < fl.cap.toNat := Nat.lt_of_le_of_lt (Nat.zero_le _) hlt
  induction n generalizing bytes df s h a fuel with
  | zero =>
    obtain _ | fuel := fuel
    · exact absurd hfuel (Nat.lt_irrefl 0)
    have hfits := hr.fits
    rw [roomOf_one] at hfits
    have hall : pieceLen h 0 bytes.length 0 = bytes.length := rfl
    refine ⟨_, (devPlace_first hm hpack hoff hlt hdist hslots hr (by omega)).trans ?_,
      .of_writes (putBytes_writes hw (a 0) bytes)⟩
    rw [hall, List.drop_length, List.take_length, devPlace_nil]
    rfl
  | succ n ih =>
    obtain _ | fuel := fuel
    · exact absurd hfuel (Nat.not_lt_zero _)
    have hmore := hr.more
    rw [roomOf_succ] at hmore
    have hfirst : pieceLen h (n + 1) bytes.length 0 = h 0 := pieceLen_zero h n bytes.length
    obtain ⟨b, hrest, hpieces⟩ := ih (bytes := bytes.drop (h 0)) (df := devAdvanceSlot fl df)
      (s := { s with buf := s.buf.putBytes (a 0) (bytes.take (h 0)) }) (fuel := fuel) rfl
      (addTo_lt 1 hcap) (Memory.putBytes_wf hw _ _) (distOf_incIdx_left hlt hdist) (hslots.tail hlt)
      (by omega) (by rw [List.length_drop]; exact hr.tail)
    refine ⟨b, ?_, .cons hw (by omega) hpieces fun k hk => ?_⟩
    · rw [devPlace_first hm hpack hoff hlt hdist hslots hr (by omega), hfirst, hrest]
      congr 4
      exact (addTo_addTo 1 (n + 1) hcap).trans (congrArg _ (Nat.add_comm 1 (n + 1)))
    · have := hr.apart 0 (k + 1) (Nat.succ_pos k) (by omega)
      rwa [hfirst] at this

/-! ## The statement -/

/-- The sizes that the slots from the device's cursor name. -/
def slotSize (s : State) (fl : FreeList) (d : DevFl) (k : Nat) : Nat :=
  fetchedSize s.cfg (slotEntry s fl ((d.cidx.toNat + k) % fl.cap.toNat))

/-- Their payload addresses. -/
def slotPayload (s : State) (fl : FreeList) (d : DevFl) (k : Nat) : Nat :=
  (slotEntry s fl ((d.cidx.toNat + k) % fl.cap.toNat)).addrHi.toNat * 16

theorem fetchedAddr_toNat (e : Fle) : (fetchedAddr e).toNat = e.addrHi.toNat * 16 :=
  (BitVec.toNat_append e.addrHi (0 : BitVec 4)).trans (by simp [Nat.shiftLeft_eq])

theorem slotsAre_slots (n : Nat) : SlotsAre s fl df n (slotSize s fl df) (slotPayload s fl df) :=
  fun _ _ => ⟨rfl, fetchedAddr_toNat _⟩

theorem slot_zero (hlt : df.cidx < fl.cap) : (df.cidx.toNat + 0) % fl.cap.toNat = df.cidx.toNat := Nat.mod_eq_of_lt hlt

/-- Buffers that are not empty hold a byte each. -/
theorem le_roomOf {h : Nat → Nat} {n k : Nat} (hpos : ∀ j, j ≤ n → 0 < h j) (hk : k ≤ n) : k ≤ roomOf h k := by
  induction k with
  | zero => exact Nat.zero_le _
  | succ k ih =>
    rw [roomOf, List.range_succ, List.map_append, List.sum_append, List.map_singleton, List.sum_singleton]
    exact Nat.add_le_add (ih (by omega)) (hpos k (by omega))

theorem RowFits.lt_total {h a : Nat → Nat} {n total : Nat} (hr : RowFits h a n total) : n < total :=
  Nat.lt_of_le_of_lt (le_roomOf hr.pos le_rfl) hr.more

/-- Settles O58: the skip, the frame of one buffer, and the frame of several, by the bytes that `devPlace` places. -/
theorem deviceReceives : Obligations.DeviceReceives := by
  intro s i q fl di df bytes fm hq hfl hdi hdf
  refine ⟨fun skip h => execDevRx_noCredit hq hfl hdi hdf h, fun hoff => ?_, fun hoff hne t ht => ?_,
    fun hc hb hlen hlt hlt' hm hm' hw hwb => ⟨fun hne hfits hs => ?_, fun n hpack hoff hdist => ?_⟩⟩
  · refine (?_ : execDevRx i bytes fm true s = execDevRx i bytes fm false s)
    rw [execDevRx_eq hq hfl hdi hdf, execDevRx_eq hq hfl hdi hdf, devStart_atStart hoff, devStart_atStart hoff]
  · exact execDevRx_skip hq hfl hdi hdf hoff hne ht
  · have hsize : slotSize s fl df 0 = fetchedSize s.cfg (slotEntry s fl df.cidx.toNat) := by
      rw [slotSize, slot_zero hlt]
    have haddr : slotPayload s fl df 0 + df.off.toNat = placedAddr s fl df := by
      rw [slotPayload, slot_zero hlt, placedAddr, fetchedAddr_toNat]
    have hfits' : df.off.toNat + bytes.length ≤ slotSize s fl df 0 := hfits
    have hs' : inSpace (slotPayload s fl df 0 + df.off.toNat) bytes.length = true := hs
    rw [hsize] at hfits'
    rw [haddr] at hs'
    obtain ⟨m, hrun, hentry⟩ := execDevRx_received (fm := fm) hq hfl hdi hdf hc hb hlen hlt' hm' hw
      (devPlace_one (s := s.begin) hm hlt hb hne hfits' hs')
    refine ⟨m, s.buf.putBytes (placedAddr s fl df) bytes, ?_, ?_, hentry⟩
    · refine (hrun.trans ?_ : execDevRx i bytes fm false s = _)
      rw [show fetchedSize s.begin.cfg (slotEntry s.begin fl df.cidx.toNat) = slotSize s fl df 0 from hsize.symm]
      rfl
    · have hwrites := putBytes_writes hwb (placedAddr s fl df) bytes
      rw [← haddr] at hwrites ⊢
      exact hwrites
  · intro sum len hmore hfits hall hapart
    have hrow : RowFits (slotSize s fl df) (slotPayload s fl df) n bytes.length :=
      ⟨hmore, hfits, fun k hk => (hall k hk).1, fun k hk => (hall k hk).2, hapart⟩
    obtain ⟨b, hplace, hat, hother⟩ := devPlace_several (s := s.begin) hm hpack hoff hlt hwb hdist (slotsAre_slots n)
      hrow.lt_total hrow
    obtain ⟨m, hrun, hentry⟩ := execDevRx_received (fm := fm) hq hfl hdi hdf hc hb hlen hlt' hm' hw hplace
    refine ⟨m, b, ?_, hat, hother, hentry⟩
    refine (hrun.trans ?_ : execDevRx i bytes fm false s = _)
    rw [← hoff]

end Sys2Proof.Machine
end

section
/-! PROOFS. Flits of a request written in the ring, what a commit leaves (43_egress_submit R307, R308), and the records
written on their own (30_encoding R122, R132 to R143). -/

namespace Sys2Proof.Machine

variable {s : State} {i k : Nat} {q : EgressQueue}

/-! ## Flits of a request -/

/-- Consecutive flits of a request that the ring has room for. -/
theorem writeFlits_part {fs : List Flit} (st k : Nat) (hm : q.mapped = true) (hc : 0 < q.cap.toNat)
    (hlen : fs.length ≤ 8 * q.cap.toNat) (hw : s.ring.wf) :
    ∃ m, writeFlits q st s k fs = .ok { s with ring := m } ∧ m.wf ∧
      WritesFlits s.ring m (fun n => wrFlitAddr q st (k + n)) fs :=
  writeFlits_writes hw (fun n _ => wrFlitAddr_inSpace hm hc st (k + n)) fun n p hnp hp =>
    wrFlitAddr_apart (by omega) (by omega)

theorem ceilDiv_eight (n : Nat) : ceilDiv n 8 = (n + 7) / 8 := rfl

theorem padDesc_length (fs : List Flit) : (padDesc fs).length = 8 * ceilDiv fs.length 8 := by
  rw [padDesc, List.length_append, List.length_replicate]
  unfold ceilDiv
  omega

/-- A request written at a descriptor, padded to its last one. -/
theorem writeWr_writes {fs : List Flit} (st : Nat) (hm : q.mapped = true) (hnd : ceilDiv fs.length 8 ≤ q.avail.toNat)
    (ha : q.avail < q.cap) (hw : s.ring.wf) :
    ∃ m, writeWr q st fs s = .ok { s with ring := m } ∧ m.wf ∧
      WritesFlits s.ring m (wrFlitAddr q st) (fs ++ List.replicate (8 * ceilDiv fs.length 8 - fs.length) 0) := by
  have ha' : q.avail.toNat < q.cap.toNat := ha
  have hlen : (padDesc fs).length ≤ 8 * q.cap.toNat := by
    rw [padDesc_length]
    omega
  obtain ⟨m, hrun, hwf, hm⟩ := writeFlits_part st 0 hm (Nat.lt_of_le_of_lt (Nat.zero_le _) ha') hlen hw
  simp only [Nat.zero_add] at hm
  exact ⟨m, hrun, hwf, hm⟩

/-! ## What a commit leaves -/

theorem quietCommit_iff {c : Cfg} {nd : Nat} : quietCommit c q nd = true ↔
    nd ≤ q.avail.toNat ∧ q.avail < q.cap ∧ q.pending.toNat + nd < c.eqDbBatch ∧ q.pending.toNat + nd < 65536 := by
  simp only [quietCommit, Bool.and_eq_true, decide_eq_true_eq, and_assoc]

theorem pending_committed {nd cr np : Nat} (h : q.pending.toNat + nd < 65536) :
    (committed q nd cr np).pending.toNat = q.pending.toNat + nd := by
  simp only [committed, BitVec.toNat_add, BitVec.toNat_ofNat]
  omega

theorem commit_eq {nd cr np : Nat} (hnd : nd ≤ q.avail.toNat) : commit nd cr np q s =
    if s.cfg.eqDbBatch ≤ (committed q nd cr np).pending.toNat then notifyEq (committed q nd cr np) s
    else .ok (committed q nd cr np, s) := if_neg (Nat.not_lt.mpr hnd)

/-- Below the doorbell batch a commit only moves the producer side on. -/
theorem commit_quiet {nd cr np : Nat} (h : quietCommit s.cfg q nd = true) :
    commit nd cr np q s = .ok (committed q nd cr np, s) := by
  obtain ⟨hnd, -, hbatch, h16⟩ := quietCommit_iff.mp h
  rw [commit_eq hnd, pending_committed h16, if_neg (Nat.not_le.mpr hbatch)]

/-- At the doorbell batch everything pending is told of (43_egress_submit R313). -/
theorem commit_batch {nd cr np : Nat} (hnd : nd ≤ q.avail.toNat) (h16 : q.pending.toNat + nd < 65536)
    (hbatch : s.cfg.eqDbBatch ≤ q.pending.toNat + nd) : commit nd cr np q s = notifyEq (committed q nd cr np) s := by
  rw [commit_eq hnd, pending_committed h16, if_pos hbatch]

/-! ## Parts of a request -/

theorem Lso.clean_of {r : Lso} (ha : r.rsvdA = 0) (hb : r.rsvdB = 0) (hc : r.rsvdC = 0) : r.clean = true := by
  simp [Lso.clean, ha, hb, hc]

theorem Txpkt.clean_of {r : Txpkt} (h : r.rsvd = 0) : r.clean = true := decide_eq_true h

/-- A part of a request at its flit, on a queue that takes requests. -/
theorem writePart_writes {legal : Bool} {fs : List Flit} (hp : s.panic = false) (hq : s.eqAt i = some q)
    (hact : q.state = .active) (hm : q.mapped = true) (ha : q.avail < q.cap) (hk : 2 ≤ k) (hw : s.ring.wf)
    (hl : legal = true) (hfit : k + fs.length ≤ s.cfg.wrMaxFlits ∧ (k + fs.length + 7) / 8 ≤ q.avail.toNat) :
    ∃ m, runQe s (writePart i k legal fs) = .next { s with ring := m, ret := .ok, raised := [] } ∧
      WritesFlits s.ring m (fun n => wrFlitAddr q q.pidx.toNat (k + n)) fs := by
  obtain ⟨hmax, havail⟩ := hfit
  have hmax : k + fs.length ≤ s.begin.cfg.wrMaxFlits := hmax
  have ha' : q.avail.toNat < q.cap.toNat := ha
  obtain ⟨m, hrun, -, hwrites⟩ := writeFlits_part (s := s.begin) (fs := fs) q.pidx.toNat k hm
    (Nat.lt_of_le_of_lt (Nat.zero_le _) ha') (by omega) hw
  have hlegal : (!legal || decide (q.state = .stalled) || decide (k < 2) || decide (s.begin.cfg.wrMaxFlits < k + fs.length) ||
      decide (q.avail.toNat < ceilDiv (k + fs.length) 8)) = false := by
    have hstate : decide (q.state = .stalled) = false := by
      rw [hact]
      rfl
    rw [ceilDiv_eight, hl, hstate, decide_eq_false (Nat.not_lt.mpr hk), decide_eq_false (Nat.not_lt.mpr hmax),
      decide_eq_false (Nat.not_lt.mpr havail)]
    rfl
  refine ⟨m, ?_, hwrites⟩
  have hpart : writePart i k legal fs s.begin = .ok (({ s.begin with ring := m } : State).setEq i q, .ok) := by
    refine (onEq_eq (s := s.begin) hq).trans ?_
    rw [refusesSubmit_eq_false (.inl hact), if_neg Bool.false_ne_true, hlegal, if_neg Bool.false_ne_true, hrun]
    rfl
  rw [runQe_ok hp hpart]
  simp only [State.setEq, State.answer, State.begin, set_self hq]

theorem runQe_writePart_refuse {legal : Bool} {fs : List Flit} {e : Exc} (hp : s.panic = false) (hq : s.eqAt i = some q)
    (h : (refusesSubmit q = true ∧ e = .doomed) ∨ (refusesSubmit q = false ∧ legal = false ∧ e = .badarg)) :
    runQe s (writePart i k legal fs) = .next (takeRefusal s e) := by
  refine runQe_refuse hp (onEq_refuse (s := s.begin) hq ?_)
  obtain ⟨hr, rfl⟩ | ⟨hr, rfl, rfl⟩ := h
  · rw [if_pos hr]
    rfl
  · rw [hr, if_neg Bool.false_ne_true]
    rfl

theorem sglLegal_iff {c : Cfg} {segs : List PktSeg} :
    (decide (1 ≤ segs.length) && decide (segs.length ≤ c.sglMaxSegs)) = true ↔
      segs ≠ [] ∧ segs.length ≤ c.sglMaxSegs := by
  rw [Bool.and_eq_true, decide_eq_true_iff, decide_eq_true_iff]
  exact and_congr_left' List.length_pos_iff

theorem parts_doomed {l : Lso} {p : Txpkt} {segs : List PktSeg} {data : List Byte} (hp : s.panic = false)
    (hq : s.eqAt i = some q) (hd : q.state = .doomed ∨ q.state = .dead) :
    ∀ j ∈ [Instr.lso i k l, .txpkt i k p, .sgl i k segs, .immediateData i k data],
      exec j s = .next { s with ret := .refused .doomed, raised := [.doomed] } := by
  have href {legal : Bool} {fs : List Flit} : runQe s (writePart i k legal fs) = .next (takeRefusal s .doomed) :=
    runQe_writePart_refuse hp hq (.inl ⟨refusesSubmit_iff.mpr hd, rfl⟩)
  simp only [List.forall_mem_cons]
  exact ⟨href, href, href, href, nofun⟩

/-! ## A free-list entry -/

theorem execFle_writes {fl : FreeList} {r : Fle} (hp : s.panic = false) (hfl : s.flAt i = some fl)
    (hlive : fl.doomed = false) (hr : fl.inRange = true) (hm : fl.mapped = true)
    (hclass : r.hwidx.toNat < s.cfg.bufferSizes.length) (hfull : incIdx fl.pidx fl.cap ≠ fl.cidx) (hw : s.ring.wf) :
    ∃ m, execFle i r s = .next { s with ring := m, ret := .ok, raised := [] } ∧
      WritesFlits s.ring m (fun _ => fl.base.toNat + 8 * fl.pidx.toNat) [r.addrHi ++ r.hwidx] := by
  obtain ⟨p, hiq, hpfl⟩ := flAt_eq_some.mp hfl
  obtain ⟨hpidx, -⟩ := FreeList.inRange_iff.mp hr
  obtain ⟨m, hrun, -, hwrites⟩ := ringWrite_writes (s := s.begin) (encodeFle r) (flSlot_inSpace hm hpidx) hw
  refine ⟨m, ?_, hwrites⟩
  have hgood : (decide (s.begin.cfg.bufferSizes.length ≤ r.hwidx.toNat) ||
      decide (incIdx fl.pidx fl.cap = fl.cidx)) = false := by
    have hclass : r.hwidx.toNat < s.begin.cfg.bufferSizes.length := hclass
    rw [decide_eq_false (Nat.not_le.mpr hclass), decide_eq_false hfull]
    rfl
  have hbody : (if fl.doomed then refuseDoomed
      else if decide (s.begin.cfg.bufferSizes.length ≤ r.hwidx.toNat) || decide (incIdx fl.pidx fl.cap = fl.cidx) then refuseBadarg
      else do
        let t ← ringWrite s.begin (flSlotAddr fl fl.pidx.toNat) (encodeFle r)
        return (fl, t, .ok)) = (.ok (fl, { s.begin with ring := m }, .ok) : Res (FreeList × State × Ret)) := by
    rw [hlive, if_neg Bool.false_ne_true, hgood, if_neg Bool.false_ne_true, hrun]
    rfl
  have hstep : execFle i r s = _ := runQe_onFl hp hiq hpfl hbody
  rw [hstep, ← hpfl]
  simp only [State.setIq, State.answer, State.begin, set_self hiq]

/-! ## Words and bursts -/

theorem mmio_ownRegister {mech : DbMech} {udb : Addr} {reg : DoorbellReg}
    (h : reg = if mech = .reg then .db else .udb udb) :
    DoorbellReg.mmio reg = if mech = .reg then MmioReg.db else .udb udb := by
  rw [h]
  split <;> rfl

theorem encodeDbw_qid (r : Dbw) : (encodeDbw r).extractLsb' 16 16 = r.qid := congrArg Dbw.qid (decodeDbw_encodeDbw r)

theorem encodeDbw_pidxInc (r : Dbw) : (encodeDbw r).extractLsb' 0 16 = r.pidxInc :=
  congrArg Dbw.pidxInc (decodeDbw_encodeDbw r)

theorem encodeIcw_iqid (r : Icw) : (encodeIcw r).extractLsb' 20 12 = r.iqid := congrArg Icw.iqid (decodeIcw_encodeIcw r)

theorem encodeIcw_timerIdx (r : Icw) : (encodeIcw r).extractLsb' 17 3 = r.timerIdx :=
  congrArg Icw.timerIdx (decodeIcw_encodeIcw r)

theorem encodeIcw_cntEn (r : Icw) : (encodeIcw r).getLsbD 16 = r.cntEn := congrArg Icw.cntEn (decodeIcw_encodeIcw r)

theorem encodeIcw_cidxInc (r : Icw) : (encodeIcw r).extractLsb' 0 16 = r.cidxInc :=
  congrArg Icw.cidxInc (decodeIcw_encodeIcw r)

theorem execDbw_fl {p : IngressQueue} {fl : FreeList} {d : DevFl} {reg : DoorbellReg} {r : Dbw} (hp : s.panic = false)
    (hiq : s.iqAt i = some p) (hpfl : p.fl = some fl) (h : OnlyFl s r.qid i fl) (hd : s.devFlAt i = some d)
    (h0 : r.pidxInc ≠ 0) (hmax : r.pidxInc.toNat ≤ s.cfg.dbIncMax) (hpend : r.pidxInc ≤ fl.pending)
    (hdist : r.pidxInc.toNat ≤ distOf d.pidx fl.pidx fl.cap)
    (hreg : reg = if fl.dbMech = .reg then .db else .udb fl.udbAddr) :
    execDbw reg r s = .next { mmioWrite s (.word (DoorbellReg.mmio reg) (r.qid ++ r.pidxInc)) with
      iq := s.iq.set i (some { p with fl := some { fl with pending := fl.pending - r.pidxInc } })
      ret := .ok, raised := [] } := by
  have halone := writeAlone_fl (v := encodeDbw r) (encodeDbw_qid r ▸ h) hiq hpfl hd
    (encodeDbw_pidxInc r ▸ h0) (encodeDbw_pidxInc r ▸ hmax) (encodeDbw_pidxInc r ▸ hpend) (encodeDbw_pidxInc r ▸ hdist)
    (mmio_ownRegister hreg)
  rw [encodeDbw_pidxInc] at halone
  exact execWrite_ok hp halone

theorem execDbw_eq {d : DevEq} {reg : DoorbellReg} {r : Dbw} (hp : s.panic = false)
    (h : OnlyEq s r.qid i q) (hd : s.devEqAt i = some d) (h0 : r.pidxInc ≠ 0)
    (hmax : r.pidxInc.toNat ≤ s.cfg.dbIncMax) (hpend : r.pidxInc ≤ q.pending)
    (hdist : r.pidxInc.toNat ≤ distOf d.pidx q.pidx q.cap)
    (hreg : reg = if q.dbMech = .reg then .db else .udb q.udbAddr) :
    execDbw reg r s = .next { mmioWrite s (.word (DoorbellReg.mmio reg) (r.qid ++ r.pidxInc)) with
      eq := s.eq.set i (some { q with pending := q.pending - r.pidxInc }), ret := .ok, raised := [] } := by
  have halone := writeAlone_eq (v := encodeDbw r) (encodeDbw_qid r ▸ h) hd
    (encodeDbw_pidxInc r ▸ h0) (encodeDbw_pidxInc r ▸ hmax) (encodeDbw_pidxInc r ▸ hpend) (encodeDbw_pidxInc r ▸ hdist)
    (mmio_ownRegister hreg)
  rw [encodeDbw_pidxInc] at halone
  exact execWrite_ok hp halone

theorem execIcw_writes {p : IngressQueue} {d : DevIq} {r : Icw} (hp : s.panic = false) (h : OnlyIq s r.iqid i p)
    (hd : s.devIqAt i = some d) (h6 : r.timerIdx ≠ 6) (h7 : r.timerIdx = 7 → r.cntEn = false)
    (hn : r.cidxInc.toNat ≤ p.cap.toNat - 1 - (d.credits.toNat + distOf p.cidx d.pidx p.cap)) :
    execIcw r s = .next { mmioWrite s (.word .icw (encodeIcw r)) with ret := .ok, raised := [] } := by
  refine execWrite_ok hp (writeAlone_icw (encodeIcw_iqid r ▸ h) hd ?_ ?_ ?_)
  · rwa [encodeIcw_timerIdx]
  · rwa [encodeIcw_timerIdx, encodeIcw_cntEn]
  · rwa [encodeIcw_cidxInc]

/-- Settles O52: the parts of requests, the free-list entry, and the writes that the device takes at once. -/
theorem recordsWritten : Obligations.RecordsWritten := by
  refine ⟨fun s i k q hp hq hact hm ha hk hw => ?_, fun s i k q l p segs data hp hq hd => parts_doomed hp hq hd,
    fun s i fl r hp hfl hlive hr hm hc hf hw => execFle_writes hp hfl hlive hr hm hc hf hw, ?_, ?_, ?_, ?_⟩
  · have hpart {legal : Bool} {fs : List Flit} (hl : legal = true)
        (hfit : k + fs.length ≤ s.cfg.wrMaxFlits ∧ (k + fs.length + 7) / 8 ≤ q.avail.toNat) :=
      writePart_writes (i := i) hp hq hact hm ha hk hw hl hfit
    refine ⟨fun r ha hb hc => hpart (Lso.clean_of ha hb hc), fun r hr => hpart (Txpkt.clean_of hr),
      fun segs hne hmax => hpart (sglLegal_iff.mpr ⟨hne, hmax⟩), fun segs hbad => ?_,
      fun data hne => hpart (decide_eq_true (List.length_pos_iff.mpr hne))⟩
    refine runQe_writePart_refuse hp hq (.inr ⟨refusesSubmit_eq_false (.inl hact), ?_, rfl⟩)
    rw [← Bool.not_eq_true, sglLegal_iff]
    rintro ⟨hne, hmax⟩
    exact hbad.elim hne (Nat.not_lt.mpr hmax)
  · intro s i p fl d reg r hp hiq hpfl h hd h0 hmax hpend hdist hreg
    have hrun := execDbw_fl hp hiq hpfl h hd h0 hmax hpend hdist hreg
    cases reg <;> exact hrun
  · intro s i q d reg r hp h hd h0 hmax hpend hdist hreg
    have hrun := execDbw_eq hp h hd h0 hmax hpend hdist hreg
    cases reg <;> exact hrun
  · exact fun s i q d r hp h hd h6 h7 hn => execIcw_writes hp h hd h6 h7 hn
  · exact fun s i a q d fs hp h hd hm hlt hdist hpend hfs =>
      execWrite_ok hp (writeAlone_burst h hd hm hlt hdist hpend hfs)

end Sys2Proof.Machine
end

section
/-! PROOFS. Work requests placed as they stand (30_encoding R121, R131, R134 to R139), and SUBMIT_WR (43_egress_submit
R310). -/

namespace Sys2Proof.Machine

variable {s : State} {i : Nat} {q : EgressQueue}

/-! ## Maps -/

/-- What the oracle has answered: the tape's head, when it is long enough (log 5). -/
def Answered (e : Oracles) (toks : List Nat) (env : Oracles) : Prop :=
  ∀ answers rest, e.dmaMap = answers ++ rest → answers.length = toks.length →
    toks = answers ∧ env = { e with dmaMap := rest }

theorem askMap_eq (s : State) : ∃ tok env, askMap s = (tok, { s with env := env }) ∧
    ∀ a rest, s.env.dmaMap = a :: rest → tok = a ∧ env = { s.env with dmaMap := rest } := by
  refine ⟨(askMap s).1, (askMap s).2.env, rfl, fun a rest h => ?_⟩
  rw [askMap, h]
  exact ⟨rfl, rfl⟩

theorem withMaps_takeMap {a p : Nat} {ms : List TxMap} : withMaps ms (takeMap a p q) = withMaps (⟨a, p⟩ :: ms) q := by
  have hfree : q.mapsFree - 1 - BitVec.ofNat 16 ms.length = q.mapsFree - BitVec.ofNat 16 (TxMap.mk a p :: ms).length := by
    rw [List.length_cons, BitVec.ofNat_add, add_comm, sub_sub]
    rfl
  rw [withMaps, withMaps, ← hfree]
  simp [takeMap, List.append_assoc]

theorem withMaps_zipWith {toks pkts : List Nat} (h : toks.length = pkts.length) :
    withMaps (List.zipWith TxMap.mk toks pkts) q = { q with
      maps := q.maps ++ List.zipWith TxMap.mk toks pkts
      mapsFree := q.mapsFree - BitVec.ofNat 16 pkts.length } := by
  rw [withMaps, List.length_zipWith, h, Nat.min_self]

/-- Maps taken for the packets of a request: one answer each, in order. -/
theorem takeMaps_withMaps (pkts : List Nat) (q : EgressQueue) (s : State) : ∃ toks env,
    toks.length = pkts.length ∧ takeMaps pkts q s = (withMaps (List.zipWith TxMap.mk toks pkts) q, { s with env := env }) ∧
      Answered s.env toks env := by
  induction pkts generalizing q s with
  | nil =>
    refine ⟨[], s.env, rfl, by rw [List.zipWith_nil_left, withMaps_nil]; rfl, fun answers rest h hlen => ?_⟩
    obtain rfl := List.length_eq_zero_iff.mp hlen
    exact ⟨rfl, by rw [← show s.env.dmaMap = rest from h]⟩
  | cons p pkts ih =>
    obtain ⟨tok, env, hask, htok⟩ := askMap_eq s
    obtain ⟨toks, env', hlen, hrun, hans⟩ := ih (takeMap tok p q) { s with env := env }
    refine ⟨tok :: toks, env', by rw [List.length_cons, hlen, List.length_cons], ?_, fun answers rest h hl => ?_⟩
    · rw [takeMaps, hask, hrun, withMaps_takeMap]
      rfl
    · obtain _ | ⟨a, answers⟩ := answers
      · cases hl
      · obtain ⟨rfl, rfl⟩ := htok a (answers ++ rest) h
        obtain ⟨rfl, rfl⟩ := hans answers rest rfl (Nat.succ.inj hl)
        exact ⟨rfl, rfl⟩

/-! ## Placing -/

/-- Below the doorbell batch a request is written at the producer index, padded, and committed. -/
theorem placeRequest_quiet {fs : List Flit} {cr np : Nat} (hm : q.mapped = true)
    (hc : quietCommit s.cfg q (ceilDiv fs.length 8) = true) (hw : s.ring.wf) :
    ∃ m, placeRequest fs cr np q s = .ok (committed q (ceilDiv fs.length 8) cr np, { s with ring := m }, .ok) ∧
      WritesFlits s.ring m (wrFlitAddr q q.pidx.toNat)
        (fs ++ List.replicate (8 * ceilDiv fs.length 8 - fs.length) 0) := by
  obtain ⟨hnd, ha, -⟩ := quietCommit_iff.mp hc
  obtain ⟨m, hrun, -, hwrites⟩ := writeWr_writes (s := s) q.pidx.toNat hm hnd ha hw
  refine ⟨m, ?_, hwrites⟩
  rw [placeRequest, hrun, Res.bind_ok, commit_quiet (s := { s with ring := m }) hc]
  rfl

/-- The queue takes a request of `n` flits now, without a doorbell. -/
structure TakesNow (s : State) (q : EgressQueue) (n : Nat) : Prop where
  active : q.state = .active
  closed : q.txpkts.isOpen = false
  mapped : q.mapped = true
  ring : s.ring.wf
  limit : n ≤ s.cfg.wrMaxFlits
  quiet : quietCommit s.cfg q (ceilDiv n 8) = true

theorem TakesNow.placeable {n : Nat} (h : TakesNow s q n) : placeable s.cfg q n = true := by
  obtain ⟨hnd, -⟩ := quietCommit_iff.mp h.quiet
  exact placeable_iff.mpr ⟨h.active, h.closed, h.limit, hnd⟩

theorem TakesNow.accepts {n : Nat} (h : TakesNow s q n) : refusesSubmit q = false := refusesSubmit_eq_false (.inl h.active)

theorem header_length (op : BitVec 8) (h : WrHeader) (body : List Flit) :
    (encodeHeader op h ++ body).length = 2 + body.length := by
  rw [List.length_append]
  rfl

/-! ## The instructions -/

section
variable {pkt : Nat} {pkts : List Nat} {fs body : List Flit} {h : WrHeader} {b : PktBody} {rs : List PktRecord}

theorem execWrReserved00_badarg (hp : s.panic = false) (hq : s.eqAt i = some q) (hr : refusesSubmit q = false) :
    execWrReserved00 i fs s = .next (takeRefusal s .badarg) :=
  runQe_onEq_refuse (f := fun _ q => if refusesSubmit q then refuseDoomed else refuseBadarg) hp hq
    (if_neg (by rw [hr]; exact Bool.false_ne_true))

theorem execWrOpaque_placed (hp : s.panic = false) (hq : s.eqAt i = some q) (hn : TakesNow s q fs.length)
    (hgood : badRequest s.cfg fs = false) : ∃ m,
    WritesFlits s.ring m (wrFlitAddr q q.pidx.toNat)
      (fs ++ List.replicate (8 * ceilDiv fs.length 8 - fs.length) 0) ∧
    execWrOpaque i fs s = .next { s with
      eq := s.eq.set i (some (committed q (ceilDiv fs.length 8) 0 0)), ring := m, ret := .ok, raised := [] } := by
  obtain ⟨m, hrun, hm⟩ := placeRequest_quiet (s := s.begin) (cr := 0) (np := 0) hn.mapped hn.quiet hn.ring
  refine ⟨m, hm, ?_⟩
  have hcond : (badRequest s.begin.cfg fs || !placeable s.begin.cfg q fs.length) = false := by
    rw [show badRequest s.begin.cfg fs = false from hgood, show placeable s.begin.cfg q fs.length = true from hn.placeable]
    rfl
  refine (runQe_onEq (t := { s.begin with ring := m }) (r := .ok) (e' := committed q (ceilDiv fs.length 8) 0 0) hp hq ?_ :
    execWrOpaque i fs s = _)
  dsimp only
  rw [hn.accepts, if_neg Bool.false_ne_true, hcond, if_neg Bool.false_ne_true, hrun]

theorem pktRefused_eq_false (hn : TakesNow s q (2 + body.length)) (hflow : h.flowid = q.flowid) :
    (!placeable s.begin.cfg q (2 + body.length) || decide (h.flowid ≠ q.flowid)) = false := by
  rw [show placeable s.begin.cfg q (2 + body.length) = true from hn.placeable, hflow]
  simp

theorem execEthTxPkt_imm {data : List Byte} (hp : s.panic = false) (hq : s.eqAt i = some q)
    (hn : TakesNow s q (2 + body.length)) (hflow : h.flowid = q.flowid) (hb : pktParts h body = some b)
    (hd : b.payload = .imm data) : ∃ m,
    WritesFlits s.ring m (wrFlitAddr q q.pidx.toNat) (encodeHeader 0x01 h ++ body ++
      List.replicate (8 * ceilDiv (encodeHeader 0x01 h ++ body).length 8 - (encodeHeader 0x01 h ++ body).length) 0) ∧
    execEthTxPkt i pkt h body s = .next { s with
      eq := s.eq.set i (some (committed q (ceilDiv (2 + body.length) 8) 0 1)), ring := m
      out := s.out ++ [.freePkt pkt], ret := .ok, raised := [] } := by
  obtain ⟨m, hrun, hm⟩ := placeRequest_quiet (s := s.begin.emit (.freePkt pkt)) (fs := encodeHeader 0x01 h ++ body)
    (cr := 0) (np := 1) hn.mapped (header_length _ _ _ ▸ hn.quiet) hn.ring
  refine ⟨m, hm, ?_⟩
  rw [header_length] at hrun
  refine (runQe_onEq (t := { s.begin.emit (.freePkt pkt) with ring := m }) (r := .ok)
    (e' := committed q (ceilDiv (2 + body.length) 8) 0 1) hp hq ?_ : execEthTxPkt i pkt h body s = _)
  dsimp only
  rw [hn.accepts, if_neg Bool.false_ne_true, pktRefused_eq_false hn hflow, if_neg Bool.false_ne_true, hb]
  dsimp only
  rw [hd]
  exact hrun

theorem execEthTxPkt_tooManySegs {segs : List PktSeg} (hp : s.panic = false) (hq : s.eqAt i = some q)
    (hr : refusesSubmit q = false) (hb : pktParts h body = some b) (hd : b.payload = .sgl segs)
    (hmax : s.cfg.sglMaxSegs < segs.length) : execEthTxPkt i pkt h body s = .next (takeRefusal s .badarg) := by
  refine runQe_refuse hp (onEq_refuse (s := s.begin) hq ?_)
  rw [hr, if_neg Bool.false_ne_true]
  split
  · rfl
  · rw [hb]
    dsimp only
    rw [hd]
    exact if_pos (by rw [decide_eq_true (show s.begin.cfg.sglMaxSegs < segs.length from hmax), Bool.or_true])

theorem execEthTxPkt_sgl {segs : List PktSeg} (hp : s.panic = false) (hq : s.eqAt i = some q)
    (hn : TakesNow s q (2 + body.length)) (hflow : h.flowid = q.flowid) (hb : pktParts h body = some b)
    (hd : b.payload = .sgl segs) (hfree : q.mapsFree ≠ 0) (hmax : segs.length ≤ s.cfg.sglMaxSegs) : ∃ m tok env,
    WritesFlits s.ring m (wrFlitAddr q q.pidx.toNat) (encodeHeader 0x01 h ++ body ++
      List.replicate (8 * ceilDiv (encodeHeader 0x01 h ++ body).length 8 - (encodeHeader 0x01 h ++ body).length) 0) ∧
    (∀ a rest, s.env.dmaMap = a :: rest → tok = a ∧ env = { s.env with dmaMap := rest }) ∧
    execEthTxPkt i pkt h body s = .next { s with
      eq := s.eq.set i (some (committed (takeMap tok pkt q) (ceilDiv (2 + body.length) 8) 1 1)), ring := m, env := env
      ret := .ok, raised := [] } := by
  obtain ⟨tok, env, hask, htok⟩ := askMap_eq s.begin
  obtain ⟨m, hrun, hm⟩ := placeRequest_quiet (s := { s.begin with env := env }) (q := takeMap tok pkt q)
    (fs := encodeHeader 0x01 h ++ body) (cr := 1) (np := 1) hn.mapped (header_length _ _ _ ▸ hn.quiet) hn.ring
  refine ⟨m, tok, env, hm, htok, ?_⟩
  rw [header_length] at hrun
  have hcond : (decide (q.mapsFree = 0) || decide (s.begin.cfg.sglMaxSegs < segs.length)) = false := by
    rw [decide_eq_false hfree, decide_eq_false (Nat.not_lt.mpr (show segs.length ≤ s.begin.cfg.sglMaxSegs from hmax))]
    rfl
  refine (runQe_onEq (t := { s.begin with env := env, ring := m }) (r := .ok)
    (e' := committed (takeMap tok pkt q) (ceilDiv (2 + body.length) 8) 1 1) hp hq ?_ : execEthTxPkt i pkt h body s = _)
  dsimp only
  rw [hn.accepts, if_neg Bool.false_ne_true, pktRefused_eq_false hn hflow, if_neg Bool.false_ne_true, hb]
  dsimp only
  rw [hd]
  dsimp only
  rw [hcond, if_neg Bool.false_ne_true, takeMaps, takeMaps, hask]
  exact hrun

theorem execEthTxPkts_tooManySegs (hp : s.panic = false) (hq : s.eqAt i = some q) (hr : refusesSubmit q = false)
    (hrs : pktsParts h body = some rs) (hmax : ∃ r ∈ rs, s.cfg.sglMaxSegs < r.segs.length) :
    execEthTxPkts i pkts h body s = .next (takeRefusal s .badarg) := by
  refine runQe_refuse hp (onEq_refuse (s := s.begin) hq ?_)
  rw [hr, if_neg Bool.false_ne_true]
  split
  · rfl
  · rw [hrs]
    obtain ⟨r, hr, hlen⟩ := hmax
    exact if_pos (List.any_eq_true.mpr ⟨r, hr, decide_eq_true hlen⟩)

/-- What an `ETH_TX_PKTS` request needs beside its place (30_encoding R138). -/
structure PktsLegal (s : State) (q : EgressQueue) (pkts : List Nat) (h : WrHeader) : Prop where
  some : pkts ≠ []
  count : pkts.length = h.npkt.toNat
  max : pkts.length ≤ s.cfg.txpktsMaxPkts
  maps : pkts.length ≤ q.mapsFree.toNat
  plen : h.plen.toNat < 2 ^ s.cfg.txpktsLenBits

theorem execEthTxPkts_placed (hp : s.panic = false) (hq : s.eqAt i = some q) (hn : TakesNow s q (2 + body.length))
    (hflow : h.flowid = q.flowid) (hrs : pktsParts h body = some rs) (hl : PktsLegal s q pkts h)
    (hmax : ∀ r ∈ rs, r.segs.length ≤ s.cfg.sglMaxSegs) : ∃ m toks env, toks.length = pkts.length ∧
    WritesFlits s.ring m (wrFlitAddr q q.pidx.toNat) (encodeHeader 0x02 h ++ body ++
      List.replicate (8 * ceilDiv (encodeHeader 0x02 h ++ body).length 8 - (encodeHeader 0x02 h ++ body).length) 0) ∧
    Answered s.env toks env ∧
    execEthTxPkts i pkts h body s = .next { s with
      eq := s.eq.set i (some (committed (withMaps (List.zipWith TxMap.mk toks pkts) q) (ceilDiv (2 + body.length) 8) pkts.length pkts.length))
      ring := m, env := env, ret := .ok, raised := [] } := by
  obtain ⟨toks, env, hlen, htake, hans⟩ := takeMaps_withMaps pkts q s.begin
  obtain ⟨m, hrun, hm⟩ := placeRequest_quiet (s := { s.begin with env := env }) (q := withMaps (List.zipWith TxMap.mk toks pkts) q)
    (fs := encodeHeader 0x02 h ++ body) (cr := pkts.length) (np := pkts.length) hn.mapped
    (header_length _ _ _ ▸ hn.quiet) hn.ring
  refine ⟨m, toks, env, hlen, hm, hans, ?_⟩
  rw [header_length] at hrun
  have hlegal : (!placeable s.begin.cfg q (2 + body.length) || decide (h.flowid ≠ q.flowid) || decide (pkts = []) ||
      decide (pkts.length ≠ h.npkt.toNat) || decide (s.begin.cfg.txpktsMaxPkts < pkts.length) ||
      decide (q.mapsFree.toNat < pkts.length) || decide (2 ^ s.begin.cfg.txpktsLenBits ≤ h.plen.toNat)) = false := by
    rw [pktRefused_eq_false hn hflow, decide_eq_false hl.some, decide_eq_false (not_not.mpr hl.count),
      decide_eq_false (Nat.not_lt.mpr (show pkts.length ≤ s.begin.cfg.txpktsMaxPkts from hl.max)),
      decide_eq_false (Nat.not_lt.mpr hl.maps),
      decide_eq_false (Nat.not_le.mpr (show h.plen.toNat < 2 ^ s.begin.cfg.txpktsLenBits from hl.plen))]
    rfl
  have hsegs : rs.any (fun r => decide (s.begin.cfg.sglMaxSegs < r.segs.length)) = false := by
    rw [List.any_eq_false]
    exact fun r hr => decide_eq_true_iff.not.mpr (Nat.not_lt.mpr (hmax r hr))
  refine (runQe_onEq (t := { s.begin with env := env, ring := m }) (r := .ok)
    (e' := committed (withMaps (List.zipWith TxMap.mk toks pkts) q) (ceilDiv (2 + body.length) 8) pkts.length pkts.length) hp hq ?_ :
    execEthTxPkts i pkts h body s = _)
  dsimp only
  rw [hn.accepts, if_neg Bool.false_ne_true, hlegal, if_neg Bool.false_ne_true, hrs]
  dsimp only
  rw [hsegs, if_neg Bool.false_ne_true, htake]
  exact hrun

end

/-! ## SUBMIT_WR -/

/-- As many slots as one word may tell of are told of in one word. -/
theorem doorbellWords_one {c : Cfg} {reg : MmioReg} {qid : BitVec 16} {n : Nat} (h0 : 0 < n) (hmax : n ≤ c.dbIncMax) :
    doorbellWords c reg qid n = [.word reg (qid ++ BitVec.ofNat 16 n)] := by
  have hincs : doorbellIncs c.dbIncMax n = [n] := by
    rw [doorbellIncs]
    obtain heq | hlt := Nat.eq_or_lt_of_le hmax
    · rw [← heq, Nat.div_self h0, Nat.mod_self]
      rfl
    · rw [Nat.div_eq_of_lt hlt, Nat.mod_eq_of_lt hlt, if_neg (by omega)]
      rfl
  rw [doorbellWords, dbIncLimit_eq (by omega), hincs]
  rfl

section
variable {fs : List Flit}

/-- SUBMIT_WR of a request that the credits are there for, on an Active queue with a closed accumulator. -/
theorem submitWr_writes {m : Memory} (hact : q.state = .active) (hopen : q.txpkts.isOpen = false)
    (hgood : badRequest s.cfg fs = false) (hnd : ceilDiv fs.length 8 ≤ q.avail.toNat)
    (hw : writeWr q q.pidx.toNat fs s = .ok { s with ring := m }) :
    submitWr i fs q s = commit (ceilDiv fs.length 8) 0 0 q { s with ring := m } >>= fun r => .ok (r.1, r.2, .ok) := by
  have hst : q.state ≠ .stalled := by
    rw [hact]
    nofun
  rw [submitWr, refusesSubmit_eq_false (.inl hact), if_neg Bool.false_ne_true, hgood, if_neg Bool.false_ne_true,
    if_neg hst, flushIfOpen, hopen, if_neg Bool.false_ne_true, Res.bind_ok]
  dsimp only
  rw [if_neg (Nat.not_lt.mpr hnd), hw]
  rfl

theorem mmioWrite_begin_ring (m : Memory) (w : MmioWrite) : mmioWrite { s.begin with ring := m } w =
    { mmioWrite { s with ring := m } w with ret := .none, raised := [] } :=
  mmioWrite_answered { s with ring := m } w .none []

theorem answer_setEq_mmioWrite (w : MmioWrite) (e : EgressQueue) :
    (State.setEq { mmioWrite s w with ret := .none, raised := [] } i e).answer .ok =
      { mmioWrite s w with eq := s.eq.set i (some e), ret := .ok, raised := [] } := by
  simp only [State.setEq, State.answer, mmioWrite_eq]

theorem submitWr_quiet (hm : q.mapped = true) (hact : q.state = .active) (hopen : q.txpkts.isOpen = false)
    (hgood : badRequest s.cfg fs = false) (hw : s.ring.wf) (hc : quietCommit s.cfg q (ceilDiv fs.length 8) = true) :
    ∃ m, submitWr i fs q s = .ok (committed q (ceilDiv fs.length 8) 0 0, { s with ring := m }, .ok) ∧
      WritesFlits s.ring m (wrFlitAddr q q.pidx.toNat)
        (fs ++ List.replicate (8 * ceilDiv fs.length 8 - fs.length) 0) := by
  obtain ⟨hnd, ha, -⟩ := quietCommit_iff.mp hc
  obtain ⟨m, hwrite, -, hm⟩ := writeWr_writes (s := s) q.pidx.toNat hm hnd ha hw
  refine ⟨m, ?_, hm⟩
  rw [submitWr_writes hact hopen hgood hnd hwrite, commit_quiet (s := { s with ring := m }) hc]
  rfl

/-- At the batch one doorbell word tells of all that is pending. -/
theorem submitWr_batch (hm : q.mapped = true) (hact : q.state = .active) (hopen : q.txpkts.isOpen = false)
    (hgood : badRequest s.cfg fs = false) (hw : s.ring.wf) (hnd : ceilDiv fs.length 8 ≤ q.avail.toNat)
    (ha : q.avail < q.cap) (h16 : q.pending.toNat + ceilDiv fs.length 8 < 65536)
    (hbatch : s.cfg.eqDbBatch ≤ q.pending.toNat + ceilDiv fs.length 8)
    (hmax : q.pending.toNat + ceilDiv fs.length 8 ≤ s.cfg.dbIncMax) (hmech : q.dbMech ≠ .wcCopy) :
    ∃ m, submitWr i fs q s = .ok ({ committed q (ceilDiv fs.length 8) 0 0 with pending := 0 },
        mmioWrite { s with ring := m } (.word (doorbellReg q.dbMech q.udbAddr)
          (q.qid ++ BitVec.ofNat 16 (q.pending.toNat + ceilDiv fs.length 8))), .ok) ∧
      WritesFlits s.ring m (wrFlitAddr q q.pidx.toNat)
        (fs ++ List.replicate (8 * ceilDiv fs.length 8 - fs.length) 0) := by
  obtain ⟨m, hwrite, -, hm⟩ := writeWr_writes (s := s) q.pidx.toNat hm hnd ha hw
  refine ⟨m, ?_, hm⟩
  have hpend := pending_committed (q := q) (cr := 0) (np := 0) h16
  have hpos : 0 < q.pending.toNat + ceilDiv fs.length 8 := by
    have := badRequest_length hgood
    rw [ceilDiv_eight]
    omega
  have hne : (committed q (ceilDiv fs.length 8) 0 0).pending ≠ 0 := fun h0 => by
    rw [h0] at hpend
    exact hpos.ne hpend
  have hlive : (committed q (ceilDiv fs.length 8) 0 0).state ≠ .dead := by
    rw [show (committed q (ceilDiv fs.length 8) 0 0).state = q.state from rfl, hact]
    nofun
  rw [submitWr_writes hact hopen hgood hnd hwrite, commit_batch (s := { s with ring := m }) hnd h16 hbatch,
    notifyEq_words hlive hne fun h => hmech h.1, hpend, doorbellWords_one hpos hmax]
  rfl

end

end Sys2Proof.Machine

namespace Sys2Proof
open Machine

/-- Settles O51: each kind of request by its place, its maps and its packets. -/
theorem requestsPlaced : Obligations.RequestsPlaced := by
  refine fun s i q hp hq => ⟨fun fs hs => execWrReserved00_badarg (fs := fs) hp hq (refusesSubmit_eq_false hs),
    fun hact hopen hr hm hw => ?_⟩
  intro fits stored
  have hnow {n : Nat} (h : fits n) : TakesNow s q n := ⟨hact, hopen, hm, hw, h.1, h.2⟩
  have hacc : refusesSubmit q = false := refusesSubmit_eq_false (.inl hact)
  refine ⟨fun fs hgood hfit => execWrOpaque_placed hp hq (hnow hfit) hgood, ?_, ?_, ?_⟩
  · exact fun pkt h body b data hflow hb hd hfit => execEthTxPkt_imm hp hq (hnow hfit) hflow hb hd
  · exact fun pkt h body b segs hflow hb hd => ⟨fun hmax => execEthTxPkt_tooManySegs hp hq hacc hb hd hmax,
      fun hfree hmax hfit => execEthTxPkt_sgl hp hq (hnow hfit) hflow hb hd hfree hmax⟩
  · refine fun pkts h body rs hflow hrs => ⟨fun hmax => execEthTxPkts_tooManySegs hp hq hacc hrs hmax,
      fun hne hcount hmax hmaps hsegs hplen hfit => ?_⟩
    obtain ⟨m, toks, env, hlen, hm, hans, hrun⟩ := execEthTxPkts_placed hp hq (hnow hfit) hflow hrs
      ⟨hne, hcount, hmax, hmaps, hplen⟩ hsegs
    rw [withMaps_zipWith hlen] at hrun
    exact ⟨m, toks, env, hlen, hm, fun answers rest h hl => hans answers rest h (hl.trans hlen.symm), hrun⟩

/-- Settles O48: the request written, and the commit below the batch or at it. -/
theorem submitWr : Obligations.SubmitWr := by
  intro s i q fs hp hq hr hm hact hopen hgood hw nd stored
  refine ⟨fun hc => ?_, fun hnd ha h16 hbatch hmax hmech => ?_⟩
  · obtain ⟨m, hrun, hm⟩ := submitWr_quiet (s := s.begin) (i := i) hm hact hopen hgood hw hc
    exact ⟨m, runQe_onEq (f := fun u q => Machine.submitWr i fs q u) hp hq hrun, hm⟩
  · obtain ⟨m, hrun, hm⟩ := submitWr_batch (s := s.begin) (i := i) hm hact hopen hgood hw hnd ha h16 hbatch hmax hmech
    refine ⟨m, ?_, hm⟩
    rw [doorbellReg_eq, mmioWrite_begin_ring] at hrun
    exact (runQe_onEq (f := fun u q => Machine.submitWr i fs q u) hp hq hrun).trans (congrArg _ (answer_setEq_mmioWrite _ _))

end Sys2Proof
end

section
/-! PROOFS. SUBMIT of one packet below the doorbell batch (43_egress_submit R301 to R308, R312): the checksum bits, the
request's flits, immediate data and the scatter-gather list. -/

namespace Sys2Proof.Machine

variable {s : State} {i : Nat} {q : EgressQueue} {p : Packet}

/-! ## The packet -/

/-- What the length of a packet that SUBMIT takes says about its chain (43_egress_submit R300). -/
theorem chain_of_wellFormed (h : malformed p = false) : p.len ≠ 0 ∧ segsLen p.segs = p.len.toNat := by
  have hn := malformed_iff.not.mp (Bool.eq_false_iff.mp h)
  push Not at hn
  obtain ⟨hlen, -, -, hsum, -⟩ := hn
  exact ⟨hlen, hsum⟩

theorem segs_ne_nil {segs : List PktSeg} (hlen : p.len ≠ 0) (h : segsLen segs = p.len.toNat) : segs ≠ [] := by
  rintro rfl
  exact hlen (BitVec.eq_of_toNat_eq h.symm)

theorem chainBytes_length (m : Memory) (segs : List PktSeg) : (chainBytes m segs).length = segsLen segs := by
  rw [chainBytes, List.length_flatMap, segsLen]
  simp only [Memory.bytes_length]

/-- The bytes of a chain inside the address space are read as they stand. -/
theorem readChain_eq {segs : List PktSeg} (h : ∀ g ∈ segs, inSpace g.addr.toNat g.len.toNat = true) :
    readChain s segs = .ok (chainBytes s.buf segs) := by
  induction segs with
  | nil => rfl
  | cons g gs ih =>
    obtain ⟨hg, hgs⟩ := List.forall_mem_cons.mp h
    rw [readChain, bufRead, if_pos hg, Res.bind_ok, ih hgs]
    rfl

theorem singlePath_iff {c : Cfg} : singlePath c q p = true ↔
    q.state = .active ∧ q.txpkts.isOpen = false ∧ malformed p = false ∧ (q.coalesce && coalescable c p) = false := by
  simp only [singlePath, Bool.and_eq_true, decide_eq_true_eq, Bool.not_eq_true', and_assoc]

/-- A packet that is not coalesced, on an Active queue with nothing open, goes its own way. -/
theorem submit_singlePath (h : singlePath s.cfg q p = true) : submit i p q s = submitSingle i p q s := by
  obtain ⟨hact, hopen, hgood, hcoal⟩ := singlePath_iff.mp h
  have hst : q.state ≠ .stalled := by
    rw [hact]
    nofun
  rw [submit, refusesSubmit_eq_false (.inl hact), if_neg Bool.false_ne_true, hgood, if_neg Bool.false_ne_true, if_neg hst,
    hcoal]
  simp only [flushIfOpen, hopen, Bool.and_false, Bool.false_and, Bool.false_eq_true, if_false, Res.bind_ok]

theorem execSubmit_single {e : EgressQueue} {t : State} {r : Ret} (hp : s.panic = false) (hq : s.eqAt i = some q)
    (h : singlePath s.cfg q p = true) (hrun : submitSingle i p q s.begin = .ok (e, t, r)) :
    execSubmit i p s = .next ((t.setEq i e).answer r) :=
  runQe_onEq (f := fun u q => submit i p q u) hp hq ((submit_singlePath (s := s.begin) h).trans hrun)

/-! ## The checksum bits -/

/-- What the checksum bits ask of the oracle: nothing, or the software checksum (43_egress_submit R304). -/
def ChecksumAnswered (wa : Bool) (e : Oracles) (patch : List (Nat × Byte)) (env : Oracles) : Prop :=
  (wa = false → patch = [] ∧ env = e) ∧
    (wa = true → ∀ c rest, e.checksum = c :: rest → patch = c ∧ env = { e with checksum := rest })

theorem csumBits_eq (p : Packet) (s : State) : ∃ patch env,
    csumBits p s = (csumEnables s.cfg p, { s with buf := patchChain s.buf p.segs patch, env := env }) ∧
      ChecksumAnswered (csumWorkaround s.cfg p) s.env patch env := by
  unfold csumBits
  by_cases hw : csumWorkaround s.cfg p = true
  · rw [if_pos hw]
    refine ⟨(nextAnswer s.env.checksum Config.checksumAnswer s.env.calls).1, _, rfl, ?_, fun _ c rest h => ?_⟩
    · rw [hw]
      nofun
    · rw [h]
      exact ⟨rfl, rfl⟩
  · rw [if_neg hw]
    refine ⟨[], s.env, rfl, fun _ => ⟨rfl, rfl⟩, fun h => absurd h hw⟩

/-! ## The request's flits -/

section
variable {flowid : BitVec 24} {en : Bool × Bool}

/-- The header of a request of `f` flits whose `IMMDLEN` is `n` (30_encoding R136). -/
def requestHead (flowid : BitVec 24) (n f : Nat) : List Flit :=
  [(0x01 : BitVec 8) ++ (0 : BitVec 8) ++ BitVec.ofNat 16 n ++ flowid ++ BitVec.ofNat 8 ((f + 1) / 2), 0]

/-- The packet header flit (30_encoding R133). -/
def packetFlit (en : Bool × Bool) (p : Packet) : Flit :=
  (0x11 : BitVec 8) ++ BitVec.ofBool en.1 ++ BitVec.ofBool en.2 ++ BitVec.ofBool p.vlan.isSome ++ (0 : BitVec 5) ++
    p.vlan.getD 0 ++ p.len

theorem encodeTxpkt_txpktOf : encodeTxpkt (txpktOf en p) = packetFlit en p := rfl

/-- The flits that ask for segmentation offload, before those of the packet itself (30_encoding R132). -/
def offloadFlits (p : Packet) : List Flit :=
  if p.tso then
    [(0x10 : BitVec 8) ++ (0 : BitVec 8) ++ p.l2len ++ p.l3len ++ p.l4len ++ (0 : BitVec 24),
      p.mss ++ (0 : BitVec 16) ++ p.len]
  else []

/-- How many flits ask for segmentation offload. -/
def offloadLen (p : Packet) : Nat := if p.tso then 2 else 0

theorem offloadFlits_length (p : Packet) : (offloadFlits p).length = offloadLen p := by
  unfold offloadFlits offloadLen
  split <;> rfl

theorem offload_encoded (p : Packet) :
    (match (if p.tso then some (lsoOf p) else none) with | some r => encodeLso r | none => []) = offloadFlits p := by
  unfold offloadFlits
  cases p.tso <;> rfl

theorem encodePktBody_bodyOf (payload : Payload) : encodePktBody (bodyOf en p payload) =
    offloadFlits p ++ packetFlit en p :: payloadFlits payload := by
  rw [encodePktBody_eq, ← offload_encoded, ← encodeTxpkt_txpktOf]
  rfl

theorem offload_bytes (payload : Payload) :
    (if (bodyOf en p payload).lso.isSome then 24 else 8) = 8 + 8 * offloadLen p := by
  unfold offloadLen bodyOf
  cases p.tso <;> rfl

theorem ceilDiv_two (n : Nat) : ceilDiv n 2 = (n + 1) / 2 := rfl

theorem pktHeader_imm (data : List Byte) : pktHeader flowid (bodyOf en p (.imm data)) =
    { immdlen := BitVec.ofNat 16 (8 + 8 * offloadLen p + data.length), flowid
      len16 := BitVec.ofNat 8 ((3 + offloadLen p + (data.length + 7) / 8 + 1) / 2) } := by
  have hlen : 2 + (8 + 8 * offloadLen p) / 8 + ceilDiv data.length 8 = 3 + offloadLen p + (data.length + 7) / 8 := by
    rw [ceilDiv_eight]
    omega
  rw [pktHeader, offload_bytes, ← ceilDiv_two, ← hlen]
  rfl

theorem pktHeader_sgl (segs : List PktSeg) : pktHeader flowid (bodyOf en p (.sgl segs)) =
    { immdlen := BitVec.ofNat 16 (8 + 8 * offloadLen p), flowid
      len16 := BitVec.ofNat 8 ((3 + offloadLen p + sglFlits segs.length + 1) / 2) } := by
  have hlen : 2 + (8 + 8 * offloadLen p) / 8 + sglFlits segs.length = 3 + offloadLen p + sglFlits segs.length := by
    omega
  rw [pktHeader, offload_bytes, ← ceilDiv_two, ← hlen]
  rfl

theorem requestHead_encoded (n f : Nat) : encodeHeader 0x01
    { immdlen := BitVec.ofNat 16 n, flowid, len16 := BitVec.ofNat 8 ((f + 1) / 2) } = requestHead flowid n f := by
  have hzero : (0 : BitVec 16) ++ (0 : BitVec 48) = (0 : Flit) := by decide
  exact congrArg (fun z => [_, z]) hzero

theorem requestFlits_imm {data : List Byte} (htso : p.tso = false) :
    requestFlits flowid (bodyOf en p (.imm data)) =
      requestHead flowid (8 + data.length) (3 + (data.length + 7) / 8) ++ [packetFlit en p] ++ packBytes data := by
  have hoff : offloadLen p = 0 := by rw [offloadLen, htso]; rfl
  have hflits : offloadFlits p = [] := by rw [offloadFlits, htso]; rfl
  rw [requestFlits, encodePktBody_bodyOf, pktHeader_imm, requestHead_encoded, hoff, hflits]
  rfl

theorem requestFlits_sgl {segs : List PktSeg} :
    requestFlits flowid (bodyOf en p (.sgl segs)) =
      requestHead flowid (8 + 8 * offloadLen p) (3 + offloadLen p + sglFlits segs.length) ++ offloadFlits p ++
        [packetFlit en p] ++ encodeSgl segs := by
  rw [requestFlits, encodePktBody_bodyOf, pktHeader_sgl, requestHead_encoded, ← List.append_assoc,
    List.append_assoc _ [_], List.singleton_append]
  rfl

theorem wrFlits_imm (htso : p.tso = false) : wrFlits p .imm 0 = 3 + (p.len.toNat + 7) / 8 := by
  rw [wrFlits, htso]
  rfl

theorem wrFlits_sgl (n : Nat) : wrFlits p .sgl n = 3 + offloadLen p + sglFlits n := by
  unfold wrFlits offloadLen
  dsimp only
  split <;> omega

end

/-! ## Immediate data -/

/-- SUBMIT of a packet sent as immediate data, below the batch: its flits, the commit, and the packet freed. -/
theorem submitImm_quiet (hm : q.mapped = true) (hw : s.ring.wf) (hgood : malformed p = false) (htso : p.tso = false)
    (hspace : ∀ g ∈ p.segs, inSpace g.addr.toNat g.len.toNat = true)
    (hc : quietCommit s.cfg q (ceilDiv (3 + (p.len.toNat + 7) / 8) 8) = true) : ∃ m patch env,
    submitImm i p q s = .ok (committed q (ceilDiv (3 + (p.len.toNat + 7) / 8) 8) 0 1,
      { s with
        ring := m, buf := patchChain s.buf p.segs patch, env := env, out := s.out ++ [.freePkt p.handle] }, .ok) ∧
    ChecksumAnswered (csumWorkaround s.cfg p) s.env patch env ∧
    WritesFlits s.ring m (wrFlitAddr q q.pidx.toNat)
      (requestHead q.flowid (8 + p.len.toNat) (3 + (p.len.toNat + 7) / 8) ++ [packetFlit (csumEnables s.cfg p) p] ++
        packBytes (chainBytes (patchChain s.buf p.segs patch) p.segs) ++
        List.replicate (8 * ceilDiv (3 + (p.len.toNat + 7) / 8) 8 - (3 + (p.len.toNat + 7) / 8)) 0) := by
  obtain ⟨-, hsegs⟩ := chain_of_wellFormed hgood
  obtain ⟨hnd, ha, -⟩ := quietCommit_iff.mp hc
  obtain ⟨patch, env, hbits, hans⟩ := csumBits_eq p s
  have hbytes : (chainBytes (patchChain s.buf p.segs patch) p.segs).length = p.len.toNat := by
    rw [chainBytes_length, hsegs]
  have hflits := requestFlits_imm (flowid := q.flowid) (en := csumEnables s.cfg p)
    (data := chainBytes (patchChain s.buf p.segs patch) p.segs) htso
  rw [hbytes] at hflits
  have hlen : (requestHead q.flowid (8 + p.len.toNat) (3 + (p.len.toNat + 7) / 8) ++ [packetFlit (csumEnables s.cfg p) p] ++
      packBytes (chainBytes (patchChain s.buf p.segs patch) p.segs)).length = 3 + (p.len.toNat + 7) / 8 := by
    rw [List.length_append, packBytes_length, hbytes]
    rfl
  obtain ⟨m, hwrite, -, hwrites⟩ := writeWr_writes (s := { s with buf := patchChain s.buf p.segs patch, env := env })
    (fs := requestHead q.flowid (8 + p.len.toNat) (3 + (p.len.toNat + 7) / 8) ++ [packetFlit (csumEnables s.cfg p) p] ++
      packBytes (chainBytes (patchChain s.buf p.segs patch) p.segs)) q.pidx.toNat hm (by rw [hlen]; exact hnd) ha hw
  rw [hlen] at hwrites
  refine ⟨m, patch, env, ?_, hans, hwrites⟩
  rw [submitImm, wrFlits_imm htso, if_neg (Nat.not_lt.mpr hnd), hbits]
  dsimp only
  rw [readChain_eq hspace, Res.bind_ok, hflits, hwrite, Res.bind_ok, commit_quiet (by exact hc)]
  rfl

/-! ## The scatter-gather list -/

/-- The map is the oracle's answer (43_egress_submit R305). -/
def MapAnswered (e : Oracles) (tok : Nat) (env : Oracles) : Prop :=
  ∀ a rest, e.dmaMap = a :: rest → tok = a ∧ env = { e with dmaMap := rest }

/-- The list is built: its segments, and the map from the oracles `e`. -/
def Builds (p : Packet) (s : State) (segs : List PktSeg) (e : Oracles) : Prop :=
  ∃ tok env, buildSgl p s = (some (tok, segs), { s with env := env }) ∧ MapAnswered e tok env

/-- A chain that is short enough is the list. -/
theorem builds_own (h : p.segs.length ≤ s.cfg.sglMaxSegs) : Builds p s p.segs s.env := by
  obtain ⟨tok, env, hask, htok⟩ := askMap_eq s
  refine ⟨tok, env, ?_, htok⟩
  rw [buildSgl, if_neg (Nat.not_lt.mpr h), hask]

theorem compact_answer {answer : Option (List PktSeg)} {rest : List (Option (List PktSeg))} (segs : List PktSeg)
    (h : s.env.compact = answer :: rest) : compact s segs =
      (answer.filter fun chain => shorterChain segs chain && chainBytes s.buf chain = chainBytes s.buf segs,
        { s with env := { s.env with compact := rest } }) := by
  rw [compact, h]
  rfl

/-- The shorter chain that the client compacted a packet to is the list. -/
theorem builds_compacted {chain : List PktSeg} {rest : List (Option (List PktSeg))}
    (hlong : s.cfg.sglMaxSegs < p.segs.length) (h : s.env.compact = some chain :: rest)
    (hshort : shorterChain p.segs chain = true) (hbytes : chainBytes s.buf chain = chainBytes s.buf p.segs)
    (hmax : chain.length ≤ s.cfg.sglMaxSegs) : Builds p s chain { s.env with compact := rest } := by
  obtain ⟨tok, env, hask, htok⟩ := askMap_eq { s with env := { s.env with compact := rest } }
  refine ⟨tok, env, ?_, htok⟩
  have hfilter : (some chain).filter (fun chain =>
      shorterChain p.segs chain && chainBytes s.buf chain = chainBytes s.buf p.segs) = some chain := by
    rw [Option.filter_some, hshort, hbytes]
    simp
  rw [buildSgl, if_pos hlong, compact_answer p.segs h, hfilter]
  dsimp only
  rw [if_neg (Nat.not_lt.mpr hmax), hask]

/-- A list that compaction does not make short enough is given up (60_exceptions R454). -/
theorem buildSgl_toobig {answer : Option (List PktSeg)} {rest : List (Option (List PktSeg))}
    (hlong : s.cfg.sglMaxSegs < p.segs.length) (h : s.env.compact = answer :: rest)
    (hno : ∀ chain, answer = some chain → s.cfg.sglMaxSegs < chain.length) :
    buildSgl p s = (none, State.raise { s with env := { s.env with compact := rest } } .sglToobig) := by
  rw [buildSgl, if_pos hlong, compact_answer p.segs h]
  dsimp only
  split
  · rename_i chain hchain
    obtain ⟨ha, -⟩ := Option.filter_eq_some_iff.mp hchain
    rw [if_pos (hno chain ha)]
  · rfl

/-- SUBMIT of a packet sent by list, below the batch: its flits, the map, the commit. -/
theorem submitSgl_quiet {segs : List PktSeg} {tok : Nat} {e : Oracles}
    (hbuild : buildSgl p s = (some (tok, segs), { s with env := e })) (hne : segs ≠ []) (hfree : q.mapsFree ≠ 0)
    (hm : q.mapped = true) (hw : s.ring.wf)
    (hc : quietCommit s.cfg q (ceilDiv (3 + offloadLen p + sglFlits segs.length) 8) = true) : ∃ m patch env,
    submitSgl i p q s = .ok
      (committed (takeMap tok p.handle q) (ceilDiv (3 + offloadLen p + sglFlits segs.length) 8) 1 1,
        { s with ring := m, buf := patchChain s.buf segs patch, env := env }, .ok) ∧
    ChecksumAnswered (csumWorkaround s.cfg p) e patch env ∧
    WritesFlits s.ring m (wrFlitAddr q q.pidx.toNat)
      (requestHead q.flowid (8 + 8 * offloadLen p) (3 + offloadLen p + sglFlits segs.length) ++ offloadFlits p ++
        [packetFlit (csumEnables s.cfg p) p] ++ encodeSgl segs ++
        List.replicate (8 * ceilDiv (3 + offloadLen p + sglFlits segs.length) 8 -
          (3 + offloadLen p + sglFlits segs.length)) 0) := by
  obtain ⟨hnd, ha, -⟩ := quietCommit_iff.mp hc
  obtain ⟨patch, env, hbits, hans⟩ := csumBits_eq { p with segs } { s with env := e }
  have hflits := requestFlits_sgl (flowid := q.flowid) (en := csumEnables s.cfg p) (p := { p with segs }) (segs := segs)
  have hlen : (requestHead q.flowid (8 + 8 * offloadLen p) (3 + offloadLen p + sglFlits segs.length) ++ offloadFlits p ++
      [packetFlit (csumEnables s.cfg p) p] ++ encodeSgl segs).length = 3 + offloadLen p + sglFlits segs.length := by
    obtain ⟨g, gs, rfl⟩ := List.exists_cons_of_ne_nil hne
    rw [List.length_append, List.length_append, List.length_append, offloadFlits_length, encodeSgl_length]
    show 2 + _ + 1 + _ = 3 + _ + _
    simp only [List.length_cons]
    omega
  obtain ⟨m, hwrite, -, hwrites⟩ := writeWr_writes
    (s := { s with buf := patchChain s.buf segs patch, env := env })
    (fs := requestHead q.flowid (8 + 8 * offloadLen p) (3 + offloadLen p + sglFlits segs.length) ++ offloadFlits p ++
      [packetFlit (csumEnables s.cfg p) p] ++ encodeSgl segs) q.pidx.toNat hm (by rw [hlen]; exact hnd) ha hw
  rw [hlen] at hwrites
  refine ⟨m, patch, env, ?_, hans, hwrites⟩
  have hwrite' : writeWr q q.pidx.toNat (requestFlits q.flowid (bodyOf (csumEnables s.cfg { p with segs }) { p with segs }
      (.sgl segs))) { s with buf := patchChain s.buf segs patch, env := env } =
        .ok { s with ring := m, buf := patchChain s.buf segs patch, env := env } := hflits ▸ hwrite
  rw [submitSgl, if_neg hfree, hbuild]
  dsimp only
  rw [show wrFlits { p with segs } .sgl segs.length = 3 + offloadLen p + sglFlits segs.length from wrFlits_sgl _,
    if_neg (Nat.not_lt.mpr hnd), hbits]
  dsimp only
  rw [hwrite', Res.bind_ok, commit_quiet (by exact hc)]
  rfl

/-- A list that compaction does not make short enough is a hard error: the packet is freed. -/
theorem submitSgl_toobig (hfree : q.mapsFree ≠ 0) {t : State} (hbuild : buildSgl p s = (none, t)) :
    submitSgl i p q s = .ok (q, t.emit (.freePkt p.handle), .hardError) := by
  rw [submitSgl, if_neg hfree, hbuild]

theorem submitSingle_imm (h : chooseMode s.cfg p = .imm) : submitSingle i p q s = submitImm i p q s := by
  rw [submitSingle, h]

theorem submitSingle_sgl (h : chooseMode s.cfg p = .sgl) : submitSingle i p q s = submitSgl i p q s := by
  rw [submitSingle, h]

theorem chooseMode_imm {c : Cfg} (htso : p.tso = false) (hforce : p.forceSgl = false) (hlen : p.len.toNat ≤ c.immMaxBytes) :
    chooseMode c p = .imm := by
  rw [chooseMode, htso, hforce]
  exact if_pos hlen

theorem workaround_plain {c : Cfg} (htso : p.tso = false) :
    csumWorkaround c p = (p.l4csum && p.tcp && decide (p.len.toNat < c.csumMinFrame)) := by
  rw [csumWorkaround, htso]
  simp

/-- What the two oracles of a list answer, taken together. -/
theorem map_and_checksum {wa : Bool} {e env env' : Oracles} {tok : Nat} {patch : List (Nat × Byte)}
    (hm : MapAnswered e tok env) (hc : ChecksumAnswered wa env patch env') :
    (wa = false → patch = []) ∧ ∀ a rest, e.dmaMap = a :: rest → tok = a ∧
      (wa = false → env' = { e with dmaMap := rest }) ∧
      (wa = true → ∀ c cs, e.checksum = c :: cs → patch = c ∧ env' = { e with dmaMap := rest, checksum := cs }) := by
  obtain ⟨hno, hyes⟩ := hc
  refine ⟨fun h => (hno h).1, fun a rest h => ?_⟩
  obtain ⟨rfl, rfl⟩ := hm a rest h
  exact ⟨rfl, fun h => (hno h).2, fun h => hyes h⟩

end Sys2Proof.Machine

namespace Sys2Proof
open Machine

/-- Settles O45: immediate data, with the bytes that the checksum workaround leaves. -/
theorem submitImmediate : Obligations.SubmitImmediate := by
  intro s i q p hp hq hr hm hpath htso hforce hlen hspace hw wa f nd hc
  obtain ⟨hact, hopen, hgood, -⟩ := singlePath_iff.mp hpath
  obtain ⟨m, patch, env, hrun, hans, hwrites⟩ := submitImm_quiet (s := s.begin) (i := i) hm hw hgood htso hspace hc
  have hwa : csumWorkaround s.cfg p = wa := workaround_plain htso
  have hans : ChecksumAnswered wa s.env patch env := hwa ▸ hans
  have henables : csumEnables s.cfg p = (p.l3csum, p.l4csum && !wa) := by rw [csumEnables, hwa]
  have hwrites : WritesFlits s.ring m (wrFlitAddr q q.pidx.toNat) (requestHead q.flowid (8 + p.len.toNat) f ++
      [packetFlit (p.l3csum, p.l4csum && !wa) p] ++ packBytes (chainBytes (patchChain s.buf p.segs patch) p.segs) ++
      List.replicate (8 * nd - f) 0) := henables ▸ hwrites
  rw [← submitSingle_imm (s := s.begin) (chooseMode_imm htso hforce hlen)] at hrun
  exact ⟨m, patch, env, execSubmit_single hp hq hpath hrun, hans.1, hans.2, hwrites⟩

/-- Settles O46: the packet's own list, the compacted one, and the hard error. -/
theorem submitList : Obligations.SubmitList := by
  intro s i q p hp hq hpath hmode hfree sent
  obtain ⟨hact, hopen, hgood, -⟩ := singlePath_iff.mp hpath
  obtain ⟨hne, hsum⟩ := chain_of_wellFormed hgood
  have hsent (segs : List PktSeg) (e : Oracles) (hb : Builds p s.begin segs e) (hs : segsLen segs = p.len.toNat) :
      sent segs e := by
    intro hr hm hw hc
    obtain ⟨tok, env, hbuild, hmap⟩ := hb
    obtain ⟨m, patch, env', hrun, hans, hwrites⟩ := submitSgl_quiet (s := s.begin) (i := i) hbuild (segs_ne_nil hne hs)
      hfree hm hw hc
    rw [← submitSingle_sgl (s := s.begin) hmode] at hrun
    obtain ⟨hnone, htok⟩ := map_and_checksum hmap hans
    exact ⟨m, tok, patch, env', execSubmit_single hp hq hpath hrun, hnone, htok, hwrites⟩
  refine ⟨fun h => hsent _ _ (builds_own (s := s.begin) h) hsum, fun chain rest hlong h hshort hbytes hmax => ?_,
    fun answer rest hlong h hno => ?_⟩
  · have hsame : segsLen chain = segsLen p.segs := by
      simp only [shorterChain, Bool.and_eq_true, decide_eq_true_eq] at hshort
      exact hshort.2
    exact hsent _ _ (builds_compacted (s := s.begin) hlong h hshort hbytes hmax) (hsame.trans hsum)
  · have hrun := submitSgl_toobig (i := i) hfree (buildSgl_toobig (s := s.begin) hlong h hno)
    rw [← submitSingle_sgl (s := s.begin) hmode] at hrun
    refine (show exec (.submit i p) s = _ from execSubmit_single hp hq hpath hrun).trans ?_
    simp only [State.setEq, State.answer, State.begin, State.raise, State.emit, set_self hq, List.nil_append]

end Sys2Proof
end

section
/-! PROOFS. Submissions that cannot fit stall the queue (43_egress_submit R309, 60_exceptions R452, R453). -/

namespace Sys2Proof.Machine

variable {s s1 u : State} {i : Nat} {q q1 : EgressQueue} {p : Packet} {fs : List Flit} {cause : Exc}

/-- With nothing open a stall notifies what is pending and notes its cause. -/
theorem stall_eq (hopen : q.txpkts.isOpen = false) (hn : notifyEq q u = .ok (q1, s1)) :
    stall i cause q u =
      .ok ({ q1 with state := .stalled }, (s1.setStalled (s1.stalled ++ [i])).raise cause, .noResource) := by
  rw [stall, flushIfOpen, hopen, if_neg Bool.false_ne_true, Res.bind_ok]
  dsimp only
  rw [hn]
  rfl

/-- A stall from the start of a transition: what it leaves. -/
theorem stalled_end (hstalled : u.stalled = s.stalled) (hraised : u.raised = []) (hn : notifyEq q u = .ok (q1, s1)) :
    State.answer (State.setEq ((s1.setStalled (s1.stalled ++ [i])).raise cause) i { q1 with state := .stalled }) .noResource =
      { s1 with
        eq := s1.eq.set i (some { q1 with state := .stalled }), stalled := s.stalled ++ [i], ret := .noResource
        raised := [cause] } := by
  obtain ⟨-, -, _, _, _, _, rfl⟩ := notifyEq_ok hn
  simp only [State.setStalled, State.raise, State.setEq, State.answer, hstalled, hraised, List.nil_append]

/-- A SUBMIT that stalls. -/
theorem execSubmit_stalls (hp : s.panic = false) (hq : s.eqAt i = some q) (hopen : q.txpkts.isOpen = false)
    (hstalled : u.stalled = s.stalled) (hraised : u.raised = []) (hn : notifyEq q u = .ok (q1, s1))
    (hrun : submit i p q s.begin = stall i cause q u) :
    execSubmit i p s = .next { s1 with
      eq := s1.eq.set i (some { q1 with state := .stalled }), stalled := s.stalled ++ [i], ret := .noResource
      raised := [cause] } := by
  rw [← stalled_end hstalled hraised hn]
  exact runQe_onEq (f := fun u q => submit i p q u) hp hq (hrun.trans (stall_eq hopen hn))

theorem submitImm_stalls (h : q.avail.toNat < ceilDiv (wrFlits p .imm 0) 8) :
    submitImm i p q s = stall i .noresourceCredit q s := if_pos h

theorem submitSgl_noMap (h : q.mapsFree = 0) : submitSgl i p q s = stall i .noresourceMap q s := if_pos h

/-- A list that finds too few credits has already taken its map's answer. -/
theorem submitSgl_stalls {tok : Nat} (hfree : q.mapsFree ≠ 0) (hbuild : buildSgl p s = (some (tok, p.segs), u))
    (h : q.avail.toNat < ceilDiv (wrFlits p .sgl p.segs.length) 8) :
    submitSgl i p q s = stall i .noresourceCredit q u := by
  rw [submitSgl, if_neg hfree, hbuild]
  exact if_pos h

/-- A packet that would be coalesced, and that no accumulator can take. -/
theorem submit_cannotAdd (hact : q.state = .active) (hopen : q.txpkts.isOpen = false) (hgood : malformed p = false)
    (hcoal : q.coalesce = true) (hc : coalescable s.cfg p = true) (hadd : canAdd s.cfg q p = false) :
    submit i p q s = stall i (stallCause q) q s := by
  have hst : q.state ≠ .stalled := by
    rw [hact]
    nofun
  rw [submit, refusesSubmit_eq_false (.inl hact), if_neg Bool.false_ne_true, hgood, if_neg Bool.false_ne_true, if_neg hst]
  simp only [hcoal, hc, hopen, hadd, flushIfOpen, Bool.and_true, Bool.and_false, Bool.false_eq_true, if_false, if_true,
    Res.bind_ok]

theorem submitWr_stalls (hact : q.state = .active) (hopen : q.txpkts.isOpen = false) (hgood : badRequest s.cfg fs = false)
    (h : q.avail.toNat < ceilDiv fs.length 8) : submitWr i fs q s = stall i .noresourceCredit q s := by
  have hst : q.state ≠ .stalled := by
    rw [hact]
    nofun
  rw [submitWr, refusesSubmit_eq_false (.inl hact), if_neg Bool.false_ne_true, hgood, if_neg Bool.false_ne_true,
    if_neg hst, flushIfOpen, hopen, if_neg Bool.false_ne_true, Res.bind_ok]
  exact if_pos h

/-! ## While Stalled -/

theorem answer_noResource (hq : s.eqAt i = some q) :
    State.answer (State.setEq (s.begin.raise .noresourceCredit) i q) .noResource =
      { s with ret := .noResource, raised := [.noresourceCredit] } := by
  simp only [State.setEq, State.answer, State.raise, State.begin, set_self hq, List.nil_append]

theorem execSubmit_whileStalled (hp : s.panic = false) (hq : s.eqAt i = some q) (hs : q.state = .stalled)
    (hgood : malformed p = false) :
    execSubmit i p s = .next { s with ret := .noResource, raised := [.noresourceCredit] } := by
  have hrun : submit i p q s.begin = .ok (q, s.begin.raise .noresourceCredit, .noResource) := by
    rw [submit, refusesSubmit_eq_false (.inr hs), if_neg Bool.false_ne_true, hgood, if_neg Bool.false_ne_true, if_pos hs]
  rw [← answer_noResource hq]
  exact runQe_onEq (f := fun u q => submit i p q u) hp hq hrun

theorem execSubmitWr_whileStalled (hp : s.panic = false) (hq : s.eqAt i = some q) (hs : q.state = .stalled)
    (hgood : badRequest s.cfg fs = false) :
    execSubmitWr i fs s = .next { s with ret := .noResource, raised := [.noresourceCredit] } := by
  have hgood' : badRequest s.begin.cfg fs = false := hgood
  have hrun : submitWr i fs q s.begin = .ok (q, s.begin.raise .noresourceCredit, .noResource) := by
    rw [submitWr, refusesSubmit_eq_false (.inr hs), if_neg Bool.false_ne_true, hgood', if_neg Bool.false_ne_true, if_pos hs]
  rw [← answer_noResource hq]
  exact runQe_onEq (f := fun u q => submitWr i fs q u) hp hq hrun

/-- Settles O47: each submission that cannot fit ends in the same stall. -/
theorem submitStalls : Obligations.SubmitStalls := by
  intro s s1 i q q1 p fs hp hq left
  have hsingle (hpath : singlePath s.cfg q p = true) : q.txpkts.isOpen = false ∧
      submit i p q s.begin = submitSingle i p q s.begin := by
    obtain ⟨-, hopen, -⟩ := singlePath_iff.mp hpath
    exact ⟨hopen, submit_singlePath (s := s.begin) hpath⟩
  refine ⟨execSubmit_whileStalled hp hq, execSubmitWr_whileStalled hp hq,
    fun hn => ⟨fun hpath hmode hnd => ?_, fun hpath hmode hfree => ?_, fun hact hopen hgood hcoal hc hadd => ?_,
      fun hact hopen hgood hnd => ?_⟩, fun a rest hmap hn hpath hmode hfree hlen hnd => ?_⟩
  · obtain ⟨hopen, hsub⟩ := hsingle hpath
    exact execSubmit_stalls (u := s.begin) hp hq hopen rfl rfl hn
      (hsub.trans ((submitSingle_imm (s := s.begin) hmode).trans (submitImm_stalls hnd)))
  · obtain ⟨hopen, hsub⟩ := hsingle hpath
    exact execSubmit_stalls (u := s.begin) hp hq hopen rfl rfl hn
      (hsub.trans ((submitSingle_sgl (s := s.begin) hmode).trans (submitSgl_noMap hfree)))
  · exact execSubmit_stalls (u := s.begin) hp hq hopen rfl rfl hn (submit_cannotAdd (s := s.begin) hact hopen hgood hcoal hc hadd)
  · refine (show execSubmitWr i fs s = _ from ?_)
    exact (runQe_onEq (f := fun u q => submitWr i fs q u) hp hq
      ((submitWr_stalls (s := s.begin) hact hopen hgood hnd).trans (stall_eq hopen hn))).trans
      (congrArg _ (stalled_end (u := s.begin) rfl rfl hn))
  · obtain ⟨hopen, hsub⟩ := hsingle hpath
    obtain ⟨tok, env, hbuild, htok⟩ := builds_own (s := s.begin) (p := p) hlen
    obtain ⟨-, rfl⟩ := htok a rest hmap
    exact execSubmit_stalls (u := { s.begin with env := { s.env with dmaMap := rest } }) hp hq hopen rfl rfl hn
      (hsub.trans ((submitSingle_sgl (s := s.begin) hmode).trans (submitSgl_stalls hfree hbuild hnd)))

end Sys2Proof.Machine
end

section
/-! PROOFS. Egress operations hold the queue they work on and do not look at its context in the state, except for what the
device is told by: its identifier, its window and its capacity. -/

namespace Sys2Proof.Machine

variable {s t : State} {i : Nat} {q q' q1 : EgressQueue} {E : List (Option EgressQueue)}

/-! ## Contexts replaced -/

/-- The state with other contexts of the egress queues. -/
def State.withEq (s : State) (E : List (Option EgressQueue)) : State := { s with eq := E }

/-- The device sees no difference with these contexts: words and bursts find the same queues, of the same capacities. -/
structure SeesSame (s : State) (E : List (Option EgressQueue)) : Prop where
  doorbell : ∀ qid, doorbellTargets (s.withEq E) qid = doorbellTargets s qid
  window : ∀ a, windowTarget (s.withEq E) a = windowTarget s a
  cap : ∀ j, ((s.withEq E).eqAt j).map (·.cap) = (s.eqAt j).map (·.cap)

theorem SeesSame.of_same (h : SeesSame s E) (hiq : t.iq = s.iq) (heq : t.eq = s.eq) : SeesSame t E := by
  obtain ⟨hdb, hwin, hcap⟩ := h
  refine ⟨fun qid => ?_, fun a => ?_, fun j => ?_⟩
  · simpa only [doorbellTargets, State.withEq, hiq, heq] using hdb qid
  · simpa only [windowTarget, State.withEq, heq] using hwin a
  · simpa only [State.eqAt, State.withEq, heq] using hcap j

/-- A test that a replaced context answers as the old one did finds the same queues. -/
theorem indicesOf_set {α : Type} {p : α → Bool} {l : List (Option α)} {x y : α} (hx : (l[i]?).join = some x)
    (hp : p y = p x) : indicesOf p (l.set i (some y)) = indicesOf p l := by
  have hlt : i < l.length := by
    by_contra hge
    rw [List.getElem?_eq_none (by omega)] at hx
    cases hx
  refine (indicesOf_sorted p _).eq_of_mem_iff (indicesOf_sorted p l) fun j => ?_
  rw [indicesOf_mem, indicesOf_mem]
  by_cases hj : i = j
  · subst hj
    rw [List.getElem?_set_self hlt, hx]
    simp only [Option.join_some, Option.some.injEq, exists_eq_left', hp]
  · rw [List.getElem?_set_ne hj]

/-- The parts of a context that the device is told by. -/
structure TellsSame (q q1 : EgressQueue) : Prop where
  qid : q1.qid = q.qid
  cap : q1.cap = q.cap
  dbMech : q1.dbMech = q.dbMech
  wcAddr : q1.wcAddr = q.wcAddr
  live : q1.live = q.live

theorem seesSame_set (hq : s.eqAt i = some q) (h : TellsSame q q1) : SeesSame s (s.eq.set i (some q1)) := by
  obtain ⟨hid, hcap, hmech, hwin, hlive⟩ := h
  have hdb : ∀ qid : BitVec 16, indicesOf (fun q : EgressQueue => q.live && q.qid = qid) (s.eq.set i (some q1)) =
      indicesOf (fun q : EgressQueue => q.live && q.qid = qid) s.eq := fun qid =>
    indicesOf_set hq (by simp only [hlive, hid])
  have hwt : ∀ a : Addr, indicesOf (fun q : EgressQueue => q.live && q.dbMech = .wcCopy && q.wcAddr = a)
      (s.eq.set i (some q1)) = indicesOf (fun q : EgressQueue => q.live && q.dbMech = .wcCopy && q.wcAddr = a) s.eq :=
    fun a => indicesOf_set hq (by simp only [hlive, hmech, hwin])
  refine ⟨fun qid => ?_, fun a => ?_, fun j => ?_⟩
  · simp only [doorbellTargets, State.withEq, hdb]
  · simp only [windowTarget, State.withEq, hwt]
  · by_cases hj : i = j
    · subst hj
      have hlt : i < s.eq.length := by
        by_contra hge
        rw [State.eqAt, List.getElem?_eq_none (by omega)] at hq
        cases hq
      rw [hq, State.eqAt, State.withEq, List.getElem?_set_self hlt]
      exact congrArg some hcap
    · rw [State.eqAt, State.withEq, List.getElem?_set_ne hj]
      rfl

/-! ## MMIO writes -/

theorem devAdvance_withEq (h : SeesSame s E) (r : QRef) (n : Nat) :
    devAdvance (s.withEq E) r n = (devAdvance s r n).withEq E := by
  cases r with
  | fl j =>
    show (match s.flAt j, s.devFlAt j with | some _, some _ => _ | _, _ => _) = _
    unfold devAdvance
    dsimp only
    cases s.flAt j <;> cases s.devFlAt j <;> rfl
  | eq j =>
    have hcap := h.cap j
    have hdev : (s.withEq E).devEqAt j = s.devEqAt j := rfl
    simp only [devAdvance, hdev]
    cases hnew : (s.withEq E).eqAt j with
    | none =>
      rw [hnew] at hcap
      rw [Option.map_eq_none_iff.mp hcap.symm]
    | some x =>
      rw [hnew] at hcap
      obtain ⟨y, hy, hxy⟩ := Option.map_eq_some_iff.mp hcap.symm
      rw [hy]
      cases s.devEqAt j with
      | none => rfl
      | some d =>
        dsimp only
        rw [hxy]
        rfl

theorem mmioWrite_withEq (h : SeesSame s E) (w : MmioWrite) : mmioWrite (s.withEq E) w = (mmioWrite s w).withEq E := by
  have hlog : SeesSame (s.logMmio w) E := h.of_same rfl rfl
  have hadv := devAdvance_withEq hlog
  have hreact : devReact ((s.logMmio w).withEq E) w = (devReact (s.logMmio w) w).map (·.withEq E) := by
    cases w with
    | word reg v =>
      have hdb : doorbellTarget ((s.logMmio (.word reg v)).withEq E) v = doorbellTarget (s.logMmio (.word reg v)) v := by
        rw [doorbellTarget, hlog.doorbell, doorbellTarget]
      cases reg with
      | icw =>
        have ht : creditTarget ((s.logMmio (.word .icw v)).withEq E) v = creditTarget (s.logMmio (.word .icw v)) v := rfl
        simp only [devReact, ht]
        cases creditTarget (s.logMmio (.word .icw v)) v with
        | none => rfl
        | some j =>
          show Option.map _ ((s.logMmio (.word .icw v)).devIqAt j) = Option.map _ (Option.map _ _)
          rw [Option.map_map]
          rfl
      | db =>
        simp only [devReact, hdb, hadv, Option.map_map]
        rfl
      | udb a =>
        simp only [devReact, hdb, hadv, Option.map_map]
        rfl
    | burst a fs =>
      simp only [devReact, hlog.window, hadv, Option.map_map]
      rfl
  show (devReact ((s.logMmio w).withEq E) w).getD ((s.logMmio w).withEq E) = _
  rw [hreact, mmioWrite]
  cases devReact (s.logMmio w) w <;> rfl

theorem mmioWrites_withEq (h : SeesSame s E) (ws : List MmioWrite) :
    ws.foldl mmioWrite (s.withEq E) = (ws.foldl mmioWrite s).withEq E := by
  induction ws generalizing s with
  | nil => rfl
  | cons w ws ih =>
    rw [List.foldl_cons, List.foldl_cons, mmioWrite_withEq h, ih (h.of_same (mmioWrite_iq s w) (mmioWrite_eq s w))]

/-! ## Operations on the queue held -/

/-- An answer with its state's contexts replaced. -/
def withEq₂ (E : List (Option EgressQueue)) (r : EgressQueue × State) : EgressQueue × State := (r.1, r.2.withEq E)

/-- An answer with its state's contexts replaced, and what is returned. -/
def withEq₃ (E : List (Option EgressQueue)) (r : EgressQueue × State × Ret) : EgressQueue × State × Ret :=
  (r.1, r.2.1.withEq E, r.2.2)

theorem ringWrite_withEq (a : Nat) (v : Flit) : ringWrite (s.withEq E) a v = (ringWrite s a v).map (·.withEq E) := by
  unfold ringWrite
  split <;> rfl

theorem writeFlits_withEq (st k : Nat) (fs : List Flit) :
    writeFlits q st (s.withEq E) k fs = (writeFlits q st s k fs).map (·.withEq E) := by
  induction fs generalizing s k with
  | nil => rfl
  | cons v vs ih =>
    rw [writeFlits, writeFlits, ringWrite_withEq]
    cases ringWrite s (wrFlitAddr q st k) v with
    | error e => rfl
    | ok t => exact ih (k + 1)

theorem ringReadAll_withEq (a n : Nat) : ringReadAll (s.withEq E) a n = ringReadAll s a n := by
  induction n generalizing a with
  | zero => rfl
  | succ n ih => simp only [ringReadAll, ih]; rfl

theorem notifyEq_withEq (h : SeesSame s E) : notifyEq q (s.withEq E) = (notifyEq q s).map (withEq₂ E) := by
  unfold notifyEq
  split
  · rfl
  split
  · rfl
  split
  · rw [ringReadAll_withEq]
    cases ringReadAll s (descAddr q (lastDesc q)) 8 with
    | error e => rfl
    | ok d => exact congrArg (fun u => Except.ok ((_ : EgressQueue), u)) (mmioWrite_withEq h _)
  · rw [ringDoorbell_eq, ringDoorbell_eq]
    exact congrArg (fun u => Except.ok ((_ : EgressQueue), u)) (mmioWrites_withEq h _)

theorem commit_withEq {nd cr np : Nat} (h : SeesSame s E) :
    commit nd cr np q (s.withEq E) = (commit nd cr np q s).map (withEq₂ E) := by
  by_cases hnd : nd ≤ q.avail.toNat
  · rw [commit_eq hnd, commit_eq hnd, notifyEq_withEq h]
    show (if s.cfg.eqDbBatch ≤ _ then _ else _) = _
    split <;> rfl
  · rw [commit, commit, if_pos (Nat.lt_of_not_le hnd), if_pos (Nat.lt_of_not_le hnd)]
    rfl

theorem writeFlits_queues {st k : Nat} {fs : List Flit} (h : writeFlits q st s k fs = .ok t) :
    t.iq = s.iq ∧ t.eq = s.eq := by
  obtain ⟨m, rfl, -⟩ := writeFlits_ok h
  exact ⟨rfl, rfl⟩

theorem txpktsFlush_withEq (h : SeesSame s E) : txpktsFlush q (s.withEq E) = (txpktsFlush q s).map (withEq₂ E) := by
  unfold txpktsFlush
  split
  · rfl
  dsimp only
  rw [writeFlits_withEq]
  cases h1 : writeFlits q q.txpkts.start.toNat s 0 (flushHeader q) with
  | error e => rfl
  | ok u =>
    obtain ⟨hiq, heq⟩ := writeFlits_queues h1
    simp only [Except.map, Res.bind_ok, writeFlits_withEq]
    cases h2 : writeFlits q q.txpkts.start.toNat u q.txpkts.flits.toNat
      (List.replicate (8 * ceilDiv q.txpkts.flits.toNat 8 - q.txpkts.flits.toNat) 0) with
    | error e => rfl
    | ok v =>
      obtain ⟨hiq', heq'⟩ := writeFlits_queues h2
      exact commit_withEq (h.of_same (hiq'.trans hiq) (heq'.trans heq))

theorem flushIfOpen_withEq (h : SeesSame s E) : flushIfOpen q (s.withEq E) = (flushIfOpen q s).map (withEq₂ E) := by
  unfold flushIfOpen
  split
  · exact txpktsFlush_withEq h
  · rfl

theorem EgressFrame.queues (h : EgressFrame s t) : t.iq = s.iq ∧ t.eq = s.eq := by
  obtain ⟨⟨_, _, _, _, _, _, _, _, ht⟩, -⟩ := h
  rw [ht]
  exact ⟨rfl, rfl⟩

theorem SeesSame.frame (h : SeesSame s E) (hf : EgressFrame s t) : SeesSame t E :=
  h.of_same hf.queues.1 hf.queues.2

theorem stall_withEq {cause : Exc} (h : SeesSame s E) :
    stall i cause q (s.withEq E) = (stall i cause q s).map (withEq₃ E) := by
  unfold stall
  rw [flushIfOpen_withEq h]
  cases h1 : flushIfOpen q s with
  | error e => rfl
  | ok r =>
    obtain ⟨q', u⟩ := r
    obtain ⟨-, hf, -⟩ := flushIfOpen_ok h1
    simp only [Except.map, Res.bind_ok, withEq₂, notifyEq_withEq (h.frame hf)]
    cases notifyEq q' u <;> rfl

theorem askMap_withEq : askMap (s.withEq E) = ((askMap s).1, (askMap s).2.withEq E) := rfl

theorem csumBits_withEq (p : Packet) : csumBits p (s.withEq E) = ((csumBits p s).1, (csumBits p s).2.withEq E) := by
  have hcfg : (s.withEq E).cfg = s.cfg := rfl
  simp only [csumBits, hcfg]
  cases csumWorkaround s.cfg p <;> rfl

theorem readChain_withEq (segs : List PktSeg) : readChain (s.withEq E) segs = readChain s segs := by
  induction segs with
  | nil => rfl
  | cons g gs ih => simp only [readChain, ih]; rfl

theorem buildSgl_withEq (p : Packet) : buildSgl p (s.withEq E) = ((buildSgl p s).1, (buildSgl p s).2.withEq E) := by
  have hcfg : (s.withEq E).cfg = s.cfg := rfl
  have hcompact : compact (s.withEq E) p.segs = ((compact s p.segs).1, (compact s p.segs).2.withEq E) := rfl
  simp only [buildSgl, hcfg, hcompact]
  split
  · cases (compact s p.segs).1 with
    | none => rfl
    | some chain =>
      dsimp only
      split <;> rfl
  · rfl

/-- Before the flits of a submission are written, the queues are as they were. -/
theorem csumBits_queues (p : Packet) (s : State) : (csumBits p s).2.iq = s.iq ∧ (csumBits p s).2.eq = s.eq := by
  obtain ⟨_, _, hs, -⟩ := csumBits_state p s
  rw [hs]
  exact ⟨rfl, rfl⟩

theorem txpktsAdd_withEq {p : Packet} (h : SeesSame s E) :
    txpktsAdd p q (s.withEq E) = (txpktsAdd p q s).map (withEq₂ E) := by
  have hbits : SeesSame (csumBits p (askMap s).2).2 E :=
    h.of_same (csumBits_queues p (askMap s).2).1 (csumBits_queues p (askMap s).2).2
  unfold txpktsAdd
  simp only [askMap_withEq, csumBits_withEq, writeFlits_withEq]
  cases h1 : writeFlits q q.txpkts.start.toNat (csumBits p (askMap s).2).2 q.txpkts.flits.toNat
      (encodeRecord ⟨txpktOf (csumBits p (askMap s).2).1 p, p.segs⟩) with
  | error e => rfl
  | ok u =>
    obtain ⟨hiq, heq⟩ := writeFlits_queues h1
    simp only [Except.map, Res.bind_ok]
    show (if _ = u.cfg.txpktsMaxPkts then _ else _) = _
    split
    · exact txpktsFlush_withEq (hbits.of_same hiq heq)
    · rfl

theorem writeWr_withEq (st : Nat) (fs : List Flit) :
    writeWr q st fs (s.withEq E) = (writeWr q st fs s).map (·.withEq E) := writeFlits_withEq st 0 (padDesc fs)

theorem submitImm_withEq {p : Packet} (h : SeesSame s E) :
    submitImm i p q (s.withEq E) = (submitImm i p q s).map (withEq₃ E) := by
  have hbits : SeesSame (csumBits p s).2 E := h.of_same (csumBits_queues p s).1 (csumBits_queues p s).2
  unfold submitImm
  dsimp only
  split
  · exact stall_withEq h
  · simp only [csumBits_withEq, readChain_withEq, writeWr_withEq]
    cases readChain (csumBits p s).2 p.segs with
    | error e => rfl
    | ok bytes =>
      simp only [Res.bind_ok]
      cases h1 : writeWr q q.pidx.toNat (requestFlits q.flowid (bodyOf (csumBits p s).1 p (.imm bytes)))
          (csumBits p s).2 with
      | error e => rfl
      | ok u =>
        obtain ⟨hiq, heq⟩ := writeFlits_queues h1
        have hu : SeesSame (u.emit (.freePkt p.handle)) E := hbits.of_same hiq heq
        have hc := commit_withEq (q := q) (nd := ceilDiv (wrFlits p .imm 0) 8) (cr := 0) (np := 1) hu
        simp only [Except.map, Res.bind_ok]
        show (commit _ 0 1 q ((u.emit (.freePkt p.handle)).withEq E) >>= _) = _
        rw [hc]
        cases commit (ceilDiv (wrFlits p .imm 0) 8) 0 1 q (u.emit (.freePkt p.handle)) <;> rfl

/-- A list that is built, or given up, leaves the queues. -/
theorem buildSgl_queues (p : Packet) (s : State) : (buildSgl p s).2.iq = s.iq ∧ (buildSgl p s).2.eq = s.eq :=
  (buildSgl_frame p s).1.queues

theorem submitSgl_withEq {p : Packet} (h : SeesSame s E) :
    submitSgl i p q (s.withEq E) = (submitSgl i p q s).map (withEq₃ E) := by
  have hbuilt : SeesSame (buildSgl p s).2 E := h.of_same (buildSgl_queues p s).1 (buildSgl_queues p s).2
  unfold submitSgl
  split
  · exact stall_withEq h
  rw [buildSgl_withEq]
  dsimp only
  cases (buildSgl p s).1 with
  | none => rfl
  | some r =>
    obtain ⟨tok, segs⟩ := r
    dsimp only
    split
    · exact stall_withEq hbuilt
    · have hbits : SeesSame (csumBits { p with segs } (buildSgl p s).2).2 E :=
        hbuilt.of_same (csumBits_queues _ _).1 (csumBits_queues _ _).2
      simp only [csumBits_withEq, writeWr_withEq]
      cases h1 : writeWr q q.pidx.toNat (requestFlits q.flowid
          (bodyOf (csumBits { p with segs } (buildSgl p s).2).1 { p with segs } (.sgl segs)))
          (csumBits { p with segs } (buildSgl p s).2).2 with
      | error e => rfl
      | ok u =>
        obtain ⟨hiq, heq⟩ := writeFlits_queues h1
        simp only [Except.map, Res.bind_ok, commit_withEq (hbits.of_same hiq heq)]
        cases commit (ceilDiv (wrFlits { p with segs } .sgl segs.length) 8) 1 1 (takeMap tok p.handle q) u <;> rfl

theorem submitSingle_withEq {p : Packet} (h : SeesSame s E) :
    submitSingle i p q (s.withEq E) = (submitSingle i p q s).map (withEq₃ E) := by
  have hcfg : (s.withEq E).cfg = s.cfg := rfl
  unfold submitSingle
  rw [hcfg]
  split
  · exact submitImm_withEq h
  · exact submitSgl_withEq h

end Sys2Proof.Machine
end

section
/-! PROOFS. Submissions are not refused once their arguments are accepted, end alike from a state whose contexts tell the device
the same, and TXPKTS_FLUSH (44_coalescing R355, R356). -/

namespace Sys2Proof.Machine

variable {s t : State} {i : Nat} {q q' q1 : EgressQueue} {p : Packet} {fs : List Flit} {E : List (Option EgressQueue)}

/-! ## Submissions and the contexts in the state -/

theorem submit_withEq (h : SeesSame s E) : submit i p q (s.withEq E) = (submit i p q s).map (withEq₃ E) := by
  have hcfg : (s.withEq E).cfg = s.cfg := rfl
  simp only [submit, hcfg, txpktsAdd_withEq h, flushIfOpen_withEq h]
  split
  · rfl
  split
  · rfl
  split
  · rfl
  split
  · cases txpktsAdd p q s <;> rfl
  · cases h1 : flushIfOpen q s with
    | error e => rfl
    | ok r =>
      obtain ⟨q', u⟩ := r
      obtain ⟨-, hf, -⟩ := flushIfOpen_ok h1
      have hu : SeesSame u E := h.frame hf
      have hcfg' : (u.withEq E).cfg = u.cfg := rfl
      simp only [Except.map, Res.bind_ok, withEq₂, hcfg', txpktsAdd_withEq hu, stall_withEq hu, submitSingle_withEq hu]
      split
      · split
        · cases txpktsAdd p (txpktsOpen q') u <;> rfl
        · rfl
      · rfl

theorem submitWr_withEq (h : SeesSame s E) : submitWr i fs q (s.withEq E) = (submitWr i fs q s).map (withEq₃ E) := by
  have hcfg : (s.withEq E).cfg = s.cfg := rfl
  simp only [submitWr, hcfg, flushIfOpen_withEq h]
  split
  · rfl
  split
  · rfl
  split
  · rfl
  cases h1 : flushIfOpen q s with
  | error e => rfl
  | ok r =>
    obtain ⟨q', u⟩ := r
    obtain ⟨-, hf, -⟩ := flushIfOpen_ok h1
    have hu : SeesSame u E := h.frame hf
    simp only [Except.map, Res.bind_ok, withEq₂, stall_withEq hu, writeWr_withEq]
    split
    · rfl
    · cases h2 : writeWr q' q'.pidx.toNat fs u with
      | error e => rfl
      | ok v =>
        obtain ⟨hiq, heq⟩ := writeFlits_queues h2
        simp only [Except.map, Res.bind_ok, commit_withEq (hu.of_same hiq heq)]
        cases commit (ceilDiv fs.length 8) 0 0 q' v <;> rfl

/-! ## What is never refused -/

theorem Unrefused.bind_ok {α β : Type} {x : Res α} {f : α → Res β} (hx : Unrefused x)
    (hf : ∀ a, x = .ok a → Unrefused (f a)) : Unrefused (x >>= f) := by
  cases x with
  | ok a => exact hf a rfl
  | error e => exact fun e' h => hx e' (by cases h; rfl)

theorem ringWrite_unrefused (s : State) (a : Nat) (v : Flit) : Unrefused (ringWrite s a v) := by
  unfold ringWrite
  split
  · exact Unrefused.ok _
  · exact Unrefused.fault _

theorem writeFlits_unrefused (q : EgressQueue) (st : Nat) (s : State) (k : Nat) (fs : List Flit) :
    Unrefused (writeFlits q st s k fs) := by
  induction fs generalizing s k with
  | nil => exact Unrefused.ok _
  | cons v vs ih => exact (ringWrite_unrefused _ _ _).bind fun _ => ih _ _

theorem readChain_unrefused (s : State) (segs : List PktSeg) : Unrefused (readChain s segs) := by
  induction segs with
  | nil => exact Unrefused.ok _
  | cons g gs ih =>
    refine Unrefused.bind ?_ fun _ => ih.bind fun _ => Unrefused.ok _
    unfold bufRead
    split
    · exact Unrefused.ok _
    · exact Unrefused.fault _

theorem commit_unrefused {nd cr np : Nat} (h : q.state ≠ .dead) : Unrefused (commit nd cr np q s) := by
  by_cases hnd : nd ≤ q.avail.toNat
  · rw [commit_eq hnd]
    split
    · exact notifyEq_unrefused h
    · exact Unrefused.ok _
  · rw [commit, if_pos (Nat.lt_of_not_le hnd)]
    exact Unrefused.ringInvariant

theorem txpktsFlush_unrefused (h : q.state ≠ .dead) : Unrefused (txpktsFlush q s) := by
  unfold txpktsFlush
  split
  · exact Unrefused.ok _
  · exact (writeFlits_unrefused _ _ _ _ _).bind fun _ => (writeFlits_unrefused _ _ _ _ _).bind fun _ =>
      commit_unrefused (q := closed q) h

theorem flushIfOpen_unrefused (h : q.state ≠ .dead) : Unrefused (flushIfOpen q s) := by
  unfold flushIfOpen
  split
  · exact txpktsFlush_unrefused h
  · exact Unrefused.ok _

theorem stall_unrefused {cause : Exc} (h : q.state ≠ .dead) : Unrefused (stall i cause q s) := by
  refine (flushIfOpen_unrefused h).bind_ok fun r hr => ?_
  obtain ⟨-, -, -, hstate, -⟩ := flushIfOpen_ok hr
  exact (notifyEq_unrefused (hstate ▸ h)).bind fun _ => Unrefused.ok _

theorem txpktsAdd_unrefused (h : q.state ≠ .dead) : Unrefused (txpktsAdd p q s) := by
  refine (writeFlits_unrefused _ _ _ _ _).bind fun u => ?_
  dsimp only
  split
  · exact txpktsFlush_unrefused h
  · exact Unrefused.ok _

theorem submitSingle_unrefused (h : q.state ≠ .dead) : Unrefused (submitSingle i p q s) := by
  unfold submitSingle
  split
  · unfold submitImm
    dsimp only
    split
    · exact stall_unrefused h
    · exact (readChain_unrefused _ _).bind fun _ => (writeFlits_unrefused _ _ _ _ _).bind fun _ =>
        (commit_unrefused h).bind fun _ => Unrefused.ok _
  · unfold submitSgl
    split
    · exact stall_unrefused h
    dsimp only
    split
    · exact Unrefused.ok _
    · split
      · exact stall_unrefused h
      · exact (writeFlits_unrefused _ _ _ _ _).bind fun _ =>
          (commit_unrefused (q := takeMap _ p.handle q) h).bind fun _ => Unrefused.ok _

theorem submit_unrefused (hr : refusesSubmit q = false) (hgood : malformed p = false) : Unrefused (submit i p q s) := by
  have hlive : q.state ≠ .dead := fun hd => by
    rw [refusesSubmit_iff.mpr (.inr hd)] at hr
    cases hr
  rw [submit, hr, if_neg Bool.false_ne_true, hgood, if_neg Bool.false_ne_true]
  split
  · exact Unrefused.ok _
  dsimp only
  split
  · exact (txpktsAdd_unrefused hlive).bind fun _ => Unrefused.ok _
  · refine (flushIfOpen_unrefused hlive).bind_ok fun r hr => ?_
    obtain ⟨-, -, -, hstate, -⟩ := flushIfOpen_ok hr
    have hlive' : r.1.state ≠ .dead := hstate ▸ hlive
    split
    · split
      · exact (txpktsAdd_unrefused (q := txpktsOpen r.1) hlive').bind fun _ => Unrefused.ok _
      · exact stall_unrefused hlive'
    · exact submitSingle_unrefused hlive'

theorem submitWr_unrefused (hr : refusesSubmit q = false) (hgood : badRequest s.cfg fs = false) :
    Unrefused (submitWr i fs q s) := by
  have hlive : q.state ≠ .dead := fun hd => by
    rw [refusesSubmit_iff.mpr (.inr hd)] at hr
    cases hr
  rw [submitWr, hr, if_neg Bool.false_ne_true, hgood, if_neg Bool.false_ne_true]
  split
  · exact Unrefused.ok _
  refine (flushIfOpen_unrefused hlive).bind_ok fun r hr => ?_
  obtain ⟨-, -, -, hstate, -⟩ := flushIfOpen_ok hr
  have hlive' : r.1.state ≠ .dead := hstate ▸ hlive
  dsimp only
  split
  · exact stall_unrefused hlive'
  · exact (writeFlits_unrefused _ _ _ _ _).bind fun _ => (commit_unrefused hlive').bind fun _ => Unrefused.ok _

/-! ## Two transitions that end alike -/

/-- Two commands whose operations answer the same and refuse nothing end in the same states, but for a panic. -/
theorem runQe_next_iff {s' : State} {body body' : State → Res (State × Ret)} (hp : s.panic = false) (hp' : s'.panic = false)
    (h : body s.begin = body' s'.begin) (hu : Unrefused (body s.begin)) (ht : t.panic = false) :
    runQe s body = .next t ↔ runQe s' body' = .next t := by
  rw [runQe, runQe, hp, hp', if_neg Bool.false_ne_true, if_neg Bool.false_ne_true, ← h]
  cases hb : body s.begin with
  | ok r => exact Iff.rfl
  | error e =>
    cases e with
    | refuse e => exact absurd hb (hu e)
    | fault f => exact ⟨nofun, nofun⟩
    | panic =>
      refine ⟨fun hn => ?_, fun hn => ?_⟩ <;>
      · cases hn
        cases ht

/-- An operation on the queue held that ends alike in the two states, written back. -/
theorem onEq_withEq {u : State} {f : EgressQueue → State → Res (EgressQueue × State × Ret)}
    (h : f q1 (u.withEq (u.eq.set i (some q1))) = (f q1 u).map (withEq₃ (u.eq.set i (some q1))))
    (heq : ∀ q' v r, f q1 u = .ok (q', v, r) → v.eq = u.eq) :
    (f q1 (u.withEq (u.eq.set i (some q1))) >>= fun r => (.ok (r.2.1.setEq i r.1, r.2.2) : Res (State × Ret))) =
      (f q1 u >>= fun r => .ok (r.2.1.setEq i r.1, r.2.2)) := by
  rw [h]
  cases hr : f q1 u with
  | error e => rfl
  | ok r =>
    obtain ⟨q', v, r⟩ := r
    have hv := heq q' v r hr
    simp only [Except.map, Res.bind_ok, withEq₃, State.setEq, State.withEq, hv, List.set_set]

/-! ## A flush before a submission -/

theorem flushIfOpen_raised {s1 : State} (h : flushIfOpen q s = .ok (q1, s1)) : s1.raised = s.raised := by
  unfold flushIfOpen at h
  split at h
  · unfold txpktsFlush at h
    split at h
    · cases h
      rfl
    · obtain ⟨u, hu, h⟩ := Res.bind_eq_ok.mp h
      obtain ⟨v, hv, h⟩ := Res.bind_eq_ok.mp h
      obtain ⟨_, rfl, -⟩ := writeFlits_ok hu
      obtain ⟨_, rfl, -⟩ := writeFlits_ok hv
      obtain ⟨-, -, _, _, _, _, rfl⟩ := commit_ok h
      rfl
  · cases h
    rfl

theorem EgressSame.tellsSame (h : EgressSame q q1) (hs : q1.state = q.state) : TellsSame q q1 := by
  have hlive : q1.live = q.live := by rw [EgressQueue.live, EgressQueue.live, hs]
  obtain ⟨h, -⟩ := h
  exact ⟨by rw [h], by rw [h], by rw [h], by rw [h], hlive⟩

theorem EgressSame.coalesce (h : EgressSame q q1) : q1.coalesce = q.coalesce := by
  obtain ⟨h, -⟩ := h
  rw [h]

theorem EgressFrame.fixed (h : EgressFrame s t) : t.cfg = s.cfg ∧ t.panic = s.panic ∧ t.ret = s.ret := by
  obtain ⟨⟨_, _, _, _, _, _, _, _, ht⟩, -⟩ := h
  rw [ht]
  exact ⟨rfl, rfl, rfl⟩

/-- A packet that the open accumulator cannot take is submitted on the flushed queue. -/
theorem submit_flushed {s1 : State} (hact : q.state = .active) (hgood : malformed p = false)
    (hno : ¬ (q.coalesce = true ∧ coalescable s.cfg p = true ∧ canAdd s.cfg q p = true))
    (hflush : flushIfOpen q s = .ok (q1, s1)) : submit i p q s = submit i p q1 s1 := by
  obtain ⟨hsame, hframe, -, hstate, hclosed⟩ := flushIfOpen_ok hflush
  have hact1 : q1.state = .active := hstate.trans hact
  have hst : q.state ≠ .stalled := by
    rw [hact]
    nofun
  have hst1 : q1.state ≠ .stalled := by
    rw [hact1]
    nofun
  have hadd : (q.txpkts.isOpen && (q.coalesce && coalescable s.cfg p) && canAdd s.cfg q p) = false := by
    rw [Bool.eq_false_iff]
    intro h
    simp only [Bool.and_eq_true] at h
    exact hno ⟨h.1.2.1, h.1.2.2, h.2⟩
  rw [submit, submit, refusesSubmit_eq_false (.inl hact), refusesSubmit_eq_false (.inl hact1), if_neg Bool.false_ne_true,
    if_neg Bool.false_ne_true, hgood, if_neg Bool.false_ne_true, if_neg Bool.false_ne_true, if_neg hst, if_neg hst1]
  dsimp only
  rw [hadd, if_neg Bool.false_ne_true, hflush, hsame.coalesce, hframe.fixed.1, hclosed, flushIfOpen, hclosed]
  rfl

theorem submitWr_flushed {s1 : State} (hact : q.state = .active) (hgood : badRequest s.cfg fs = false)
    (hflush : flushIfOpen q s = .ok (q1, s1)) : submitWr i fs q s = submitWr i fs q1 s1 := by
  obtain ⟨-, hframe, -, hstate, hclosed⟩ := flushIfOpen_ok hflush
  have hact1 : q1.state = .active := hstate.trans hact
  have hst : q.state ≠ .stalled := by
    rw [hact]
    nofun
  have hst1 : q1.state ≠ .stalled := by
    rw [hact1]
    nofun
  rw [submitWr, submitWr, refusesSubmit_eq_false (.inl hact), refusesSubmit_eq_false (.inl hact1),
    if_neg Bool.false_ne_true, if_neg Bool.false_ne_true, hframe.fixed.1, hgood, if_neg Bool.false_ne_true,
    if_neg Bool.false_ne_true, if_neg hst, if_neg hst1, hflush, flushIfOpen, hclosed]
  rfl

/-- A submission whose operation ends alike on the flushed queue ends as from the flushed queue. -/
theorem submission_flushed {s1 : State} {f : State → EgressQueue → Res (EgressQueue × State × Ret)} (hp : s.panic = false)
    (hq : s.eqAt i = some q) (hflush : flushIfOpen q s.begin = .ok (q1, s1)) (hf : f s.begin q = f s1 q1)
    (hview : f (s1.withEq (s1.eq.set i (some q1))) q1 = (f s1 q1).map (withEq₃ (s1.eq.set i (some q1))))
    (heq : ∀ q' v r, f s1 q1 = .ok (q', v, r) → v.eq = s1.eq) (hu : Unrefused (f s.begin q)) (ht : t.panic = false) :
    runQe s (fun u => onEq u i (f u)) = .next t ↔
      runQe { s1 with eq := s1.eq.set i (some q1) } (fun u => onEq u i (f u)) = .next t := by
  obtain ⟨-, hframe, -⟩ := flushIfOpen_ok hflush
  obtain ⟨-, hpanic, hret⟩ := hframe.fixed
  have hraised := flushIfOpen_raised hflush
  have hlt : i < s1.eq.length := by
    by_contra hge
    rw [hframe.queues.2] at hge
    rw [State.eqAt, show s.eq[i]? = none from List.getElem?_eq_none (by simpa using hge)] at hq
    cases hq
  have hbegin : State.begin { s1 with eq := s1.eq.set i (some q1) } = s1.withEq (s1.eq.set i (some q1)) := by
    have hret' : s1.ret = .none := hret
    have hraised' : s1.raised = [] := hraised
    rw [State.begin, State.withEq, ← hret', ← hraised']
  have hq1 : (s1.withEq (s1.eq.set i (some q1))).eqAt i = some q1 := by
    rw [State.eqAt, State.withEq, List.getElem?_set_self hlt]
    rfl
  refine runQe_next_iff hp (hpanic.trans hp) ?_ ?_ ht
  · rw [hbegin, onEq_eq (s := s.begin) hq, onEq_eq hq1, hf]
    exact (onEq_withEq (f := fun q u => f u q) hview heq).symm
  · rw [onEq_eq (s := s.begin) hq]
    exact hu.bind fun _ => Unrefused.ok _

end Sys2Proof.Machine
end

section
/-! PROOFS. TXPKTS_FLUSH, TX_DONE, and the flush before a submission (44_coalescing R355, R356, R358, 30_encoding R148). -/

namespace Sys2Proof.Machine

variable {s s1 s2 t : State} {i : Nat} {q q1 q2 : EgressQueue}

/-! ## The request of an accumulator -/

theorem WritesFlits.flit_other {m m' : Memory} {addr : Nat → Nat} {fs : List Flit} (h : WritesFlits m m' addr fs) {a : Nat}
    (ha : ∀ k, k < fs.length → a + 8 ≤ addr k ∨ addr k + 8 ≤ a) : m'.flit a = m.flit a := by
  obtain ⟨-, hother⟩ := h
  exact Memory.flit_congr fun k hk => hother _ fun n hn => by
    have := ha n hn
    omega

/-- What a flush stores of the accumulator's request: its header, and zeros up to the end of the last descriptor. -/
structure FlushStores (q : EgressQueue) (m m' : Memory) : Prop where
  first : m'.flit (wrFlitAddr q q.txpkts.start.toNat 0) =
    (0x02 : BitVec 8) ++ q.txpkts.npkt ++ (0 : BitVec 16) ++ q.flowid ++ BitVec.ofNat 8 ((q.txpkts.flits.toNat + 1) / 2)
  second : m'.flit (wrFlitAddr q q.txpkts.start.toNat 1) = q.txpkts.plen.setWidth 16 ++ (0 : BitVec 48)
  padding : ∀ k, q.txpkts.flits.toNat ≤ k → k < 8 * ceilDiv q.txpkts.flits.toNat 8 →
    m'.flit (wrFlitAddr q q.txpkts.start.toNat k) = 0
  other : ∀ a, (∀ k, k < 2 ∨ (q.txpkts.flits.toNat ≤ k ∧ k < 8 * ceilDiv q.txpkts.flits.toNat 8) →
    a < wrFlitAddr q q.txpkts.start.toNat k ∨ wrFlitAddr q q.txpkts.start.toNat k + 8 ≤ a) → m'.get a = m.get a

theorem flushHeader_eq : flushHeader q =
    [(0x02 : BitVec 8) ++ q.txpkts.npkt ++ (0 : BitVec 16) ++ q.flowid ++ BitVec.ofNat 8 ((q.txpkts.flits.toNat + 1) / 2),
      q.txpkts.plen.setWidth 16 ++ (0 : BitVec 48)] := by
  have hnpkt : BitVec.ofNat 8 q.txpkts.npkt.toNat = q.txpkts.npkt := by simp
  have hplen : BitVec.ofNat 16 q.txpkts.plen.toNat = q.txpkts.plen.setWidth 16 := by simp
  rw [flushHeader, pktsHeader, hnpkt, hplen]
  rfl

/-- The two writes of a flush. -/
theorem flushWrites {nd : Nat} (hm : q.mapped = true) (hcap : nd < q.cap.toNat) (hw : s.ring.wf)
    (hf : 2 ≤ q.txpkts.flits.toNat) (hnd : nd = ceilDiv q.txpkts.flits.toNat 8) : ∃ m1 m2,
    writeFlits q q.txpkts.start.toNat s 0 (flushHeader q) = .ok { s with ring := m1 } ∧
    writeFlits q q.txpkts.start.toNat { s with ring := m1 } q.txpkts.flits.toNat
      (List.replicate (8 * nd - q.txpkts.flits.toNat) 0) = .ok { s with ring := m2 } ∧ FlushStores q s.ring m2 := by
  have hlen : (flushHeader q).length = 2 := rfl
  have hlast : q.txpkts.flits.toNat ≤ 8 * nd := by
    rw [hnd, ceilDiv_eight]
    omega
  obtain ⟨m1, hrun1, hwf1, hw1⟩ := writeFlits_part (s := s) (fs := flushHeader q) q.txpkts.start.toNat 0 hm (by omega)
    (by omega) hw
  obtain ⟨m2, hrun2, -, hw2⟩ := writeFlits_part (s := { s with ring := m1 })
    (fs := List.replicate (8 * nd - q.txpkts.flits.toNat) 0) q.txpkts.start.toNat q.txpkts.flits.toNat hm (by omega)
    (by rw [List.length_replicate]; omega) hwf1
  simp only [Nat.zero_add] at hw1
  have hkeep (j : Nat) (hj : j < 2) : m2.flit (wrFlitAddr q q.txpkts.start.toNat j) =
      m1.flit (wrFlitAddr q q.txpkts.start.toNat j) := hw2.flit_other fun n hn => by
    rw [List.length_replicate] at hn
    exact wrFlitAddr_apart (by omega) (by omega)
  obtain ⟨hat1, hother1⟩ := hw1
  obtain ⟨hat2, hother2⟩ := hw2
  refine ⟨m1, m2, hrun1, hrun2, ⟨?_, ?_, fun k hfk hk => ?_, fun a ha => ?_⟩⟩
  · rw [hkeep 0 (by omega), hat1 0 (by omega)]
    exact congrArg (·[0]!) flushHeader_eq
  · rw [hkeep 1 (by omega), hat1 1 (by omega)]
    exact congrArg (·[1]!) flushHeader_eq
  · have hk2 := hat2 (k - q.txpkts.flits.toNat) (by rw [List.length_replicate]; omega)
    dsimp only at hk2
    rw [List.getElem_replicate, Nat.add_sub_cancel' hfk] at hk2
    exact hk2
  · rw [hother2 a fun n hn => ?_, hother1 a fun n hn => ?_]
    · exact ha n (.inl (by omega))
    · rw [List.length_replicate] at hn
      exact ha _ (.inr ⟨by omega, by omega⟩)

/-- A flush below the doorbell batch. -/
theorem txpktsFlush_quiet (hnp : q.txpkts.npkt ≠ 0) (hm : q.mapped = true) (hw : s.ring.wf) (hf : 2 ≤ q.txpkts.flits.toNat)
    (hc : quietCommit s.cfg q (ceilDiv q.txpkts.flits.toNat 8) = true) : ∃ m,
    txpktsFlush q s = .ok (committed (closed q) (ceilDiv q.txpkts.flits.toNat 8) q.txpkts.npkt.toNat q.txpkts.npkt.toNat,
      { s with ring := m }) ∧ FlushStores q s.ring m := by
  obtain ⟨hnd, ha, -⟩ := quietCommit_iff.mp hc
  obtain ⟨m1, m2, hrun1, hrun2, hstores⟩ := flushWrites (s := s) hm (Nat.lt_of_le_of_lt hnd ha) hw hf rfl
  refine ⟨m2, ?_, hstores⟩
  rw [txpktsFlush, if_neg hnp]
  dsimp only
  rw [hrun1, Res.bind_ok, hrun2, Res.bind_ok, commit_quiet (q := closed q) (by exact hc)]

/-- The flushed queue's context tells the device the same. -/
theorem seesSame_flushed (hq : s.eqAt i = some q) (hflush : flushIfOpen q s = .ok (q1, s1)) :
    SeesSame s1 (s1.eq.set i (some q1)) := by
  obtain ⟨hsame, hframe, -, hstate, -⟩ := flushIfOpen_ok hflush
  refine seesSame_set (q := q) ?_ (hsame.tellsSame hstate)
  rw [State.eqAt, hframe.queues.2]
  exact hq

/-! ## The commands -/

theorem execTxpktsFlush_eq (hp : s.panic = false) (hq : s.eqAt i = some q) (hr : refusesSubmit q = false)
    (h : flushIfOpen q s.begin = .ok (q1, s1)) : execTxpktsFlush i s = .next ((s1.setEq i q1).answer .ok) := by
  refine (runQe_onEq (t := s1) (r := .ok) (e' := q1) hp hq ?_ : execTxpktsFlush i s = _)
  dsimp only
  rw [txpktsFlushCommand, hr, if_neg Bool.false_ne_true, h]
  rfl

theorem execTxDone_eq (hp : s.panic = false) (hq : s.eqAt i = some q) (hr : refusesSubmit q = false)
    (h : flushIfOpen q s.begin = .ok (q1, s1)) (hn : notifyEq q1 s1 = .ok (q2, s2)) :
    execTxDone i s = .next ((s2.setEq i q2).answer .ok) := by
  refine (runQe_onEq (t := s2) (r := .ok) (e' := q2) hp hq ?_ : execTxDone i s = _)
  dsimp only
  rw [hr, if_neg Bool.false_ne_true, txpktsFlushCommand, hr, if_neg Bool.false_ne_true, h, Res.bind_ok]
  dsimp only
  rw [hn]
  rfl

theorem flushIfOpen_closed (h : q.txpkts.isOpen = false) : flushIfOpen q s = .ok (q, s) :=
  if_neg (by rw [h]; exact Bool.false_ne_true)

theorem flushIfOpen_open (h : q.txpkts.isOpen = true) : flushIfOpen q s = txpktsFlush q s := if_pos h

/-- Two commands on a queue whose operations answer the same. -/
theorem runQe_onEq_congr {f f' : State → EgressQueue → Res (EgressQueue × State × Ret)} (hq : s.eqAt i = some q)
    (h : f s.begin q = f' s.begin q) : runQe s (fun u => onEq u i (f u)) = runQe s (fun u => onEq u i (f' u)) := by
  rw [runQe, runQe, onEq_eq (s := s.begin) hq, onEq_eq (s := s.begin) hq, h]

/-- With nothing open TX_DONE is NOTIFY. -/
theorem execTxDone_closed (hq : s.eqAt i = some q) (hr : refusesSubmit q = false)
    (hopen : q.txpkts.isOpen = false) : execTxDone i s = execNotify (.eq i) s := by
  refine (runQe_onEq_congr (f' := fun u q => notifyEq q u >>= fun r => pure (r.1, r.2, .ok)) hq ?_ :
    execTxDone i s = execNotify (.eq i) s)
  dsimp only
  rw [hr, if_neg Bool.false_ne_true, txpktsFlushCommand, hr, if_neg Bool.false_ne_true, flushIfOpen_closed hopen,
    Res.bind_ok]

end Sys2Proof.Machine

namespace Sys2Proof
open Machine

/-- Settles O50: the flush of a closed, an empty and an open accumulator, TX_DONE, and the flush before a submission. -/
theorem flushAndTxDone : Obligations.FlushAndTxDone := by
  intro s i q hp hq hst
  have hr : refusesSubmit q = false := refusesSubmit_eq_false hst
  refine ⟨fun hopen => ⟨?_, execTxDone_closed hq hr hopen, fun hpend => ?_⟩, fun hopen hnp => ?_,
    fun hopen hnp hrange hm hf hw => ?_, fun q1 s1 q2 s2 hflush hn => ?_, fun q1 s1 hact hopen hflush => ⟨?_, ?_⟩⟩
  · exact (execTxpktsFlush_eq hp hq hr (flushIfOpen_closed hopen)).trans (congrArg _ (answer_setEq_self hq))
  · refine (execTxDone_closed hq hr hopen).trans (execNotify_eq_nothing hp hq (fun hd => ?_) hpend)
    rw [refusesSubmit_iff.mpr (.inr hd)] at hr
    cases hr
  · have hflush : flushIfOpen q s.begin = .ok (closed q, s.begin) := (flushIfOpen_open hopen).trans (if_pos hnp)
    exact execTxpktsFlush_eq hp hq hr hflush
  · intro t f nd hc hstart
    obtain ⟨m, hrun, hfirst, hsecond, hpad, hother⟩ := txpktsFlush_quiet (s := s.begin) hnp hm hw hf hc
    rw [hstart] at hfirst hsecond hpad hother
    exact ⟨m, execTxpktsFlush_eq hp hq hr ((flushIfOpen_open hopen).trans hrun), hfirst, hsecond, hpad, hother⟩
  · have hraised : s2.raised = [] := by
      obtain ⟨-, -, _, _, _, _, rfl⟩ := notifyEq_ok hn
      exact flushIfOpen_raised hflush
    refine (show exec (.txDone i) s = _ from execTxDone_eq hp hq hr hflush hn).trans ?_
    simp only [State.setEq, State.answer]
  · intro p t hgood ht hno
    have hview : SeesSame s1 (s1.eq.set i (some q1)) := seesSame_flushed (s := s.begin) hq hflush
    exact submission_flushed (f := fun u q => submit i p q u) hp hq hflush (submit_flushed (s := s.begin) hact hgood hno hflush)
      (submit_withEq hview) (fun q' v r h => (submit_ok h).2.1.queues.2) (submit_unrefused hr hgood) ht
  · intro fs t hgood ht
    have hview : SeesSame s1 (s1.eq.set i (some q1)) := seesSame_flushed (s := s.begin) hq hflush
    exact submission_flushed (f := fun u q => Machine.submitWr i fs q u) hp hq hflush
      (submitWr_flushed (s := s.begin) hact hgood hflush) (submitWr_withEq hview)
      (fun q' v r h => (submitWr_ok h).2.1.queues.2) (submitWr_unrefused (s := s.begin) hr hgood) ht

end Sys2Proof
end

section
/-! PROOFS. TXPKTS_OPEN, TXPKTS_ADD, and the SUBMIT that leads to them (44_coalescing R353, R354). -/

namespace Sys2Proof.Machine

variable {s t : State} {i : Nat} {q : EgressQueue} {p : Packet}

/-! ## The packet added -/

/-- The queue with a packet in its accumulator (44_coalescing R354). -/
def addedQueue (q : EgressQueue) (p : Packet) (tok : Nat) : EgressQueue :=
  { takeMap tok p.handle q with
    txpkts := { q.txpkts with
      npkt := q.txpkts.npkt + 1, flits := q.txpkts.flits + BitVec.ofNat 16 (recFlits p), plen := q.txpkts.plen + p.len } }

/-- The state with a packet's record written. -/
def addedState (s : State) (p : Packet) (m : Memory) (patch : List (Nat × Byte)) (env : Oracles) : State :=
  { s with ring := m, buf := patchChain s.buf p.segs patch, env := env }

theorem record_length (en : Bool × Bool) (h : p.segs ≠ []) : (packetFlit en p :: encodeSgl p.segs).length = recFlits p := by
  obtain ⟨g, gs, hg⟩ := List.exists_cons_of_ne_nil h
  rw [recFlits, hg, List.length_cons, encodeSgl_length, List.length_cons, Nat.add_comm]

/-- TXPKTS_ADD of a packet that there is room for: its record written, its map taken, and the flush that it may lead to. -/
theorem txpktsAdd_writes (hgood : malformed p = false) (hm : q.mapped = true) (ha : q.avail < q.cap)
    (hfit : ceilDiv (q.txpkts.flits.toNat + recFlits p) 8 ≤ q.avail.toNat) (hw : s.ring.wf) : ∃ m tok patch env env',
    txpktsAdd p q s = (if (q.txpkts.npkt + 1).toNat = s.cfg.txpktsMaxPkts then
        txpktsFlush (addedQueue q p tok) (addedState s p m patch env)
      else .ok (addedQueue q p tok, addedState s p m patch env)) ∧
    MapAnswered s.env tok env' ∧ ChecksumAnswered (csumWorkaround s.cfg p) env' patch env ∧
    WritesFlits s.ring m (fun k => wrFlitAddr q q.txpkts.start.toNat (q.txpkts.flits.toNat + k))
      (packetFlit (csumEnables s.cfg p) p :: encodeSgl p.segs) := by
  obtain ⟨hlen, hsum⟩ := chain_of_wellFormed hgood
  have ha' : q.avail.toNat < q.cap.toNat := ha
  obtain ⟨tok, env', hask, hmap⟩ := askMap_eq s
  obtain ⟨patch, env, hbits, hsum'⟩ := csumBits_eq p { s with env := env' }
  have hrec := record_length (csumEnables s.cfg p) (segs_ne_nil hlen hsum)
  obtain ⟨m, hwrite, -, hwrites⟩ := writeFlits_part
    (s := { s with buf := patchChain s.buf p.segs patch, env := env }) (fs := packetFlit (csumEnables s.cfg p) p :: encodeSgl p.segs)
    q.txpkts.start.toNat q.txpkts.flits.toNat hm (by omega) (by rw [hrec]; rw [ceilDiv_eight] at hfit; omega) hw
  refine ⟨m, tok, patch, env, env', ?_, hmap, hsum', hwrites⟩
  have hencoded : encodeRecord ⟨txpktOf (csumEnables s.cfg p) p, p.segs⟩ =
      packetFlit (csumEnables s.cfg p) p :: encodeSgl p.segs := rfl
  rw [txpktsAdd, hask]
  dsimp only
  rw [hbits]
  dsimp only
  rw [hencoded, hwrite, Res.bind_ok]
  rfl

theorem npkt_succ (h : q.txpkts.npkt ≠ 255) : (q.txpkts.npkt + 1).toNat = q.txpkts.npkt.toNat + 1 := by
  have hne : q.txpkts.npkt.toNat ≠ 255 := fun h0 => h (BitVec.eq_of_toNat_eq h0)
  have hlt := q.txpkts.npkt.isLt
  rw [BitVec.toNat_add]
  exact Nat.mod_eq_of_lt (show q.txpkts.npkt.toNat + 1 < 256 by omega)

/-- What `can_add` leaves room for (44_coalescing R352). -/
theorem canAdd_fits {c : Cfg} (h : canAdd c q p = true) :
    ceilDiv ((accOrClosed q.txpkts).flits.toNat + recFlits p) 8 ≤ q.avail.toNat := by
  simp only [canAdd, Bool.and_eq_true, decide_eq_true_eq] at h
  exact h.1.2

theorem accOrClosed_open (h : q.txpkts.isOpen = true) : accOrClosed q.txpkts = q.txpkts := if_pos h

theorem accOrClosed_closed (h : q.txpkts.isOpen = false) : accOrClosed q.txpkts = { flits := 2 } :=
  if_neg (by rw [h]; exact Bool.false_ne_true)

/-! ## The instructions -/

theorem execTxpktsOpen_opens (hp : s.panic = false) (hq : s.eqAt i = some q) (hact : q.state = .active)
    (hopen : q.txpkts.isOpen = false) (hcoal : q.coalesce = true) :
    execTxpktsOpen i s = .next ((s.begin.setEq i (txpktsOpen q)).answer .ok) := by
  have hlegal : (decide (q.state = .stalled) || q.txpkts.isOpen || !q.coalesce) = false := by
    rw [hact, hopen, hcoal]
    rfl
  refine (runQe_onEq (t := s.begin) (r := .ok) (e' := txpktsOpen q) hp hq ?_ : execTxpktsOpen i s = _)
  rw [refusesSubmit_eq_false (.inl hact), if_neg Bool.false_ne_true, hlegal, if_neg Bool.false_ne_true]

theorem execTxpktsAdd_neverCoalesced (hp : s.panic = false) (hq : s.eqAt i = some q) (hact : q.state = .active)
    (h : coalescable s.cfg p = false) : execTxpktsAdd i p s = .next (takeRefusal s .badarg) := by
  refine runQe_refuse hp (onEq_refuse (s := s.begin) hq ?_)
  have hbad : (malformed p || !coalescable s.begin.cfg p || decide (q.state = .stalled) || !q.txpkts.isOpen ||
      !canAdd s.begin.cfg q p) = true := by
    rw [show coalescable s.begin.cfg p = false from h]
    simp
  rw [refusesSubmit_eq_false (.inl hact), if_neg Bool.false_ne_true, if_pos hbad]
  rfl

/-- TXPKTS_ADD as an instruction, on a queue whose open accumulator can take the packet. -/
def addBody (p : Packet) (u : State) (q : EgressQueue) : Res (EgressQueue × State × Ret) :=
  txpktsAdd p q u >>= fun r => .ok (r.1, r.2, .ok)

/-- What TXPKTS_ADD asks of the packet and the queue (44_coalescing R354, log 10). -/
structure MayAdd (c : Cfg) (q : EgressQueue) (p : Packet) : Prop where
  active : q.state = .active
  isOpen : q.txpkts.isOpen = true
  good : malformed p = false
  coalesced : coalescable c p = true
  fits : canAdd c q p = true

theorem execTxpktsAdd_eq (hq : s.eqAt i = some q) (h : MayAdd s.cfg q p) :
    execTxpktsAdd i p s = runQe s fun u => onEq u i (addBody p u) := by
  have hlegal : (malformed p || !coalescable s.begin.cfg p || decide (q.state = .stalled) || !q.txpkts.isOpen ||
      !canAdd s.begin.cfg q p) = false := by
    rw [h.good, show coalescable s.begin.cfg p = true from h.coalesced, show canAdd s.begin.cfg q p = true from h.fits,
      h.active, h.isOpen]
    rfl
  refine (runQe_onEq_congr (f' := addBody p) hq ?_ : execTxpktsAdd i p s = _)
  dsimp only
  rw [refusesSubmit_eq_false (.inl h.active), if_neg Bool.false_ne_true, hlegal, if_neg Bool.false_ne_true]
  rfl

/-- SUBMIT of a packet that the open accumulator can take is TXPKTS_ADD. -/
theorem execSubmit_adds (hq : s.eqAt i = some q) (hcoal : q.coalesce = true) (h : MayAdd s.cfg q p) :
    execSubmit i p s = execTxpktsAdd i p s := by
  have hst : q.state ≠ .stalled := by
    rw [h.active]
    nofun
  have hadd : (q.txpkts.isOpen && (q.coalesce && coalescable s.begin.cfg p) && canAdd s.begin.cfg q p) = true := by
    rw [h.isOpen, hcoal, show coalescable s.begin.cfg p = true from h.coalesced,
      show canAdd s.begin.cfg q p = true from h.fits]
    rfl
  rw [execTxpktsAdd_eq hq h]
  refine (runQe_onEq_congr (f := fun u q => submit i p q u) hq ?_ : execSubmit i p s = _)
  rw [submit, refusesSubmit_eq_false (.inl h.active), if_neg Bool.false_ne_true, h.good, if_neg Bool.false_ne_true,
    if_neg hst]
  dsimp only
  rw [if_pos hadd]
  rfl

/-- SUBMIT of the first packet of a coalesced request opens the accumulator and adds to it. -/
theorem submit_opens (hact : q.state = .active) (hopen : q.txpkts.isOpen = false) (hgood : malformed p = false)
    (hcoal : q.coalesce = true) (hc : coalescable s.cfg p = true) (hadd : canAdd s.cfg q p = true) :
    submit i p q s = addBody p s (txpktsOpen q) := by
  have hst : q.state ≠ .stalled := by
    rw [hact]
    nofun
  rw [submit, refusesSubmit_eq_false (.inl hact), if_neg Bool.false_ne_true, hgood, if_neg Bool.false_ne_true, if_neg hst]
  simp only [hcoal, hc, hopen, hadd, flushIfOpen_closed hopen, Bool.and_true, Bool.false_eq_true, if_false, if_true,
    Res.bind_ok]
  rfl

theorem addedQueue_tells (tok : Nat) : TellsSame q (addedQueue q p tok) := ⟨rfl, rfl, rfl, rfl, rfl⟩

/-- The state that a packet added leaves, with the queue written back. -/
theorem begin_added {m : Memory} {patch : List (Nat × Byte)} {env : Oracles} {e : EgressQueue} :
    State.begin { s with
      eq := s.eq.set i (some e), ring := m, buf := patchChain s.buf p.segs patch, env := env, ret := .ok, raised := [] } =
    (addedState s.begin p m patch env).withEq ((addedState s.begin p m patch env).eq.set i (some e)) := rfl

/-- The packet that fills the request: TXPKTS_ADD ends as a TXPKTS_FLUSH of what it leaves. -/
theorem execTxpktsAdd_fills {m : Memory} {tok : Nat} {patch : List (Nat × Byte)} {env : Oracles} (hp : s.panic = false)
    (hq : s.eqAt i = some q) (h : MayAdd s.cfg q p)
    (hrun : txpktsAdd p q s.begin = txpktsFlush (addedQueue q p tok) (addedState s.begin p m patch env))
    (ht : t.panic = false) :
    execTxpktsAdd i p s = .next t ↔ execTxpktsFlush i { s with
      eq := s.eq.set i (some (addedQueue q p tok)), ring := m, buf := patchChain s.buf p.segs patch, env := env
      ret := .ok, raised := [] } = .next t := by
  have hlive : (addedQueue q p tok).state ≠ .dead := by
    rw [show (addedQueue q p tok).state = q.state from rfl, h.active]
    nofun
  have hlt : i < s.eq.length := by
    by_contra hge
    rw [State.eqAt, List.getElem?_eq_none (by omega)] at hq
    cases hq
  have hq1 : State.eqAt ((addedState s.begin p m patch env).withEq
      ((addedState s.begin p m patch env).eq.set i (some (addedQueue q p tok)))) i = some (addedQueue q p tok) := by
    rw [State.eqAt, State.withEq, show (addedState s.begin p m patch env).eq = s.eq from rfl, List.getElem?_set_self hlt]
    rfl
  have hview : SeesSame (addedState s.begin p m patch env)
      ((addedState s.begin p m patch env).eq.set i (some (addedQueue q p tok))) :=
    seesSame_set (s := addedState s.begin p m patch env) hq (addedQueue_tells tok)
  have hacc : refusesSubmit (addedQueue q p tok) = false := refusesSubmit_eq_false (.inl h.active)
  have hbody : onEq s.begin i (addBody p s.begin) =
      (txpktsFlush (addedQueue q p tok) (addedState s.begin p m patch env) >>= fun r =>
        .ok (r.2.setEq i r.1, .ok)) := by
    rw [onEq_eq (s := s.begin) hq, addBody, hrun]
    cases txpktsFlush (addedQueue q p tok) (addedState s.begin p m patch env) <;> rfl
  rw [execTxpktsAdd_eq hq h]
  refine runQe_next_iff hp hp ?_ ?_ ht
  · rw [begin_added, onEq_eq hq1, txpktsFlushCommand, hacc, if_neg Bool.false_ne_true,
      flushIfOpen_open (show (addedQueue q p tok).txpkts.isOpen = true from h.isOpen), txpktsFlush_withEq hview]
    refine hbody.trans ?_
    cases hr : txpktsFlush (addedQueue q p tok) (addedState s.begin p m patch env) with
    | error e => rfl
    | ok r =>
      obtain ⟨q', v⟩ := r
      obtain ⟨-, hframe, -⟩ := txpktsFlush_same hr
      simp only [Except.map, Res.bind_ok, Res.pure_eq, withEq₂, State.setEq, State.withEq, hframe.queues.2, List.set_set]
  · rw [hbody]
    exact (txpktsFlush_unrefused hlive).bind fun _ => Unrefused.ok _

end Sys2Proof.Machine

namespace Sys2Proof
open Machine

/-- Settles O49: the accumulator opened, a packet added, the one that fills it, and the SUBMIT that leads there. -/
theorem coalescing : Obligations.Coalescing := by
  intro s i q p hp hq hact wa opened added answered adds
  refine ⟨fun hopen hcoal => execTxpktsOpen_opens hp hq hact hopen hcoal,
    fun hc => execTxpktsAdd_neverCoalesced hp hq hact hc, fun hopen hgood hc hadd hm ha hnp hw => ?_,
    fun hopen hgood hadd hcoal hc => execSubmit_adds hq hcoal ⟨hact, hopen, hgood, hc, hadd⟩,
    fun hopen hgood hadd hcoal hc hm ha hmax hw => ?_⟩
  · have hmay : MayAdd s.cfg q p := ⟨hact, hopen, hgood, hc, hadd⟩
    have hfit := canAdd_fits hadd
    rw [accOrClosed_open hopen] at hfit
    obtain ⟨m, tok, patch, env, env', hrun, hmap, hsum, hwrites⟩ := txpktsAdd_writes (s := s.begin) hgood hm ha hfit hw
    rw [npkt_succ hnp] at hrun
    refine ⟨fun hne => ⟨m, tok, patch, env, ?_, map_and_checksum hmap hsum, hwrites⟩,
      fun he => ⟨m, tok, patch, env, fun t ht => ?_, map_and_checksum hmap hsum, hwrites⟩⟩
    · rw [if_neg (by exact hne)] at hrun
      refine (execTxpktsAdd_eq hq hmay).trans (runQe_onEq (e' := addedQueue q p tok) (t := addedState s.begin p m patch env)
        (r := .ok) hp hq ?_)
      rw [addBody, hrun]
      rfl
    · rw [if_pos (by exact he)] at hrun
      exact execTxpktsAdd_fills hp hq hmay hrun ht
  · have hfit := canAdd_fits hadd
    rw [accOrClosed_closed hopen] at hfit
    obtain ⟨m, tok, patch, env, env', hrun, hmap, hsum, hwrites⟩ := txpktsAdd_writes (s := s.begin) (q := txpktsOpen q)
      hgood hm ha hfit hw
    rw [if_neg (by exact hmax.symm)] at hrun
    refine ⟨m, tok, patch, env, ?_, map_and_checksum hmap hsum, hwrites⟩
    refine (runQe_onEq (f := fun u q => submit i p q u) (e' := addedQueue (txpktsOpen q) p tok)
      (t := addedState s.begin p m patch env) (r := .ok) hp hq ?_ : execSubmit i p s = _)
    rw [submit_opens (s := s.begin) hact hopen hgood hcoal hc hadd, addBody, hrun]
    rfl

end Sys2Proof
end

section
/-! PROOFS. The length of a frame that CONSUME_FRAME completes or saves (41_frame_reassembly R222, R223, R228). -/

namespace Sys2Proof.Machine

variable {s t : State} {i : Nat} {q : IngressQueue} {fl fl' : FreeList} {total : BitVec 31} {newbuf : Bool}

/-! ## The instruction by what the frame's consumption answers -/

/-- How CONSUME_FRAME issued by itself ends: the frame's segments are its issuer's (log 10, log 16). -/
def frameEnd (i : Nat) (q : IngressQueue) : Option LogicalFrame × FreeList × State → State × Ret
  | (some f, fl, s) =>
    (((s.setHeld (s.held ++ f.segs)).setGiven (s.given ++ f.segs)).setIq i { q with fl := some fl }, .complete f)
  | (none, fl, s) => (s.setIq i { q with fl := some fl }, .incomplete)

theorem execConsumeFrame_eq (hq : s.iqAt i = some q) (hfl : q.fl = some fl) (hd : fl.doomed = false) (ht : total ≠ 0) :
    execConsumeFrame i total newbuf s =
      runQe s fun u => (consumeFrame fl total.toNat newbuf u).map (frameEnd i q) := by
  rw [execConsumeFrame, runQe, runQe]
  split
  · rfl
  · dsimp only
    rw [onFl_eq (s := s.begin) hq hfl, hd, if_neg Bool.false_ne_true]
    cases consumeFrame fl total.toNat newbuf s.begin with
    | error e => rfl
    | ok r =>
      obtain ⟨_ | f, fl', t⟩ := r <;> rfl

/-- A CONSUME_FRAME that returns a frame, or that it is incomplete, did consume. -/
theorem consumeFrame_of_exec (hq : s.iqAt i = some q) (hfl : q.fl = some fl) (hd : fl.doomed = false) (ht : total ≠ 0)
    (h : execConsumeFrame i total newbuf s = .next t) (hret : (∃ f, t.ret = .complete f) ∨ t.ret = .incomplete) :
    ∃ r, consumeFrame fl total.toNat newbuf s.begin = .ok r ∧ t = (frameEnd i q r).1.answer (frameEnd i q r).2 := by
  rw [execConsumeFrame_eq hq hfl hd ht] at h
  obtain ⟨u, ret, hrun, rfl⟩ | ⟨e, -, rfl⟩ | ⟨-, rfl⟩ := (runQe_next h).2
  · cases hc : consumeFrame fl total.toNat newbuf s.begin with
    | error e =>
      rw [hc] at hrun
      cases hrun
    | ok r =>
      rw [hc] at hrun
      exact ⟨r, rfl, by rw [Except.ok.inj hrun]⟩
  · obtain ⟨f, hf⟩ | hf := hret <;> cases hf
  · obtain ⟨f, hf⟩ | hf := hret <;> cases hf

/-! ## The start of a frame -/

theorem consumeFrame_resumed {n : Nat} {r : ResumeRecord} (hb : fl.bufResume = true) (hr : fl.resume = some r) :
    consumeFrame fl n newbuf s =
      consumeLoop r.remaining.toNat r.remaining.toNat { fl with bufResume := false, resume := none } s r.frame := by
  rw [consumeFrame, hb, hr]

theorem consumeFrame_started {n : Nat} (hb : fl.bufResume = false) :
    consumeFrame fl n newbuf s = startFrame fl newbuf >>= fun fl => consumeLoop n n fl s {} := by
  rw [consumeFrame, hb]

/-! ## A frame that stays incomplete -/

/-- A frame is saved only with bytes that remain, and for want of a buffer or a heap object. -/
theorem consumeLoop_saved {fuel rem : Nat} {f : LogicalFrame} (h : consumeLoop fuel rem fl s f = .ok (none, fl', t)) :
    t.raised = s.raised ++ [.noresourceBuf] ∧ ∃ g k, fl'.bufResume = true ∧ fl'.resume = some ⟨g, BitVec.ofNat 32 k⟩ ∧
      0 < k ∧ k ≤ rem ∧ g.len + BitVec.ofNat 32 k = f.len + BitVec.ofNat 32 rem := by
  induction fuel generalizing rem fl s f with
  | zero => cases h
  | succ fuel ih =>
    rw [consumeLoop] at h
    split at h
    · cases h
    next hrem =>
    split at h
    · cases h
      exact ⟨rfl, f, rem, rfl, rfl, Nat.pos_of_ne_zero hrem, Nat.le_refl _, rfl⟩
    dsimp only at h
    split at h
    · cases h
    obtain ⟨⟨r, s1⟩, hseg, h⟩ := Res.bind_eq_ok.mp h
    obtain ⟨⟨a, hp, e, rfl⟩, -⟩ := consumeSegment_ok hseg
    cases r with
    | none =>
      cases h
      exact ⟨rfl, f, rem, rfl, rfl, Nat.pos_of_ne_zero hrem, Nat.le_refl _, rfl⟩
    | some p =>
      obtain ⟨fl2, -, h⟩ := Res.bind_eq_ok.mp h
      obtain ⟨hraised, g, k, hb, hr, hk, hle, hlen⟩ := ih h
      refine ⟨hraised, g, k, hb, hr, hk, by omega, hlen.trans ?_⟩
      rw [LogicalFrame.extend, BitVec.add_assoc, ← BitVec.ofNat_add, Nat.add_sub_cancel' (Nat.min_le_left _ _)]

/-! ## The obligation -/

theorem toNat_of_sum {x : BitVec 32} {n k : Nat} (h : x + BitVec.ofNat 32 k = 0 + BitVec.ofNat 32 n) (hk : k ≤ n)
    (hn : n < 2 ^ 31) : x.toNat + k = n := by
  have hx : x = BitVec.ofNat 32 (n - k) := by
    rw [zero_add, ← Nat.sub_add_cancel hk, BitVec.ofNat_add] at h
    exact add_right_cancel h
  rw [hx, BitVec.toNat_ofNat, Nat.mod_eq_of_lt (by omega)]
  omega

end Sys2Proof.Machine

namespace Sys2Proof
open Machine

/-- Settles O35: `consumeLoop` keeps the sum of the frame's length and of what remains. -/
theorem frameLength : Obligations.FrameLength := by
  intro s t i q fl total newbuf hq hfl hd ht h _
  have hlt : total.toNat < 2 ^ 31 := total.isLt
  refine ⟨fun hb => ⟨fun f hret => ?_, fun hret => ?_⟩, fun r hb hr => ⟨fun total' newbuf' ht' => ?_, fun f hret => ?_⟩⟩
  · obtain ⟨⟨_ | g, fl', u⟩, hrun, rfl⟩ := consumeFrame_of_exec hq hfl hd ht h (.inl ⟨f, hret⟩) <;> cases hret
    rw [consumeFrame_started hb] at hrun
    obtain ⟨fl1, -, hloop⟩ := Res.bind_eq_ok.mp hrun
    obtain ⟨hlen, -⟩ := (consumeLoop_ok hloop).2.2 (Nat.le_refl _)
    exact toNat_of_sum (k := 0) ((BitVec.add_zero _).trans hlen) (Nat.zero_le _) hlt
  · obtain ⟨⟨_ | g, fl', u⟩, hrun, rfl⟩ := consumeFrame_of_exec hq hfl hd ht h (.inr hret) <;> cases hret
    rw [consumeFrame_started hb] at hrun
    obtain ⟨fl1, -, hloop⟩ := Res.bind_eq_ok.mp hrun
    obtain ⟨hraised, g, k, hb', hr', hk, hle, hlen⟩ := consumeLoop_saved hloop
    obtain ⟨-, ⟨a, hp, e, es, rfl⟩, -⟩ := consumeLoop_ok hloop
    exact ⟨hraised, fl', g, k, State.setIq_iqAt_same _ i _ q hq, hb', hr', hk, toNat_of_sum hlen hle hlt⟩
  · exact (execConsumeFrame_eq hq hfl hd ht').trans
      ((congrArg (runQe s) (funext fun u => by rw [consumeFrame_resumed hb hr, consumeFrame_resumed hb hr])).trans
        (execConsumeFrame_eq hq hfl hd ht).symm)
  · obtain ⟨⟨_ | g, fl', u⟩, hrun, rfl⟩ := consumeFrame_of_exec hq hfl hd ht h (.inl ⟨f, hret⟩) <;> cases hret
    rw [consumeFrame_resumed hb hr] at hrun
    obtain ⟨hlen, ⟨l, hl⟩, -⟩ := (consumeLoop_ok hrun).2.2 (Nat.le_refl _)
    exact ⟨hlen.trans (by rw [BitVec.ofNat_toNat, BitVec.setWidth_eq]), l, hl.symm⟩

end Sys2Proof
end

section
/-! PROOFS. CONSUME_FRAME of one segment, and NEWBUF (41_frame_reassembly R220 to R226). -/

namespace Sys2Proof.Machine

variable {s t : State} {i : Nat} {q : IngressQueue} {fl : FreeList} {total : BitVec 31} {newbuf : Bool}
  {sd : FreeListSlot} {h off len : Nat} {b : Buffer}

/-! ## One segment, by its shape -/

/-- The address of the bytes at an offset of a slot's buffer (41_frame_reassembly R225). -/
def segmentAddr (b : Buffer) (sd : FreeListSlot) (off : Nat) : Nat := b.base.toNat + (sd.layout.payloadOff.toNat + off)

theorem bufferOf_bind (hbuf : sd.buf = some h) (hb : s.bufferOf h = some b) : sd.buf.bind s.bufferOf = some b := by
  rw [hbuf]
  exact hb

/-- A buffer with metadata is shared, and counted once more. -/
theorem consumeSegment_shared (hbuf : sd.buf = some h) (hb : s.bufferOf h = some b) (hlen : s.cfg.rxCopyThreshold ≤ len)
    (hm : b.hasMeta = true) : consumeSegment sd off len s =
      .ok (some (.shared h (BitVec.ofNat 32 (sd.layout.payloadOff.toNat + off)) (BitVec.ofNat 32 len),
        { sd with nmbuf := sd.nmbuf + 1 }),
        { s with arena := s.arena.map fun x => if x.handle = h then { x with refcount := b.refcount + 1 } else x }) := by
  rw [consumeSegment, bufferOf_bind hbuf hb]
  dsimp only
  rw [if_neg (Nat.not_lt.mpr hlen), if_pos hm, State.addRef, (bufferOf_some hb).2]
  rfl

/-- A buffer without metadata is handed over whole. -/
theorem consumeSegment_owned (hbuf : sd.buf = some h) (hb : s.bufferOf h = some b) (hlen : s.cfg.rxCopyThreshold ≤ len)
    (hm : b.hasMeta = false) : consumeSegment sd off len s =
      .ok (some (.owned h sd.layout.payloadOff (BitVec.ofNat 32 len), { sd with buf := none }), s) := by
  rw [consumeSegment, bufferOf_bind hbuf hb]
  dsimp only
  rw [if_neg (Nat.not_lt.mpr hlen), hm, (bufferOf_some hb).2]
  rfl

/-- The state with a heap object of these bytes. -/
def heapFilled (s : State) (bytes : List Byte) (rest : List Bool) : State :=
  { s with
    heap := s.heap ++ [⟨s.env.nextHeap, bytes⟩]
    env := { s.env with heap := rest, nextHeap := s.env.nextHeap + 1 } }

theorem heapAlloc_granted {rest : List Bool} (bytes : List Byte) (he : s.env.heap = true :: rest) :
    heapAlloc s bytes = (some s.env.nextHeap, heapFilled s bytes rest) := by
  rw [heapAlloc, he]
  rfl

theorem heapAlloc_denied {rest : List Bool} (bytes : List Byte) (he : s.env.heap = false :: rest) :
    heapAlloc s bytes = (none, { s with env := { s.env with heap := rest } }) := by
  rw [heapAlloc, he]
  rfl

theorem bufRead_segment (ha : inSpace (segmentAddr b sd off) len = true) :
    bufRead s (b.base.toNat + (sd.layout.payloadOff.toNat + off)) len = .ok (s.buf.bytes (segmentAddr b sd off) len) :=
  if_pos ha

/-- A short segment's bytes are copied to a heap object. -/
theorem consumeSegment_copy {rest : List Bool} (hbuf : sd.buf = some h) (hb : s.bufferOf h = some b)
    (hlen : len < s.cfg.rxCopyThreshold) (he : s.env.heap = true :: rest) (ha : inSpace (segmentAddr b sd off) len = true) :
    consumeSegment sd off len s = .ok (some (.copy s.env.nextHeap (BitVec.ofNat 32 len), sd),
      heapFilled s (s.buf.bytes (segmentAddr b sd off) len) rest) := by
  rw [consumeSegment, bufferOf_bind hbuf hb]
  dsimp only
  rw [if_pos hlen, bufRead_segment ha, Res.bind_ok, heapAlloc_granted _ he]
  rfl

theorem consumeSegment_denied {rest : List Bool} (hbuf : sd.buf = some h) (hb : s.bufferOf h = some b)
    (hlen : len < s.cfg.rxCopyThreshold) (he : s.env.heap = false :: rest) (ha : inSpace (segmentAddr b sd off) len = true) :
    consumeSegment sd off len s = .ok (none, { s with env := { s.env with heap := rest } }) := by
  rw [consumeSegment, bufferOf_bind hbuf hb]
  dsimp only
  rw [if_pos hlen, bufRead_segment ha, Res.bind_ok, heapAlloc_denied _ he]
  rfl

/-! ## One step of the loop -/

theorem consumed_within {c : Cfg} {hs : Nat} (hp : fl.packing = true) (h : packedOffset c fl.rxOffset.toNat len hs ≠ hs) :
    consumed c fl len hs = { fl with rxOffset := BitVec.ofNat 32 (packedOffset c fl.rxOffset.toNat len hs) } :=
  if_pos (And.intro hp h)

theorem consumed_next {c : Cfg} {hs : Nat} (h : ¬(fl.packing = true ∧ packedOffset c fl.rxOffset.toNat len hs ≠ hs)) :
    consumed c fl len hs = { fl with cidx := incIdx fl.cidx fl.cap, rxOffset := 0 } := if_neg h

theorem moveCursor_eq {c : Cfg} {hs : Nat} (hne : fl.cidx ≠ fl.pidx) : moveCursor c fl len hs = .ok (consumed c fl len hs) := by
  have hadv : advanceSlot fl = .ok { fl with cidx := incIdx fl.cidx fl.cap, rxOffset := 0 } := if_neg hne
  by_cases hp : fl.packing = true
  · rw [moveCursor, if_pos hp, hadv]
    by_cases h : packedOffset c fl.rxOffset.toNat len hs = hs
    · rw [consumed_next fun hc => hc.2 h]
      exact if_pos h
    · rw [consumed_within hp h]
      exact if_neg h
  · rw [moveCursor, if_neg hp, hadv, consumed_next fun hc => hp hc.1]

theorem consumed_setSlot {c : Cfg} {hs k : Nat} :
    consumed c (setSlot fl k sd) len hs = { consumed c fl len hs with sdesc := fl.sdesc.set k sd } := by
  by_cases h : fl.packing = true ∧ packedOffset c fl.rxOffset.toNat len hs ≠ hs
  · rw [consumed_within h.1 h.2, consumed_within (fl := setSlot fl k sd) h.1 h.2]
    rfl
  · rw [consumed_next h, consumed_next (fl := setSlot fl k sd) h]
    rfl

/-- The bytes of the frame that the buffer at the cursor holds. -/
def segmentRoom (c : Cfg) (fl : FreeList) (rem : Nat) : Nat :=
  min rem (classSize c (slotAt fl fl.cidx.toNat).layout - fl.rxOffset.toNat)

/-- The state as a frame's consumption begins, that may end with one segment or with more. -/
def InBuffer (s : State) (fl : FreeList) : Prop :=
  fl.cidx ≠ fl.pidx ∧ fl.rxOffset.toNat < classSize s.cfg (slotAt fl fl.cidx.toNat).layout

theorem consumeLoop_step {fuel rem : Nat} {f : LogicalFrame} {g : Segment} {sd' : FreeListSlot} (hrem : rem ≠ 0)
    (hin : InBuffer s fl) (hseg : consumeSegment (slotAt fl fl.cidx.toNat) fl.rxOffset.toNat (segmentRoom s.cfg fl rem) s =
      .ok (some (g, sd'), t)) :
    consumeLoop (fuel + 1) rem fl s f = consumeLoop fuel (rem - segmentRoom s.cfg fl rem)
      { consumed s.cfg fl (segmentRoom s.cfg fl rem) (classSize s.cfg (slotAt fl fl.cidx.toNat).layout) with
        sdesc := fl.sdesc.set fl.cidx.toNat sd' } t (f.extend g (segmentRoom s.cfg fl rem)) := by
  obtain ⟨⟨a, hp, e, rfl⟩, -⟩ := consumeSegment_ok hseg
  rw [consumeLoop, if_neg hrem, if_neg hin.1]
  dsimp only
  rw [if_neg (Nat.not_le.mpr hin.2)]
  erw [hseg]
  rw [Res.bind_ok]
  dsimp only
  rw [moveCursor_eq (fl := setSlot fl fl.cidx.toNat sd') hin.1, Res.bind_ok, consumed_setSlot]
  rfl

theorem consumeLoop_done (fuel : Nat) (f : LogicalFrame) : consumeLoop fuel 0 fl s f = .ok (some f, fl, s) := by
  cases fuel <;> rfl

/-- A frame that the buffer at the cursor holds. -/
theorem consumeLoop_one {n : Nat} {g : Segment} {sd' : FreeListSlot} (hn : n ≠ 0) (hne : fl.cidx ≠ fl.pidx)
    (hfits : fl.rxOffset.toNat + n ≤ classSize s.cfg (slotAt fl fl.cidx.toNat).layout)
    (hseg : consumeSegment (slotAt fl fl.cidx.toNat) fl.rxOffset.toNat n s = .ok (some (g, sd'), t)) :
    consumeLoop n n fl s {} = .ok (some { segs := [g], len := BitVec.ofNat 32 n },
      { consumed s.cfg fl n (classSize s.cfg (slotAt fl fl.cidx.toNat).layout) with
        sdesc := fl.sdesc.set fl.cidx.toNat sd' }, t) := by
  obtain ⟨k, rfl⟩ := Nat.exists_eq_add_one_of_ne_zero hn
  have hroom : segmentRoom s.cfg fl (k + 1) = k + 1 := Nat.min_eq_left (by omega)
  rw [consumeLoop_step hn ⟨hne, by omega⟩ (hroom.symm ▸ hseg), hroom, Nat.sub_self, consumeLoop_done, LogicalFrame.extend,
    show ({} : LogicalFrame).len = 0 from rfl, zero_add]
  rfl

/-- A segment that leaves its slot's record as it is. -/
theorem consumeLoop_one_same {n : Nat} {g : Segment} (hn : n ≠ 0) (hne : fl.cidx ≠ fl.pidx)
    (hfits : fl.rxOffset.toNat + n ≤ classSize s.cfg (slotAt fl fl.cidx.toNat).layout)
    (hseg : consumeSegment (slotAt fl fl.cidx.toNat) fl.rxOffset.toNat n s = .ok (some (g, slotAt fl fl.cidx.toNat), t)) :
    consumeLoop n n fl s {} = .ok (some { segs := [g], len := BitVec.ofNat 32 n },
      consumed s.cfg fl n (classSize s.cfg (slotAt fl fl.cidx.toNat).layout), t) := by
  rw [consumeLoop_one hn hne hfits hseg, ← consumed_setSlot, setSlot_slotAt]

theorem consumeLoop_denied {n : Nat} (hn : n ≠ 0) (hne : fl.cidx ≠ fl.pidx)
    (hfits : fl.rxOffset.toNat + n ≤ classSize s.cfg (slotAt fl fl.cidx.toNat).layout)
    (hseg : consumeSegment (slotAt fl fl.cidx.toNat) fl.rxOffset.toNat n s = .ok (none, t)) :
    consumeLoop n n fl s {} = .ok (none, saveFrame fl {} n, t.raise .noresourceBuf) := by
  obtain ⟨k, rfl⟩ := Nat.exists_eq_succ_of_ne_zero hn
  have hroom : min (k + 1) (classSize s.cfg (slotAt fl fl.cidx.toNat).layout - fl.rxOffset.toNat) = k + 1 :=
    Nat.min_eq_left (by omega)
  rw [consumeLoop, if_neg hn, if_neg hne]
  dsimp only
  rw [if_neg (by omega), hroom, hseg]
  rfl

theorem consumeLoop_empty {n : Nat} (hn : n ≠ 0) (he : fl.cidx = fl.pidx) :
    consumeLoop n n fl s {} = .ok (none, saveFrame fl {} n, s.raise .noresourceBuf) := by
  obtain ⟨k, rfl⟩ := Nat.exists_eq_succ_of_ne_zero hn
  rw [consumeLoop, if_neg hn, if_pos he]

/-! ## The instruction -/

theorem startFrame_same (h : newbuf = false ∨ fl.rxOffset = 0) : startFrame fl newbuf = .ok fl := by
  refine if_neg ?_
  obtain rfl | h := h <;> simp [*]

theorem consumeFrame_loop {n : Nat} (hr : fl.bufResume = false) (h : newbuf = false ∨ fl.rxOffset = 0) :
    consumeFrame fl n newbuf s = consumeLoop n n fl s {} := by
  rw [consumeFrame_started hr, startFrame_same h]
  rfl

/-- A CONSUME_FRAME that begins a frame in the buffer at the cursor ends as its loop does. -/
theorem execConsumeFrame_ok {r : Option LogicalFrame × FreeList × State} (hp : s.panic = false) (hq : s.iqAt i = some q)
    (hfl : q.fl = some fl) (hd : fl.doomed = false) (hr : fl.bufResume = false) (ht : total ≠ 0)
    (hstart : newbuf = false ∨ fl.rxOffset = 0) (h : consumeLoop total.toNat total.toNat fl s.begin {} = .ok r) :
    execConsumeFrame i total newbuf s = .next ((frameEnd i q r).1.answer (frameEnd i q r).2) := by
  rw [execConsumeFrame_eq hq hfl hd ht]
  refine runQe_ok hp ?_
  rw [consumeFrame_loop hr hstart, h]
  rfl

/-! ## NEWBUF -/

/-- The ingress queues are not looked at while a frame is consumed. -/
def withIq (i : Nat) (q : IngressQueue) (r : Option LogicalFrame × FreeList × State) :
    Option LogicalFrame × FreeList × State := (r.1, r.2.1, r.2.2.setIq i q)

theorem consumeSegment_setIq : consumeSegment sd off len (s.setIq i q) =
    (consumeSegment sd off len s).map fun r => (r.1, r.2.setIq i q) := by
  rw [consumeSegment, consumeSegment, show (s.setIq i q).bufferOf = s.bufferOf from rfl,
    show (s.setIq i q).cfg = s.cfg from rfl]
  split
  · rfl
  dsimp only
  split
  · rw [bufRead, bufRead]
    split
    · simp only [Res.bind_ok, heapAlloc, show (s.setIq i q).env = s.env from rfl]
      split <;> rfl
    · rfl
  · split <;> rfl

theorem consumeLoop_setIq {fuel rem : Nat} {f : LogicalFrame} :
    consumeLoop fuel rem fl (s.setIq i q) f = (consumeLoop fuel rem fl s f).map (withIq i q) := by
  induction fuel generalizing rem fl s f with
  | zero => rfl
  | succ fuel ih =>
    rw [consumeLoop, consumeLoop]
    split
    · rfl
    split
    · rfl
    dsimp only
    rw [show (s.setIq i q).cfg = s.cfg from rfl]
    split
    · rfl
    rw [consumeSegment_setIq]
    cases consumeSegment (slotAt fl fl.cidx.toNat) fl.rxOffset.toNat
      (min rem (classSize s.cfg (slotAt fl fl.cidx.toNat).layout - fl.rxOffset.toNat)) s with
    | error e => rfl
    | ok r =>
      obtain ⟨_ | ⟨g, sd'⟩, u⟩ := r
      · rfl
      · simp only [Except.map, Res.bind_ok, show (u.setIq i q).cfg = u.cfg from rfl, ih]
        cases moveCursor u.cfg (setSlot fl fl.cidx.toNat sd') _ _ <;> rfl

theorem advanceSlot_unrefused (fl : FreeList) : Unrefused (advanceSlot fl) := by
  rw [advanceSlot]
  split
  · exact .ringInvariant
  · exact .ok _

theorem moveCursor_unrefused (c : Cfg) (fl : FreeList) (len hs : Nat) : Unrefused (moveCursor c fl len hs) := by
  rw [moveCursor]
  dsimp only
  split
  · split
    · exact advanceSlot_unrefused fl
    · exact .ok _
  · exact advanceSlot_unrefused fl

theorem consumeSegment_unrefused (sd : FreeListSlot) (off len : Nat) (s : State) : Unrefused (consumeSegment sd off len s) := by
  rw [consumeSegment]
  split
  · exact .ringInvariant
  dsimp only
  split
  · refine .bind ?_ fun _ => .ok _
    rw [bufRead]
    split
    · exact .ok _
    · exact .fault _
  · split <;> exact .ok _

theorem consumeLoop_unrefused (fuel rem : Nat) (fl : FreeList) (s : State) (f : LogicalFrame) :
    Unrefused (consumeLoop fuel rem fl s f) := by
  induction fuel generalizing rem fl s f with
  | zero => exact .ok _
  | succ fuel ih =>
    rw [consumeLoop]
    split
    · exact .ok _
    split
    · exact .ok _
    dsimp only
    split
    · exact .ringInvariant
    refine .bind (consumeSegment_unrefused _ _ _ _) fun r => ?_
    obtain ⟨_ | ⟨g, sd'⟩, u⟩ := r
    · exact .ok _
    · exact .bind (moveCursor_unrefused _ _ _ _) fun _ => ih _ _ _ _

theorem Unrefused.map {α β : Type} {x : Res α} {f : α → β} (hx : Unrefused x) : Unrefused (x.map f) := by
  cases x with
  | ok a => exact .ok _
  | error e => exact fun e' he => hx e' (by cases he; rfl)

theorem frameEnd_withIq (r : Option LogicalFrame × FreeList × State) (fl : FreeList) :
    frameEnd i { q with fl := some fl } (withIq i { q with fl := some fl } r) = frameEnd i q r := by
  obtain ⟨_ | f, fl', u⟩ := r <;> simp [frameEnd, withIq, State.setIq, State.setHeld, State.setGiven]

/-- The list with the rest of its buffer abandoned (41_frame_reassembly R221). -/
def nextBuffer (fl : FreeList) : FreeList := { fl with cidx := incIdx fl.cidx fl.cap, rxOffset := 0 }

/-- NEWBUF is the same as beginning at the next buffer. -/
theorem execConsumeFrame_newbuf (hq : s.iqAt i = some q) (hfl : q.fl = some fl) (hoff : fl.rxOffset ≠ 0)
    (hr : fl.bufResume = false) (hd : fl.doomed = false) (ht : total ≠ 0) (hne : fl.cidx ≠ fl.pidx)
    (hnp : t.panic = false) : execConsumeFrame i total true s = .next t ↔
      execConsumeFrame i total false (s.setIq i { q with fl := some (nextBuffer fl) }) = .next t := by
  have hstart : startFrame fl true = .ok (nextBuffer fl) := by
    rw [startFrame, if_pos (by rw [decide_eq_true hoff]; rfl), advanceSlot, if_neg hne]
    rfl
  rw [execConsumeFrame_eq hq hfl hd ht, execConsumeFrame_eq (fl := nextBuffer fl) (State.setIq_iqAt_same _ i _ q hq) rfl hd ht]
  cases hp : s.panic with
  | true =>
    rw [runQe, runQe, if_pos hp, if_pos (show (s.setIq i _).panic = true from hp)]
  | false =>
    have hnew : consumeFrame fl total.toNat true s.begin = consumeLoop total.toNat total.toNat (nextBuffer fl) s.begin {} := by
      rw [consumeFrame_started hr, hstart]
      rfl
    refine runQe_next_iff hp hp ?_ ?_ hnp
    · rw [hnew, consumeFrame_loop (fl := nextBuffer fl) hr (.inl rfl),
        show (s.setIq i { q with fl := some (nextBuffer fl) }).begin = s.begin.setIq i { q with fl := some (nextBuffer fl) } from rfl,
        consumeLoop_setIq]
      cases consumeLoop total.toNat total.toNat (nextBuffer fl) s.begin {} with
      | error e => rfl
      | ok r => exact congrArg Except.ok (frameEnd_withIq r _).symm
    · rw [hnew]
      exact (consumeLoop_unrefused _ _ _ _ _).map

theorem execConsumeFrame_newbuf_atStart (hq : s.iqAt i = some q) (hfl : q.fl = some fl) (hoff : fl.rxOffset = 0) :
    execConsumeFrame i total true s = execConsumeFrame i total false s := by
  have hsame : ∀ (n : Nat) (u : State), consumeFrame fl n true u = consumeFrame fl n false u := fun n u => by
    simp only [consumeFrame, startFrame_same (newbuf := true) (.inr hoff), startFrame_same (newbuf := false) (.inr hoff)]
  rw [execConsumeFrame, execConsumeFrame, runQe, runQe]
  dsimp only
  rw [onFl_eq (s := s.begin) hq hfl, onFl_eq (s := s.begin) hq hfl, hsame]

end Sys2Proof.Machine

namespace Sys2Proof
open Machine

/-- Settles O33: one step of the loop, by what the segment's shape is; and the two starts of a frame. -/
theorem consumeOneSegment : Obligations.ConsumeOneSegment := by
  refine ⟨fun s i q fl total newbuf hp hq hfl hd hr hin ht hstart => ?_, fun s i q fl total hq hfl =>
    ⟨execConsumeFrame_newbuf_atStart hq hfl, fun hoff hr hd ht hne t hnp => execConsumeFrame_newbuf hq hfl hoff hr hd ht hne hnp⟩⟩
  intro n sd hs next frame
  have hn : n ≠ 0 := fun h0 => ht (BitVec.eq_of_toNat_eq h0)
  have hexec := fun r => execConsumeFrame_ok (r := r) hp hq hfl hd hr ht hstart
  refine ⟨fun h b hne hbuf hb hfits => ⟨fun hlen hm => ?_, fun hlen hm => ?_, fun rest hlen he ha => ?_,
    fun rest hlen he ha => ?_⟩, fun he => ?_⟩
  · exact hexec _ (consumeLoop_one (s := s.begin) hn hne hfits (consumeSegment_shared hbuf hb hlen hm))
  · exact hexec _ (consumeLoop_one (s := s.begin) hn hne hfits (consumeSegment_owned hbuf hb hlen hm))
  · have hloop := consumeLoop_one_same (s := s.begin) hn hne hfits (consumeSegment_copy hbuf hb hlen he ha)
    refine (hexec _ hloop).trans ?_
    rw [frameEnd, heapFilled, segmentAddr]
    rfl
  · exact hexec _ (consumeLoop_denied (s := s.begin) hn hne hfits (consumeSegment_denied hbuf hb hlen he ha))
  · exact hexec _ (consumeLoop_empty hn he)

end Sys2Proof
end

section
/-! PROOFS. The reassembly property: the segments of a frame over several buffers (41_frame_reassembly R232). -/

namespace Sys2Proof.Machine

variable {s t : State} {i : Nat} {q : IngressQueue} {fl : FreeList} {sd : FreeListSlot} {f : LogicalFrame} {h : Nat → Nat}

/-! ## What the consumption of one slot keeps for the next -/

/-- The slot has a buffer for a segment of `len` bytes from its start, in a class of `size` bytes. -/
def HoldsPiece (s : State) (sd : FreeListSlot) (size len : Nat) : Prop :=
  classSize s.cfg sd.layout = size ∧ 0 < size ∧ ∃ a b, sd.buf = some a ∧ s.bufferOf a = some b ∧
    (len < s.cfg.rxCopyThreshold → inSpace (b.base.toNat + sd.layout.payloadOff.toNat) len = true)

/-- The second state has the first's buffers at their places, whatever their counts. -/
def KeepsBuffers (s t : State) : Prop :=
  t.cfg = s.cfg ∧ ∀ a b, s.bufferOf a = some b → ∃ b', t.bufferOf a = some b' ∧ b'.base = b.base

theorem KeepsBuffers.of_eq (hc : t.cfg = s.cfg) (ha : t.arena = s.arena) : KeepsBuffers s t :=
  ⟨hc, fun a b hb => ⟨b, by rw [State.bufferOf, ha]; exact hb, rfl⟩⟩

theorem KeepsBuffers.of_count (k : Nat) (c : BitVec 32) :
    KeepsBuffers s { s with arena := s.arena.map fun x => if x.handle = k then { x with refcount := c } else x } := by
  refine ⟨rfl, fun a b hb => ?_⟩
  have hhandle : ((fun x : Buffer => decide (x.handle = a)) ∘
      fun x => if x.handle = k then { x with refcount := c } else x) = fun x => decide (x.handle = a) := by
    funext x
    dsimp only [Function.comp]
    split <;> rfl
  refine ⟨if b.handle = k then { b with refcount := c } else b, ?_, by split <;> rfl⟩
  rw [State.bufferOf, List.find?_map, hhandle]
  rw [State.bufferOf] at hb
  rw [hb]
  rfl

theorem HoldsPiece.keep {size len : Nat} (hs : HoldsPiece s sd size len) (hk : KeepsBuffers s t) : HoldsPiece t sd size len := by
  obtain ⟨hcfg, hbuffers⟩ := hk
  obtain ⟨hsize, hpos, a, b, hbuf, hb, hspace⟩ := hs
  obtain ⟨b', hb', hbase⟩ := hbuffers a b hb
  rw [HoldsPiece, hcfg]
  exact ⟨hsize, hpos, a, b', hbuf, hb', by rwa [hbase]⟩

/-- The oracle grants the next `n` heap objects. -/
def Grants (n : Nat) (s : State) : Prop := List.replicate n true <+: s.env.heap

theorem Grants.head {n : Nat} (hg : Grants (n + 1) s) : ∃ rest, s.env.heap = true :: rest ∧ List.replicate n true <+: rest := by
  obtain ⟨answers, hans⟩ := hg
  exact ⟨List.replicate n true ++ answers, hans.symm, List.prefix_append _ _⟩

theorem Grants.fewer {n : Nat} (hg : Grants (n + 1) s) : Grants n s := by
  refine List.IsPrefix.trans ?_ hg
  rw [List.replicate_succ']
  exact List.prefix_append _ _

/-! ## One slot of several -/

/-- A segment has these bytes, and is a copy exactly when they are few. -/
def IsPiece (s : State) (len : Nat) (g : Segment) : Prop :=
  segmentLength g = (BitVec.ofNat 32 len).toNat ∧ ((∃ a m, g = .copy a m) ↔ len < s.cfg.rxCopyThreshold)

theorem consumeSegment_piece {size len n : Nat} (hs : HoldsPiece s sd size len) (hg : Grants (n + 1) s) :
    ∃ g sd' t, consumeSegment sd 0 len s = .ok (some (g, sd'), t) ∧ IsPiece s len g ∧ KeepsBuffers s t ∧ Grants n t := by
  obtain ⟨-, -, a, b, hbuf, hb, hspace⟩ := hs
  by_cases hlen : len < s.cfg.rxCopyThreshold
  · obtain ⟨rest, he, hrest⟩ := hg.head
    exact ⟨_, _, _, consumeSegment_copy hbuf hb hlen he (hspace hlen), ⟨rfl, fun _ => hlen, fun _ => ⟨_, _, rfl⟩⟩,
      .of_eq rfl rfl, hrest⟩
  · have hlong := Nat.not_lt.mp hlen
    have hnot : ∀ g : Segment, (∀ a m, g ≠ .copy a m) → ((∃ a m, g = .copy a m) ↔ len < s.cfg.rxCopyThreshold) :=
      fun g hne => ⟨fun ⟨a, m, he⟩ => absurd he (hne a m), fun hlt => absurd hlt hlen⟩
    cases hm : b.hasMeta with
    | true =>
      exact ⟨_, _, _, consumeSegment_shared hbuf hb hlong hm, ⟨rfl, hnot _ nofun⟩, .of_count a _, hg.fewer⟩
    | false => exact ⟨_, _, _, consumeSegment_owned hbuf hb hlong hm, ⟨rfl, hnot _ nofun⟩, .of_eq rfl rfl, hg.fewer⟩

theorem add_mod_ne_self {c k cap : Nat} (hc : c < cap) (hk : k + 1 < cap) : (c + (k + 1)) % cap ≠ c := fun he => by
  have hmod : c + (k + 1) ≡ c + 0 [MOD cap] := by
    rw [Nat.ModEq, he, Nat.add_zero, Nat.mod_eq_of_lt hc]
  have hzero := Nat.ModEq.add_left_cancel' c hmod
  rw [Nat.ModEq, Nat.mod_eq_of_lt hk, Nat.zero_mod] at hzero
  cases hzero

/-- The list past its slot, with that slot's record written. -/
def pastSlot (fl : FreeList) (sd : FreeListSlot) : FreeList := setSlot (nextBuffer fl) fl.cidx.toNat sd

theorem slotAt_pastSlot {k : Nat} (hlt : fl.cidx < fl.cap) (hk : k + 1 < fl.cap.toNat) :
    slotAt (pastSlot fl sd) (((pastSlot fl sd).cidx.toNat + k) % fl.cap.toNat) =
      slotAt fl ((fl.cidx.toNat + (k + 1)) % fl.cap.toNat) := by
  have hnext : ((pastSlot fl sd).cidx.toNat + k) % fl.cap.toNat = (fl.cidx.toNat + (k + 1)) % fl.cap.toNat := by
    rw [show (pastSlot fl sd).cidx = incIdx fl.cidx fl.cap from rfl, incIdx_toNat hlt, Nat.mod_add_mod, Nat.add_assoc,
      Nat.add_comm 1 k]
  have hother : (fl.cidx.toNat + (k + 1)) % fl.cap.toNat ≠ fl.cidx.toNat := add_mod_ne_self hlt hk
  rw [hnext, slotAt, slotAt, List.getD_eq_getElem?_getD, List.getD_eq_getElem?_getD]
  exact congrArg (Option.getD · _) (List.getElem?_set_ne hother.symm)

/-! ## The row of slots -/

/-- The slots from the cursor hold a frame of `total` bytes, and not fewer of them do. -/
structure RowHolds (s : State) (fl : FreeList) (h : Nat → Nat) (n total : Nat) : Prop where
  more : roomOf h n < total
  fits : total ≤ roomOf h (n + 1)
  slots : ∀ k, k ≤ n → HoldsPiece s (slotAt fl ((fl.cidx.toNat + k) % fl.cap.toNat)) (h k) (pieceLen h n total k)

theorem RowHolds.head {n total : Nat} (hlt : fl.cidx < fl.cap) (hr : RowHolds s fl h n total) :
    HoldsPiece s (slotAt fl fl.cidx.toNat) (h 0) (pieceLen h n total 0) := by
  have h0 := hr.slots 0 (Nat.zero_le n)
  rwa [Nat.add_zero, Nat.mod_eq_of_lt (show fl.cidx.toNat < fl.cap.toNat from hlt)] at h0

theorem RowHolds.tail {n total : Nat} (hlt : fl.cidx < fl.cap) (hn : n + 2 < fl.cap.toNat)
    (hr : RowHolds s fl h (n + 1) total) (hk : KeepsBuffers s t) :
    RowHolds t (pastSlot fl sd) (fun k => h (k + 1)) n (total - h 0) where
  more := by
    have := hr.more
    rw [roomOf_succ] at this
    omega
  fits := by
    have := hr.fits
    rw [roomOf_succ] at this
    omega
  slots := fun k hkn => by
    have hslot := hr.slots (k + 1) (by omega)
    rw [pieceLen_succ] at hslot
    rw [show (pastSlot fl sd).cap = fl.cap from rfl, slotAt_pastSlot hlt (by omega)]
    exact hslot.keep hk

/-- The first piece of a row is what its slot holds, or all. -/
theorem RowHolds.first {n total : Nat} (hr : RowHolds s fl h n total) : pieceLen h n total 0 = min total (h 0) := by
  have hmore := hr.more
  cases n with
  | zero =>
    have hfits := hr.fits
    rw [roomOf_one] at hfits
    exact (Nat.min_eq_left hfits).symm
  | succ n =>
    rw [roomOf_succ] at hmore
    rw [pieceLen_zero]
    omega

/-- The first slot gives its piece, and the cursor moves to the next. -/
theorem consumeLoop_first {n fuel total : Nat} (hpack : fl.packing = false) (hoff : fl.rxOffset = 0) (hlt : fl.cidx < fl.cap)
    (hdist : n + 1 ≤ occ fl) (hr : RowHolds s fl h n total) (hg : Grants (n + 1) s) :
    ∃ g sd' t, consumeLoop (fuel + 1) total fl s f =
        consumeLoop fuel (total - pieceLen h n total 0) (pastSlot fl sd') t (f.extend g (pieceLen h n total 0)) ∧
      IsPiece s (pieceLen h n total 0) g ∧ KeepsBuffers s t ∧ Grants n t := by
  have hpiece := hr.head hlt
  obtain ⟨g, sd', t, hseg, hg', hkeep, hgrants⟩ := consumeSegment_piece hpiece hg
  have hne : fl.cidx ≠ fl.pidx := fun he => by
    rw [occ, ← he, distOf_self hlt] at hdist
    omega
  have hroom : segmentRoom s.cfg fl total = pieceLen h n total 0 := by
    rw [segmentRoom, hpiece.1, hoff, hr.first]
    rfl
  refine ⟨g, sd', t, ?_, hg', hkeep, hgrants⟩
  rw [consumeLoop_step (f := f) (Nat.ne_of_gt (Nat.lt_of_le_of_lt (Nat.zero_le _) hr.more))
    ⟨hne, by rw [hoff, hpiece.1]; exact hpiece.2.1⟩ (by rw [hroom, hoff]; exact hseg), hroom, ← consumed_setSlot,
    consumed_next (fl := setSlot fl fl.cidx.toNat sd') fun hc => by
      rw [show (setSlot fl fl.cidx.toNat sd').packing = fl.packing from rfl, hpack] at hc
      exact Bool.false_ne_true hc.1]
  rfl

/-- A frame over several slots: each gives its piece. -/
theorem consumeLoop_several {n fuel total : Nat} (hpack : fl.packing = false) (hoff : fl.rxOffset = 0)
    (hlt : fl.cidx < fl.cap) (hdist : n + 1 ≤ occ fl) (hr : RowHolds s fl h n total) (hg : Grants (n + 1) s) (hfuel : n < fuel) :
    ∃ g fl' t l, consumeLoop fuel total fl s f = .ok (some g, fl', t) ∧ g.segs = f.segs ++ l ∧ l.length = n + 1 ∧
      ∀ k x, l[k]? = some x → IsPiece s (pieceLen h n total k) x := by
  induction n generalizing fl s f h fuel total with
  | zero =>
    obtain _ | fuel := fuel
    · exact absurd hfuel (Nat.lt_irrefl 0)
    obtain ⟨g, sd', t, hloop, hpiece, -⟩ := consumeLoop_first (f := f) (fuel := fuel) hpack hoff hlt hdist hr hg
    rw [show total - pieceLen h 0 total 0 = 0 from Nat.sub_self total, consumeLoop_done] at hloop
    refine ⟨_, _, _, [g], hloop, rfl, rfl, fun k x hx => ?_⟩
    cases k with
    | zero => cases hx; exact hpiece
    | succ k => cases hx
  | succ n ih =>
    obtain _ | fuel := fuel
    · exact absurd hfuel (Nat.not_lt_zero _)
    have hcap : n + 2 < fl.cap.toNat := Nat.lt_of_le_of_lt hdist (distOf_lt (Nat.lt_of_le_of_lt (Nat.zero_le _) hlt))
    obtain ⟨g, sd', t, hloop, hpiece, hkeep, hgrants⟩ := consumeLoop_first (f := f) (fuel := fuel) hpack hoff hlt hdist hr hg
    rw [pieceLen_zero] at hloop
    obtain ⟨g', fl', t', l, hrest, hsegs, hlen, hpieces⟩ := ih (fl := pastSlot fl sd') (f := f.extend g (h 0))
      (fuel := fuel) hpack rfl (addTo_lt 1 (by omega)) (distOf_incIdx_left hlt hdist) (hr.tail hlt hcap hkeep) hgrants (by omega)
    refine ⟨g', fl', t', g :: l, hloop.trans hrest, ?_, by rw [List.length_cons, hlen], fun k x hx => ?_⟩
    · rw [hsegs, LogicalFrame.extend, List.append_assoc]
      rfl
    · cases k with
      | zero => cases hx; exact hpiece
      | succ k =>
        have hx' := hpieces k x hx
        rw [IsPiece, hkeep.1, ← pieceLen_succ] at hx'
        exact hx'

/-! ## The statement -/

theorem pieceLen_lt {n total k : Nat} (hmore : roomOf h n < total) (ht : total < 2 ^ 31) : pieceLen h n total k < 2 ^ 32 := by
  unfold pieceLen
  split
  · next hk =>
    have hle : h k ≤ roomOf h n := List.single_le_sum (by simp) _ (List.mem_map_of_mem (List.mem_range.mpr hk))
    omega
  · omega

/-- With buffers of one size, the number of segments is the quotient rounded up. -/
theorem pieces_of_const {n total z : Nat} (hz : ∀ k, h k = z) (hmore : roomOf h n < total) (hfits : total ≤ roomOf h (n + 1)) :
    n + 1 = (total + z - 1) / z := by
  have hroom : ∀ k, roomOf h k = k * z := fun k => by
    rw [roomOf, List.map_congr_left (g := fun _ => z) fun j _ => hz j, List.map_const', List.sum_replicate, List.length_range,
      smul_eq_mul]
  rw [hroom] at hmore hfits
  refine (Nat.div_eq_of_lt_le ?_ ?_).symm
  · rw [Nat.add_mul, Nat.one_mul]
    omega
  · rw [Nat.add_mul] at hfits
    rw [Nat.add_mul, Nat.add_mul]
    have hzpos : z ≠ 0 := fun h0 => by
      rw [h0] at hmore hfits
      omega
    omega

end Sys2Proof.Machine

namespace Sys2Proof
open Machine

/-- Settles O34, by induction on the number of slots that the frame reaches over. -/
theorem reassemblyCounts : Obligations.ReassemblyCounts := by
  intro s i q fl total newbuf n answers hp hq hfl hd hr hin hpack hoff hocc hheap sd h sum len hmore hfits hslots
  have ht : total.toNat < 2 ^ 31 := total.isLt
  have hne : total ≠ 0 := fun h0 => by
    rw [h0] at hmore
    exact absurd hmore (Nat.not_lt_zero _)
  have hn : n < total.toNat := Nat.lt_of_le_of_lt (le_roomOf (fun k hk => (hslots k hk).1) le_rfl) hmore
  have hrow : RowHolds s.begin fl h n total.toNat := ⟨hmore, hfits, fun k hk => ⟨rfl, hslots k hk⟩⟩
  obtain ⟨g, fl', t, l, hloop, hsegs, hlen, hpieces⟩ := consumeLoop_several (f := {}) hpack hoff (FreeList.inRange_iff.mp hin).2.1
    hocc hrow ⟨answers, hheap.symm⟩ hn
  refine ⟨⟨_, g, execConsumeFrame_ok hp hq hfl hd hr hne (.inr hoff) hloop, rfl, ?_, ?_, fun k x hx => ?_⟩,
    fun z hz => pieces_of_const hz hmore hfits⟩
  · rw [hsegs]
    exact hlen
  · obtain ⟨hlen, -⟩ := (consumeLoop_ok hloop).2.2 (Nat.le_refl _)
    exact toNat_of_sum (k := 0) ((BitVec.add_zero _).trans hlen) (Nat.zero_le _) ht
  · rw [hsegs] at hx
    obtain ⟨hlen, hcopy⟩ := hpieces k x hx
    rw [BitVec.toNat_ofNat, Nat.mod_eq_of_lt (pieceLen_lt hmore ht)] at hlen
    exact ⟨hlen, hcopy⟩

end Sys2Proof
end

section
/-! PROOFS. Receive entries: how they are judged, and the one that is delivered (42_ingress_service R253, R257, R265,
60_exceptions R463). -/

namespace Sys2Proof.Machine

variable {s s1 s2 t : State} {i : Nat} {q q' : IngressQueue} {fl fl1 : FreeList} {e : RxEntry} {f0 f1 : Flit} {f : LogicalFrame}

/-! ## The judgement -/

theorem judgeFrame_opcode (hop : e.opcode ≠ 0x20) (h : releaseAll s f.segs = .ok t) :
    judgeFrame e f0 f1 f q s = .ok (violation q t f0 f1) := by
  rw [judgeFrame, if_pos hop, h]
  rfl

/-- The queue and state after a frame that does not have the length its message gives (60_exceptions R457). -/
def lengthMismatch (q : IngressQueue) (s : State) (f0 f1 : Flit) : IngressQueue × State :=
  ({ q with rxErrors := q.rxErrors + 1 }, (s.raise .lenMismatch).emit (.log .lenMismatch q.qid q.cidx f0 f1))

theorem judgeFrame_length (hop : e.opcode = 0x20) (hlen : e.msgLen.toNat ≠ e.len.toNat) (h : releaseAll s f.segs = .ok t) :
    judgeFrame e f0 f1 f q s = .ok (lengthMismatch q t f0 f1) := by
  rw [judgeFrame, if_neg (not_not.mpr hop), if_pos hlen, h]
  rfl

/-- The frame with the metadata of its message. -/
def described (e : RxEntry) (f : LogicalFrame) : LogicalFrame := { f with fm := ⟨e.csumOk, e.vlanValid, e.vlanTag⟩ }

/-- The event of a delivered frame (42_ingress_service R265). -/
def delivery (q : IngressQueue) (f : LogicalFrame) : Event := if q.lro then .lroEnqueue q.qid f else .deliver q.qid f

/-- The queue with one more frame accumulated, if it accumulates frames. -/
def accumulated (q : IngressQueue) : IngressQueue :=
  { q with lroPending := if q.lro then q.lroPending + 1 else q.lroPending }

theorem accumulated_off (h : q.lro = false) : accumulated q = q := by
  have hoff : ¬ q.lro = true := Bool.eq_false_iff.mp h
  rw [accumulated, if_neg hoff]

theorem delivery_off (h : q.lro = false) : delivery q f = .deliver q.qid f := if_neg (Bool.eq_false_iff.mp h)

theorem deliver_eq (q : IngressQueue) (f : LogicalFrame) (s : State) : deliver q f s =
    (accumulated q, { s with out := s.out ++ [delivery q f], held := s.held ++ f.segs }) := by
  by_cases hq : q.lro = true
  · simp only [deliver, accumulated, delivery, if_pos hq]
    rfl
  · simp only [deliver, accumulated, delivery, if_neg hq]
    rfl

theorem judgeFrame_good (hop : e.opcode = 0x20) (hlen : e.msgLen.toNat = e.len.toNat) :
    judgeFrame e f0 f1 f q s = .ok (accumulated q, { s with
      out := s.out ++ [delivery q (described e f)], held := s.held ++ f.segs }) := by
  rw [judgeFrame, if_neg (not_not.mpr hop), if_neg (not_not.mpr hlen), deliver_eq]
  rfl

/-! ## The entry's arm -/

theorem dispatchRx_incomplete (hfl : q.fl = some fl) (hlen : e.len ≠ 0)
    (h : consumeFrame fl e.len.toNat e.newbuf s = .ok (none, fl1, t)) :
    dispatchRx e f0 f1 q s = .ok (false, { q with fl := some fl1 }, t) := by
  rw [dispatchRx, hfl]
  dsimp only
  rw [if_neg hlen, h]
  rfl

theorem dispatchRx_complete (hfl : q.fl = some fl) (hlen : e.len ≠ 0)
    (h : consumeFrame fl e.len.toNat e.newbuf s = .ok (some f, fl1, t))
    (hj : judgeFrame e f0 f1 f { q with fl := some fl1 } t = .ok (q', s2)) :
    dispatchRx e f0 f1 q s = .ok (true, q', s2) := by
  rw [dispatchRx, hfl]
  dsimp only
  rw [if_neg hlen, h, Res.bind_ok]
  dsimp only
  rw [hj]
  rfl

/-- A receive entry issued by itself whose frame completes. -/
theorem execIqeRx_complete (hp : s.panic = false) (hq : s.iqAt i = some q) (hb : q.state = .busy) (hg : e.footer.gen = q.gen)
    (hn : (q.qid, encodeRx e) ∉ s.cfg.genCheck) (hfl : q.fl = some fl) (hlen : e.len ≠ 0)
    (h : consumeFrame fl e.len.toNat e.newbuf s.begin = .ok (some f, fl1, t))
    (hj : judgeFrame e (encodeRx e).1 (encodeRx e).2 f { q with fl := some fl1 } t = .ok (q', s2)) :
    execIqeRx i e s = .next ((s2.setIq i (advanceCursor q')).answer .advance) :=
  runQe_dispatchAlone hp hq hb ((footerGen_encodeRx e).trans hg) hn (dispatchRx_complete hfl hlen h hj)

/-- The state once the cursor has passed an entry of a queue that the entry's arm left at its place. -/
theorem answer_passes {x : IngressQueue} (hc : q.cidx < q.cap) (hx : x.cidx = q.cidx) (hcap : x.cap = q.cap)
    (hgen : x.gen = q.gen) : (t.setIq i (advanceCursor x)).answer .advance = { t with
      iq := t.iq.set i (some { x with cidx := (passed q).cidx, gen := (passed q).gen }), ret := .advance } := by
  rw [advanceCursor_eq (by rw [hx, hcap]; exact hc), passed, passed, hx, hcap, hgen]
  rfl

end Sys2Proof.Machine

namespace Sys2Proof
open Machine

/-- Settles O41: the three arms of `judgeFrame`, after what `consumeFrame` answers. -/
theorem rxJudged : Obligations.RxJudged := by
  intro s s1 i q fl fl1 e r hp hq hb hc hg hn hfl hlen hrun f0 f1
  obtain ⟨-, a, hp1, env, es, rfl⟩ := consumeFrame_ok hrun
  refine ⟨fun hr => ?_, fun f s2 hr hop hrel => ?_, fun f s2 hr hop hml hrel => ?_, fun f hr hop hml => ?_⟩
  · subst hr
    exact runQe_dispatchAlone_stay hp hq hb ((footerGen_encodeRx e).trans hg) hn (dispatchRx_incomplete (s := s.begin) hfl hlen hrun)
  · subst hr
    have hend := execIqeRx_complete hp hq hb hg hn hfl hlen hrun (judgeFrame_opcode hop hrel)
    obtain ⟨a2, hp2, rfl⟩ := releaseAll_ok hrel
    exact hend.trans (congrArg Host.Outcome.next (answer_passes hc rfl rfl rfl))
  · subst hr
    have hend := execIqeRx_complete hp hq hb hg hn hfl hlen hrun (judgeFrame_length hop hml hrel)
    obtain ⟨a2, hp2, rfl⟩ := releaseAll_ok hrel
    exact hend.trans (congrArg Host.Outcome.next (answer_passes hc rfl rfl rfl))
  · subst hr
    exact (execIqeRx_complete hp hq hb hg hn hfl hlen hrun (judgeFrame_good hop hml)).trans
      (congrArg Host.Outcome.next (answer_passes hc rfl rfl rfl))

end Sys2Proof

namespace Sys2Proof.Machine

variable {s s1 s2 t : State} {i : Nat} {q q' : IngressQueue} {fl fl1 : FreeList} {e : RxEntry} {f : LogicalFrame}

/-- An entry that is not new is left. -/
theorem execIqeRx_stale (hp : s.panic = false) (hq : s.iqAt i = some q) (hb : q.state = .busy) (hg : e.footer.gen ≠ q.gen) :
    execIqeRx i e s = .next { s with ret := .stale, raised := [] } := by
  have hlive : q.state ≠ .dead := by rw [hb]; decide
  have hold : isNew q (encodeRx e).2 = false := decide_eq_false ((footerGen_encodeRx e).symm ▸ hg)
  rw [← answer_setIq_self hq]
  refine runQe_ok hp ?_
  rw [dispatchAlone, onIq_eq (s := s.begin) hq, if_neg hlive, if_neg (not_not.mpr hb), hold]
  rfl

/-! ## A frame that one whole buffer holds -/

/-- The list after its slot's buffer is handed over whole. -/
def handedOver (fl : FreeList) : FreeList :=
  { fl with
    cidx := BitVec.ofNat 16 ((fl.cidx.toNat + 1) % fl.cap.toNat)
    sdesc := fl.sdesc.set fl.cidx.toNat { slotAt fl fl.cidx.toNat with buf := none } }

/-- The frame of a buffer handed over whole. -/
def wholeFrame (fl : FreeList) (h n : Nat) : LogicalFrame :=
  { segs := [.owned h (slotAt fl fl.cidx.toNat).layout.payloadOff (BitVec.ofNat 32 n)], len := BitVec.ofNat 32 n }

theorem consumeFrame_whole {n h : Nat} {newbuf : Bool} {b : Buffer} (hr : fl.bufResume = false) (hpack : fl.packing = false)
    (hoff : fl.rxOffset = 0) (hne : fl.cidx ≠ fl.pidx) (hbuf : (slotAt fl fl.cidx.toNat).buf = some h)
    (hb : s.bufferOf h = some b) (hm : b.hasMeta = false) (hn : n ≠ 0) (hlong : s.cfg.rxCopyThreshold ≤ n)
    (hfits : n ≤ classSize s.cfg (slotAt fl fl.cidx.toNat).layout) :
    consumeFrame fl n newbuf s = .ok (some (wholeFrame fl h n), handedOver fl, s) := by
  have hzero : fl.rxOffset.toNat = 0 := by rw [hoff]; rfl
  rw [consumeFrame_loop hr (.inr hoff), consumeLoop_one hn hne (by rw [hzero, Nat.zero_add]; exact hfits)
    (consumeSegment_owned hbuf hb hlong hm), consumed_next fun hc => by rw [hpack] at hc; exact Bool.false_ne_true hc.1]
  refine congrArg (fun x => Except.ok (some (wholeFrame fl h n), x, s)) (?_ : _ = handedOver fl)
  rw [handedOver]
  simp only [hoff]
  rfl

/-! ## The service of one entry -/

theorem dispatchTyped_encodeRx (fwd : FwdArm) (e : RxEntry) :
    dispatchTyped fwd (encodeRx e).1 (encodeRx e).2 q s = dispatchRx e (encodeRx e).1 (encodeRx e).2 q s := by
  rw [dispatchTyped, decodeEntry_encodeRx]


/-- A new entry at the cursor that its arm passes. -/
theorem serviceLoop_passes {fwd : FwdArm} {b nd : Nat} {p : Flit × Flit} (hm : q.mapped = true) (hc : q.cidx < q.cap)
    (h0 : s.ring.flit (q.base.toNat + 16 * q.cidx.toNat) = p.1) (h1 : s.ring.flit (q.base.toNat + 16 * q.cidx.toNat + 8) = p.2)
    (hg : footerGen p.2 = q.gen) (hn : (q.qid, p) ∉ s.cfg.genCheck) (h : dispatchTyped fwd p.1 p.2 q s = .ok (true, q', t)) :
    serviceLoop fwd i (b + 1) nd q s = serviceLoop fwd i b (nd + 1) (advanceCursor q') t := by
  have hcheck : genCheck s.cfg q p.1 p.2 = false := by
    rw [← Bool.not_eq_true, genCheck_eq_true]
    exact hn
  have hf0 : ringRead s (entryAddr q q.cidx.toNat) = .ok p.1 := (ringRead_eq (footer_inSpace hm hc).1).trans (congrArg _ h0)
  have hf1 : ringRead s (entryAddr q q.cidx.toNat + 8) = .ok p.2 := (ringRead_eq (footer_inSpace hm hc).2).trans (congrArg _ h1)
  rw [serviceLoop, hf1, Res.bind_ok, if_pos (show isNew q p.2 = true from decide_eq_true hg), hf0, Res.bind_ok, dispatch,
    afterGenCheck_of_not hcheck, h]
  rfl

theorem addTo_one_lt (hc : q.cidx < q.cap) : (passed q).cidx < q.cap :=
  addTo_lt 1 (Nat.lt_of_le_of_lt (Nat.zero_le _) hc)

/-- A service that finds one entry, and then an empty ring. -/
theorem serviceAndFinish_one {p : Flit × Flit} (hb : 2 ≤ q.budget.toNat) (hm : q.mapped = true) (hc : q.cidx < q.cap)
    (h0 : s.ring.flit (q.base.toNat + 16 * q.cidx.toNat) = p.1) (h1 : s.ring.flit (q.base.toNat + 16 * q.cidx.toNat + 8) = p.2)
    (hg : footerGen p.2 = q.gen) (hn : (q.qid, p) ∉ s.cfg.genCheck)
    (h : dispatchTyped (dispatchFwd q.budget.toNat) p.1 p.2 q s = .ok (true, q', t))
    (hm' : (advanceCursor q').mapped = true) (hc' : (advanceCursor q').cidx < (advanceCursor q').cap)
    (he : ringEmptyAt t (advanceCursor q') = true) (hend : quietEnd (advanceCursor q') = true) :
    serviceAndFinish i q s = .ok ({ advanceCursor q' with state := .idle }, mmioWrite t (rearm (advanceCursor q') 1), .done) := by
  obtain ⟨b, hb'⟩ := Nat.exists_eq_add_of_le' hb
  have hloop : service i q.budget.toNat q s = .ok (advanceCursor q', mmioWrite t (rearm (advanceCursor q') 1), true) := by
    refine (congrArg (fun n => serviceLoop (dispatchFwd q.budget.toNat) i n 0 q s) hb').trans ?_
    rw [serviceLoop_passes hm hc h0 h1 hg hn h, serviceLoop_empty hm' hc' he, ringEmpty, endService_quiet hend]
    rfl
  rw [serviceAndFinish, hloop]
  rfl

/-- The state after a credit word, with a queue's context written. -/
theorem answer_credited {o : List Event} {hd : List Segment} {r : Ret} (w : MmioWrite) (x : IngressQueue) :
    ((mmioWrite { s.begin with out := o, held := hd } w).setIq i x).answer r =
      { mmioWrite { s with out := o, held := hd } w with iq := s.iq.set i (some x), ret := r, raised := [] } := by
  have hmmio : mmioWrite { s.begin with out := o, held := hd } w =
      { mmioWrite { s with out := o, held := hd } w with ret := .none, raised := [] } :=
    mmioWrite_answered { s with out := o, held := hd } w .none []
  rw [hmmio]
  simp only [State.setIq, State.answer, mmioWrite_iq]

/-- The queue once its cursor has passed a frame's entry and its list's buffer is handed over. -/
def handedOverQueue (q : IngressQueue) (fl : FreeList) : IngressQueue := { passed q with fl := some (handedOver fl) }

theorem quietEnd_handedOver (hlro : q.lro = false) (hthresh : fl.refillThresh = 0) (st : IqState) (n : BitVec 16) :
    quietEnd { handedOverQueue q fl with state := st, lroPending := n } = true := by
  have hdue : lroDue { handedOverQueue q fl with state := st, lroPending := n } = false := by
    rw [lroDue]
    exact (congrArg (· && _) hlro).trans (Bool.false_and _)
  have hneeds : needsRefill (handedOver fl) = false := by
    have hnot : ¬ occ (handedOver fl) < fl.refillThresh.toNat := by rw [hthresh]; exact Nat.not_lt_zero _
    rw [needsRefill, show (handedOver fl).refillThresh = fl.refillThresh from rfl, decide_eq_false hnot, Bool.and_false]
  rw [quietEnd, hdue]
  exact (congrArg (! ·) hneeds)

end Sys2Proof.Machine

namespace Sys2Proof
open Machine

/-- Settles O40: one whole buffer's frame through `judgeFrame`, and the service of a ring with that one entry. -/
theorem rxDelivered : Obligations.RxDelivered := by
  intro s i q e hp hq
  refine ⟨fun hb hg => execIqeRx_stale hp hq hb hg, ?_⟩
  intro fl h b hn hc hg hfl hin hr hpack hoff hne sd g f hbuf hb hm hop hlen hml hlong hfits q'
  have hlen0 : e.len.toNat ≠ 0 := fun h0 => hlen (BitVec.eq_of_toNat_eq h0)
  have hsame : e.msgLen.toNat = e.len.toNat := by
    rw [hml, BitVec.toNat_setWidth, Nat.mod_eq_of_lt (Nat.lt_trans e.len.isLt (by decide))]
  have hwhole := consumeFrame_whole (s := s.begin) (newbuf := e.newbuf) hr hpack hoff hne hbuf hb hm hlen0 hlong hfits
  have hframe : described e (wholeFrame fl h e.len.toNat) = f := by
    rw [described, wholeFrame, BitVec.ofNat_toNat]
    rfl
  have hjudge : ∀ x, judgeFrame e (encodeRx e).1 (encodeRx e).2 (wholeFrame fl h e.len.toNat) x s.begin =
      .ok (accumulated x, { s.begin with out := s.out ++ [delivery x f], held := s.held ++ [g] }) := fun x => by
    rw [judgeFrame_good hop hsame, hframe, show (wholeFrame fl h e.len.toNat).segs = f.segs from hframe ▸ rfl]
    rfl
  refine ⟨fun hbusy => ?_, fun hidle hrole hbudget hmap hlro hthresh h0 h1 he => ?_⟩
  · exact (execIqeRx_complete hp hq hbusy hg hn hfl hlen hwhole (hjudge _)).trans
      (congrArg Host.Outcome.next (answer_passes hc rfl rfl rfl))
  · have hrx := dispatchRx_complete (q := { q with state := .busy }) (s := s.begin) hfl hlen hwhole (hjudge _)
    rw [accumulated_off (q := { q with state := .busy, fl := some (handedOver fl) }) hlro,
      delivery_off (q := { q with state := .busy, fl := some (handedOver fl) }) hlro] at hrx
    have hpasses : advanceCursor { q with state := .busy, fl := some (handedOver fl) } =
        { handedOverQueue q fl with state := .busy } := advanceCursor_eq hc
    have hrun := serviceAndFinish_one (i := i) (q := { q with state := .busy }) (s := s.begin) hbudget hmap hc h0 h1
      ((footerGen_encodeRx e).trans hg) hn ((dispatchTyped_encodeRx _ e).trans hrx) (hpasses ▸ hmap)
      (hpasses ▸ addTo_one_lt hc) (hpasses ▸ he) (hpasses ▸ quietEnd_handedOver hlro hthresh .busy q.lroPending)
    refine (execInterrupt_idle hp hq hidle hrole hrun).trans ?_
    rw [hpasses, answer_credited, show ({ ({ handedOverQueue q fl with state := .busy } : IngressQueue) with state := .idle } :
      IngressQueue) = handedOverQueue q fl from setState_idle (q := handedOverQueue q fl) hidle]
    rfl

end Sys2Proof
end

section
/-! PROOFS. What the posts of a REFILL tell the device: doorbell words, one by one (40_free_list R184, 45_reclaim_doorbell
R373). -/

namespace Sys2Proof.Machine

variable {s : State} {fl : FreeList} {c : Cfg} {n : Nat}

/-! ## One post -/

/-- The register that a list's doorbell words go to. -/
def FreeList.register (fl : FreeList) : MmioReg := doorbellReg fl.dbMech fl.udbAddr

/-- The list once the device has been told of what was pending (45_reclaim_doorbell R373). -/
def notified (fl : FreeList) : FreeList := if fl.pending = 0 then fl else { fl with pending := 0, dbGroups := 0 }

/-- The words that tell the device of what is pending. -/
def notifyWords (c : Cfg) (fl : FreeList) : List MmioWrite :=
  if fl.pending = 0 then [] else doorbellWords c fl.register fl.qid fl.pending.toNat

theorem notifyFl_eq (hd : fl.doomed = false) :
    notifyFl fl s = .ok (notified fl, (notifyWords s.cfg fl).foldl mmioWrite s) := by
  by_cases hp : fl.pending = 0
  · rw [notifyFl_nothing hd hp, notified, notifyWords, if_pos hp, if_pos hp]
    rfl
  · rw [notifyFl_words hd hp, notified, notifyWords, if_neg hp, if_neg hp]
    rfl

/-- The list with one more slot posted, before the device is told. -/
def advanced (fl : FreeList) : FreeList :=
  { fl with
    pidx := incIdx fl.pidx fl.cap, pending := fl.pending + 1
    dbGroups := if completesGroup (incIdx fl.pidx fl.cap) then fl.dbGroups + 1 else fl.dbGroups }

/-- The post completes the fourth group since the last doorbell (40_free_list R184). -/
def completesFour (fl : FreeList) : Bool := completesGroup (incIdx fl.pidx fl.cap) && decide (fl.dbGroups + 1 = 4)

/-- The list after a post. -/
def afterPost (fl : FreeList) : FreeList := if completesFour fl then notified (advanced fl) else advanced fl

/-- The doorbell words of a post. -/
def postWords (c : Cfg) (fl : FreeList) : List MmioWrite := if completesFour fl then notifyWords c (advanced fl) else []

theorem countPost_eq (hd : fl.doomed = false) :
    countPost fl s = .ok (afterPost fl, (postWords s.cfg fl).foldl mmioWrite s) := by
  rw [countPost]
  dsimp only
  cases hg : completesGroup (incIdx fl.pidx fl.cap) with
  | false =>
    rw [if_neg Bool.false_ne_true, afterPost, postWords, completesFour, advanced, hg]
    rfl
  | true =>
    have hadv : advanced fl =
        { fl with pidx := incIdx fl.pidx fl.cap, pending := fl.pending + 1, dbGroups := fl.dbGroups + 1 } := by
      rw [advanced, hg]
      rfl
    have hfour : completesFour fl = decide (fl.dbGroups + 1 = 4) := by rw [completesFour, hg, Bool.true_and]
    rw [if_pos rfl, afterPost, postWords, hfour]
    by_cases h4 : fl.dbGroups + 1 = 4
    · rw [decide_eq_true h4, if_pos rfl, if_pos rfl, ← notifyFl_eq (fl := advanced fl) hd, hadv]
      exact if_pos h4
    · rw [decide_eq_false h4, if_neg Bool.false_ne_true, if_neg Bool.false_ne_true, hadv]
      exact if_neg h4

/-! ## Several posts -/

/-- The list after `n` posts. -/
def afterPosts : Nat → FreeList → FreeList
  | 0, fl => fl
  | n + 1, fl => afterPosts n (afterPost fl)

/-- The doorbell words of `n` posts. -/
def postsWords (c : Cfg) : Nat → FreeList → List MmioWrite
  | 0, _ => []
  | n + 1, fl => postWords c fl ++ postsWords c n (afterPost fl)

/-- The list after a REFILL that posts `n` slots. -/
def refilled (n : Nat) (fl : FreeList) : FreeList := notified (afterPosts n fl)

/-- The doorbell words of a REFILL that posts `n` slots: those of the posts, and what remains (40_free_list R180). -/
def refillWords (c : Cfg) (n : Nat) (fl : FreeList) : List MmioWrite := postsWords c n fl ++ notifyWords c (afterPosts n fl)

theorem refillWords_zero : refillWords c 0 fl = notifyWords c fl := rfl

theorem refillWords_succ : refillWords c (n + 1) fl = postWords c fl ++ refillWords c n (afterPost fl) :=
  List.append_assoc _ _ _

/-- Notification changes the doorbell state only. -/
theorem notified_eq (fl : FreeList) : ∃ g, notified fl = { fl with pending := 0, dbGroups := g } := by
  by_cases hp : fl.pending = 0
  · exact ⟨fl.dbGroups, by rw [notified, if_pos hp, ← hp]⟩
  · exact ⟨0, if_neg hp⟩

theorem afterPost_eq (fl : FreeList) : ∃ p g, afterPost fl = { fl with
    pidx := incIdx fl.pidx fl.cap, pending := p, dbGroups := g } := by
  unfold afterPost
  split
  · obtain ⟨g, hg⟩ := notified_eq (advanced fl)
    exact ⟨0, g, hg⟩
  · exact ⟨_, _, rfl⟩

theorem afterPosts_eq (hlt : fl.pidx < fl.cap) : ∃ p g, afterPosts n fl = { fl with
    pidx := addTo fl.pidx fl.cap n, pending := p, dbGroups := g } := by
  have hcap : 0 < fl.cap.toNat := Nat.lt_of_le_of_lt (Nat.zero_le _) hlt
  induction n generalizing fl with
  | zero => exact ⟨fl.pending, fl.dbGroups, by rw [addTo_zero hlt]; rfl⟩
  | succ n ih =>
    obtain ⟨p, g, hpost⟩ := afterPost_eq fl
    obtain ⟨p', g', hrest⟩ := ih (fl := afterPost fl) (by rw [hpost]; exact addTo_lt 1 hcap) (by rw [hpost]; exact hcap)
    refine ⟨p', g', hrest.trans ?_⟩
    rw [hpost]
    simp only [incIdx_eq_addTo, addTo_addTo 1 n hcap, Nat.add_comm 1 n]

theorem refilled_eq (hlt : fl.pidx < fl.cap) : ∃ g, refilled n fl = { fl with
    pidx := addTo fl.pidx fl.cap n, pending := 0, dbGroups := g } := by
  obtain ⟨p, g, hposts⟩ := afterPosts_eq (n := n) hlt
  obtain ⟨g', hnot⟩ := notified_eq (afterPosts n fl)
  exact ⟨g', by rw [refilled, hnot, hposts]⟩

theorem afterPost_register (fl : FreeList) : (afterPost fl).register = fl.register ∧ (afterPost fl).qid = fl.qid := by
  obtain ⟨p, g, hpost⟩ := afterPost_eq fl
  rw [hpost]
  exact ⟨rfl, rfl⟩

/-! ## What the words tell -/

/-- The doorbell word for `k` slots of a list (30_encoding R140). -/
def FreeList.tells (fl : FreeList) (k : BitVec 16) : MmioWrite := .word fl.register (fl.qid ++ k)

theorem mem_notifyWords {w : MmioWrite} (hw : w ∈ notifyWords c fl) : ∃ k : BitVec 16, 1 ≤ k.toNat ∧ w = fl.tells k := by
  unfold notifyWords at hw
  split at hw
  · cases hw
  · obtain ⟨k, hk, rfl⟩ := List.mem_map.mp hw
    obtain ⟨h1, -, hle⟩ := doorbellIncs_mem (Nat.le_max_left 1 c.dbIncMax) hk
    have hlt : k < 65536 := Nat.lt_of_le_of_lt hle fl.pending.isLt
    exact ⟨BitVec.ofNat 16 k, by rw [ofNat16_toNat hlt]; exact h1, rfl⟩

theorem mem_refillWords {w : MmioWrite} (hw : w ∈ refillWords c n fl) : ∃ k : BitVec 16, 1 ≤ k.toNat ∧ w = fl.tells k := by
  induction n generalizing fl with
  | zero => exact mem_notifyWords hw
  | succ n ih =>
    rw [refillWords_succ] at hw
    obtain hpost | hrest := List.mem_append.mp hw
    · unfold postWords at hpost
      split at hpost
      · exact mem_notifyWords (fl := advanced fl) hpost
      · cases hpost
    · obtain ⟨k, hk, rfl⟩ := ih hrest
      obtain ⟨hreg, hqid⟩ := afterPost_register fl
      exact ⟨k, hk, by rw [FreeList.tells, hreg, hqid, FreeList.tells]⟩

theorem toldBy_append (a b : List MmioWrite) : toldBy (a ++ b) = toldBy a + toldBy b := by
  simp only [toldBy, List.map_append, List.sum_append]

theorem toldBy_notifyWords : toldBy (notifyWords c fl) = fl.pending.toNat := by
  unfold notifyWords
  split
  · next hp => rw [hp]; rfl
  · have hlt : ∀ k ∈ doorbellIncs (dbIncLimit c) fl.pending.toNat, k < 65536 := fun k hk =>
      Nat.lt_of_le_of_lt (doorbellIncs_mem (Nat.le_max_left 1 c.dbIncMax) hk).2.2 fl.pending.isLt
    exact (toldBy_map_doorbell (reg := fl.register) (doorbellReg_ne_icw _ _) fl.qid hlt).trans (doorbellIncs_sum _ _)

theorem advanced_pending (h : fl.pending.toNat + 1 < 65536) : (advanced fl).pending.toNat = fl.pending.toNat + 1 := by
  rw [advanced, BitVec.toNat_add]
  exact Nat.mod_eq_of_lt h

/-- Each post is told of once. -/
theorem toldBy_refillWords (h : fl.pending.toNat + n < 65536) : toldBy (refillWords c n fl) = fl.pending.toNat + n := by
  induction n generalizing fl with
  | zero => exact toldBy_notifyWords
  | succ n ih =>
    have hadv := advanced_pending (fl := fl) (by omega)
    rw [refillWords_succ, toldBy_append]
    cases h4 : completesFour fl with
    | true =>
      obtain ⟨g, hnot⟩ := notified_eq (advanced fl)
      have hpost : (afterPost fl).pending.toNat = 0 := by
        rw [afterPost, if_pos h4, hnot]
        rfl
      rw [ih (by omega), hpost, postWords, if_pos h4, toldBy_notifyWords, hadv]
      omega
    | false =>
      have hfour := Bool.eq_false_iff.mp h4
      have hpost : (afterPost fl).pending.toNat = fl.pending.toNat + 1 := by rw [afterPost, if_neg hfour, hadv]
      rw [ih (by omega), hpost, postWords, if_neg hfour]
      show 0 + _ = _
      omega

/-! ## The words one by one -/

/-- What the doorbells of `p` posts tell of, with `pending` slots pending and `since` posts since the last doorbell. -/
def toldBefore : Nat → Nat → Nat → List Nat
  | 0, pending, _ => [pending]
  | p + 1, pending, since => if since + 1 = 32 then (pending + 1) :: toldBefore p 0 0 else toldBefore p (pending + 1) (since + 1)

theorem toldBefore_eq {p pending since : Nat} (hs : since < 32) : toldBefore p pending since =
    if (since + p) / 32 = 0 then [pending + p]
    else (pending + 32 - since) :: (List.replicate ((since + p) / 32 - 1) 32 ++ [(since + p) % 32]) := by
  induction p generalizing pending since with
  | zero => rw [if_pos (by omega)]; rfl
  | succ p ih =>
    rw [toldBefore]
    split
    · next h32 =>
      rw [ih (by omega), if_neg (show ¬ (since + (p + 1)) / 32 = 0 by omega), show (since + (p + 1)) / 32 - 1 = p / 32 by omega,
        show (since + (p + 1)) % 32 = p % 32 by omega, show pending + 32 - since = pending + 1 by omega, Nat.zero_add]
      split
      · next h0 => rw [h0, Nat.mod_eq_of_lt (show p < 32 by omega)]; rfl
      · next h0 =>
        obtain ⟨k, hk⟩ := Nat.exists_eq_add_one_of_ne_zero h0
        rw [hk, List.replicate_succ, Nat.zero_add]
        rfl
    · rw [ih (by omega), show since + 1 + p = since + (p + 1) by omega, show pending + 1 + p = pending + (p + 1) by omega,
        show pending + 1 + 32 - (since + 1) = pending + 32 - since by omega]

/-- The posts since the last doorbell, by the groups completed and the place in the group (40_free_list R184). -/
def postsSince (fl : FreeList) : Nat := 8 * fl.dbGroups.toNat + fl.pidx.toNat % 8

theorem completesGroup_iff (hlt : fl.pidx < fl.cap) (h8 : fl.cap.toNat % 8 = 0) :
    completesGroup (incIdx fl.pidx fl.cap) = true ↔ fl.pidx.toNat % 8 = 7 := by
  rw [completesGroup, decide_eq_true_iff, incIdx_toNat hlt, Nat.mod_mod_of_dvd _ (Nat.dvd_of_mod_eq_zero h8)]
  omega

theorem groups_succ (hg : fl.dbGroups.toNat < 4) : (fl.dbGroups + 1).toNat = fl.dbGroups.toNat + 1 := by
  rw [BitVec.toNat_add]
  exact Nat.mod_eq_of_lt (show fl.dbGroups.toNat + 1 < 8 by omega)

theorem completesFour_iff (hlt : fl.pidx < fl.cap) (h8 : fl.cap.toNat % 8 = 0) (hg : fl.dbGroups.toNat < 4) :
    completesFour fl = true ↔ postsSince fl + 1 = 32 := by
  have h4 : fl.dbGroups + 1 = 4 ↔ fl.dbGroups.toNat = 3 := by
    rw [← BitVec.toNat_inj, groups_succ hg]
    exact ⟨fun h => Nat.succ.inj h, fun h => by rw [h]; rfl⟩
  rw [completesFour, Bool.and_eq_true, completesGroup_iff hlt h8, decide_eq_true_iff, h4, postsSince]
  omega

theorem advanced_since (hlt : fl.pidx < fl.cap) (h8 : fl.cap.toNat % 8 = 0) (hg : fl.dbGroups.toNat < 4) :
    postsSince (advanced fl) = postsSince fl + 1 := by
  have hpidx : (advanced fl).pidx.toNat % 8 = (fl.pidx.toNat + 1) % 8 := by
    rw [show (advanced fl).pidx = incIdx fl.pidx fl.cap from rfl, incIdx_toNat hlt,
      Nat.mod_mod_of_dvd _ (Nat.dvd_of_mod_eq_zero h8)]
  rw [postsSince, hpidx, postsSince]
  by_cases h7 : fl.pidx.toNat % 8 = 7
  · rw [show (advanced fl).dbGroups = fl.dbGroups + 1 from if_pos ((completesGroup_iff hlt h8).mpr h7), groups_succ hg]
    omega
  · rw [show (advanced fl).dbGroups = fl.dbGroups from if_neg fun h => h7 ((completesGroup_iff hlt h8).mp h)]
    omega

theorem notifyWords_one (hp : fl.pending.toNat ≤ c.dbIncMax) :
    notifyWords c fl = ([fl.pending.toNat].filter (· ≠ 0)).map fun k => fl.tells (BitVec.ofNat 16 k) := by
  unfold notifyWords
  split
  · next h0 => rw [h0]; rfl
  · next h0 =>
    have hne : fl.pending.toNat ≠ 0 := fun h => h0 (BitVec.eq_of_toNat_eq h)
    rw [doorbellWords_one (Nat.pos_of_ne_zero hne) hp, List.filter_singleton, decide_eq_true hne]
    rfl

/-- One word each time four groups of eight are complete since the last, and one for what remains (40_free_list R184). -/
theorem refillWords_eq (hlt : fl.pidx < fl.cap) (h8 : fl.cap.toNat % 8 = 0) (hg : fl.dbGroups.toNat < 4)
    (hp : fl.pending.toNat + n < 65536) (hmax : fl.pending.toNat + n ≤ c.dbIncMax) :
    refillWords c n fl = ((toldBefore n fl.pending.toNat (postsSince fl)).filter (· ≠ 0)).map
      fun k => fl.tells (BitVec.ofNat 16 k) := by
  induction n generalizing fl with
  | zero => exact notifyWords_one hmax
  | succ n ih =>
    have hcap : 0 < fl.cap.toNat := Nat.lt_of_le_of_lt (Nat.zero_le _) hlt
    have hadv := advanced_pending (fl := fl) (by omega)
    have hsince := advanced_since hlt h8 hg
    obtain ⟨hreg, hqid⟩ := afterPost_register fl
    have htells : ∀ k, (afterPost fl).tells k = fl.tells k := fun k => by
      rw [FreeList.tells, hreg, hqid, FreeList.tells]
    have hfour := completesFour_iff hlt h8 hg
    rw [refillWords_succ, toldBefore]
    by_cases h32 : postsSince fl + 1 = 32
    · have h4 := hfour.mpr h32
      have hne : (advanced fl).pending ≠ 0 := fun h0 => by
        rw [h0] at hadv
        cases hadv
      have hpost : afterPost fl = { advanced fl with pending := 0, dbGroups := 0 } := by
        rw [afterPost, if_pos h4, notified, if_neg hne]
      have hrest := ih (fl := afterPost fl) (by rw [hpost]; exact addTo_lt 1 hcap) (by rw [hpost]; exact h8)
        (by rw [hpost]; exact Nat.succ_pos 3) (by rw [hpost]; show 0 + n < _; omega) (by rw [hpost]; show 0 + n ≤ _; omega)
      have hzero : postsSince (afterPost fl) = 0 := by
        rw [hpost]
        show 8 * 0 + (incIdx fl.pidx fl.cap).toNat % 8 = 0
        have := of_decide_eq_true (Bool.and_eq_true_iff.mp h4).1
        omega
      rw [hrest, hzero, postWords, if_pos h4, notifyWords_one (fl := advanced fl) (by rw [hadv]; omega), if_pos h32, hadv,
        ← List.singleton_append, List.filter_append, List.map_append, show (afterPost fl).pending.toNat = 0 by rw [hpost]; rfl]
      simp only [htells]
      rfl
    · have h4 : ¬ completesFour fl = true := fun h => h32 (hfour.mp h)
      have hpost : afterPost fl = advanced fl := if_neg h4
      have hg' : (advanced fl).dbGroups.toNat < 4 := by
        have : postsSince fl < 32 := by rw [postsSince]; omega
        rw [postsSince] at hsince
        omega
      rw [postWords, if_neg h4, if_neg h32, hpost, List.nil_append,
        ih (fl := advanced fl) (addTo_lt 1 hcap) h8 hg' (by rw [hadv]; omega) (by rw [hadv]; omega), hadv, hsince]
      rfl

/-- The doorbell groups after a REFILL: those completed since the last doorbell when nothing was posted. -/
theorem refilled_groups (hp : fl.pending.toNat + n < 65536) :
    (refilled n fl).dbGroups = if fl.pending = 0 ∧ n = 0 then fl.dbGroups else 0 := by
  induction n generalizing fl with
  | zero =>
    rw [refilled, afterPosts, notified]
    by_cases h0 : fl.pending = 0
    · rw [if_pos h0, if_pos ⟨h0, rfl⟩]
    · rw [if_neg h0, if_neg fun h => h0 h.1]
  | succ n ih =>
    have hadv := advanced_pending (fl := fl) (by omega)
    have hne : (advanced fl).pending ≠ 0 := fun h0 => by
      rw [h0] at hadv
      cases hadv
    rw [show refilled (n + 1) fl = refilled n (afterPost fl) from rfl, if_neg fun h => Nat.succ_ne_zero n h.2]
    cases h4 : completesFour fl with
    | true =>
      have hpost : afterPost fl = { advanced fl with pending := 0, dbGroups := 0 } := by
        rw [afterPost, if_pos h4, notified, if_neg hne]
      rw [ih (by rw [hpost]; show 0 + n < _; omega), hpost, ite_self]
    | false =>
      have hpost : afterPost fl = advanced fl := if_neg (Bool.eq_false_iff.mp h4)
      rw [ih (by rw [hpost, hadv]; omega), hpost, if_neg fun h => hne h.1]

end Sys2Proof.Machine
end

section
/-! PROOFS. REFILL of slots that can all be posted again (40_free_list R180, R182, R184, R190, R191). -/

namespace Sys2Proof.Machine

variable {s t : State} {fl : FreeList} {n : Nat}

/-! ## MMIO writes and the rings -/

theorem mmioWrite_setRing (s : State) (w : MmioWrite) (m : Memory) :
    mmioWrite (s.setRing m) w = (mmioWrite s w).setRing m := by
  obtain ⟨_, _, _, hs⟩ := mmioWrite_state s w
  rw [mmioWrite_aside (s := s) (s' := s.setRing m) ⟨rfl, rfl, rfl, rfl, rfl⟩ rfl, hs]
  rfl

theorem mmioWrites_setRing (ws : List MmioWrite) (s : State) (m : Memory) :
    ws.foldl mmioWrite (s.setRing m) = (ws.foldl mmioWrite s).setRing m := by
  induction ws generalizing s with
  | nil => rfl
  | cons w ws ih => rw [List.foldl_cons, mmioWrite_setRing, ih, List.foldl_cons]

/-- What several MMIO writes leave as it was. -/
structure OnlyTold (s t : State) : Prop where
  cfg : t.cfg = s.cfg
  iq : t.iq = s.iq
  arena : t.arena = s.arena
  env : t.env = s.env
  ring : t.ring = s.ring
  starving : t.starving = s.starving
  panic : t.panic = s.panic

theorem mmioWrites_onlyTold (ws : List MmioWrite) (s : State) : OnlyTold s (ws.foldl mmioWrite s) := by
  obtain ⟨df, di, de, hs⟩ := mmioWrites_state id ws s
  have hs' : ws.foldl mmioWrite s = _ := hs
  rw [hs']
  exact ⟨rfl, rfl, rfl, rfl, rfl, rfl, rfl⟩

/-! ## One post -/

/-- The entry of a slot's buffer (40_free_list R190, 30_encoding R122). -/
def entryWord (b : Buffer) (l : ClusterLayout) : Flit := (b.base + l.payloadOff.setWidth 64) ||| l.hwidx.setWidth 64

theorem afterPost_setSlot (fl : FreeList) (k : Nat) (sd : FreeListSlot) :
    afterPost (setSlot fl k sd) = setSlot (afterPost fl) k sd := by
  have hfour : completesFour (setSlot fl k sd) = completesFour fl := rfl
  rw [afterPost, hfour, afterPost]
  split
  · rw [notified, notified]
    by_cases hp : (advanced fl).pending = 0
    · rw [if_pos hp]
      exact if_pos hp
    · rw [if_neg hp]
      exact if_neg hp
  · rfl

/-- A slot that is ready is posted, and the post is counted. -/
theorem refillLoop_post {sd : FreeListSlot} {h k : Nat} {b : Buffer} (hd : fl.doomed = false) (hm : fl.mapped = true)
    (hlt : fl.pidx < fl.cap) (hroom : incIdx fl.pidx fl.cap ≠ fl.cidx) (hready : readySlot fl s = .ok (some sd, sd, t))
    (hbuf : sd.buf = some h) (hb : t.bufferOf h = some b) :
    refillLoop (n + 1) fl s k = refillLoop n (setSlot (afterPost fl) fl.pidx.toNat sd)
      (((postWords t.cfg fl).foldl mmioWrite t).setRing (t.ring.putFlit (flSlotAddr fl fl.pidx.toNat) (entryWord b sd.layout)))
      (k + 1) := by
  have hpost : postEntry (setSlot fl fl.pidx.toNat sd) sd t =
      .ok (t.setRing (t.ring.putFlit (flSlotAddr fl fl.pidx.toNat) (entryWord b sd.layout))) := by
    rw [postEntry, bufferOf_bind hbuf hb]
    exact ringWrite_eq (flSlot_inSpace hm hlt)
  rw [refillLoop, if_neg hroom, hready, Res.bind_ok]
  dsimp only
  rw [hpost, Res.bind_ok, countPost_eq (fl := setSlot fl fl.pidx.toNat sd) hd, Res.bind_ok]
  dsimp only
  rw [mmioWrites_setRing, afterPost_setSlot]
  rfl

/-! ## Room -/

/-- A list has no free slot exactly when its producer index stands just before its consumer index. -/
theorem freeSlots_eq_zero (hin : fl.inRange = true) : freeSlots fl = 0 ↔ incIdx fl.pidx fl.cap = fl.cidx := by
  obtain ⟨hp, hc, -⟩ := FreeList.inRange_iff.mp hin
  have hocc : occ fl < fl.cap.toNat := distOf_lt (FreeList.cap_pos hin)
  constructor
  · intro h0
    by_contra hne
    have hroom : occ fl + 1 < fl.cap.toNat := distOf_succ_lt hc hp hne
    rw [freeSlots] at h0
    omega
  · intro he
    by_contra hne
    rw [freeSlots] at hne
    have hsucc : distOf fl.cidx (incIdx fl.pidx fl.cap) fl.cap = occ fl + 1 :=
      distOf_addTo hc hp (n := 1) (show occ fl + 1 < fl.cap.toNat by omega)
    rw [he, distOf_self hc] at hsucc
    cases hsucc

theorem occ_afterPost (hin : fl.inRange = true) (hroom : incIdx fl.pidx fl.cap ≠ fl.cidx) :
    occ (afterPost fl) = occ fl + 1 := by
  obtain ⟨hp, hc, -⟩ := FreeList.inRange_iff.mp hin
  obtain ⟨p, g, hpost⟩ := afterPost_eq fl
  rw [hpost]
  exact distOf_addTo hc hp (n := 1) (distOf_succ_lt hc hp hroom)

theorem freeSlots_afterPost (hin : fl.inRange = true) (hroom : incIdx fl.pidx fl.cap ≠ fl.cidx) :
    freeSlots fl = freeSlots (afterPost fl) + 1 := by
  have hne := mt (freeSlots_eq_zero hin).mp hroom
  have hcap : (afterPost fl).cap = fl.cap := by
    obtain ⟨p, g, hpost⟩ := afterPost_eq fl
    rw [hpost]
  rw [freeSlots] at *
  rw [freeSlots, occ_afterPost hin hroom, hcap]
  omega

theorem occ_afterPosts (hin : fl.inRange = true) (hn : n ≤ freeSlots fl) : occ (afterPosts n fl) = occ fl + n := by
  obtain ⟨hp, hc, -⟩ := FreeList.inRange_iff.mp hin
  obtain ⟨p, g, hposts⟩ := afterPosts_eq (n := n) hp
  have hocc : occ fl < fl.cap.toNat := distOf_lt (FreeList.cap_pos hin)
  rw [hposts]
  refine distOf_addTo hc hp (n := n) ?_
  rw [freeSlots] at hn
  show occ fl + n < _
  omega

/-! ## Recyclable slots -/

/-- Slot `k` from the producer index. -/
def slotAhead (fl : FreeList) (k : Nat) : Nat := (fl.pidx.toNat + k) % fl.cap.toNat

/-- The entry that REFILL writes for slot `k` from the producer index, as it is (40_free_list R190). -/
def entryAhead (s : State) (fl : FreeList) (k : Nat) : Flit :=
  ((slotAt fl (slotAhead fl k)).buf.bind s.bufferOf).elim 0
      (fun b => b.base + (slotAt fl (slotAhead fl k)).layout.payloadOff.setWidth 64) |||
    (slotAt fl (slotAhead fl k)).layout.hwidx.setWidth 64

theorem slotAhead_afterPost (hlt : fl.pidx < fl.cap) (k : Nat) : slotAhead (afterPost fl) k = slotAhead fl (k + 1) := by
  obtain ⟨p, g, hpost⟩ := afterPost_eq fl
  rw [hpost]
  show ((incIdx fl.pidx fl.cap).toNat + k) % fl.cap.toNat = _
  rw [incIdx_toNat hlt, Nat.mod_add_mod, Nat.add_assoc, Nat.add_comm 1 k]
  rfl

theorem slotAhead_zero (hlt : fl.pidx < fl.cap) : slotAhead fl 0 = fl.pidx.toNat := Nat.mod_eq_of_lt hlt

theorem bufferOf_congr (ha : t.arena = s.arena) : t.bufferOf = s.bufferOf := by
  funext h
  rw [State.bufferOf, ha]
  rfl

/-- A list whose slots all hold a buffer of the arena, and without frame segments. -/
def Recyclable (s : State) (fl : FreeList) : Prop :=
  ∀ k, k < fl.sdesc.length → (slotAt fl k).nmbuf = 0 ∧ ∃ h b, (slotAt fl k).buf = some h ∧ s.bufferOf h = some b

theorem recyclable_of (hall : allRecyclable fl = true) (hsound : slotsSound s fl = true) : Recyclable s fl := by
  intro k hk
  have hmem : slotAt fl k ∈ fl.sdesc := by
    rw [slotAt, List.getD_eq_getElem _ _ hk]
    exact List.getElem_mem hk
  have hrec := List.all_eq_true.mp hall _ hmem
  rw [Bool.and_eq_true, decide_eq_true_iff] at hrec
  obtain ⟨hsome, hnm⟩ := hrec
  obtain ⟨h, hh⟩ := Option.isSome_iff_exists.mp hsome
  have hb := List.all_eq_true.mp hsound _ hmem
  rw [hh] at hb
  dsimp only at hb
  cases hfind : s.bufferOf h with
  | none =>
    rw [hfind] at hb
    cases hb
  | some b => exact ⟨hnm, h, b, hh, hfind⟩

theorem Recyclable.of_eq {fl' : FreeList} (hr : Recyclable s fl) (hs : fl'.sdesc = fl.sdesc) (ha : t.arena = s.arena) :
    Recyclable t fl' := fun k hk => by
  have hslot : slotAt fl' k = slotAt fl k := by rw [slotAt, hs, slotAt]
  rw [hslot, bufferOf_congr ha]
  exact hr k (hs ▸ hk)

theorem readySlot_recycled {h : Nat} (hnm : (slotAt fl fl.pidx.toNat).nmbuf = 0)
    (hbuf : (slotAt fl fl.pidx.toNat).buf = some h) :
    readySlot fl s = .ok (some (slotAt fl fl.pidx.toNat), slotAt fl fl.pidx.toNat, s) := by
  rw [readySlot]
  dsimp only
  rw [hbuf]
  dsimp only
  rw [tryRecycle, if_pos hnm]
  rfl

/-- The entry at the producer index is the first of those ahead. -/
theorem entryAhead_zero {h : Nat} {b : Buffer} (hlt : fl.pidx < fl.cap) (hbuf : (slotAt fl fl.pidx.toNat).buf = some h)
    (hb : s.bufferOf h = some b) : entryAhead s fl 0 = entryWord b (slotAt fl fl.pidx.toNat).layout := by
  rw [entryAhead, slotAhead_zero hlt, bufferOf_bind hbuf hb]
  rfl

theorem entryAhead_afterPost (hlt : fl.pidx < fl.cap) (ha : t.arena = s.arena) :
    entryAhead t (afterPost fl) = entryAhead s fl ∘ Nat.succ := by
  have hslot : slotAt (afterPost fl) = slotAt fl := by
    obtain ⟨p, g, hpost⟩ := afterPost_eq fl
    funext j
    rw [hpost]
    rfl
  funext k
  rw [entryAhead, slotAhead_afterPost hlt, hslot, bufferOf_congr ha]
  rfl

/-- The slots ahead of the producer index, while there is room, are apart from the one it stands at. -/
theorem slotAhead_apart {k : Nat} (hlt : fl.pidx < fl.cap) (hk : k + 1 < fl.cap.toNat) :
    flSlotAddr fl (slotAhead fl 0) + 8 ≤ flSlotAddr fl (slotAhead fl (k + 1)) ∨
      flSlotAddr fl (slotAhead fl (k + 1)) + 8 ≤ flSlotAddr fl (slotAhead fl 0) := by
  have hne : slotAhead fl (k + 1) ≠ fl.pidx.toNat := add_mod_ne_self hlt hk
  rw [slotAhead_zero hlt, flSlotAddr, flSlotAddr]
  omega

/-- REFILL's loop over slots that can be posted again: as many posts as there is room for. -/
theorem refillLoop_recyclable {k : Nat} (hd : fl.doomed = false) (hm : fl.mapped = true) (hin : fl.inRange = true)
    (hr : Recyclable s fl) (hw : s.ring.wf) : ∃ m,
    refillLoop n fl s k = .ok (afterPosts (min n (freeSlots fl)) fl,
      ((postsWords s.cfg (min n (freeSlots fl)) fl).foldl mmioWrite s).setRing m, k + min n (freeSlots fl)) ∧
    WritesFlits s.ring m (fun k => flSlotAddr fl (slotAhead fl k))
      ((List.range (min n (freeSlots fl))).map (entryAhead s fl)) := by
  induction n generalizing fl s k with
  | zero => exact ⟨s.ring, by rw [Nat.zero_min]; rfl, by rw [Nat.zero_min]; exact ⟨nofun, fun _ _ => rfl⟩⟩
  | succ n ih =>
    by_cases hfull : incIdx fl.pidx fl.cap = fl.cidx
    · have h0 := (freeSlots_eq_zero hin).mpr hfull
      rw [h0, Nat.min_zero]
      exact ⟨s.ring, by rw [refillLoop, if_pos hfull]; rfl, nofun, fun _ _ => rfl⟩
    · obtain ⟨hp, hc, hlen⟩ := FreeList.inRange_iff.mp hin
      have hcap := FreeList.cap_pos hin
      obtain ⟨hnm, h, b, hbuf, hb⟩ := hr fl.pidx.toNat (by rw [hlen]; exact hp)
      obtain ⟨pe, g, hpost⟩ := afterPost_eq fl
      have hfree := freeSlots_afterPost hin hfull
      have hmin : min (n + 1) (freeSlots fl) = min n (freeSlots (afterPost fl)) + 1 := by omega
      have htold := mmioWrites_onlyTold (postWords s.cfg fl) s
      have hloop := refillLoop_post (n := n) (k := k) hd hm hp hfull (readySlot_recycled (s := s) hnm hbuf) hbuf hb
      have hsdesc : (afterPost fl).sdesc = fl.sdesc := by rw [hpost]
      rw [show setSlot (afterPost fl) fl.pidx.toNat (slotAt fl fl.pidx.toNat) = afterPost fl by
        rw [← afterPost_setSlot, setSlot_slotAt]] at hloop
      obtain ⟨m, hrest, hwrites⟩ := ih (fl := afterPost fl) (k := k + 1)
        (s := ((postWords s.cfg fl).foldl mmioWrite s).setRing
          (s.ring.putFlit (flSlotAddr fl fl.pidx.toNat) (entryWord b (slotAt fl fl.pidx.toNat).layout)))
        (by rw [hpost]; exact hd) (by rw [hpost]; exact hm)
        (by rw [hpost]; exact FreeList.inRange_iff.mpr ⟨addTo_lt 1 hcap, hc, hlen⟩) (hr.of_eq hsdesc htold.arena)
        (Memory.putFlit_wf hw _ _)
      have harena : (((postWords s.cfg fl).foldl mmioWrite s).setRing (s.ring.putFlit (flSlotAddr fl fl.pidx.toNat)
          (entryWord b (slotAt fl fl.pidx.toNat).layout))).arena = s.arena := htold.arena
      refine ⟨m, ?_, ?_⟩
      · rw [hloop, hrest, hmin, mmioWrites_setRing, State.setRing_cfg, htold.cfg, postsWords, List.foldl_append,
          show k + 1 + min n (freeSlots (afterPost fl)) = k + (min n (freeSlots (afterPost fl)) + 1) by omega]
        rfl
      · have hbase : flSlotAddr (afterPost fl) = flSlotAddr fl := by rw [hpost]; rfl
        rw [hmin, List.range_succ_eq_map, List.map_cons, List.map_map]
        refine .cons hw ?_ fun j hj => slotAhead_apart hp ?_
        · rw [entryAhead_zero hp hbuf hb, slotAhead_zero hp]
          rw [entryAhead_afterPost hp harena] at hwrites
          simp only [hbase, slotAhead_afterPost hp] at hwrites
          exact hwrites
        · rw [List.length_map, List.length_range] at hj
          rw [freeSlots] at hfree
          omega

/-! ## The command -/

/-- A REFILL of slots that can all be posted again. -/
theorem refill_recyclable (hd : fl.doomed = false) (hm : fl.mapped = true) (hin : fl.inRange = true)
    (hr : Recyclable s fl) (hw : s.ring.wf) : ∃ m,
    refill n fl s = .ok (refilled (min n (freeSlots fl)) fl,
      ((refillWords s.cfg (min n (freeSlots fl)) fl).foldl mmioWrite s).setRing m, min n (freeSlots fl),
      starvingIndicator (refilled (min n (freeSlots fl)) fl)) ∧
    WritesFlits s.ring m (fun k => flSlotAddr fl (slotAhead fl k))
      ((List.range (min n (freeSlots fl))).map (entryAhead s fl)) := by
  obtain ⟨m, hloop, hwrites⟩ := refillLoop_recyclable (n := n) (k := 0) hd hm hin hr hw
  obtain ⟨p, g, hposts⟩ := afterPosts_eq (n := min n (freeSlots fl)) (FreeList.inRange_iff.mp hin).1
  refine ⟨m, ?_, hwrites⟩
  have htold := mmioWrites_onlyTold (postsWords s.cfg (min n (freeSlots fl)) fl) s
  rw [refill, hd, if_neg Bool.false_ne_true, hloop, Res.bind_ok]
  dsimp only
  rw [notifyFl_eq (fl := afterPosts (min n (freeSlots fl)) fl) (by rw [hposts]; exact hd), Res.bind_ok]
  dsimp only
  rw [mmioWrites_setRing, State.setRing_cfg, htold.cfg, refillWords, List.foldl_append, Nat.zero_add]
  rfl

theorem starvingIndicator_refilled (hin : fl.inRange = true) (hn : n ≤ freeSlots fl) :
    starvingIndicator (refilled n fl) = (decide (occ fl + n < fl.lowat.toNat) && !fl.starving) := by
  obtain ⟨hp, hc, -⟩ := FreeList.inRange_iff.mp hin
  obtain ⟨p, g, hposts⟩ := afterPosts_eq (n := n) hp
  obtain ⟨g', hnot⟩ := notified_eq (afterPosts n fl)
  have hocc := occ_afterPosts hin hn
  rw [refilled, hnot, starvingIndicator, ← hocc, hposts]
  rfl

/-- REFILL as an instruction, from what the posts do. -/
theorem execRefill_ok {i p : Nat} {q : IngressQueue} {fl' : FreeList} {st : Bool} (hp : s.panic = false) (hq : s.iqAt i = some q)
    (hfl : q.fl = some fl) (hd : fl.doomed = false) (hn : n ≤ 65535) (h : refill n fl s.begin = .ok (fl', t, p, st)) :
    execRefill i n s = .next (({ t with starving := t.starving ++ if st then [i] else [] }.setIq i
      { q with fl := some { fl' with starving := fl'.starving || st } }).answer (.refilled p st)) := by
  refine runQe_onFl (s := s) hp hq hfl ?_
  rw [hd, if_neg Bool.false_ne_true, if_neg (show ¬ refillMax < n from Nat.not_lt.mpr hn), h, Res.bind_ok]
  dsimp only
  rw [registerStarving_eq]
  rfl

/-- The state after a REFILL's words and entries, with the list's context written. -/
theorem answer_refilled {i : Nat} {x : IngressQueue} {r : Ret} (ws : List MmioWrite) (m : Memory) (l : List Nat) :
    (({ (ws.foldl mmioWrite s.begin).setRing m with
        starving := ((ws.foldl mmioWrite s.begin).setRing m).starving ++ l } : State).setIq i x).answer r =
      { ws.foldl mmioWrite s with
        iq := s.iq.set i (some x), ring := m, starving := s.starving ++ l, ret := r, raised := [] } := by
  have hbegin : ws.foldl mmioWrite s.begin = { ws.foldl mmioWrite s with ret := .none, raised := [] } :=
    mmioWrites_answered ws s .none []
  have htold := mmioWrites_onlyTold ws s
  rw [hbegin]
  simp only [State.setIq, State.setRing, State.answer, htold.iq, htold.starving]

theorem tolds_length {p pending since : Nat} (hs : since < 32) :
    (toldBefore p pending since).length = (since + p) / 32 + 1 := by
  rw [toldBefore_eq hs]
  split
  · next h0 => rw [h0]; rfl
  · next h0 =>
    rw [List.length_cons, List.length_append, List.length_replicate, List.length_singleton]
    omega

end Sys2Proof.Machine

namespace Sys2Proof
open Machine

/-- Settles O28: the loop posts as many slots as there is room for, and each post tells its doorbell words. -/
theorem refillPosts : Obligations.RefillPosts := by
  intro s i n q fl hp hq hfl hd hn hin hm hall hsound hw p slot st reg
  have hlt := (FreeList.inRange_iff.mp hin).1
  obtain ⟨m, hrun, hwrites⟩ := refill_recyclable (s := s.begin) (n := n) hd hm hin (recyclable_of hall hsound) hw
  obtain ⟨g, hg⟩ := refilled_eq (n := p) hlt
  have hexec := execRefill_ok hp hq hfl hd hn hrun
  rw [starvingIndicator_refilled hin (Nat.min_le_right _ _), answer_refilled] at hexec
  have hreg : fl.register = reg := by
    simp only [FreeList.register, doorbellReg, reg]
    cases fl.dbMech <;> rfl
  have htells : ∀ k, fl.tells k = .word reg (fl.qid ++ k) := fun k => by rw [← hreg]; rfl
  refine ⟨m, refillWords s.cfg p fl, g, ?_, hwrites, fun w hw => ?_, toldBy_refillWords, fun hpend hg4 h8 hmax => ?_⟩
  · refine hexec.trans ?_
    rw [hg]
    rfl
  · obtain ⟨k, -, rfl⟩ := mem_refillWords hw
    exact ⟨k, htells k⟩
  · intro since rings told
    have hsince : postsSince fl < 32 := by rw [postsSince]; omega
    have htold : toldBefore p fl.pending.toNat since = told := toldBefore_eq hsince
    have hwords := refillWords_eq hlt h8 hg4 hpend hmax
    rw [show postsSince fl = since from rfl, htold] at hwords
    simp only [htells] at hwords
    refine ⟨hwords, ?_, fun h0 => ?_⟩
    · rw [← refilled_groups hpend, hg]
    · have hlen := List.length_filter_le (· ≠ 0) (toldBefore p fl.pending.toNat (postsSince fl))
      rw [tolds_length hsince] at hlen
      have h0' : fl.dbGroups.toNat = 0 := by rw [h0]; rfl
      rw [hwords, List.length_map, ← htold]
      show (List.filter _ (toldBefore p fl.pending.toNat (postsSince fl))).length ≤ _
      have hsmall : postsSince fl ≤ 7 := by rw [postsSince, h0']; omega
      have hdiv : (postsSince fl + p) / 32 ≤ (p + 7) / 32 := Nat.div_le_div_right (by omega)
      exact hlen.trans (Nat.add_le_add_right hdiv 1)

end Sys2Proof
end

section
/-! PROOFS. TIMER_TICK (47_system R435). -/

namespace Sys2Proof.Machine

variable {s t : State} {i : Nat} {fl : FreeList}

/-! ## One list, and one queue -/

/-- A starving list whose slots can all be posted again is filled, and is starving no more. -/
theorem tickFl_recyclable {q : IngressQueue} (hq : s.iqAt i = some q) (hfl : q.fl = some fl) (hd : fl.doomed = false)
    (hm : fl.mapped = true) (hin : fl.inRange = true) (hr : Recyclable s fl) (hw : s.ring.wf) (hlow : fl.lowat < fl.cap) :
    ∃ m, tickFl i s = .ok
      (((((refillWords s.cfg (freeSlots fl) fl).foldl mmioWrite s).setRing m).setStarving (s.starving.erase i)).setIq i
        { q with fl := some { refilled (freeSlots fl) fl with starving := false } }) ∧
    WritesFlits s.ring m (fun k => flSlotAddr fl (slotAhead fl k)) ((List.range (freeSlots fl)).map (entryAhead s fl)) := by
  obtain ⟨m, hrun, hwrites⟩ := refill_recyclable (s := s) (n := freeSlots fl) hd hm hin hr hw
  obtain ⟨g, hg⟩ := refilled_eq (n := freeSlots fl) (FreeList.inRange_iff.mp hin).1
  rw [Nat.min_self] at hrun hwrites
  refine ⟨m, ?_, hwrites⟩
  have hflAt : s.flAt i = some fl := by
    rw [State.flAt, hq]
    exact hfl
  have htold := mmioWrites_onlyTold (refillWords s.cfg (freeSlots fl) fl) s
  have hocc : occ fl < fl.cap.toNat := distOf_lt (FreeList.cap_pos hin)
  have hfull : fl.lowat.toNat ≤ occ (refilled (freeSlots fl) fl) := by
    obtain ⟨g', hnot⟩ := notified_eq (afterPosts (freeSlots fl) fl)
    have hposts := occ_afterPosts hin le_rfl
    have hsame : occ (refilled (freeSlots fl) fl) = occ (afterPosts (freeSlots fl) fl) := by rw [refilled, hnot]; rfl
    have hlt : fl.lowat.toNat < fl.cap.toNat := hlow
    rw [hsame, hposts, freeSlots]
    omega
  have hlowat : (refilled (freeSlots fl) fl).lowat = fl.lowat := by rw [hg]
  rw [tickFl, hq, hflAt]
  dsimp only
  rw [hrun, Res.bind_ok]
  dsimp only
  rw [hlowat, if_pos hfull, State.setRing_starving, htold.starving]
  rfl

theorem tickEq_reclaims {q q1 : EgressQueue} {d c : Nat} (hq : s.eqAt i = some q)
    (h : reclaim i s.cfg.egrReclaimBatch q s = .ok (q1, t, d, c)) : tickEq i s = .ok (t.setEq i q1) := by
  rw [tickEq, hq]
  dsimp only
  rw [h]
  rfl

/-- The state after a tick's words and entries, with the list's context written. -/
theorem answer_ticked {x : IngressQueue} {r : Ret} (ws : List MmioWrite) (m : Memory) (l : List Nat) :
    ((((ws.foldl mmioWrite s.begin).setRing m).setStarving l).setIq i x).answer r =
      { ws.foldl mmioWrite s with iq := s.iq.set i (some x), ring := m, starving := l, ret := r, raised := [] } := by
  have hbegin : ws.foldl mmioWrite s.begin = { ws.foldl mmioWrite s with ret := .none, raised := [] } :=
    mmioWrites_answered ws s .none []
  have htold := mmioWrites_onlyTold ws s
  rw [hbegin]
  simp only [State.setIq, State.setRing, State.setStarving, State.answer, htold.iq]

/-! ## The command -/

theorem execTimerTick_ok {u : State} (hp : s.panic = false) (h1 : forEach tickFl s.starving s.begin = .ok t)
    (h2 : forEach tickEq s.stalled t = .ok u) : execTimerTick s = .next (u.answer .ok) := by
  refine runQe_ok hp ?_
  rw [timerTick, show s.begin.starving = s.starving from rfl, h1, Res.bind_ok, show s.begin.stalled = s.stalled from rfl, h2]
  rfl

theorem forEach_one {f : Nat → State → Res State} (h : f i s = .ok t) : forEach f [i] s = .ok t := by
  rw [forEach, h]
  rfl

end Sys2Proof.Machine

namespace Sys2Proof
open Machine

/-- Settles O27: each of the two loops runs over at most one queue. -/
theorem timerTick : Obligations.TimerTick := by
  intro s hp
  refine ⟨fun hs hst => ?_, fun i q fl hs hst hq hfl hd hin hm hall hsound hlow hw => ?_,
    fun i q q1 s1 d c hs hst hq hrun => ?_⟩
  · refine execTimerTick_ok hp (t := s.begin) (u := s.begin) ?_ ?_
    · rw [hs]; rfl
    · rw [hst]; rfl
  · intro p slot
    obtain ⟨m, htick, hwrites⟩ := tickFl_recyclable (s := s.begin) hq hfl hd hm hin (recyclable_of hall hsound) hw hlow
    obtain ⟨hplt, hclt, -⟩ := FreeList.inRange_iff.mp hin
    obtain ⟨g, hg⟩ := refilled_eq (n := freeSlots fl) hplt
    refine ⟨m, refillWords s.cfg p fl, g, ?_, hwrites, fun w hw => ?_, toldBy_refillWords, ?_⟩
    · have hloop : forEach tickFl s.starving s.begin = _ := (congrArg (forEach tickFl · s.begin) hs).trans (forEach_one htick)
      refine (execTimerTick_ok hp hloop (by rw [hst]; rfl)).trans ?_
      rw [answer_ticked, hg, show s.begin.starving.erase i = [] by
        rw [show s.begin.starving = s.starving from rfl, hs, List.erase_cons_head]]
      rfl
    · obtain ⟨k, hk, rfl⟩ := mem_refillWords hw
      refine ⟨k, hk, ?_⟩
      rw [FreeList.tells, FreeList.register]
      cases fl.dbMech <;> rfl
    · have hocc : occ fl < fl.cap.toNat := distOf_lt (FreeList.cap_pos hin)
      have hp : p = fl.cap.toNat - 1 - occ fl := rfl
      have hsum : occ fl + p = fl.cap.toNat - 1 := by omega
      exact (distOf_addTo hclt hplt (show occ fl + p < _ by omega)).trans hsum
  · have hbegin : reclaim i s.begin.cfg.egrReclaimBatch q s.begin = .ok (q1, s1, d, c) := hrun
    refine execTimerTick_ok hp (t := s.begin) ?_ ?_ (u := s1.setEq i q1)
    · rw [hs]; rfl
    · rw [hst]
      exact forEach_one (tickEq_reclaims (s := s.begin) hq hbegin)

end Sys2Proof
end

section
/-! PROOFS. REFILL of one slot (40_free_list R182, R183, R184, R188, R190). -/

namespace Sys2Proof.Machine

variable {s t : State} {i : Nat} {q : IngressQueue} {fl : FreeList} {l : ClusterLayout} {base : Addr} {rest : List (Option Addr)}

/-! ## The zones' answers -/

/-- A buffer drawn for a layout: its handle is the next one (log 17), and it is counted when it has metadata. -/
def freshOf (s : State) (l : ClusterLayout) (base : Addr) : Buffer :=
  { handle := s.env.nextBuf, base := base, zone := l.zone, hasMeta := hasMeta s.cfg l
    refcount := if hasMeta s.cfg l then 1 else 0 }

/-- The state with that buffer in its arena. -/
def drawnFrom (s : State) (l : ClusterLayout) (base : Addr) (rest : List (Option Addr)) : State :=
  { s with arena := s.arena ++ [freshOf s l base], env := { s.env with zone := rest, nextBuf := s.env.nextBuf + 1 } }

/-- The state with the zones' answers used up to here. -/
def zonesLeft (s : State) (rest : List (Option Addr)) : State := { s with env := { s.env with zone := rest } }

theorem allocateFrom_granted (hz : s.env.zone = some base :: rest)
    (hf : freshBuffer s (s.cfg.zoneSizes.getD l.zone 0) base = true) :
    allocateFrom l s = (some ⟨some s.env.nextBuf, l, 0⟩, drawnFrom s l base rest) := by
  have halloc : zoneAlloc s l.zone (hasMeta s.cfg l) = (some s.env.nextBuf, drawnFrom s l base rest) := by
    rw [zoneAlloc, hz]
    exact if_pos hf
  rw [allocateFrom, halloc]
  rfl

theorem allocateFrom_denied (hz : s.env.zone = none :: rest) : allocateFrom l s = (none, zonesLeft s rest) := by
  have halloc : zoneAlloc s l.zone (hasMeta s.cfg l) = (none, zonesLeft s rest) := by
    rw [zoneAlloc, hz]
    rfl
  rw [allocateFrom, halloc]
  rfl

/-- The zones answer with a fresh buffer: the default layout's, or the safe layout's after it. -/
def Found (fl : FreeList) (s : State) (l : ClusterLayout) (base : Addr) (rest : List (Option Addr)) : Prop :=
  ((l = fl.cllDef ∧ s.env.zone = some base :: rest) ∨
    (fl.cllSafe = some l ∧ s.env.zone = none :: some base :: rest)) ∧
    freshBuffer s (s.cfg.zoneSizes.getD l.zone 0) base = true ∧ s.bufferOf s.env.nextBuf = none

/-- No zone has a buffer. -/
def Exhausted (fl : FreeList) (s : State) (rest : List (Option Addr)) : Prop :=
  (fl.cllSafe = none ∧ s.env.zone = none :: rest) ∨ (fl.cllSafe.isSome = true ∧ s.env.zone = none :: none :: rest)

theorem allocateInto_found (h : Found fl s l base rest) :
    allocateInto fl s = (some ⟨some s.env.nextBuf, l, 0⟩, drawnFrom s l base rest) := by
  obtain ⟨⟨rfl, hz⟩ | ⟨hsafe, hz⟩, hf, -⟩ := h
  · rw [allocateInto, allocateFrom_granted hz hf]
  · rw [allocateInto, allocateFrom_denied hz, hsafe]
    exact allocateFrom_granted (s := zonesLeft s (some base :: rest)) rfl hf

theorem allocateInto_exhausted (h : Exhausted fl s rest) : allocateInto fl s = (none, zonesLeft s rest) := by
  obtain ⟨hsafe, hz⟩ | ⟨hsafe, hz⟩ := h
  · rw [allocateInto, allocateFrom_denied hz, hsafe]
  · obtain ⟨l, hl⟩ := Option.isSome_iff_exists.mp hsafe
    rw [allocateInto, allocateFrom_denied hz, hl]
    exact allocateFrom_denied (s := zonesLeft s (none :: rest)) rfl

/-- The buffer drawn is the one its handle names. -/
theorem bufferOf_drawn (h : s.bufferOf s.env.nextBuf = none) :
    (drawnFrom s l base rest).bufferOf s.env.nextBuf = some (freshOf s l base) := by
  rw [State.bufferOf] at h
  rw [State.bufferOf, drawnFrom, List.find?_append, h, Option.none_or, List.find?_singleton]
  exact if_pos (decide_eq_true rfl)

/-! ## Counts changed -/

theorem bufferOf_setRefcount (s : State) (k j : Nat) (n : BitVec 32) : (s.setRefcount k n).bufferOf j =
    (s.bufferOf j).map fun b => if b.handle = k then { b with refcount := n } else b := by
  have hhandle : ((fun x : Buffer => decide (x.handle = j)) ∘
      fun b => if b.handle = k then { b with refcount := n } else b) = fun x => decide (x.handle = j) := by
    funext x
    dsimp only [Function.comp]
    split <;> rfl
  rw [State.bufferOf, State.setRefcount, State.setArena, List.find?_map, hhandle, State.bufferOf]

theorem freshBuffer_setRefcount (s : State) (k : Nat) (n : BitVec 32) (size : Nat) :
    freshBuffer (s.setRefcount k n) size base = freshBuffer s size base := by
  have hall : ∀ b : Buffer, (if b.handle = k then { b with refcount := n } else b).base = b.base ∧
      (if b.handle = k then { b with refcount := n } else b).zone = b.zone := fun b => by split <;> exact ⟨rfl, rfl⟩
  rw [freshBuffer, freshBuffer, State.setRefcount, State.setArena, List.all_map]
  simp only [Function.comp_def, (hall _).1, (hall _).2]

/-- A count changed leaves the zones' answers what they are. -/
theorem Found.setRefcount (h : Found fl s l base rest) (k : Nat) (n : BitVec 32) : Found fl (s.setRefcount k n) l base rest := by
  obtain ⟨hz, hf, hnew⟩ := h
  refine ⟨hz, (freshBuffer_setRefcount s k n _).trans hf, ?_⟩
  rw [show (s.setRefcount k n).env = s.env from rfl, bufferOf_setRefcount, hnew]
  rfl

/-! ## The slot readied -/

theorem readySlot_holds {h : Nat} {r : FreeListSlot × State × Bool} (hbuf : (slotAt fl fl.pidx.toNat).buf = some h)
    (hr : tryRecycle (slotAt fl fl.pidx.toNat) h s = .ok r) : readySlot fl s =
      if r.2.2 then .ok (some r.1, r.1, r.2.1)
      else .ok ((allocateInto fl r.2.1).1, (allocateInto fl r.2.1).1.getD r.1, (allocateInto fl r.2.1).2) := by
  rw [readySlot]
  dsimp only
  rw [hbuf]
  dsimp only
  rw [hr]
  rfl

theorem readySlot_last {h : Nat} {b : Buffer} (hbuf : (slotAt fl fl.pidx.toNat).buf = some h) (hb : s.bufferOf h = some b)
    (hnm : (slotAt fl fl.pidx.toNat).nmbuf ≠ 0) (h1 : b.refcount = 1) :
    readySlot fl s = .ok (some { slotAt fl fl.pidx.toNat with nmbuf := 0 }, { slotAt fl fl.pidx.toNat with nmbuf := 0 },
      s.setRefcount h 1) := by
  have hne : b.refcount ≠ 0 := by rw [h1]; decide
  refine readySlot_holds hbuf (r := (_, _, true)) ?_
  rw [tryRecycle, if_neg hnm, hb]
  dsimp only
  rw [if_neg hne, if_pos h1]
  rfl

/-- A slot that others still reference is given up, and filled anew if a zone has a buffer. -/
theorem readySlot_given {h : Nat} {b : Buffer} (hbuf : (slotAt fl fl.pidx.toNat).buf = some h) (hb : s.bufferOf h = some b)
    (hnm : (slotAt fl fl.pidx.toNat).nmbuf ≠ 0) (h0 : b.refcount ≠ 0) (h1 : b.refcount ≠ 1) :
    readySlot fl s = .ok ((allocateInto fl (s.setRefcount h (b.refcount - 1))).1,
      (allocateInto fl (s.setRefcount h (b.refcount - 1))).1.getD { slotAt fl fl.pidx.toNat with buf := none, nmbuf := 0 },
      (allocateInto fl (s.setRefcount h (b.refcount - 1))).2) := by
  have hdrop : s.addRef b (-1) = s.setRefcount h (b.refcount - 1) := by
    rw [State.addRef, (bufferOf_some hb).2, sub_eq_add_neg]
  refine readySlot_holds hbuf (r := (_, _, false)) ?_
  rw [tryRecycle, if_neg hnm, hb]
  dsimp only
  rw [if_neg h0, if_neg h1, hdrop]
  rfl

theorem readySlot_empty (hbuf : (slotAt fl fl.pidx.toNat).buf = none) :
    readySlot fl s = .ok ((allocateInto fl s).1, (allocateInto fl s).1.getD (slotAt fl fl.pidx.toNat), (allocateInto fl s).2) := by
  rw [readySlot]
  dsimp only
  rw [hbuf]

/-! ## One post -/

theorem doorbellIncs_one {limit : Nat} (h : 0 < limit) : doorbellIncs limit 1 = [1] := by
  rw [doorbellIncs]
  obtain rfl | hlt := Nat.eq_or_lt_of_le (show 1 ≤ limit from h)
  · rfl
  · rw [Nat.div_eq_of_lt hlt, Nat.mod_eq_of_lt hlt]
    rfl

theorem notifyWords_pending_one {c : Cfg} (h : fl.pending = 1) : notifyWords c fl = [fl.tells 1] := by
  rw [notifyWords, h, if_neg (by decide), doorbellWords]
  show List.map _ (doorbellIncs (dbIncLimit c) 1) = _
  rw [doorbellIncs_one (show 0 < dbIncLimit c from Nat.le_max_left 1 c.dbIncMax)]
  rfl

/-- One post of a list of which the device has been told all: one word, whether the post completes four groups or not. -/
theorem refill_one_told {c : Cfg} (h : fl.pending = 0) : refillWords c 1 fl = [fl.tells 1] ∧
    refilled 1 fl = { fl with pidx := incIdx fl.pidx fl.cap, pending := 0, dbGroups := 0 } := by
  have hone : (advanced fl).pending = 1 := by
    rw [advanced, h]
    rfl
  have hwords := notifyWords_pending_one (c := c) hone
  have hnot : notified (advanced fl) = { advanced fl with pending := 0, dbGroups := 0 } := by
    rw [notified, hone, if_neg (by decide)]
  rw [refillWords_succ, refillWords_zero, refilled, afterPosts, afterPosts, postWords, afterPost]
  cases completesFour fl with
  | true =>
    rw [if_pos rfl, if_pos rfl, hwords, hnot]
    exact ⟨rfl, rfl⟩
  | false =>
    rw [if_neg Bool.false_ne_true, if_neg Bool.false_ne_true, hwords, hnot]
    exact ⟨rfl, rfl⟩

theorem notified_setSlot (fl : FreeList) (k : Nat) (sd : FreeListSlot) : notified (setSlot fl k sd) = setSlot (notified fl) k sd := by
  rw [notified, notified]
  by_cases hp : fl.pending = 0
  · rw [if_pos hp]
    exact if_pos hp
  · rw [if_neg hp]
    exact if_neg hp

/-- A REFILL of one slot that is ready. -/
theorem refill_one {sd : FreeListSlot} {h : Nat} {b : Buffer} (hd : fl.doomed = false) (hm : fl.mapped = true)
    (hin : fl.inRange = true) (hroom : incIdx fl.pidx fl.cap ≠ fl.cidx) (hpend : fl.pending = 0)
    (hready : readySlot fl s = .ok (some sd, sd, t)) (hbuf : sd.buf = some h) (hb : t.bufferOf h = some b) :
    refill 1 fl s = .ok (setSlot { fl with pidx := incIdx fl.pidx fl.cap, pending := 0, dbGroups := 0 } fl.pidx.toNat sd,
      (mmioWrite t (fl.tells 1)).setRing (t.ring.putFlit (flSlotAddr fl fl.pidx.toNat) (entryWord b sd.layout)), 1,
      decide (occ fl + 1 < fl.lowat.toNat) && !fl.starving) := by
  obtain ⟨hlt, hclt, -⟩ := FreeList.inRange_iff.mp hin
  have hpost := refillLoop_post (n := 0) (k := 0) hd hm hlt hroom hready hbuf hb
  obtain ⟨hwords, hlist⟩ := refill_one_told (c := t.cfg) hpend
  have hlive : (setSlot (afterPost fl) fl.pidx.toNat sd).doomed = false := by
    obtain ⟨p, g, hp⟩ := afterPost_eq fl
    rw [hp]
    exact hd
  have htold := mmioWrites_onlyTold (postWords t.cfg fl) t
  have hall : (notifyWords t.cfg (afterPost fl)).foldl mmioWrite ((postWords t.cfg fl).foldl mmioWrite t) = mmioWrite t (fl.tells 1) := by
    rw [← List.foldl_append, ← refillWords_zero, ← refillWords_succ, hwords]
    rfl
  have hocc : occ { fl with pidx := incIdx fl.pidx fl.cap, pending := 0, dbGroups := 0 } = occ fl + 1 :=
    distOf_addTo hclt hlt (n := 1) (distOf_succ_lt hclt hlt hroom)
  rw [refill, if_neg (Bool.eq_false_iff.mp hd), hpost, refillLoop, Res.bind_ok]
  dsimp only
  rw [notifyFl_eq hlive, Res.bind_ok, notified_setSlot, show notified (afterPost fl) = refilled 1 fl from rfl, hlist]
  dsimp only
  rw [mmioWrites_setRing, State.setRing_cfg, htold.cfg,
    show notifyWords t.cfg (setSlot (afterPost fl) fl.pidx.toNat sd) = notifyWords t.cfg (afterPost fl) from rfl, hall, ← hocc]
  rfl

/-- A REFILL that finds no buffer for the slot. -/
theorem refill_none {sd : FreeListSlot} (hd : fl.doomed = false) (hroom : incIdx fl.pidx fl.cap ≠ fl.cidx)
    (hpend : fl.pending = 0) (hready : readySlot fl s = .ok (none, sd, t)) :
    refill 1 fl s = .ok (setSlot fl fl.pidx.toNat sd, t.raise .noresourceBuf, 0,
      decide (occ fl + 0 < fl.lowat.toNat) && !fl.starving) := by
  rw [refill, hd, if_neg Bool.false_ne_true, refillLoop, if_neg hroom, hready, Res.bind_ok]
  dsimp only
  rw [show (pure (setSlot fl fl.pidx.toNat sd, t.raise .noresourceBuf, 0) : Res (FreeList × State × Nat)) =
    .ok (setSlot fl fl.pidx.toNat sd, t.raise .noresourceBuf, 0) from rfl, Res.bind_ok]
  dsimp only
  rw [notifyFl_nothing (fl := setSlot fl fl.pidx.toNat sd) hd hpend, Res.bind_ok]
  rfl

/-! ## The command -/

/-- The state with another arena and other oracles. -/
def stocked (s : State) (a : List Buffer) (e : Oracles) : State := { s with arena := a, env := e }

theorem mmioWrite_stocked (s : State) (w : MmioWrite) (a : List Buffer) (e : Oracles) :
    mmioWrite (stocked s a e) w = stocked (mmioWrite s w) a e := by
  obtain ⟨_, _, _, hs⟩ := mmioWrite_state s w
  rw [mmioWrite_aside (s := s) (s' := stocked s a e) ⟨rfl, rfl, rfl, rfl, rfl⟩ rfl, hs]
  rfl

/-- REFILL of one slot that is ready, with what was taken from the arena and the zones for it. -/
theorem execRefill_one {sd : FreeListSlot} {h : Nat} {b : Buffer} {a : List Buffer} {e : Oracles} (hp : s.panic = false)
    (hq : s.iqAt i = some q) (hfl : q.fl = some fl) (hd : fl.doomed = false) (hm : fl.mapped = true)
    (hin : fl.inRange = true) (hroom : incIdx fl.pidx fl.cap ≠ fl.cidx) (hpend : fl.pending = 0) (hw : s.ring.wf)
    (hready : readySlot fl s.begin = .ok (some sd, sd, stocked s.begin a e)) (hbuf : sd.buf = some h)
    (hb : (stocked s.begin a e).bufferOf h = some b) {st : Bool}
    (hst : (decide (occ fl + 1 < fl.lowat.toNat) && !fl.starving) = st) : ∃ m,
    execRefill i 1 s = .next { mmioWrite s (fl.tells 1) with
      iq := s.iq.set i (some { q with fl := some { fl with
        pidx := incIdx fl.pidx fl.cap, dbGroups := 0, starving := fl.starving || st
        sdesc := fl.sdesc.set fl.pidx.toNat sd } })
      arena := a, env := e, ring := m, starving := s.starving ++ (if st then [i] else [])
      ret := .refilled 1 st, raised := [] } ∧
    WritesFlits s.ring m (fun _ => flSlotAddr fl fl.pidx.toNat) [entryWord b sd.layout] := by
  have hrun := refill_one hd hm hin hroom hpend hready hbuf hb
  rw [hst] at hrun
  have hbegin : mmioWrite s.begin (fl.tells 1) = { mmioWrite s (fl.tells 1) with ret := .none, raised := [] } :=
    mmioWrite_answered s _ .none []
  obtain ⟨_, _, _, hs⟩ := mmioWrite_state s (fl.tells 1)
  refine ⟨s.ring.putFlit (flSlotAddr fl fl.pidx.toNat) (entryWord b sd.layout),
    (execRefill_ok hp hq hfl hd (by decide) hrun).trans ?_, ?_⟩
  · rw [mmioWrite_stocked, hbegin, hs]
    simp only [State.setIq, State.setRing, State.answer, stocked, setSlot, hpend]
    rfl
  · exact .cons hw ⟨nofun, fun _ _ => rfl⟩ nofun

/-- REFILL of one slot for which there is no buffer. -/
theorem execRefill_none {sd : FreeListSlot} {a : List Buffer} {e : Oracles} (hp : s.panic = false)
    (hq : s.iqAt i = some q) (hfl : q.fl = some fl) (hd : fl.doomed = false) (hroom : incIdx fl.pidx fl.cap ≠ fl.cidx)
    (hpend : fl.pending = 0) (hready : readySlot fl s.begin = .ok (none, sd, stocked s.begin a e)) {st : Bool}
    (hst : (decide (occ fl + 0 < fl.lowat.toNat) && !fl.starving) = st) :
    execRefill i 1 s = .next { s with
      iq := s.iq.set i (some { q with fl := some { fl with
        starving := fl.starving || st, sdesc := fl.sdesc.set fl.pidx.toNat sd } })
      arena := a, env := e, starving := s.starving ++ (if st then [i] else [])
      ret := .refilled 0 st, raised := [.noresourceBuf] } := by
  have hrun := refill_none hd hroom hpend hready
  rw [hst] at hrun
  exact execRefill_ok hp hq hfl hd (by decide) hrun

end Sys2Proof.Machine

namespace Sys2Proof
open Machine

/-- Settles O29: what readies the slot, then one post or none. -/
theorem refillOneSlot : Obligations.RefillOneSlot := by
  intro s i q fl hp hq hfl hd hin hm hpend hroom hw sd size counted starved posted fresh drawn found exhausted failed dropped
  have htells : fl.tells 1 = .word (match fl.dbMech with | .reg => .db | _ => .udb fl.udbAddr) (fl.qid ++ (1 : BitVec 16)) := by
    rw [FreeList.tells, FreeList.register]
    cases fl.dbMech <;> rfl
  have hposted : ∀ sd h b a e, readySlot fl s.begin = .ok (some sd, sd, stocked s.begin a e) → sd.buf = some h →
      (stocked s.begin a e).bufferOf h = some b → posted sd b.base a e := fun sd h b a e hready hbuf hb => by
    obtain ⟨m, hrun, hwrites⟩ := execRefill_one hp hq hfl hd hm hin hroom hpend hw hready hbuf hb rfl
    rw [htells] at hrun
    exact ⟨m, hrun, hwrites⟩
  have hfailed : ∀ sd a rest, readySlot fl s.begin = .ok (none, sd, stocked s.begin a { s.env with zone := rest }) →
      failed sd a rest := fun sd a rest hready => execRefill_none hp hq hfl hd hroom hpend hready rfl
  refine ⟨fun h b hbuf hb hnm h1 => ?_, fun h b hbuf hb hnm h0 h1 => ⟨fun l base rest hfound => ?_, fun rest hex => ?_⟩,
    fun hbuf => ⟨fun l base rest hfound => ?_, fun rest hex => ?_⟩⟩
  · have hcount : (s.begin.setRefcount h 1).bufferOf h = some { b with refcount := 1 } := by
      rw [bufferOf_setRefcount, show s.begin.bufferOf h = some b from hb, Option.map_some, if_pos (bufferOf_some hb).2]
    exact hposted _ h { b with refcount := 1 } _ _ (readySlot_last (s := s.begin) hbuf hb hnm h1) hbuf hcount
  · have hfound' : Found fl (s.begin.setRefcount h (b.refcount - 1)) l base rest :=
      Found.setRefcount (s := s.begin) hfound h (b.refcount - 1)
    have hready := readySlot_given (s := s.begin) hbuf hb hnm h0 h1
    rw [allocateInto_found hfound'] at hready
    exact hposted _ s.env.nextBuf _ _ _ hready rfl (bufferOf_drawn hfound'.2.2)
  · have hex' : Exhausted fl (s.begin.setRefcount h (b.refcount - 1)) rest := hex
    have hready := readySlot_given (s := s.begin) hbuf hb hnm h0 h1
    rw [allocateInto_exhausted hex'] at hready
    exact hfailed _ _ rest hready
  · have hfound' : Found fl s.begin l base rest := hfound
    have hready := readySlot_empty (s := s.begin) hbuf
    rw [allocateInto_found hfound'] at hready
    exact hposted _ s.env.nextBuf _ _ _ hready rfl (bufferOf_drawn hfound'.2.2)
  · have hex' : Exhausted fl s.begin rest := hex
    have hready := readySlot_empty (s := s.begin) hbuf
    rw [allocateInto_exhausted hex'] at hready
    exact hfailed _ _ rest hready

end Sys2Proof
end

section
/-! PROOFS. The credit words of a service call (42_ingress_service R257 to R259). -/

namespace Sys2Proof.Machine

variable {P : Prop} {x : BitVec 12} {s s0 s1 t u : State} {i : Nat} {q q' q1 : IngressQueue} {f0 f1 : Flit}

/-! ## What names a queue -/

/-- The write is a credit word of the queue (30_encoding R141). -/
def Names (x : BitVec 12) (w : MmioWrite) : Prop := ∃ v, w = .word .icw v ∧ v.extractLsb' 20 12 = x

theorem creditsOf_append (a b : List MmioWrite) : creditsOf x (a ++ b) = creditsOf x a ++ creditsOf x b :=
  List.filterMap_append

theorem creditsOf_unnamed {ws : List MmioWrite} (h : ∀ w ∈ ws, ¬ Names x w) : creditsOf x ws = [] := by
  refine List.filterMap_eq_nil_iff.mpr fun w hw => ?_
  have hn := h w hw
  cases w with
  | word reg v =>
    cases reg with
    | icw => exact if_neg fun hv => hn ⟨v, rfl, hv⟩
    | db | udb => rfl
  | burst a fs => rfl

theorem tells_unnamed (fl : FreeList) (k : BitVec 16) : ¬ Names x (fl.tells k) := fun ⟨v, hv, _⟩ => by
  rw [FreeList.tells, MmioWrite.word.injEq] at hv
  exact doorbellReg_ne_icw _ _ hv.1

/-! ## Operations that write no credit of a queue -/

/-- What no operation of a service call changes of a stored context, as other queues are found by it. -/
def identity (q : IngressQueue) : BitVec 12 × Role × Bool := (q.qid, q.role, q.live)

/-- The stored contexts keep their identities. -/
def KeepsIds (s t : State) : Prop := ∀ j, (t.iqAt j).map identity = (s.iqAt j).map identity

theorem KeepsIds.of_iq (h : t.iq = s.iq) : KeepsIds s t := fun j => by rw [State.iqAt, h]; rfl

theorem KeepsIds.trans (h : KeepsIds s t) (h' : KeepsIds t u) : KeepsIds s u := fun j => (h' j).trans (h j)

theorem KeepsIds.find (h : KeepsIds s t) {j : Nat} {y : IngressQueue} (hy : t.iqAt j = some y) :
    ∃ y0, s.iqAt j = some y0 ∧ identity y0 = identity y := by
  have hj := h j
  rw [hy] at hj
  exact Option.map_eq_some_iff.mp hj.symm

theorem KeepsIds.setIq {j : Nat} {y y' : IngressQueue} (hy : s.iqAt j = some y) (h : identity y' = identity y) :
    KeepsIds s (s.setIq j y') := fun k => by
  by_cases hk : j = k
  · rw [← hk, State.setIq_iqAt_same _ j y' y hy, hy]
    exact congrArg some h
  · rw [State.setIq_iqAt_other _ j k y' hk]

/-- From `s` to `t` no credit of queue `x` is written, if `P`; and the stored contexts keep their identities. -/
structure Quiet (P : Prop) (x : BitVec 12) (s t : State) : Prop where
  ids : KeepsIds s t
  mmio : ∃ ws, t.mmio = s.mmio ++ ws ∧ (P → ∀ w ∈ ws, ¬ Names x w)

theorem Quiet.of_same (hiq : t.iq = s.iq) (hm : t.mmio = s.mmio) : Quiet P x s t :=
  ⟨.of_iq hiq, [], by rw [hm, List.append_nil], fun _ => nofun⟩

theorem Quiet.trans (h : Quiet P x s t) (h' : Quiet P x t u) : Quiet P x s u := by
  obtain ⟨hids, ws, hm, hw⟩ := h
  obtain ⟨hids', ws', hm', hw'⟩ := h'
  refine ⟨hids.trans hids', ws ++ ws', by rw [hm', hm, List.append_assoc], fun hP w hmem => ?_⟩
  exact (List.mem_append.mp hmem).elim (hw hP w) (hw' hP w)

/-! ## REFILL -/

/-- From `s` to `t` only doorbell words are written, and no ingress context. -/
def OnlyDoorbells (s t : State) : Prop :=
  t.iq = s.iq ∧ ∃ ws, t.mmio = s.mmio ++ ws ∧ ∀ w ∈ ws, ∀ x, ¬ Names x w

theorem OnlyDoorbells.trans (h : OnlyDoorbells s t) (h' : OnlyDoorbells t u) : OnlyDoorbells s u := by
  obtain ⟨hiq, ws, hm, hw⟩ := h
  obtain ⟨hiq', ws', hm', hw'⟩ := h'
  exact ⟨hiq'.trans hiq, ws ++ ws', by rw [hm', hm, List.append_assoc], fun w hmem =>
    (List.mem_append.mp hmem).elim (hw w) (hw' w)⟩

theorem OnlyDoorbells.of_same (hiq : t.iq = s.iq) (hm : t.mmio = s.mmio) : OnlyDoorbells s t :=
  ⟨hiq, [], by rw [hm, List.append_nil], nofun⟩

theorem OnlyDoorbells.quiet (h : OnlyDoorbells s t) : Quiet P x s t := by
  obtain ⟨hiq, ws, hm, hw⟩ := h
  exact ⟨.of_iq hiq, ws, hm, fun _ w hmem => hw w hmem x⟩

theorem onlyDoorbells_words {ws : List MmioWrite} (h : ∀ w ∈ ws, ∀ x, ¬ Names x w) :
    OnlyDoorbells s (ws.foldl mmioWrite s) := by
  obtain ⟨df, di, de, hs⟩ := mmioWrites_state id ws s
  exact ⟨mmioWrites_iq ws s, ws, (congrArg State.mmio hs : _).trans (by rw [List.map_id]), h⟩

theorem notifyFl_doorbells {fl fl' : FreeList} (h : notifyFl fl s = .ok (fl', t)) : OnlyDoorbells s t := by
  have hd : fl.doomed = false := (notifyFl_ok h).1
  rw [notifyFl_eq hd] at h
  cases h
  refine onlyDoorbells_words fun w hw x => ?_
  obtain ⟨k, -, rfl⟩ := mem_notifyWords hw
  exact tells_unnamed fl k

theorem countPost_doorbells {fl fl' : FreeList} (h : countPost fl s = .ok (fl', t)) : OnlyDoorbells s t := by
  rw [countPost] at h
  dsimp only at h
  split at h
  · split at h
    · exact notifyFl_doorbells h
    · cases h; exact .of_same rfl rfl
  · cases h; exact .of_same rfl rfl

theorem refillLoop_doorbells {n k p : Nat} {fl fl' : FreeList} (h : refillLoop n fl s k = .ok (fl', t, p)) :
    OnlyDoorbells s t := by
  induction n generalizing fl s k with
  | zero => cases h; exact .of_same rfl rfl
  | succ n ih =>
    rw [refillLoop] at h
    split at h
    · cases h; exact .of_same rfl rfl
    · obtain ⟨⟨r, sd, s1⟩, hready, h⟩ := Res.bind_eq_ok.mp h
      obtain ⟨a, e, rfl⟩ := readySlot_ok hready
      cases r with
      | none => cases h; exact .of_same rfl rfl
      | some sd' =>
        obtain ⟨s2, hpost, h⟩ := Res.bind_eq_ok.mp h
        obtain ⟨m, rfl, -⟩ := postEntry_ok hpost
        obtain ⟨⟨fl3, s3⟩, hcount, h⟩ := Res.bind_eq_ok.mp h
        exact (OnlyDoorbells.of_same rfl rfl).trans ((countPost_doorbells hcount).trans (ih h))

theorem refill_doorbells {n p : Nat} {fl fl' : FreeList} {st : Bool} (h : refill n fl s = .ok (fl', t, p, st)) :
    OnlyDoorbells s t := by
  rw [refill] at h
  split at h
  · cases h
  · obtain ⟨⟨fl1, s1, p1⟩, hloop, h⟩ := Res.bind_eq_ok.mp h
    obtain ⟨⟨fl2, s2⟩, hnot, h⟩ := Res.bind_eq_ok.mp h
    cases h
    exact (refillLoop_doorbells hloop).trans (notifyFl_doorbells hnot)

theorem endService_quiet_words {r r' : Bool} (h : endService i r q s = .ok (q', t, r')) : Quiet P x s t := by
  obtain ⟨⟨q2, s2⟩, hrefill, h⟩ := Res.bind_eq_ok.mp h
  cases h
  have hflush : OnlyDoorbells s (lroFlush q s).2 := by
    unfold lroFlush
    split <;> exact .of_same rfl rfl
  refine (hflush.trans ?_).quiet
  unfold refillIfLow at hrefill
  split at hrefill
  · cases hrefill; exact .of_same rfl rfl
  · split at hrefill
    · obtain ⟨⟨fl1, s1, p, st⟩, hrun, hrefill⟩ := Res.bind_eq_ok.mp hrefill
      dsimp only at hrefill
      rw [registerStarving_eq] at hrefill
      cases hrefill
      exact (refill_doorbells hrun).trans (.of_same rfl rfl)
    · cases hrefill; exact .of_same rfl rfl

/-! ## The arms of the dispatch -/

theorem judgeFrame_quiet {e : RxEntry} {f : LogicalFrame} (h : judgeFrame e f0 f1 f q s = .ok (q', t)) : Quiet P x s t := by
  unfold judgeFrame at h
  split at h
  · obtain ⟨s1, hrel, h⟩ := Res.bind_eq_ok.mp h
    cases h
    obtain ⟨a, hp, rfl⟩ := releaseAll_ok hrel
    exact .of_same rfl rfl
  · split at h
    · obtain ⟨s1, hrel, h⟩ := Res.bind_eq_ok.mp h
      cases h
      obtain ⟨a, hp, rfl⟩ := releaseAll_ok hrel
      exact .of_same rfl rfl
    · rw [deliver_eq] at h
      cases h
      exact .of_same rfl rfl

theorem dispatchRx_quiet {e : RxEntry} {b : Bool} (h : dispatchRx e f0 f1 q s = .ok (b, q', t)) : Quiet P x s t := by
  unfold dispatchRx at h
  split at h
  · cases h; exact .of_same rfl rfl
  · split at h
    · cases h; exact .of_same rfl rfl
    · obtain ⟨⟨r, fl', s1⟩, hrun, h⟩ := Res.bind_eq_ok.mp h
      obtain ⟨-, a, hp, e, es, rfl⟩ := consumeFrame_ok hrun
      refine .trans (t := { s with arena := a, heap := hp, env := e, raised := s.raised ++ es }) (.of_same rfl rfl) ?_
      cases r with
      | none => cases h; exact .of_same rfl rfl
      | some f =>
        obtain ⟨⟨q2, s2⟩, hj, h⟩ := Res.bind_eq_ok.mp h
        cases h
        exact judgeFrame_quiet hj

theorem egrUpdate_quiet {eqid : BitVec 16} (h : egrUpdate eqid f0 f1 q s = .ok (q', t)) : Quiet P x s t := by
  unfold egrUpdate at h
  split at h
  · cases h; exact .of_same rfl rfl
  · split at h
    · cases h; exact .of_same rfl rfl
    · obtain ⟨⟨e1, s1, d, c⟩, hrun, h⟩ := Res.bind_eq_ok.mp h
      cases h
      obtain ⟨o, l, rfl, -⟩ := reclaim_frame hrun
      exact .of_same rfl rfl

theorem dispatchOob_quiet (op : BitVec 8) : Quiet P x s (dispatchOob op f0 f1 q s).2 := by
  unfold dispatchOob
  split <;> exact .of_same rfl rfl

/-- A forwarded-interrupt arm that writes no credit of queue `x`, in the service of `q` from `s0`. -/
def FwdQuiet (P : Prop) (x : BitVec 12) (s0 : State) (q : IngressQueue) (fwd : FwdArm) : Prop :=
  ∀ n f0 f1 q1 q2 s s', KeepsIds s0 s → IngressSame q q1 → fwd n f0 f1 q1 s = .ok (q2, s') → Quiet P x s s'

theorem dispatch_quiet {fwd : FwdArm} {b : Bool} (hf : FwdQuiet P x s0 q fwd) (hs : KeepsIds s0 s) (hq : IngressSame q q1)
    (h : dispatch fwd f0 f1 q1 s = .ok (b, q', t)) : Quiet P x s t := by
  unfold dispatch afterGenCheck at h
  split at h
  · cases h; exact .of_same rfl rfl
  · unfold dispatchTyped at h
    split at h
    · exact dispatchRx_quiet h
    · obtain ⟨⟨q2, s2⟩, hrun, h⟩ := Res.bind_eq_ok.mp h
      cases h
      exact egrUpdate_quiet hrun
    · cases h; exact dispatchOob_quiet _
    · obtain ⟨⟨q2, s2⟩, hrun, h⟩ := Res.bind_eq_ok.mp h
      cases h
      exact hf _ _ _ _ _ _ _ hs hq hrun
    · cases h; exact .of_same rfl rfl

/-! ## The service call -/

/-- From `s` to `t` a service of `q` writes one credit word of `n` entries, and of queue `x` no other; or none, when a frame
ended it at the first entry (42_ingress_service R251, R258, R259). -/
def Credited (P : Prop) (x : BitVec 12) (q : IngressQueue) (done : Bool) (n : Nat) (s t : State) : Prop :=
  (done = false ∧ n = 0 ∧ Quiet P x s t) ∨
    ∃ ti ce ws ws', KeepsIds s t ∧
      t.mmio = s.mmio ++ (ws ++ .word .icw (q.qid ++ ti ++ BitVec.ofBool ce ++ BitVec.ofNat 16 n) :: ws') ∧
      (P → ∀ w ∈ ws ++ ws', ¬ Names x w) ∧ (done = true → ti = q.timerIdx ∧ ce = q.cntEn) ∧
      (done = false → ti = 7 ∧ ce = false)

theorem Credited.after {done : Bool} {n : Nat} (h : Quiet P x s s1) (hc : Credited P x q done n s1 t) :
    Credited P x q done n s t := by
  obtain ⟨hd, hn, hquiet⟩ | ⟨ti, ce, ws, ws', hids, hm, hw, hdone, hmore⟩ := hc
  · exact .inl ⟨hd, hn, h.trans hquiet⟩
  · obtain ⟨hids0, ws0, hm0, hw0⟩ := h
    refine .inr ⟨ti, ce, ws0 ++ ws, ws', hids0.trans hids, by rw [hm, hm0]; simp only [List.append_assoc], fun hP w hmem => ?_,
      hdone, hmore⟩
    rw [List.append_assoc] at hmem
    exact (List.mem_append.mp hmem).elim (hw0 hP w) (hw hP w)

/-- A credit word and the end of the call. -/
theorem credited_end {done r : Bool} {n : Nat} {ti : BitVec 3} {ce : Bool}
    (h : endService i done q (writeCredit s q.qid ti ce n) = .ok (q', t, r))
    (hdone : done = true → ti = q.timerIdx ∧ ce = q.cntEn) (hmore : done = false → ti = 7 ∧ ce = false) :
    Credited P x q r n s t := by
  obtain ⟨hids, ws', hm, hw⟩ := endService_quiet_words (P := P) (x := x) h
  obtain rfl := (endService_ok h).2
  obtain ⟨_, _, _, hs⟩ := mmioWrite_state s (.word .icw (encodeIcw ⟨q.qid, ti, ce, BitVec.ofNat 16 n⟩))
  have hcredit : (writeCredit s q.qid ti ce n).mmio =
      s.mmio ++ [.word .icw (q.qid ++ ti ++ BitVec.ofBool ce ++ BitVec.ofNat 16 n)] := congrArg State.mmio hs
  refine .inr ⟨ti, ce, [], ws', (KeepsIds.of_iq (mmioWrite_iq s _)).trans hids, ?_, hw, hdone, hmore⟩
  rw [hm, hcredit, List.append_assoc]
  rfl

/-- The generation after `n` entries: inverted each time the cursor wraps (42_ingress_service R257). -/
theorem gen_succ {c n cap : Nat} {g : Bool} (hc : c < cap) :
    ((if (c + 1) % cap = 0 then !g else g) ^^ decide (((c + 1) % cap + n) / cap % 2 = 1)) =
      (g ^^ decide ((c + (n + 1)) / cap % 2 = 1)) := by
  by_cases hwrap : c + 1 = cap
  · have hdiv : (c + (n + 1)) / cap = n / cap + 1 := by
      rw [show c + (n + 1) = n + cap by omega, Nat.add_div_right n (by omega)]
    rw [hwrap, Nat.mod_self, if_pos rfl, Nat.zero_add, hdiv]
    have hpar : decide ((n / cap + 1) % 2 = 1) = !decide (n / cap % 2 = 1) := by
      rw [← decide_not]
      exact decide_eq_decide.mpr (by omega)
    rw [hpar]
    cases g <;> cases decide (n / cap % 2 = 1) <;> rfl
  · rw [Nat.mod_eq_of_lt (show c + 1 < cap by omega), if_neg (Nat.succ_ne_zero c), Nat.add_assoc, Nat.add_comm 1 n]

/-- The queue's cursor and generation after `n` entries. -/
def PassedBy (q q' : IngressQueue) (n : Nat) : Prop :=
  q'.cidx = addTo q.cidx q.cap n ∧ q'.gen = (q.gen ^^ decide ((q.cidx.toNat + n) / q.cap.toNat % 2 = 1))

theorem PassedBy.zero (hc : q.cidx < q.cap) (h1 : q'.cidx = q.cidx) (h2 : q'.gen = q.gen) : PassedBy q q' 0 := by
  have hlt : q.cidx.toNat < q.cap.toNat := hc
  refine ⟨h1.trans (addTo_zero hc).symm, ?_⟩
  rw [h2, Nat.add_zero, Nat.div_eq_of_lt hlt]
  exact (Bool.xor_false _).symm

theorem PassedBy.succ {n : Nat} (hc : q.cidx < q.cap) (h1 : q1.cidx = q.cidx) (h2 : q1.gen = q.gen) (h3 : q1.cap = q.cap)
    (h : PassedBy (advanceCursor q1) q' n) : PassedBy q q' (n + 1) := by
  obtain ⟨hcidx, hgen⟩ := h
  have hpos : 0 < q.cap.toNat := Nat.lt_of_le_of_lt (Nat.zero_le _) hc
  have hadv : (advanceCursor q1).cidx = incIdx q.cidx q.cap ∧ (advanceCursor q1).cap = q.cap ∧
      (advanceCursor q1).gen = genAfter q.gen (incIdx q.cidx q.cap) := by
    rw [advanceCursor, h1, h2, h3]
    exact ⟨rfl, rfl, rfl⟩
  obtain ⟨ha1, ha2, ha3⟩ := hadv
  rw [ha1, ha2, incIdx_eq_addTo, addTo_addTo 1 n hpos, Nat.add_comm 1 n] at hcidx
  refine ⟨hcidx, ?_⟩
  rw [hgen, ha1, ha2, ha3, genAfter_incIdx hc, incIdx_toNat hc]
  exact gen_succ hc

theorem Credited.of_same {done : Bool} {n : Nat} (h : IngressSame q q1) (hc : Credited P x q1 done n s t) :
    Credited P x q done n s t := by
  have hid : q1.qid = q.qid := by rw [h]
  have htimer : q1.timerIdx = q.timerIdx := by rw [h]
  have hcnt : q1.cntEn = q.cntEn := by rw [h]
  unfold Credited at *
  rwa [hid, htimer, hcnt] at hc

/-- The loop of SERVICE: the entries passed, at most the budget, and the one credit word for all of them. -/
theorem serviceLoop_credits {fwd : FwdArm} {left nd : Nat} {r : Bool} (hok : FwdOk fwd) (hf : FwdQuiet P x s0 q fwd)
    (hs : KeepsIds s0 s) (hq : IngressSame q q1) (h : serviceLoop fwd i left nd q1 s = .ok (q', t, r)) :
    ∃ n, n ≤ left ∧ (q1.cidx < q1.cap → PassedBy q1 q' n) ∧ Credited P x q r (nd + n) s t := by
  induction left generalizing nd q1 s with
  | zero =>
    obtain ⟨⟨-, hcidx, hgen, -⟩, -⟩ := endService_ok h
    exact ⟨0, le_rfl, fun hc => .zero hc hcidx hgen, (credited_end h nofun fun _ => ⟨rfl, rfl⟩).of_same hq⟩
  | succ left ih =>
    unfold serviceLoop at h
    obtain ⟨f1, -, h⟩ := Res.bind_eq_ok.mp h
    split at h
    · obtain ⟨f0, -, h⟩ := Res.bind_eq_ok.mp h
      obtain ⟨⟨adv, q2, s2⟩, hrun, h⟩ := Res.bind_eq_ok.mp h
      obtain ⟨hsame, hcidx, hgen, -⟩ := dispatch_ok hok hrun
      have hquiet : Quiet P x s s2 := dispatch_quiet hf hs hq hrun
      have hcap : q2.cap = q1.cap := by rw [hsame]
      dsimp only at h
      split at h
      · obtain ⟨n, hn, hpassed, hcred⟩ := ih (hs.trans hquiet.ids)
          (hq.trans (hsame.trans (rfl : IngressSame q2 (advanceCursor q2)))) h
        refine ⟨n + 1, by omega, fun hc => (hpassed ?_).succ hc hcidx hgen hcap, ?_⟩
        · rw [advanceCursor, hcidx, hcap]
          exact addTo_lt 1 (Nat.lt_of_le_of_lt (Nat.zero_le _) hc)
        · rw [show nd + (n + 1) = nd + 1 + n by omega]
          exact hcred.after hquiet
      · obtain ⟨⟨hsame', hcidx', hgen', -⟩, hr⟩ := endService_ok h
        refine ⟨0, Nat.zero_le _, fun hc => .zero hc (hcidx'.trans hcidx) (hgen'.trans hgen), ?_⟩
        by_cases hnd : 0 < nd
        · rw [frameIncomplete, if_pos hnd] at h
          exact ((credited_end h nofun fun _ => ⟨rfl, rfl⟩).of_same (hq.trans hsame)).after hquiet
        · rw [frameIncomplete, if_neg hnd] at h
          exact .inl ⟨hr, by omega, hquiet.trans (endService_quiet_words h)⟩
    · obtain ⟨⟨-, hcidx, hgen, -⟩, -⟩ := endService_ok h
      exact ⟨0, Nat.zero_le _, fun hc => .zero hc hcidx hgen, (credited_end h (fun _ => ⟨rfl, rfl⟩) nofun).of_same hq⟩

/-! ## Forwarded interrupts -/

theorem fwdNested_quiet : FwdQuiet P x s0 q fwdNested := fun _ _ _ _ _ _ _ _ _ h => by
  cases h
  exact .of_same rfl rfl

/-- A credit word of another queue is none of queue `x`. -/
theorem Credited.quiet {done : Bool} {n : Nat} (h : Credited P x q done n s t) (hne : P → q.qid ≠ x) : Quiet P x s t := by
  obtain ⟨-, -, hquiet⟩ | ⟨ti, ce, ws, ws', hids, hm, hw, -⟩ := h
  · exact hquiet
  · refine ⟨hids, _, hm, fun hP w hmem => ?_⟩
    obtain hmem | hmem := List.mem_append.mp hmem
    · exact hw hP w (List.mem_append_left _ hmem)
    · obtain rfl | hmem := List.mem_cons.mp hmem
      · rintro ⟨v, hv, hx⟩
        obtain ⟨-, rfl⟩ := MmioWrite.word.inj hv
        exact hne hP ((encodeIcw_iqid ⟨q.qid, ti, ce, BitVec.ofNat 16 n⟩).symm.trans hx)
      · exact hw hP w (List.mem_append_right _ hmem)

/-- The child that a forwarded-interrupt entry names is a live Forwarded queue. -/
theorem childByQid_found {p n : BitVec 12} {j : Nat} (h : s.childByQid p n = some j) :
    ∃ y, s.iqAt j = some y ∧ y.role = .forwarded ∧ y.live = true := by
  obtain ⟨y, hy, hp⟩ := (indicesOf_mem _ _ _).mp (List.mem_of_head? h)
  simp only [Bool.and_eq_true, decide_eq_true_eq] at hp
  obtain ⟨⟨⟨-, hrole⟩, -⟩, hlive⟩ := hp
  exact ⟨y, hy, hrole, hlive⟩

/-- The service of a child writes credits of the child. -/
theorem serviceNested_quiet {j b : Nat} {y y' : IngressQueue} {r : Bool} (hy : s.iqAt j = some y) (hidle : y.state = .idle)
    (hne : P → y.qid ≠ x) (h : serviceNested j b { y with state := .busy } s = .ok (y', t, r)) :
    Quiet P x s ((finishService t j y' r).2.setIq j (finishService t j y' r).1) := by
  obtain ⟨n, -, -, hcred⟩ := serviceLoop_credits (P := P) (x := x) (s0 := s) fwdNested_ok fwdNested_quiet (.of_iq rfl)
    (.refl _) h
  obtain ⟨hsame, -⟩ := serviceLoop_ok fwdNested_ok h
  have hquiet := hcred.quiet hne
  obtain ⟨z, hz, hzid⟩ := Option.map_eq_some_iff.mp ((hquiet.ids j).trans (congrArg (Option.map identity) hy))
  rw [finishService_eq]
  refine hquiet.trans (.trans (t := { t with worklist := t.worklist ++ if r then [] else [j] }) (.of_same rfl rfl) ?_)
  refine ⟨.setIq (y := z) hz (Eq.trans ?_ hzid.symm), [], (List.append_nil _).symm, fun _ => nofun⟩
  rw [hsame]
  have hlive : y.live = true := by
    rw [IngressQueue.live, hidle]
    rfl
  rw [identity, identity, hlive]
  cases r <;> rfl

/-- A forwarder that no other live queue shares its identifier with services a child of another identifier. -/
theorem dispatchFwd_quiet {b : Nat} (hq : s0.iqAt i = some q) (hrole : q1.role = q.role) :
    FwdQuiet (AloneIq s0 i q) q.qid s0 q1 (dispatchFwd b) := by
  intro n f0 f1 q2 q3 s t hs hsame h
  have hrole2 : q2.role = q.role := by rw [hsame]; exact hrole
  unfold dispatchFwd at h
  split at h
  · cases h; exact .of_same rfl rfl
  next hfwd =>
    split at h
    · cases h; exact .of_same rfl rfl
    next j hj =>
      obtain ⟨y, hy, hyrole, hlive⟩ := childByQid_found hj
      rw [hy, Option.bind_some] at h
      unfold enterService casIdle at h
      split at h
      · cases h; exact .of_same rfl rfl
      next y' hy' =>
        split at hy'
        next hidle =>
          cases hy'
          obtain ⟨⟨t1, s1, r⟩, hrun, h⟩ := Res.bind_eq_ok.mp h
          cases h
          refine serviceNested_quiet hy hidle (fun halone => ?_) hrun
          obtain ⟨y0, hy0, hid⟩ := hs.find hy
          obtain ⟨hqid, hrole0, hlive0⟩ : y0.qid = y.qid ∧ y0.role = y.role ∧ y0.live = y.live := by
            simpa only [identity, Prod.mk.injEq] using hid
          rw [← hqid]
          refine halone j y0 (fun hji => ?_) hy0 (of_decide_eq_true (hlive0.trans hlive))
          rw [hji, hq] at hy0
          cases hy0
          rw [hrole2, hrole0, hyrole] at hfwd
          exact hfwd nofun
        · cases hy'

end Sys2Proof.Machine
end

section
/-! PROOFS. What a service call passes, and how its queue is left (42_ingress_service R250, R251, R257, R262). -/

namespace Sys2Proof.Machine

variable {s t u v : State} {i b : Nat} {q q' q1 : IngressQueue} {r : Bool}

/-! ## The service call -/

/-- The writes of a service call of `q` that passed `n` entries: the credits of all in one word, or none when a frame ended it
at the first entry (42_ingress_service R258, R259). -/
def CreditsReturned (s : State) (i : Nat) (q : IngressQueue) (done : Bool) (n : Nat) (ws : List MmioWrite) : Prop :=
  (done = false ∧ n = 0 ∧ (AloneIq s i q → creditsOf q.qid ws = [])) ∨
    ∃ ti ce, .word .icw (q.qid ++ ti ++ BitVec.ofBool ce ++ BitVec.ofNat 16 n) ∈ ws ∧
      (AloneIq s i q → creditsOf q.qid ws = [q.qid ++ ti ++ BitVec.ofBool ce ++ BitVec.ofNat 16 n]) ∧
      (done = true → ti = q.timerIdx ∧ ce = q.cntEn) ∧ (done = false → ti = 7 ∧ ce = false)

theorem creditsOf_word (x : BitVec 12) (ti : BitVec 3) (ce : Bool) (n : Nat) :
    creditsOf x [.word .icw (x ++ ti ++ BitVec.ofBool ce ++ BitVec.ofNat 16 n)] =
      [x ++ ti ++ BitVec.ofBool ce ++ BitVec.ofNat 16 n] := by
  have hid : (x ++ ti ++ BitVec.ofBool ce ++ BitVec.ofNat 16 n).extractLsb' 20 12 = x :=
    encodeIcw_iqid ⟨x, ti, ce, BitVec.ofNat 16 n⟩
  rw [creditsOf, List.filterMap_cons]
  dsimp only
  rw [if_pos hid]
  rfl

theorem Credited.returned {n : Nat} (h : Credited (AloneIq s i q) q.qid q r n s t) :
    ∃ ws, t.mmio = s.mmio ++ ws ∧ CreditsReturned s i q r n ws := by
  obtain ⟨hr, hn, -, ws, hm, hw⟩ | ⟨ti, ce, ws, ws', -, hm, hw, hdone, hmore⟩ := h
  · exact ⟨ws, hm, .inl ⟨hr, hn, fun ha => creditsOf_unnamed (hw ha)⟩⟩
  · refine ⟨_, hm, .inr ⟨ti, ce, List.mem_append_right _ List.mem_cons_self, fun ha => ?_, hdone, hmore⟩⟩
    have hun := hw ha
    rw [creditsOf_append, ← List.singleton_append, creditsOf_append, creditsOf_word,
      creditsOf_unnamed fun w hmem => hun w (List.mem_append_left _ hmem),
      creditsOf_unnamed fun w hmem => hun w (List.mem_append_right _ hmem)]
    rfl

theorem Credited.ids {P : Prop} {x : BitVec 12} {n : Nat} (h : Credited P x q r n s t) : KeepsIds s t := by
  obtain ⟨-, -, hquiet⟩ | ⟨_, _, _, _, hids, -⟩ := h
  · exact hquiet.ids
  · exact hids

/-- A service call that completes. -/
theorem service_passes (hq : s.iqAt i = some q) (h : service i b { q with state := .busy } s = .ok (q', t, r)) :
    IngressSame { q with state := .busy } q' ∧ KeepsIds s t ∧ (∃ l, t.worklist = s.worklist ++ l) ∧
      ∃ n, n ≤ b ∧ (q.cidx < q.cap → PassedBy q q' n) ∧
        ∃ ws, t.mmio = s.mmio ++ ws ∧ CreditsReturned s i q r n ws := by
  obtain ⟨n, hn, hpassed, hcred⟩ := serviceLoop_credits (P := AloneIq s i q) (x := q.qid) (s0 := s)
    (q := { q with state := .busy }) (dispatchFwd_ok b) (dispatchFwd_quiet hq rfl) (.of_iq rfl) (.refl _) h
  obtain ⟨hsame, ⟨⟨_, _, l, hframe⟩, -⟩, -⟩ := service_ok h
  rw [Nat.zero_add] at hcred
  have hcred' : Credited (AloneIq s i q) q.qid q r n s t := hcred
  exact ⟨hsame, hcred.ids, ⟨l, congrArg State.worklist hframe⟩, n, hn, hpassed, hcred'.returned⟩

/-! ## How a command leaves the queue -/

/-- The queue after a command that serviced it: what was passed and credited, and its state. -/
def Passes (s t : State) (i b : Nat) (q : IngressQueue) (state : IqState) : Prop :=
  ∃ q' n, t.iqAt i = some q' ∧ n ≤ b ∧ q'.state = state ∧ q'.cidx = addTo q.cidx q.cap n ∧
    q'.gen = (q.gen ^^ decide ((q.cidx.toNat + n) / q.cap.toNat % 2 = 1)) ∧
    ∃ ws, t.mmio = s.mmio ++ ws ∧ ((t.ret = .more ∧ n = 0 ∧ (AloneIq s i q → creditsOf q.qid ws = [])) ∨ ∃ ti ce,
      .word .icw (q.qid ++ ti ++ BitVec.ofBool ce ++ BitVec.ofNat 16 n) ∈ ws ∧
        (AloneIq s i q → creditsOf q.qid ws = [q.qid ++ ti ++ BitVec.ofBool ce ++ BitVec.ofNat 16 n]) ∧
        (t.ret = .done → ti = q.timerIdx ∧ ce = q.cntEn) ∧ (t.ret = .more → ti = 7 ∧ ce = false))

theorem serviceRet_more : serviceRet r = .more ↔ r = false := by cases r <;> simp [serviceRet]

theorem serviceRet_done : serviceRet r = .done ↔ r = true := by cases r <;> simp [serviceRet]

/-- A command that ends with the service's result, the queue's context written. -/
theorem passes_of_service (hq : s.iqAt i = some q) (hc : q.cidx < q.cap)
    (h : service i b { q with state := .busy } s = .ok (q', t, r)) (hiq : u.iq = t.iq) (hm : u.mmio = t.mmio)
    {x : IngressQueue} (hx : x.cidx = q'.cidx ∧ x.gen = q'.gen) :
    Passes s ((u.setIq i x).answer (serviceRet r)) i b q x.state := by
  obtain ⟨-, hids, -, n, hn, hpassed, ws, hws, hcred⟩ := service_passes hq h
  obtain ⟨hcidx, hgen⟩ := hpassed hc
  obtain ⟨w, hw, -⟩ := Option.map_eq_some_iff.mp ((hids i).trans (congrArg (Option.map identity) hq))
  have hstored : u.iqAt i = some w := by
    rw [State.iqAt, hiq]
    exact hw
  refine ⟨x, n, State.setIq_iqAt_same u i x w hstored, hn, rfl, hx.1.trans hcidx, hx.2.trans hgen, ws, hm.trans hws, ?_⟩
  obtain ⟨hr, hn0, hnone⟩ | ⟨ti, ce, hmem, hone, hdone, hmore⟩ := hcred
  · exact .inl ⟨serviceRet_more.mpr hr, hn0, hnone⟩
  · exact .inr ⟨ti, ce, hmem, hone, fun hret => hdone (serviceRet_done.mp hret), fun hret => hmore (serviceRet_more.mp hret)⟩

/-- SERVICE and `finish`, from a state with the queue's context as it was before it was Busy. -/
theorem serviceAndFinish_passes {x : IngressQueue} {ret : Ret} (hq : s.iqAt i = some q) (hc : q.cidx < q.cap)
    (h : serviceAndFinish i { q with state := .busy } s = .ok (x, t, ret)) :
    Passes s ((t.setIq i x).answer ret) i q.budget.toNat q (if ret = .done then .idle else .busy) ∧
      ∃ l, t.worklist = s.worklist ++ l ++ if ret = .more then [i] else [] := by
  obtain ⟨⟨q', u, r⟩, hrun, h⟩ := Res.bind_eq_ok.mp h
  dsimp only at h
  rw [finishService_eq] at h
  cases h
  obtain ⟨hsame, -, ⟨l, hl⟩, -⟩ := service_passes hq hrun
  have hstate : q'.state = .busy := by rw [hsame]
  have hpass := passes_of_service hq hc hrun (u := { u with worklist := u.worklist ++ if r then [] else [i] }) rfl rfl
    (x := { q' with state := if r then .idle else q'.state }) ⟨rfl, rfl⟩
  refine ⟨?_, l, ?_⟩
  · rw [hstate] at *
    cases r <;> exact hpass
  · rw [hl]
    cases r <;> rfl

end Sys2Proof.Machine
end

section
/-! PROOFS. The commands that service a queue: what they pass, and how they leave the queue (42_ingress_service R250, R251,
R262). -/

namespace Sys2Proof.Machine

variable {s t : State} {i : Nat} {q : IngressQueue}

/-- A command that returned what a service returns completed. -/
theorem runQe_serviced {body : State → Res (State × Ret)} (h : runQe s body = .next t)
    (hret : t.ret = .done ∨ t.ret = .more) : ∃ u r, body s.begin = .ok (u, r) ∧ t = u.answer r := by
  obtain ⟨-, hok | ⟨e, -, rfl⟩ | ⟨-, rfl⟩⟩ := runQe_next h
  · exact hok
  · exact absurd hret (by rintro (h | h) <;> cases h)
  · exact absurd hret (by rintro (h | h) <;> cases h)

/-- What a command that serviced the queue did, from the operation on the queue that completed. -/
theorem runQe_onIq_serviced {f : State → IngressQueue → Res (IngressQueue × State × Ret)} (hq : s.iqAt i = some q)
    (h : runQe s (fun u => onIq u i (f u)) = .next t) (hret : t.ret = .done ∨ t.ret = .more) :
    ∃ q' u r, f s.begin q = .ok (q', u, r) ∧ t = (u.setIq i q').answer r := by
  obtain ⟨u, r, hrun, rfl⟩ := runQe_serviced h hret
  obtain ⟨q0, q', u', hq0, hf, rfl⟩ := onIq_ok hrun
  cases hq.symm.trans hq0
  exact ⟨q', u', r, hf, rfl⟩

theorem setState_busy (h : q.state = .busy) : ({ q with state := .busy } : IngressQueue) = q := by rw [← h]

theorem execService_passes {b : BitVec 16} (hq : s.iqAt i = some q) (hc : q.cidx < q.cap) (hret : t.ret = .done ∨ t.ret = .more)
    (h : execService i b s = .next t) : Passes s t i b.toNat q .busy := by
  obtain ⟨q', u, r, hrun, rfl⟩ := runQe_onIq_serviced hq h hret
  split at hrun
  · cases hrun
  · split at hrun
    · cases hrun
    next hbusy =>
      have hb : q.state = .busy := by
        by_contra hne
        exact hbusy (Bool.or_eq_true_iff.mpr (.inl (decide_eq_true hne)))
      obtain ⟨⟨x, v, done⟩, hserve, hrun⟩ := Res.bind_eq_ok.mp hrun
      cases hrun
      rw [← setState_busy hb] at hserve
      obtain ⟨hsame, -⟩ := service_passes (s := s.begin) hq hserve
      have hpass := passes_of_service (s := s.begin) hq hc hserve rfl rfl ⟨rfl, rfl⟩
      rwa [show q'.state = .busy by rw [hsame]] at hpass

/-- How a command that ends with `finish` leaves the queue and the worklist, which was `rest` without it. -/
def Finished (s t : State) (i : Nat) (q : IngressQueue) (rest : List Nat) : Prop :=
  Passes s t i q.budget.toNat q (if t.ret = .done then .idle else .busy) ∧
    ∃ children, t.worklist = rest ++ children ++ (if t.ret = .more then [i] else [])

theorem execInterrupt_finished (hq : s.iqAt i = some q) (hc : q.cidx < q.cap) (hret : t.ret = .done ∨ t.ret = .more)
    (h : execInterrupt i s = .next t) : Finished s t i q s.worklist := by
  obtain ⟨q', u, r, hrun, rfl⟩ := runQe_onIq_serviced hq h hret
  split at hrun
  · cases hrun
  · split at hrun
    · cases hrun
    · split at hrun
      · cases hrun
        exact absurd hret (by rintro (h | h) <;> cases h)
      next x hx =>
        unfold enterService casIdle at hx
        split at hx
        · cases hx
          exact serviceAndFinish_passes (s := s.begin) hq hc hrun
        · cases hx

theorem execDeferredRun_finished {rest : List Nat} (hq : s.iqAt i = some q) (hc : q.cidx < q.cap)
    (hret : t.ret = .done ∨ t.ret = .more) (hw : s.worklist = i :: rest) (hb : q.state = .busy)
    (h : execDeferredRun s = .next t) : Finished s t i q rest := by
  obtain ⟨u, r, hrun, rfl⟩ := runQe_serviced h hret
  rw [show s.begin.worklist = i :: rest from hw] at hrun
  obtain ⟨q0, q', u', hq0, hf, rfl⟩ := onIq_ok hrun
  cases hq.symm.trans hq0
  rw [← setState_busy hb] at hf
  exact serviceAndFinish_passes (s := s.begin.setWorklist rest) hq hc hf

end Sys2Proof.Machine
end

section
/-! PROOFS. REFILL does not look at the ingress contexts in the state, except for the free lists that the device is told by; nor
at the worklist, or at what was raised before (40_free_list R180). -/

namespace Sys2Proof.Machine

variable {s t : State} {fl fl' : FreeList} {n k p : Nat}

/-! ## What stands beside -/

/-- What a state holds beside what REFILL looks at. -/
structure Beside where
  iq : List (Option IngressQueue)
  worklist : List Nat
  raised : List Exc

variable {x : Beside}

/-- The state with other things beside, what was raised coming after what `x` has raised. -/
def State.beside (s : State) (x : Beside) : State :=
  { s with iq := x.iq, worklist := x.worklist, raised := x.raised ++ s.raised }

/-- The ingress contexts hold the same free lists. -/
def SameLists (s : State) (x : Beside) : Prop := ∀ j, (s.beside x).flAt j = s.flAt j

theorem SameLists.of_iq (h : SameLists s x) (hiq : t.iq = s.iq) : SameLists t x := fun j => by
  have hj := h j
  have hflAt : t.flAt j = s.flAt j := by rw [State.flAt, State.iqAt, hiq]; rfl
  rw [hflAt, ← hj]
  rfl

/-! ## Doorbell words -/

theorem mem_listIndices {g : FreeList → Bool} (s : State) (j : Nat) :
    j ∈ indicesOf (fun q : IngressQueue => q.fl.any g) s.iq ↔ (s.flAt j).any g = true := by
  rw [indicesOf_mem, State.flAt, State.iqAt]
  cases (s.iq[j]?).join with
  | none => simp
  | some q => simp

/-- The doorbell's targets, the lists found through the contexts that hold them. -/
theorem doorbellTargets_lists (s : State) (qid : BitVec 16) : doorbellTargets s qid =
    (indicesOf (fun q : IngressQueue => q.fl.any fun fl => fl.live && fl.qid = qid) s.iq).map .fl ++
      (indicesOf (fun q : EgressQueue => q.live && q.qid = qid) s.eq).map .eq := by
  unfold doorbellTargets
  congr 3
  funext q
  cases q.fl <;> rfl

theorem doorbellTargets_beside (h : SameLists s x) (qid : BitVec 16) :
    doorbellTargets (s.beside x) qid = doorbellTargets s qid := by
  have hlists : indicesOf (fun q : IngressQueue => q.fl.any fun fl => fl.live && fl.qid = qid) (s.beside x).iq =
      indicesOf (fun q : IngressQueue => q.fl.any fun fl => fl.live && fl.qid = qid) s.iq :=
    (indicesOf_sorted _ _).eq_of_mem_iff (indicesOf_sorted _ _) fun j => by
      rw [mem_listIndices, mem_listIndices, h j]
  rw [doorbellTargets_lists, hlists, doorbellTargets_lists]
  rfl

theorem devAdvance_beside (h : SameLists s x) (r : QRef) (m : Nat) :
    devAdvance (s.beside x) r m = (devAdvance s r m).beside x := by
  cases r with
  | fl j =>
    have hd : (s.beside x).devFlAt j = s.devFlAt j := rfl
    simp only [devAdvance, h j, hd]
    cases s.flAt j <;> cases s.devFlAt j <;> rfl
  | eq j =>
    have he : (s.beside x).eqAt j = s.eqAt j := rfl
    have hd : (s.beside x).devEqAt j = s.devEqAt j := rfl
    simp only [devAdvance, he, hd]
    cases s.eqAt j <;> cases s.devEqAt j <;> rfl

theorem mmioWrite_beside (h : SameLists s x) {reg : MmioReg} (hreg : reg ≠ .icw) (v : BitVec 32) :
    mmioWrite (s.beside x) (.word reg v) = (mmioWrite s (.word reg v)).beside x := by
  have hlog : SameLists (s.logMmio (.word reg v)) x := h.of_iq rfl
  have hdb : doorbellTarget ((s.logMmio (.word reg v)).beside x) v = doorbellTarget (s.logMmio (.word reg v)) v := by
    rw [doorbellTarget, doorbellTargets_beside hlog, doorbellTarget]
  have hreact : devReact ((s.logMmio (.word reg v)).beside x) (.word reg v) =
      (devReact (s.logMmio (.word reg v)) (.word reg v)).map (·.beside x) := by
    cases reg with
    | icw => exact absurd rfl hreg
    | db =>
      simp only [devReact, hdb, devAdvance_beside hlog, Option.map_map]
      rfl
    | udb a =>
      simp only [devReact, hdb, devAdvance_beside hlog, Option.map_map]
      rfl
  show (devReact ((s.logMmio (.word reg v)).beside x) (.word reg v)).getD ((s.logMmio (.word reg v)).beside x) = _
  rw [hreact, mmioWrite]
  cases devReact (s.logMmio (.word reg v)) (.word reg v) <;> rfl

theorem ringDoorbell_beside (h : SameLists s x) {reg : MmioReg} (hreg : reg ≠ .icw) (qid : BitVec 16) (m : Nat) :
    ringDoorbell (s.beside x) reg qid m = (ringDoorbell s reg qid m).beside x := by
  unfold ringDoorbell
  show List.foldl _ _ (doorbellIncs (dbIncLimit s.cfg) m) = _
  induction doorbellIncs (dbIncLimit s.cfg) m generalizing s with
  | nil => rfl
  | cons k ks ih =>
    rw [List.foldl_cons, List.foldl_cons, mmioWrite_beside h hreg]
    exact ih (h.of_iq (mmioWrite_iq s _))

theorem notifyFl_beside (h : SameLists s x) (hrun : notifyFl fl s = .ok (fl', t)) :
    notifyFl fl (s.beside x) = .ok (fl', t.beside x) := by
  unfold notifyFl at *
  split at hrun
  · cases hrun
  next hd =>
    rw [if_neg hd]
    split at hrun
    next hp =>
      cases hrun
      rw [if_pos hp]
    next hp =>
      cases hrun
      rw [if_neg hp, ringDoorbell_beside h (doorbellReg_ne_icw _ _)]

theorem countPost_beside (h : SameLists s x) (hrun : countPost fl s = .ok (fl', t)) :
    countPost fl (s.beside x) = .ok (fl', t.beside x) := by
  rw [countPost] at *
  dsimp only at *
  split at hrun
  next hg =>
    rw [if_pos hg]
    split at hrun
    next h4 =>
      rw [if_pos h4]
      exact notifyFl_beside h hrun
    next h4 =>
      cases hrun
      rw [if_neg h4]
  next hg =>
    cases hrun
    rw [if_neg hg]

/-! ## The slots -/

theorem allocateFrom_beside (l : ClusterLayout) (s : State) :
    allocateFrom l (s.beside x) = ((allocateFrom l s).1, (allocateFrom l s).2.beside x) := by
  have hzone : zoneAlloc (s.beside x) l.zone (hasMeta s.cfg l) =
      ((zoneAlloc s l.zone (hasMeta s.cfg l)).1, (zoneAlloc s l.zone (hasMeta s.cfg l)).2.beside x) := by
    have henv : (s.beside x).env = s.env := rfl
    have hfresh : ∀ base, freshBuffer (s.beside x) ((s.beside x).cfg.zoneSizes.getD l.zone 0) base =
        freshBuffer s (s.cfg.zoneSizes.getD l.zone 0) base := fun _ => rfl
    simp only [zoneAlloc, henv, hfresh]
    cases (nextAnswer s.env.zone Config.zoneAnswer s.env.calls).1 with
    | none => rfl
    | some base =>
      dsimp only
      cases freshBuffer s (s.cfg.zoneSizes.getD l.zone 0) base <;> rfl
  rw [allocateFrom]
  exact congrArg (fun r : Option Nat × State =>
    (r.1.map fun h => ({ buf := some h, layout := l, nmbuf := 0 } : FreeListSlot), r.2)) hzone

theorem allocateInto_beside (fl : FreeList) (s : State) :
    allocateInto fl (s.beside x) = ((allocateInto fl s).1, (allocateInto fl s).2.beside x) := by
  unfold allocateInto
  rw [allocateFrom_beside]
  dsimp only
  cases (allocateFrom fl.cllDef s).1 with
  | some sd => rfl
  | none =>
    cases fl.cllSafe with
    | none => rfl
    | some l => exact allocateFrom_beside l _

theorem tryRecycle_beside {sd sd' : FreeListSlot} {h : Nat} {b : Bool} (hrun : tryRecycle sd h s = .ok (sd', t, b)) :
    tryRecycle sd h (s.beside x) = .ok (sd', t.beside x, b) := by
  unfold tryRecycle at *
  have hbuf : (s.beside x).bufferOf h = s.bufferOf h := rfl
  rw [hbuf]
  split at hrun
  next h0 =>
    cases hrun
    rw [if_pos h0]
  next h0 =>
    rw [if_neg h0]
    split at hrun
    · cases hrun
    next b hb =>
      split at hrun
      · cases hrun
      next hr0 =>
        rw [if_neg hr0]
        split at hrun
        next h1 =>
          cases hrun
          rw [if_pos h1]
          rfl
        next h1 =>
          cases hrun
          rw [if_neg h1]
          rfl

theorem readySlot_beside {r : Option FreeListSlot} {sd : FreeListSlot} (hrun : readySlot fl s = .ok (r, sd, t)) :
    readySlot fl (s.beside x) = .ok (r, sd, t.beside x) := by
  unfold readySlot at *
  dsimp only at *
  cases hb : (slotAt fl fl.pidx.toNat).buf with
  | none =>
    rw [hb] at hrun
    cases hrun
    dsimp only
    rw [allocateInto_beside]
  | some h =>
    rw [hb] at hrun
    obtain ⟨⟨sd1, s1, reused⟩, htry, hrun⟩ := Res.bind_eq_ok.mp hrun
    dsimp only at *
    rw [tryRecycle_beside htry, Res.bind_ok]
    dsimp only
    split at hrun
    next hre =>
      cases hrun
      rw [if_pos hre]
      rfl
    next hre =>
      cases hrun
      rw [if_neg hre, allocateInto_beside]
      rfl

theorem postEntry_beside {sd : FreeListSlot} (hrun : postEntry fl sd s = .ok t) :
    postEntry fl sd (s.beside x) = .ok (t.beside x) := by
  unfold postEntry ringWrite at *
  have hbuf : sd.buf.bind (s.beside x).bufferOf = sd.buf.bind s.bufferOf := rfl
  rw [hbuf]
  split at hrun
  · cases hrun
  next b hb =>
    split at hrun
    next hin =>
      cases hrun
      exact if_pos hin
    · cases hrun

/-! ## REFILL -/

theorem refillLoop_beside (h : SameLists s x) (hrun : refillLoop n fl s k = .ok (fl', t, p)) :
    refillLoop n fl (s.beside x) k = .ok (fl', t.beside x, p) := by
  induction n generalizing fl s k with
  | zero => cases hrun; rfl
  | succ n ih =>
    rw [refillLoop] at *
    split at hrun
    next hfull =>
      cases hrun
      rw [if_pos hfull]
    next hfull =>
      obtain ⟨⟨r, sd, s1⟩, hready, hrun⟩ := Res.bind_eq_ok.mp hrun
      obtain ⟨a, e, rfl⟩ := readySlot_ok hready
      rw [if_neg hfull, readySlot_beside hready, Res.bind_ok]
      dsimp only at *
      cases r with
      | none =>
        cases hrun
        simp only [State.beside, State.raise, List.append_assoc]
        rfl
      | some sd' =>
        obtain ⟨s2, hpost, hrun⟩ := Res.bind_eq_ok.mp hrun
        obtain ⟨m, rfl, -⟩ := postEntry_ok hpost
        obtain ⟨⟨fl3, s3⟩, hcount, hrun⟩ := Res.bind_eq_ok.mp hrun
        obtain ⟨hiq, -⟩ := countPost_doorbells hcount
        dsimp only at *
        rw [postEntry_beside hpost, Res.bind_ok,
          countPost_beside (s := { s with arena := a, env := e, ring := m }) (h.of_iq rfl) hcount, Res.bind_ok]
        exact ih (h.of_iq hiq) hrun

theorem refill_beside {st : Bool} (h : SameLists s x) (hrun : refill n fl s = .ok (fl', t, p, st)) :
    refill n fl (s.beside x) = .ok (fl', t.beside x, p, st) := by
  rw [refill] at *
  split at hrun
  · cases hrun
  next hd =>
    obtain ⟨⟨fl1, s1, p1⟩, hloop, hrun⟩ := Res.bind_eq_ok.mp hrun
    obtain ⟨⟨fl2, s2⟩, hnot, hrun⟩ := Res.bind_eq_ok.mp hrun
    cases hrun
    rw [if_neg hd, refillLoop_beside h hloop, Res.bind_ok]
    dsimp only at *
    rw [notifyFl_beside (h.of_iq (refillLoop_doorbells hloop).1) hnot]
    rfl

/-! ## A list that is not doomed is not refused -/

theorem notifyFl_unrefused (hd : fl.doomed = false) : Unrefused (notifyFl fl s) := by
  rw [notifyFl_eq hd]
  exact Unrefused.ok _

theorem readySlot_unrefused : Unrefused (readySlot fl s) := by
  unfold readySlot
  dsimp only
  split
  · refine Unrefused.bind ?_ fun r => ?_
    · unfold tryRecycle
      split
      · exact Unrefused.ok _
      · split
        · exact Unrefused.ringInvariant
        · split
          · exact Unrefused.ringInvariant
          · split <;> exact Unrefused.ok _
    · split <;> exact Unrefused.ok _
  · exact Unrefused.ok _

theorem postEntry_unrefused {sd : FreeListSlot} : Unrefused (postEntry fl sd s) := by
  unfold postEntry
  split
  · exact Unrefused.ringInvariant
  · exact ringWrite_unrefused _ _ _

theorem refillLoop_unrefused (hd : fl.doomed = false) : Unrefused (refillLoop n fl s k) := by
  induction n generalizing fl s k with
  | zero => exact Unrefused.ok _
  | succ n ih =>
    rw [refillLoop]
    split
    · exact Unrefused.ok _
    · refine readySlot_unrefused.bind fun r => ?_
      dsimp only
      split
      · exact Unrefused.ok _
      · refine postEntry_unrefused.bind fun u => ?_
        rw [countPost_eq (fl := setSlot fl fl.pidx.toNat r.2.1) hd, Res.bind_ok]
        obtain ⟨pe, g, hpost⟩ := afterPost_eq (setSlot fl fl.pidx.toNat r.2.1)
        exact ih (by rw [hpost]; exact hd)

theorem refill_unrefused (hd : fl.doomed = false) : Unrefused (refill n fl s) := by
  rw [refill, hd, if_neg Bool.false_ne_true]
  refine (refillLoop_unrefused hd).bind_ok fun r hr => ?_
  obtain ⟨-, -, -, ⟨_, _, _, _, hfl, -⟩, -⟩ := refillLoop_ok hr
  refine (notifyFl_unrefused ?_).bind fun _ => Unrefused.ok _
  rw [hfl]
  exact hd

end Sys2Proof.Machine
end

section
/-! PROOFS. The end of a service call: the frames flushed, and a low list refilled as by a REFILL (42_ingress_service R258 to
R262). -/

namespace Sys2Proof.Machine

variable {s t u : State} {i n : Nat} {q : IngressQueue} {fl : FreeList} {r : Ret} {es : List Exc} {j : Instr}

/-! ## Frames accumulated -/

/-- The queue once the frames accumulated are flushed (42_ingress_service R260). -/
def flushed (q : IngressQueue) : IngressQueue := if lroDue q then { q with lroPending := 0 } else q

/-- The event of the flush. -/
def flushEvents (q : IngressQueue) : List Event := if lroDue q then [.lroFlush q.qid] else []

theorem lroFlush_eq (q : IngressQueue) (s : State) :
    lroFlush q s = (flushed q, { s with out := s.out ++ flushEvents q }) := by
  unfold lroFlush flushed flushEvents
  split
  · rfl
  · rw [List.append_nil]

theorem flushed_fl (q : IngressQueue) : (flushed q).fl = q.fl := by
  unfold flushed
  split <;> rfl

/-- The state of the queue plays no part in the flush. -/
theorem flushed_state (q : IngressQueue) (st : IqState) :
    flushed { q with state := st } = { flushed q with state := st } := by
  have hdue : lroDue { q with state := st } = lroDue q := rfl
  unfold flushed
  rw [hdue]
  split <;> rfl

/-- The state that a service leaves but for its refill, `u` being what its credit word leaves. -/
def afterFlush (s u : State) (i : Nat) (q : IngressQueue) : State :=
  { u with iq := s.iq.set i (some (flushed q)), out := u.out ++ flushEvents q }

/-- The same state, by the queue's two registers. -/
def leftBy (s u : State) (i : Nat) (q : IngressQueue) : State :=
  if q.lro = true ∧ q.lroPending ≠ 0 then
    { u with iq := s.iq.set i (some { q with lroPending := 0 }), out := u.out ++ [.lroFlush q.qid] }
  else { u with iq := s.iq.set i (some q) }

theorem leftBy_eq (s u : State) (i : Nat) (q : IngressQueue) : leftBy s u i q = afterFlush s u i q := by
  have hdue : lroDue q = true ↔ q.lro = true ∧ q.lroPending ≠ 0 := by
    rw [lroDue, Bool.and_eq_true, decide_eq_true_iff]
  unfold leftBy afterFlush flushed flushEvents
  by_cases h : q.lro = true ∧ q.lroPending ≠ 0
  · rw [if_pos h, if_pos (hdue.mpr h), if_pos (hdue.mpr h)]
  · rw [if_neg h, if_neg (mt hdue.mp h), if_neg (mt hdue.mp h), List.append_nil]

/-! ## A REFILL that completes -/

/-- What a REFILL of a list that is not doomed did, when it did not panic. -/
theorem execRefill_next (hq : s.iqAt i = some q) (hfl : q.fl = some fl) (hd : fl.doomed = false) (hn : n ≤ 65535)
    (ht : t.panic = false) (h : execRefill i n s = .next t) : ∃ fl' v p st, refill n fl s.begin = .ok (fl', v, p, st) ∧
      t = ({ v with starving := v.starving ++ if st then [i] else [] }.setIq i
        { q with fl := some { fl' with starving := fl'.starving || st } }).answer (.refilled p st) := by
  have hbody := onFl_eq (s := s.begin) hq hfl (f := fun fl => do
    if fl.doomed then refuseDoomed
    else if refillMax < n then refuseBadarg
    else
      let (fl, s, posted, starving) ← refill n fl s.begin
      let (fl, s) := registerStarving i starving fl s
      return (fl, s, .refilled posted starving))
  rw [if_neg (Bool.eq_false_iff.mp hd), if_neg (show ¬ refillMax < n from Nat.not_lt.mpr hn)] at hbody
  obtain ⟨-, ⟨w, r, hok, rfl⟩ | ⟨e, hrefuse, -⟩ | ⟨-, rfl⟩⟩ := runQe_next h
  · obtain ⟨⟨fl1, w1, r1⟩, hrun, hw⟩ := Res.bind_eq_ok.mp (hbody.symm.trans hok)
    obtain ⟨⟨fl', v, p, st⟩, hrefill, hrun⟩ := Res.bind_eq_ok.mp hrun
    dsimp only at hrun
    rw [registerStarving_eq] at hrun
    cases hrun
    cases hw
    exact ⟨fl', v, p, st, hrefill, rfl⟩
  · have hrun := (refill_unrefused (s := s.begin) (n := n) hd).bind fun x =>
      Unrefused.ok ((registerStarving i x.2.2.2 x.1 x.2.1).1, (registerStarving i x.2.2.2 x.1 x.2.1).2,
        Ret.refilled x.2.2.1 x.2.2.2)
    exact absurd (hbody.symm.trans hrefuse) (hrun.bind (fun _ => Unrefused.ok _) e)
  · cases ht

theorem freeSlots_le (fl : FreeList) : freeSlots fl ≤ 65535 := by
  have hcap := fl.cap.isLt
  rw [freeSlots]
  omega

/-! ## The end of the call -/

theorem endService_unrefilled {done : Bool} (h : ∀ fl, q.fl = some fl → needsRefill fl = false) :
    endService i done q s = .ok (flushed q, { s with out := s.out ++ flushEvents q }, done) := by
  rw [endService, lroFlush_eq]
  dsimp only
  rw [refillIfLow, flushed_fl]
  cases hfl : q.fl with
  | none => rfl
  | some fl =>
    dsimp only
    rw [h fl hfl]
    rfl

theorem endService_refilled {done st : Bool} {p : Nat} {fl' : FreeList} (hfl : q.fl = some fl) (hneeds : needsRefill fl = true)
    (h : refill (min (freeSlots fl) s.cfg.serviceRefillMax) fl { s with out := s.out ++ flushEvents q } = .ok (fl', t, p, st)) :
    endService i done q s = .ok ({ flushed q with fl := some { fl' with starving := fl'.starving || st } },
      { t with starving := t.starving ++ if st then [i] else [] }, done) := by
  rw [endService, lroFlush_eq]
  dsimp only
  rw [refillIfLow, flushed_fl, hfl]
  dsimp only
  rw [if_pos hneeds, h, Res.bind_ok]
  dsimp only
  rw [registerStarving_eq]
  rfl

theorem needsRefill_iff : needsRefill fl = true ↔ fl.doomed = false ∧ occ fl < fl.refillThresh.toNat := by
  rw [needsRefill, Bool.and_eq_true, Bool.not_eq_true', decide_eq_true_iff]

/-- Command `j` ends as its service of `q` does once `u` is left: flushed, and refilled as by a REFILL (42_ingress_service R260,
R261). -/
def Returns (j : Instr) (s u : State) (i : Nat) (q : IngressQueue) (r : Ret) (es : List Exc) : Prop :=
  ((∀ fl, q.fl = some fl → fl.doomed = true ∨ fl.refillThresh.toNat ≤ occ fl) →
    exec j s = .next { leftBy s u i q with ret := r, raised := es }) ∧
  ∀ fl t, q.fl = some fl → fl.doomed = false → occ fl < fl.refillThresh.toNat → t.panic = false →
    exec (.refill i (min (freeSlots fl) s.cfg.serviceRefillMax)) (leftBy s u i q) = .next t →
    exec j s = .next { t with ret := r, raised := es ++ t.raised }

/-- What stands beside REFILL in the service, and not after it. -/
def serving (s : State) (wl : List Nat) (es : List Exc) : Beside := ⟨s.iq, wl, es⟩

/-- The state in which the service of the queue ends, after its credit word. -/
def afterCredit (s u : State) (wl : List Nat) (es : List Exc) : State :=
  { u with iq := s.iq, worklist := wl, ret := .none, raised := es }

theorem afterFlush_beside (s u : State) (wl : List Nat) (es : List Exc) :
    (afterFlush s u i q).begin.beside (serving s wl es) =
      { afterCredit s u wl es with out := (afterCredit s u wl es).out ++ flushEvents q } := by
  have hraised : es ++ (afterFlush s u i q).begin.raised = es := List.append_nil es
  rw [State.beside, serving, hraised]
  rfl

theorem afterFlush_sameLists {w : IngressQueue} {wl : List Nat} (hw : s.iqAt i = some w) (hfl : w.fl = q.fl) :
    SameLists (afterFlush s u i q).begin (serving s wl es) := fun k => by
  show ((s.iq[k]?).join).bind (·.fl) = (((s.iq.set i (some (flushed q)))[k]?).join).bind (·.fl)
  by_cases hk : i = k
  · subst hk
    have hset : ((s.iq.set i (some (flushed q)))[i]?).join = some (flushed q) := State.setIq_iqAt_same s i (flushed q) w hw
    rw [hset, show (s.iq[i]?).join = some w from hw, Option.bind_some, Option.bind_some, hfl, flushed_fl]
  · rw [List.getElem?_set_ne hk]

/-- A command that ends its service in the state after the credit word, writes the queue back and answers. -/
theorem returns_of_end {w : IngressQueue} {done : Bool} {wl : List Nat} {st : IqState} (hw : s.iqAt i = some w)
    (hfl : w.fl = q.fl) (hcfg : u.cfg = s.cfg) (hend : ∀ x t,
      endService i done { q with state := st } (afterCredit s u wl es) = .ok (x, t, done) → t.worklist = wl →
      exec j s = .next (({ t with worklist := u.worklist }.setIq i { x with state := q.state }).answer r)) :
    Returns j s u i q r es := by
  have hstate : ({ flushed q with state := q.state } : IngressQueue) = flushed q := by
    unfold flushed
    split <;> rfl
  have hx : ({ flushed { q with state := st } with state := q.state } : IngressQueue) = flushed q := by
    rw [flushed_state]
    exact hstate
  rw [Returns, leftBy_eq]
  refine ⟨fun hno => ?_, fun fl t hqfl hd hlow ht hrefill => ?_⟩
  · refine (hend _ _ (endService_unrefilled fun fl hqfl => ?_) rfl).trans ?_
    · refine Bool.eq_false_iff.mpr fun hneeds => ?_
      obtain ⟨hd, hlow⟩ := needsRefill_iff.mp hneeds
      obtain hdoomed | hfull := hno fl hqfl
      · rw [hd] at hdoomed
        cases hdoomed
      · omega
    · rw [hx]
      rfl
  · have hstored : (afterFlush s u i q).iqAt i = some (flushed q) := State.setIq_iqAt_same s i (flushed q) w hw
    have hn : min (freeSlots fl) s.cfg.serviceRefillMax ≤ 65535 := (Nat.min_le_left _ _).trans (freeSlots_le fl)
    obtain ⟨fl', v, p, starving, hrun, rfl⟩ := execRefill_next hstored ((flushed_fl q).trans hqfl) hd hn ht hrefill
    obtain ⟨-, -, -, -, -, a, e, m, ws, df, di, de, es', hv, -⟩ := refill_ok hrun
    have hserve := refill_beside (afterFlush_sameLists (wl := wl) (es := es) hw hfl) hrun
    rw [afterFlush_beside] at hserve
    have hcall := endService_refilled (i := i) (q := { q with state := st }) (s := afterCredit s u wl es) (done := done) hqfl
      (needsRefill_iff.mpr ⟨hd, hlow⟩)
      ((congrArg (fun c : Cfg => refill (min (freeSlots fl) c.serviceRefillMax) fl _) hcfg).trans hserve)
    refine (hend _ _ hcall rfl).trans ?_
    have hback : ({ { flushed { q with state := st } with fl := some { fl' with starving := fl'.starving || starving } } with
        state := q.state } : IngressQueue) = { flushed q with fl := some { fl' with starving := fl'.starving || starving } } :=
      congrArg (fun x : IngressQueue =>
        ({ x with fl := some { fl' with starving := fl'.starving || starving } } : IngressQueue)) hx
    have hset : ∀ y : IngressQueue, v.iq.set i (some y) = s.iq.set i (some y) := fun y => by
      rw [hv]
      exact List.set_set _
    have hwl : v.worklist = u.worklist := by
      rw [hv]
      rfl
    rw [hback]
    simp only [State.setIq, State.answer, State.beside, serving, hset, hwl]

/-! ## The commands -/

variable {w x : IngressQueue} {wl : List Nat} {done : Bool}

theorem endService_state (h : endService i done q s = .ok (x, t, done)) : x.state = q.state := by
  obtain ⟨⟨hsame, -⟩, -⟩ := endService_ok h
  rw [hsame]

theorem serviceAndFinish_end (h : service i w.budget.toNat w s = .ok (x, t, done)) (hx : x.state = .busy) :
    serviceAndFinish i w s = .ok ({ x with state := if done then .idle else .busy },
      { t with worklist := t.worklist ++ if done then [] else [i] }, serviceRet done) := by
  rw [serviceAndFinish, h, Res.bind_ok]
  dsimp only
  rw [finishService_eq, hx]
  rfl

/-- The context of a queue whose service ended, in state `st`. -/
theorem returns_of_finish (hw : s.iqAt i = some w) (hfl : w.fl = q.fl) (hcfg : u.cfg = s.cfg)
    (hq : q.state = if done then .idle else .busy) (hu : u.worklist = wl ++ if done then [] else [i])
    (h : ∀ y v, serviceAndFinish i { w with state := .busy } (s.begin.setWorklist wl) = .ok (y, v, serviceRet done) →
      exec j s = .next ((v.setIq i y).answer (serviceRet done)))
    (hserve : service i w.budget.toNat { w with state := .busy } (s.begin.setWorklist wl) =
      endService i done { q with state := .busy } (afterCredit s u wl es)) : Returns j s u i q (serviceRet done) es := by
  refine returns_of_end (done := done) (wl := wl) (st := .busy) hw hfl hcfg fun x t hend ht => ?_
  have hrun := h _ _ (serviceAndFinish_end (w := { w with state := .busy }) (hserve.trans hend) (endService_state hend))
  rw [hrun, hq, hu, ht]

theorem returns_interrupt (hp : s.panic = false) (hw : s.iqAt i = some w) (hidle : w.state = .idle)
    (hrole : w.role ≠ .forwarded) (hfl : w.fl = q.fl) (hcfg : u.cfg = s.cfg) (hq : q.state = if done then .idle else .busy)
    (hu : u.worklist = s.worklist ++ if done then [] else [i])
    (hserve : service i w.budget.toNat { w with state := .busy } s.begin =
      endService i done { q with state := .busy } (afterCredit s u s.worklist es)) :
    Returns (.interrupt i) s u i q (serviceRet done) es :=
  returns_of_finish hw hfl hcfg hq hu (fun _ _ hrun => execInterrupt_idle hp hw hidle hrole hrun) hserve

theorem returns_deferredRun {rest : List Nat} (hp : s.panic = false) (hw : s.iqAt i = some w) (hbusy : w.state = .busy)
    (hl : s.worklist = i :: rest) (hfl : w.fl = q.fl) (hcfg : u.cfg = s.cfg) (hq : q.state = if done then .idle else .busy)
    (hu : u.worklist = rest ++ if done then [] else [i])
    (hserve : service i w.budget.toNat { w with state := .busy } (s.begin.setWorklist rest) =
      endService i done { q with state := .busy } (afterCredit s u rest es)) :
    Returns .deferredRun s u i q (serviceRet done) es :=
  returns_of_finish hw hfl hcfg hq hu (fun _ _ hrun => execDeferredRun_head hp hl hw (setState_busy hbusy ▸ hrun)) hserve

theorem returns_service {b : BitVec 16} (hp : s.panic = false) (hw : s.iqAt i = some w) (hbusy : w.state = .busy) (hb : b ≠ 0)
    (hfl : w.fl = q.fl) (hcfg : u.cfg = s.cfg) (hq : q.state = .busy) (hu : u.worklist = s.worklist)
    (hserve : service i b.toNat w s.begin = endService i done q (afterCredit s u s.worklist es)) :
    Returns (.service i b) s u i q (serviceRet done) es := by
  rw [← setState_busy hq] at hserve
  refine returns_of_end (done := done) (wl := s.worklist) (st := .busy) hw hfl hcfg fun x t hend ht => ?_
  refine (execService_busy hp hw hbusy hb (hserve.trans hend)).trans ?_
  have hx : ({ x with state := .busy } : IngressQueue) = x := setState_busy (endService_state hend)
  rw [hq, hu, ← ht, hx]

/-! ## What a credit word leaves -/

/-- The state after a credit word in a command that began with the worklist `wl` and has raised `es`. -/
theorem mmioWrite_afterCredit (s : State) (o : List Event) (w : MmioWrite) (wl left : List Nat) (es : List Exc) :
    mmioWrite { s with out := o, worklist := wl, ret := .none, raised := es } w =
      afterCredit s { mmioWrite { s with out := o } w with worklist := left } wl es := by
  have hbegin := mmioWrite_answered (State.setWorklist { s with out := o } wl) w .none es
  rw [mmioWrite_setWorklist] at hbegin
  refine hbegin.trans ?_
  simp only [State.setWorklist, afterCredit, mmioWrite_iq]

theorem mmioWrite_cfg (s : State) (w : MmioWrite) : (mmioWrite s w).cfg = s.cfg := by
  obtain ⟨_, _, _, hs⟩ := mmioWrite_state s w
  rw [hs]

/-- The service of an empty ring. -/
theorem service_empty {b : Nat} (hb : b ≠ 0) (hm : q.mapped = true) (hc : q.cidx < q.cap) (he : ringEmptyAt s q = true)
    (st : IqState) (wl left : List Nat) :
    service i b { q with state := st } (s.begin.setWorklist wl) = endService i true { q with state := st }
      (afterCredit s { mmioWrite s (rearm q 0) with worklist := left } wl []) := by
  obtain ⟨b, rfl⟩ := Nat.exists_eq_succ_of_ne_zero hb
  rw [service, serviceLoop_empty (s := s.begin.setWorklist wl) (q := { q with state := st }) hm hc he, ringEmpty]
  exact congrArg _ (mmioWrite_afterCredit s s.out (rearm q 0) wl left [])

/-- The credit word of one entry that used up the budget (42_ingress_service R258). -/
def budgetWord (q : IngressQueue) : MmioWrite := .word .icw (q.qid ++ (7 : BitVec 3) ++ (0 : BitVec 1) ++ (1 : BitVec 16))

/-- The state after a violation was logged and its credit returned. -/
def reported (s : State) (q : IngressQueue) (p : Flit × Flit) : State :=
  mmioWrite { s with out := s.out ++ [.log .protoOpcode q.qid q.cidx p.1 p.2] } (budgetWord q)

theorem dispatchTyped_encodeReserved (fwd : FwdArm) (e : ReservedEntry) :
    dispatchTyped fwd (encodeReserved e).1 (encodeReserved e).2 q s =
      .ok (true, violation q s (encodeReserved e).1 (encodeReserved e).2) := by
  rw [dispatchTyped, decodeEntry_encodeReserved]

/-- The service of one entry of a reserved type, with a budget of 1. -/
theorem service_reserved {e : ReservedEntry} (hm : q.mapped = true) (hc : q.cidx < q.cap) (hg : e.footer.gen = q.gen)
    (hn : (q.qid, encodeReserved e) ∉ s.cfg.genCheck)
    (h0 : s.ring.flit (q.base.toNat + 16 * q.cidx.toNat) = (encodeReserved e).1)
    (h1 : s.ring.flit (q.base.toNat + 16 * q.cidx.toNat + 8) = (encodeReserved e).2) (wl left : List Nat) :
    service i 1 { q with state := .busy } (s.begin.setWorklist wl) =
      endService i false { passed q with protoErrors := q.protoErrors + 1, state := .busy }
        (afterCredit s { reported s q (encodeReserved e) with worklist := left } wl [.protoOpcode]) := by
  have hadv : advanceCursor { q with state := .busy, protoErrors := q.protoErrors + 1 } =
      { passed q with protoErrors := q.protoErrors + 1, state := .busy } := advanceCursor_eq hc
  have htyped : dispatchTyped (dispatchFwd 1) (encodeReserved e).1 (encodeReserved e).2 { q with state := .busy }
      (s.begin.setWorklist wl) = .ok (true, { q with state := .busy, protoErrors := q.protoErrors + 1 },
        { s with
          out := s.out ++ [.log .protoOpcode q.qid q.cidx (encodeReserved e).1 (encodeReserved e).2]
          worklist := wl, ret := .none, raised := [.protoOpcode] }) := dispatchTyped_encodeReserved (dispatchFwd 1) e
  have hloop := serviceLoop_passes (i := i) (b := 0) (nd := 0) (s := s.begin.setWorklist wl)
    (q := { q with state := .busy }) hm hc h0 h1 ((footerGen_encodeReserved e).trans hg) hn htyped
  refine hloop.trans ?_
  rw [hadv, serviceLoop, budgetExit]
  exact congrArg _ (mmioWrite_afterCredit s _ (budgetWord q) wl left [.protoOpcode])

end Sys2Proof.Machine

namespace Sys2Proof
open Machine

/-- Settles O39: the credit words of a service call, counted through its loop, and its end, whose refill is a REFILL's. -/
theorem serviceBounded : Obligations.ServiceBounded := by
  refine ⟨fun s t i b q hq hc hret => ⟨execService_passes hq hc hret, execInterrupt_finished hq hc hret,
    fun rest hw hb => execDeferredRun_finished hq hc hret hw hb⟩, fun s i q b hp hq hc hm he => ?_,
    fun s i q e hp hq hbud hc hm hg hn h0 h1 => ?_⟩
  · intro left
    have hcfg : ∀ l, (left l).cfg = s.cfg := fun _ => mmioWrite_cfg s _
    have hserve := fun {b : BitVec 16} (hb : b ≠ 0) => service_empty (i := i) (budget_toNat_ne hb) hm hc he
    refine ⟨fun hidle hrole hb => ?_, fun hbusy hb => ?_, fun rest hbusy hb hl => ?_⟩
    · exact returns_interrupt (done := true) hp hq hidle hrole rfl (hcfg _) hidle (List.append_nil _).symm
        (hserve hb .busy s.worklist s.worklist)
    · have hrun := hserve hb .busy s.worklist s.worklist
      rw [setState_busy hbusy] at hrun
      exact returns_service (done := true) hp hq hbusy hb rfl (hcfg _) hbusy rfl hrun
    · exact returns_deferredRun (done := true) hp hq hbusy hl rfl (hcfg _) rfl (List.append_nil _).symm
        (hserve hb .busy rest rest)
  · intro left q'
    have hcfg : ∀ l, (left l).cfg = s.cfg := fun _ => mmioWrite_cfg _ _
    have hone : q.budget.toNat = 1 := by rw [hbud]; rfl
    have hserve := service_reserved (i := i) hm hc hg hn h0 h1
    refine ⟨fun hidle hrole => ?_, fun hbusy => ?_, fun rest hbusy hl => ?_⟩
    · exact returns_interrupt (done := false) hp hq hidle hrole rfl (hcfg _) rfl rfl
        ((congrArg (service i · _ _) hone).trans (hserve _ _))
    · have hrun := hserve s.worklist s.worklist
      rw [setState_busy hbusy] at hrun
      exact returns_service (done := false) hp hq hbusy (by decide) rfl (hcfg _) rfl rfl hrun
    · exact returns_deferredRun (done := false) hp hq hbusy hl rfl (hcfg _) rfl rfl
        ((congrArg (service i · _ _) hone).trans (hserve _ _))

end Sys2Proof
end
